-- ==== Sys2Proof/Word.lean ====
section
/-! DEFINITION. The word types of the 80386 and the names of its operand widths. -/

namespace Sys2Proof

/-- Eight bits (R92). -/
abbrev Byte := BitVec 8
/-- Sixteen bits, a "word" of the manual (R92). -/
abbrev Word := BitVec 16
/-- Thirty-two bits, a "doubleword" (R92). -/
abbrev Dword := BitVec 32

/-- The three operand widths (R96): one, two or four bytes. -/
inductive Width where
  | b8 | w16 | d32
deriving DecidableEq, Repr, Inhabited

/-- Width in bits. -/
abbrev Width.bits : Width → Nat
  | .b8 => 8
  | .w16 => 16
  | .d32 => 32

/-- Width in bytes. -/
def Width.bytes : Width → Nat
  | .b8 => 1
  | .w16 => 2
  | .d32 => 4

end Sys2Proof
end

