-- ==== Sys2Proof/Config.lean ====
section
/-! DEFINITION. What an implementation fixes (the parameters of R7) and the free values: constants without a
body, of which nothing can be proved but their type. -/

namespace Sys2Proof.Config

/-- The free values (log 7): value number `k` drawn by the machine. The counter `State.free` says which is next. -/
opaque freeBits : Nat → Dword

/-- What a byte port answers to `IORead` number `k` where the outside world has placed nothing (R301, D5; log 9). -/
opaque ioNothing : Nat → Word → Byte

/-- What a memory-mapped device answers at a physical address to device access number `k` where the outside world has
placed nothing (R116, R303, D4; log 52). -/
opaque deviceByte : Nat → Nat → Byte

/-- `EXT_ON_EXCEPTION` (R822, D61; log 13). -/
opaque extOnException : Bool

/-- `ESC_TESTS_ERROR`: does this 11-bit coprocessor opcode test ERROR#? (R995, D84; log 14). -/
opaque escTestsError : BitVec 11 → Bool

/-- `V86_LOCK_IOPL_SENSITIVE` (R975, D80): false, the value the spec gives (log 18). -/
def v86LockIoplSensitive : Bool := false

/-- What a byte of RAM or ROM that nothing has written reads as. DESIGN CHOICE 0 (log 8). -/
def unlistedByte : Byte := 0

end Sys2Proof.Config
end

