-- ==== Sys2Proof/Machine/State.lean ====
section
/-! DEFINITION. The state of the machine, all of it plain data: every piece of state spec/10_state.md gives the
80386, its physical memory, the inputs and outputs at its pins, and the model's own four fields; the state after
RESET (R70); the reasons a step may stop. -/

namespace Sys2Proof.Machine

/-- The eight general registers (R10). -/
structure Regs where
  eax : Dword
  ecx : Dword
  edx : Dword
  ebx : Dword
  esp : Dword
  ebp : Dword
  esi : Dword
  edi : Dword
deriving DecidableEq, Repr, Inhabited

/-- A segment register: the visible selector and the hidden part (R33, R34). `limit` is already scaled. -/
structure SegReg where
  sel : Word
  base : Dword
  limit : Dword
  /-- bit 3 executable; bit 2 expand-down (data) or conforming (code); bit 1 writable or readable; bit 0 accessed -/
  typ : BitVec 4
  s : Bool
  dpl : BitVec 2
  p : Bool
  db : Bool
  g : Bool
  /-- false after a null selector was loaded in protected mode: any access through it faults -/
  valid : Bool
deriving DecidableEq, Repr, Inhabited

/-- GDTR or IDTR (R36, R37). -/
structure TableReg where
  base : Dword
  limit : Word
deriving DecidableEq, Repr, Inhabited

/-- LDTR (R38). -/
structure LdtReg where
  sel : Word
  base : Dword
  limit : Dword
  valid : Bool
deriving DecidableEq, Repr, Inhabited

/-- TR (R39). `is386` is the kind of the TSS: an 80386 TSS (type 9 or B) or an 80286 one (1 or 3). -/
structure TaskReg where
  sel : Word
  base : Dword
  limit : Dword
  is386 : Bool
deriving DecidableEq, Repr, Inhabited

/-- One entry of the translation lookaside buffer (R250). -/
structure TlbEntry where
  lin : BitVec 20
  v : Bool
  d : Bool
  u : Bool
  w : Bool
  phys : BitVec 20
deriving DecidableEq, Repr, Inhabited

/-- The run state (R65). -/
inductive RunState where
  | running | halted | shutdown
deriving DecidableEq, Repr, Inhabited

/-- Which coprocessor is attached (R990, parameter `COPROCESSOR`). -/
inductive Coproc where
  | none | i287 | i387
deriving DecidableEq, Repr, Inhabited

/-- What an ESC opcode makes the coprocessor ask for in memory (R990): nothing, `n` bytes read from the operand, or
bytes written to it. -/
inductive CoprocTransfer where
  | none
  | load (n : Nat)
  | store (bytes : List Byte)
deriving DecidableEq, Repr, Inhabited

/-- One reply of the host operation `CoprocExec` (R990). -/
structure CoprocReply where
  transfer : CoprocTransfer
  ax : Option Word
  busy : Bool
  error : Bool
deriving DecidableEq, Repr, Inhabited

/-- What one ESC instruction handed over (R990): the 11 opcode bits, the operand's segment selector and offset, the
operand size and address size in bits, and the operand bytes read for it. -/
structure CoprocSent where
  opcode : BitVec 11
  operand : Option (Word × Dword)
  opsize : Nat
  addrsize : Nat
  loaded : List Byte
deriving DecidableEq, Repr, Inhabited

/-- One `IORead` or `IOWrite` (R301): its bus accesses in order, each the byte ports it touches with their bytes, the lowest
first (R300, D36). -/
structure IoOp where
  write : Bool
  transfers : List (List (Word × Byte))
deriving DecidableEq, Repr, Inhabited

/-- One access to memory-mapped devices (R116, R303): its bus transfers in order, each the physical addresses of one
doubleword that it touches with their bytes (R93, R113; log 52). -/
structure DeviceOp where
  write : Bool
  transfers : List (List (Nat × Byte))
deriving DecidableEq, Repr, Inhabited

/-- What answers at a physical address (parameter `PHYS_MEM` of R7, D4). -/
inductive MemKind where
  | ram | rom | device | nothing
deriving DecidableEq, Repr, Inhabited

/-- A region of the physical address space: `size` addresses from `base` on. -/
structure Region where
  base : Nat
  size : Nat
  kind : MemKind
deriving DecidableEq, Repr, Inhabited

/-- The self-test at the end of RESET (parameter `SELF_TEST` of R7, D3). -/
inductive SelfTest where
  | notRequested | passed
  | failed (v : Dword)
deriving DecidableEq, Repr, Inhabited

/-- The parameters of R7 that the chip and the board fix: `STEPPING_ID`, `SELF_TEST` and `PHYS_MEM`. An address in no region
of `physMem` holds RAM (log 8). No step changes them. -/
structure Platform where
  stepping : Byte
  selfTest : SelfTest
  physMem : List Region
deriving DecidableEq, Repr, Inhabited

/-- Physical memory (R90): the bytes that differ from `Config.unlistedByte`, by strictly rising physical address. -/
abbrev Memory := List Host.Cell

/-- The whole machine. -/
structure State where
  /-- the general registers (R10) -/
  regs : Regs
  /-- the instruction pointer: the offset of the instruction about to be executed (R14) -/
  eip : Dword
  /-- EFLAGS (R16) -/
  eflags : Dword
  es : SegReg
  cs : SegReg
  ss : SegReg
  ds : SegReg
  fs : SegReg
  gs : SegReg
  gdtr : TableReg
  idtr : TableReg
  ldtr : LdtReg
  tr : TaskReg
  /-- CR0: PE 0, MP 1, EM 2, TS 3, ET 4, PG 31; bits 30:5 hold no state and are kept 0 (R40, R47) -/
  cr0 : Dword
  /-- the MSW has not been written since RESET, so SMSW reads its bits 15:5 as 0 (R47, R70) -/
  mswFresh : Bool
  /-- the page-fault linear address (R50) -/
  cr2 : Dword
  /-- the page directory base; bits 11:0 hold no state and are kept 0 (R51) -/
  cr3 : Dword
  dr0 : Dword
  dr1 : Dword
  dr2 : Dword
  dr3 : Dword
  /-- the debug status register; reserved bits hold no state and are kept 0 (R54) -/
  dr6 : Dword
  /-- the debug control register; reserved bits hold no state and are kept 0 (R55) -/
  dr7 : Dword
  tr6 : Dword
  tr7 : Dword
  /-- the current privilege level (R60) -/
  cpl : BitVec 2
  /-- the TLB: entry `4 * set + block` (R250) -/
  tlb : List TlbEntry
  /-- an NMI is in service (R63) -/
  nmiMask : Bool
  /-- an NMI was signalled while delivery was inhibited (R66, R811) -/
  nmiPending : Bool
  /-- set by MOV SS and POP SS: NMI, INTR and debug exceptions wait for one instruction (R64, R813) -/
  inhibit : Bool
  /-- set by STI: INTR waits for one instruction (R64, R814) -/
  inhibitIntr : Bool
  run : RunState
  /-- the debug-trap bits gathered and not yet delivered, in their DR6 places (R67, R908) -/
  pend : Dword
  /-- MODEL: data-breakpoint bits whose report comes one instruction late (R907; log 15) -/
  pendLate : Dword
  /-- MODEL: a repeated string instruction stands between two of its iterations (log 19) -/
  repActive : Bool
  /-- MODEL: execution has just run past offset FFFFH of a 16-bit code segment: EIP is 0, and the CS limit is checked on 10000H
  before anything is fetched (R15 c, R934; log 24) -/
  ranPast : Bool
  /-- MODEL: `next`, the offset `start + len` after the instruction at `eip` (R15), set by the step before the instruction's
  meaning (log 20) -/
  nextStart : Dword
  /-- MODEL: how many free values have been drawn (log 7) -/
  free : Nat
  mem : Memory
  /-- input RESET (R66) -/
  pinReset : Bool
  /-- input NMI: an event, taken from here when it is sampled (R66, R811) -/
  pinNmi : Bool
  /-- input INTR: asserted while not empty; `ack()` takes the first vector (R803) -/
  intrQueue : List Byte
  /-- input BUSY#, true when active (R990) -/
  pinBusy : Bool
  /-- input ERROR#, true when active (R990) -/
  pinError : Bool
  coproc : Coproc
  coprocReplies : List CoprocReply
  coprocSent : List CoprocSent
  /-- what the byte ports read next answer (R301) -/
  ioInput : List Byte
  /-- the `IORead` and `IOWrite` operations done so far, the newest first (R301) -/
  ioLog : List IoOp
  /-- what the device bytes read next answer (R116, R303) -/
  devInput : List Byte
  /-- the accesses to memory-mapped devices done so far, the newest first (R116, R303) -/
  devLog : List DeviceOp
  platform : Platform
deriving DecidableEq, Repr, Inhabited

/-- Why a step might stop the run. The model's machine never does: every fault of the 80386 is an exception that is
delivered, which is a next state. -/
inductive Fault where
  /-- Raised by no definition of the model. Safe: there is no run that ends in it. -/
  | notRaised
deriving DecidableEq, Repr, Inhabited

/-- Why an instruction might have no meaning. -/
inductive Refusal where
  /-- Raised by an arm of `exec` whose instruction has no meaning yet. Safe: the run stops and nothing is claimed. -/
  | notModelled (mnemonic : String)
deriving DecidableEq, Repr, Inhabited

/-- The hidden part of CS after RESET with the first fetch at FFFFFFF0H (R70). -/
def SegReg.resetCode : SegReg :=
  { sel := 0xF000, base := 0xFFFF0000, limit := 0xFFFF, typ := 0b1011, s := true, dpl := 0, p := true,
    db := false, g := false, valid := true }

/-- SS, DS, ES, FS and GS after RESET (R70). -/
def SegReg.resetData : SegReg :=
  { sel := 0, base := 0, limit := 0xFFFF, typ := 0b0011, s := true, dpl := 0, p := true,
    db := false, g := false, valid := true }

/-- An invalid TLB entry (R70). -/
def TlbEntry.reset : TlbEntry :=
  { lin := 0, v := false, d := false, u := false, w := false, phys := 0 }

/-- The 32 entries of the TLB after RESET. -/
def TlbEntry.resetAll : List TlbEntry := List.replicate 32 TlbEntry.reset

/-- EAX after RESET (R1024, D3): 0 where the self-test was not requested (log 1) or passed. -/
def SelfTest.eax : SelfTest → Dword
  | .notRequested | .passed => 0
  | .failed v => v

/-- The parameters in `State.reset`: `STEPPING_ID` 0 (log 2), no self-test requested, RAM everywhere (log 8). -/
def Platform.reset : Platform := { stepping := 0, selfTest := .notRequested, physMem := [] }

/-- EAX and EDX after RESET (R70, R1024), the other general registers 0 (log 1). -/
def Platform.regs (p : Platform) : Regs :=
  { eax := p.selfTest.eax, ecx := 0, edx := 0x300 + p.stepping.setWidth 32, ebx := 0, esp := 0, ebp := 0, esi := 0, edi := 0 }

/-- The machine right after RESET with no input active, no coprocessor and no memory byte written (R70). The
registers for which the spec gives no reset value are 0 (logs 1 to 6). -/
def State.reset : State :=
  { regs := Platform.reset.regs
    eip := 0xFFF0
    eflags := 2
    es := SegReg.resetData
    cs := SegReg.resetCode
    ss := SegReg.resetData
    ds := SegReg.resetData
    fs := SegReg.resetData
    gs := SegReg.resetData
    gdtr := { base := 0, limit := 0 }
    idtr := { base := 0, limit := 0x3FF }
    ldtr := { sel := 0, base := 0, limit := 0, valid := false }
    tr := { sel := 0, base := 0, limit := 0, is386 := true }
    cr0 := 0
    mswFresh := true
    cr2 := 0
    cr3 := 0
    dr0 := 0
    dr1 := 0
    dr2 := 0
    dr3 := 0
    dr6 := 0
    dr7 := 0
    tr6 := 0
    tr7 := 0
    cpl := 0
    tlb := TlbEntry.resetAll
    nmiMask := false
    nmiPending := false
    inhibit := false
    inhibitIntr := false
    run := .running
    pend := 0
    pendLate := 0
    repActive := false
    ranPast := false
    nextStart := 0xFFF0
    free := 0
    mem := []
    pinReset := false
    pinNmi := false
    intrQueue := []
    pinBusy := false
    pinError := false
    coproc := .none
    coprocReplies := []
    coprocSent := []
    ioInput := []
    ioLog := []
    devInput := []
    devLog := []
    platform := Platform.reset }

/-- RESET applied to a running machine (R70): every register as `State.reset` has it, ET by the coprocessor attached
(R991), EAX and EDX by the self-test and the stepping of the part (R1024); memory, the coprocessor and the outside world
stay. -/
def State.resetKeeping (s : State) : State :=
  { State.reset with
    regs := s.platform.regs
    cr0 := if s.coproc = .i387 then 0x10 else 0
    free := s.free
    mem := s.mem
    pinReset := s.pinReset
    pinNmi := s.pinNmi
    intrQueue := s.intrQueue
    pinBusy := s.pinBusy
    pinError := s.pinError
    coproc := s.coproc
    coprocReplies := s.coprocReplies
    coprocSent := s.coprocSent
    ioInput := s.ioInput
    ioLog := s.ioLog
    devInput := s.devInput
    devLog := s.devLog
    platform := s.platform }

end Sys2Proof.Machine
end

