-- ==== Sys2Proof/Syntax.lean ====
section
/-! DEFINITION. The instructions of the 80386 as syntax: one constructor of `Instr` per mnemonic of
spec/opcode_table.json (MOV, CALL, JMP and RET have several), their operand forms, and the lead bytes (LOCK, REP,
segment, size) as constructors that stand in front of the instruction they modify. Sizes, segment overrides and repeat
kinds are already resolved in the operands (R322, R323); `WellFormed` ties them to the lead bytes. -/

namespace Sys2Proof

/-- A general register by its code 0..7. At width 8 the codes 4..7 name AH, CH, DH, BH (R330). -/
inductive Reg where
  | eax | ecx | edx | ebx | esp | ebp | esi | edi
deriving DecidableEq, Repr, Inhabited

/-- A segment register, in code order (R330). -/
inductive SReg where
  | es | cs | ss | ds | fs | gs
deriving DecidableEq, Repr, Inhabited

/-- The register combinations of 16-bit addressing, in r/m order (R333). -/
inductive Base16 where
  | bxsi | bxdi | bpsi | bpdi | si | di | bp | bx
deriving DecidableEq, Repr, Inhabited

/-- A displacement as it stands in the instruction (R333, R334). -/
inductive Disp where
  | none
  | d8 (v : Byte)
  | d16 (v : Word)
  | d32 (v : Dword)
deriving DecidableEq, Repr, Inhabited

/-- A memory operand's addressing form. `index = none` in a SIB form is index code 100, whose scale bits are kept
as they stand; `base = none` is the disp32 without base of mod 00 (R333, R334, R337). -/
inductive Addr where
  | direct16 (v : Word)
  | based16 (b : Base16) (d : Disp)
  | direct32 (v : Dword)
  | based32 (r : Reg) (d : Disp)
  | sib (base : Option Reg) (index : Option Reg) (scale : BitVec 2) (d : Disp)
deriving DecidableEq, Repr, Inhabited

/-- A memory operand: its segment override, if any, and its addressing form (R339). -/
structure MemRef where
  seg : Option SReg
  addr : Addr
deriving DecidableEq, Repr, Inhabited

/-- The r/m operand of a ModR/M byte (R331). -/
inductive Rm where
  | reg (r : Reg)
  | mem (m : MemRef)
deriving DecidableEq, Repr, Inhabited

/-- Operand forms of the eight two-operand arithmetic instructions (opcode groups 00 to 3D, 80 to 83). -/
inductive AluForm where
  | rmReg (w : Width) (rm : Rm) (r : Reg)
  | regRm (w : Width) (r : Reg) (rm : Rm)
  | accImm (w : Width) (imm : Dword)
  | rmImm (w : Width) (rm : Rm) (imm : Dword)
  | rmImm8 (w : Width) (rm : Rm) (imm : Byte)
deriving DecidableEq, Repr, Inhabited

/-- INC and DEC: 40+r, 48+r, FE, FF. -/
inductive IncForm where
  | reg (w : Width) (r : Reg)
  | rm (w : Width) (rm : Rm)
deriving DecidableEq, Repr, Inhabited

/-- IMUL: F6 /5, F7 /5, 0F AF, 69, 6B. -/
inductive ImulForm where
  | acc (w : Width) (rm : Rm)
  | reg (w : Width) (r : Reg) (rm : Rm)
  | imm (w : Width) (r : Reg) (rm : Rm) (v : Dword)
  | imm8 (w : Width) (r : Reg) (rm : Rm) (v : Byte)
deriving DecidableEq, Repr, Inhabited

/-- TEST: 84, 85, A8, A9, F6 /0, F7 /0. -/
inductive TestForm where
  | rmReg (w : Width) (rm : Rm) (r : Reg)
  | accImm (w : Width) (imm : Dword)
  | rmImm (w : Width) (rm : Rm) (imm : Dword)
deriving DecidableEq, Repr, Inhabited

/-- Shifts and rotates: C0, C1 (immediate count), D0, D1 (count 1), D2, D3 (count in CL). -/
inductive ShiftForm where
  | imm (w : Width) (rm : Rm) (n : Byte)
  | one (w : Width) (rm : Rm)
  | cl (w : Width) (rm : Rm)
deriving DecidableEq, Repr, Inhabited

/-- SHLD and SHRD: 0F A4, A5, AC, AD. -/
inductive DShiftForm where
  | imm (w : Width) (rm : Rm) (r : Reg) (n : Byte)
  | cl (w : Width) (rm : Rm) (r : Reg)
deriving DecidableEq, Repr, Inhabited

/-- BT, BTS, BTR, BTC: bit offset in a register or an immediate byte. -/
inductive BtForm where
  | reg (w : Width) (rm : Rm) (r : Reg)
  | imm (w : Width) (rm : Rm) (n : Byte)
deriving DecidableEq, Repr, Inhabited

/-- MOV between general registers, memory and immediates: 88 to 8B, A0 to A3, B0 to BF, C6, C7. -/
inductive MovForm where
  | rmReg (w : Width) (rm : Rm) (r : Reg)
  | regRm (w : Width) (r : Reg) (rm : Rm)
  | accMoffs (w : Width) (m : MemRef)
  | moffsAcc (w : Width) (m : MemRef)
  | regImm (w : Width) (r : Reg) (imm : Dword)
  | rmImm (w : Width) (rm : Rm) (imm : Dword)
deriving DecidableEq, Repr, Inhabited

/-- XCHG: 86, 87, and 91 to 97 (90 is NOP). -/
inductive XchgForm where
  | rmReg (w : Width) (rm : Rm) (r : Reg)
  | acc (w : Width) (r : Reg)
deriving DecidableEq, Repr, Inhabited

/-- PUSH: segment registers, 50+r, 68, 6A, FF /6. -/
inductive PushForm where
  | sreg (w : Width) (sr : SReg)
  | reg (w : Width) (r : Reg)
  | imm (w : Width) (v : Dword)
  | imm8 (w : Width) (v : Byte)
  | rm (w : Width) (rm : Rm)
deriving DecidableEq, Repr, Inhabited

/-- POP: segment registers but CS, 58+r, 8F /0. -/
inductive PopForm where
  | sreg (w : Width) (sr : SReg)
  | reg (w : Width) (r : Reg)
  | rm (w : Width) (rm : Rm)
deriving DecidableEq, Repr, Inhabited

/-- Target of a conditional jump: `w` is the operand size (R571, R572). -/
inductive RelForm where
  | rel8 (w : Width) (d : Byte)
  | rel (w : Width) (d : Dword)
deriving DecidableEq, Repr, Inhabited

/-- Target of a near JMP or CALL (CALL has no rel8 form). -/
inductive NearForm where
  | rel8 (w : Width) (d : Byte)
  | rel (w : Width) (d : Dword)
  | rm (w : Width) (rm : Rm)
deriving DecidableEq, Repr, Inhabited

/-- Target of a far JMP or CALL: an immediate far pointer or one in memory (R95). -/
inductive FarForm where
  | ptr (w : Width) (sel : Word) (off : Dword)
  | mem (w : Width) (m : MemRef)
deriving DecidableEq, Repr, Inhabited

/-- IN and OUT: the port is an immediate byte or DX (R302). -/
inductive IoForm where
  | imm (w : Width) (port : Byte)
  | dx (w : Width)
deriving DecidableEq, Repr, Inhabited

/-- The repeat kind in force: the last of F2 and F3 (R322). -/
inductive Rep where
  | none | rep | repne
deriving DecidableEq, Repr, Inhabited

/-- Attributes of a string instruction and of XLAT: address size, segment override, repeat kind. -/
structure StrAttr where
  asz : Width
  seg : Option SReg
  rep : Rep
deriving DecidableEq, Repr, Inhabited

/-- The three undefined one-byte opcodes (R347). -/
inductive Undef where
  | op82 | opD6 | opF1
deriving DecidableEq, Repr, Inhabited

/-- One instruction, its lead bytes included (R320). Each constructor names its rule. -/
inductive Instr where
  /-- R452 -/
  | add (f : AluForm)
  /-- R502 -/
  | or (f : AluForm)
  /-- R453 -/
  | adc (f : AluForm)
  /-- R455 -/
  | sbb (f : AluForm)
  /-- R501 -/
  | and (f : AluForm)
  /-- R454 -/
  | sub (f : AluForm)
  /-- R503 -/
  | xor (f : AluForm)
  /-- R456 -/
  | cmp (f : AluForm)
  /-- R457 -/
  | inc (f : IncForm)
  /-- R458 -/
  | dec (f : IncForm)
  /-- R504 -/
  | not (w : Width) (rm : Rm)
  /-- R459 -/
  | neg (w : Width) (rm : Rm)
  /-- R460 -/
  | mul (w : Width) (rm : Rm)
  /-- R461 to R463 -/
  | imul (f : ImulForm)
  /-- R464 -/
  | div (w : Width) (rm : Rm)
  /-- R465 -/
  | idiv (w : Width) (rm : Rm)
  /-- R466 -/
  | daa
  /-- R467 -/
  | das
  /-- R468 -/
  | aaa
  /-- R469 -/
  | aas
  /-- R470 -/
  | aam (base : Byte)
  /-- R471 -/
  | aad (base : Byte)
  /-- R505 -/
  | test (f : TestForm)
  /-- R514 -/
  | rol (f : ShiftForm)
  /-- R515 -/
  | ror (f : ShiftForm)
  /-- R516 -/
  | rcl (f : ShiftForm)
  /-- R517 -/
  | rcr (f : ShiftForm)
  /-- R511 -/
  | shl (f : ShiftForm)
  /-- R512 -/
  | shr (f : ShiftForm)
  /-- R513 -/
  | sar (f : ShiftForm)
  /-- R518 -/
  | shld (f : DShiftForm)
  /-- R519 -/
  | shrd (f : DShiftForm)
  /-- R541 -/
  | bt (f : BtForm)
  /-- R542 -/
  | bts (f : BtForm)
  /-- R543 -/
  | btr (f : BtForm)
  /-- R544 -/
  | btc (f : BtForm)
  /-- R545 -/
  | bsf (w : Width) (r : Reg) (rm : Rm)
  /-- R546 -/
  | bsr (w : Width) (r : Reg) (rm : Rm)
  /-- R550 -/
  | seto (rm : Rm)
  /-- R550 -/
  | setno (rm : Rm)
  /-- R550 -/
  | setb (rm : Rm)
  /-- R550 -/
  | setae (rm : Rm)
  /-- R550 -/
  | sete (rm : Rm)
  /-- R550 -/
  | setne (rm : Rm)
  /-- R550 -/
  | setbe (rm : Rm)
  /-- R550 -/
  | seta (rm : Rm)
  /-- R550 -/
  | sets (rm : Rm)
  /-- R550 -/
  | setns (rm : Rm)
  /-- R550 -/
  | setp (rm : Rm)
  /-- R550 -/
  | setnp (rm : Rm)
  /-- R550 -/
  | setl (rm : Rm)
  /-- R550 -/
  | setge (rm : Rm)
  /-- R550 -/
  | setle (rm : Rm)
  /-- R550 -/
  | setg (rm : Rm)
  /-- R401 to R403 -/
  | mov (f : MovForm)
  /-- R404 -/
  | movFromSreg (rm : Rm) (sr : SReg)
  /-- R405 -/
  | movToSreg (sr : SReg) (rm : Rm)
  /-- R770 -/
  | movFromCr (n : BitVec 3) (r : Reg)
  /-- R770 -/
  | movToCr (n : BitVec 3) (r : Reg)
  /-- R772 -/
  | movFromDr (n : BitVec 3) (r : Reg)
  /-- R772 -/
  | movToDr (n : BitVec 3) (r : Reg)
  /-- R774 -/
  | movFromTr (n : BitVec 3) (r : Reg)
  /-- R774 -/
  | movToTr (n : BitVec 3) (r : Reg)
  /-- R406 -/
  | xchg (f : XchgForm)
  /-- R408, R410 -/
  | push (f : PushForm)
  /-- R411 to R413 -/
  | pop (f : PopForm)
  /-- R414 -/
  | pusha
  /-- R414 -/
  | pushad
  /-- R415 -/
  | popa
  /-- R415 -/
  | popad
  /-- R416 -/
  | cbw
  /-- R416 -/
  | cwde
  /-- R417 -/
  | cwd
  /-- R417 -/
  | cdq
  /-- R418 -/
  | movsx (w : Width) (r : Reg) (src : Width) (rm : Rm)
  /-- R419 -/
  | movzx (w : Width) (r : Reg) (src : Width) (rm : Rm)
  /-- R420 -/
  | lea (w : Width) (r : Reg) (m : MemRef)
  /-- R421 -/
  | les (w : Width) (r : Reg) (m : MemRef)
  /-- R421 -/
  | lds (w : Width) (r : Reg) (m : MemRef)
  /-- R421 -/
  | lss (w : Width) (r : Reg) (m : MemRef)
  /-- R421 -/
  | lfs (w : Width) (r : Reg) (m : MemRef)
  /-- R421 -/
  | lgs (w : Width) (r : Reg) (m : MemRef)
  /-- R422 -/
  | xlat (a : StrAttr)
  /-- R571, R572 -/
  | jo (t : RelForm)
  /-- R571, R572 -/
  | jno (t : RelForm)
  /-- R571, R572 -/
  | jb (t : RelForm)
  /-- R571, R572 -/
  | jae (t : RelForm)
  /-- R571, R572 -/
  | je (t : RelForm)
  /-- R571, R572 -/
  | jne (t : RelForm)
  /-- R571, R572 -/
  | jbe (t : RelForm)
  /-- R571, R572 -/
  | ja (t : RelForm)
  /-- R571, R572 -/
  | js (t : RelForm)
  /-- R571, R572 -/
  | jns (t : RelForm)
  /-- R571, R572 -/
  | jp (t : RelForm)
  /-- R571, R572 -/
  | jnp (t : RelForm)
  /-- R571, R572 -/
  | jl (t : RelForm)
  /-- R571, R572 -/
  | jge (t : RelForm)
  /-- R571, R572 -/
  | jle (t : RelForm)
  /-- R571, R572 -/
  | jg (t : RelForm)
  /-- R573 -/
  | jcxz (w : Width) (asz : Width) (d : Byte)
  /-- R574 -/
  | loop (w : Width) (asz : Width) (d : Byte)
  /-- R575 -/
  | loope (w : Width) (asz : Width) (d : Byte)
  /-- R576 -/
  | loopne (w : Width) (asz : Width) (d : Byte)
  /-- R562, R563 -/
  | jmp (t : NearForm)
  /-- R602 -/
  | jmpFar (t : FarForm)
  /-- R564, R565 -/
  | call (t : NearForm)
  /-- R605 -/
  | callFar (t : FarForm)
  /-- R566 -/
  | ret (w : Width) (n : Option Word)
  /-- R612 -/
  | retFar (w : Width) (n : Option Word)
  /-- R580 -/
  | enter (w : Width) (size : Word) (level : Byte)
  /-- R581 -/
  | leave (w : Width)
  /-- R582 -/
  | bound (w : Width) (r : Reg) (m : MemRef)
  /-- R630 -/
  | intN (n : Byte)
  /-- R631 -/
  | int3
  /-- R632 -/
  | into
  /-- R640 -/
  | iret
  /-- R640 -/
  | iretd
  /-- R662 -/
  | movsb (a : StrAttr)
  /-- R662 -/
  | movsw (a : StrAttr)
  /-- R662 -/
  | movsd (a : StrAttr)
  /-- R663 -/
  | cmpsb (a : StrAttr)
  /-- R663 -/
  | cmpsw (a : StrAttr)
  /-- R663 -/
  | cmpsd (a : StrAttr)
  /-- R666 -/
  | stosb (a : StrAttr)
  /-- R666 -/
  | stosw (a : StrAttr)
  /-- R666 -/
  | stosd (a : StrAttr)
  /-- R665 -/
  | lodsb (a : StrAttr)
  /-- R665 -/
  | lodsw (a : StrAttr)
  /-- R665 -/
  | lodsd (a : StrAttr)
  /-- R664 -/
  | scasb (a : StrAttr)
  /-- R664 -/
  | scasw (a : StrAttr)
  /-- R664 -/
  | scasd (a : StrAttr)
  /-- R672 -/
  | insb (a : StrAttr)
  /-- R672 -/
  | insw (a : StrAttr)
  /-- R672 -/
  | insd (a : StrAttr)
  /-- R673 -/
  | outsb (a : StrAttr)
  /-- R673 -/
  | outsw (a : StrAttr)
  /-- R673 -/
  | outsd (a : StrAttr)
  /-- R670 -/
  | inp (f : IoForm)
  /-- R671 -/
  | out (f : IoForm)
  /-- R700 -/
  | stc
  /-- R701 -/
  | clc
  /-- R702 -/
  | cmc
  /-- R703 -/
  | std
  /-- R704 -/
  | cld
  /-- R705 -/
  | cli
  /-- R706 -/
  | sti
  /-- R710 -/
  | lahf
  /-- R711 -/
  | sahf
  /-- R712 -/
  | popf
  /-- R712 -/
  | popfd
  /-- R713 -/
  | pushf
  /-- R713 -/
  | pushfd
  /-- R720 -/
  | nop
  /-- R721 -/
  | hlt
  /-- R726 -/
  | wait
  /-- R727 -/
  | esc (w : Width) (asz : Width) (op : BitVec 3) (reg : BitVec 3) (rm : Rm)
  /-- R741 -/
  | lgdt (w : Width) (m : MemRef)
  /-- R742 -/
  | lidt (w : Width) (m : MemRef)
  /-- R743 -/
  | sgdt (w : Width) (m : MemRef)
  /-- R744 -/
  | sidt (w : Width) (m : MemRef)
  /-- R745 -/
  | lldt (rm : Rm)
  /-- R746 -/
  | sldt (rm : Rm)
  /-- R764 -/
  | ltr (rm : Rm)
  /-- R765 -/
  | str (rm : Rm)
  /-- R747 -/
  | lmsw (rm : Rm)
  /-- R748 -/
  | smsw (rm : Rm)
  /-- R749 -/
  | clts
  /-- R750 -/
  | lar (w : Width) (r : Reg) (rm : Rm)
  /-- R751 -/
  | lsl (w : Width) (r : Reg) (rm : Rm)
  /-- R752 -/
  | verr (rm : Rm)
  /-- R753 -/
  | verw (rm : Rm)
  /-- R754 -/
  | arpl (rm : Rm) (r : Reg)
  /-- R347 -/
  | undef (b : Undef)
  /-- R690 -/
  | rep (i : Instr)
  /-- R690 -/
  | repne (i : Instr)
  /-- R725 -/
  | lock (i : Instr)
  /-- R321 -/
  | segES (i : Instr)
  /-- R321 -/
  | segCS (i : Instr)
  /-- R321 -/
  | segSS (i : Instr)
  /-- R321 -/
  | segDS (i : Instr)
  /-- R321 -/
  | segFS (i : Instr)
  /-- R321 -/
  | segGS (i : Instr)
  /-- R321 -/
  | opsize (i : Instr)
  /-- R321 -/
  | addrsize (i : Instr)
deriving DecidableEq, Repr, Inhabited

end Sys2Proof
end

