-- ==== Sys2Proof/Machine/Bits.lean ====
section
/-! DEFINITION. Bit fields, flags and registers: every read and write of a general register, a flag, a segment
register or a control bit goes through a definition of this file. -/

namespace Sys2Proof.Machine

/-! ### Bits of a doubleword -/

/-- Bit `n` of `v` replaced by `b`. -/
def setBit (v : Dword) (n : Nat) (b : Bool) : Dword :=
  if b then v ||| ((1 : Dword) <<< n) else v &&& ~~~((1 : Dword) <<< n)

/-- A flag of EFLAGS, control bit of CR0 or field bit by its place. -/
abbrev bitOf (v : Dword) (n : Nat) : Bool := v.getLsbD n

/-- A Bool as a doubleword. -/
def boolBit (b : Bool) : Dword := if b then 1 else 0

/-! ### EFLAGS (R16) -/

/-- The flags of EFLAGS by their bit (R16). -/
inductive Flag where
  | cf | pf | af | zf | sf | tf | iflag | df | of | nt | rf | vm
deriving DecidableEq, Repr, Inhabited

/-- The place of a flag (R16). -/
def Flag.bit : Flag → Nat
  | .cf => 0 | .pf => 2 | .af => 4 | .zf => 6 | .sf => 7 | .tf => 8 | .iflag => 9 | .df => 10 | .of => 11
  | .nt => 14 | .rf => 16 | .vm => 17

/-- The defined bits of EFLAGS (R16, R30). -/
def eflagsMask : Dword := 0x00037FD5

/-- An image with the reserved bits at their constants (R30). -/
def fixFlags (v : Dword) : Dword := (v &&& eflagsMask) ||| 2

/-- A flag's value. -/
def State.flag (s : State) (f : Flag) : Bool := bitOf s.eflags f.bit

/-- A flag set to `b`. -/
def State.setFlag (s : State) (f : Flag) (b : Bool) : State := { s with eflags := setBit s.eflags f.bit b }

/-- IOPL (R26). -/
def State.iopl (s : State) : BitVec 2 := s.eflags.extractLsb' 12 2

/-! ### Control bits and modes (R2, R40) -/

/-- CR0.PE (R41). -/
def State.pe (s : State) : Bool := bitOf s.cr0 0
/-- CR0.MP (R42). -/
def State.mp (s : State) : Bool := bitOf s.cr0 1
/-- CR0.EM (R43). -/
def State.em (s : State) : Bool := bitOf s.cr0 2
/-- CR0.TS (R44). -/
def State.tsw (s : State) : Bool := bitOf s.cr0 3
/-- CR0.PG (R46). -/
def State.pg (s : State) : Bool := bitOf s.cr0 31

/-- Virtual 8086 mode (R2, R950). -/
def State.v86 (s : State) : Bool := s.pe && s.flag .vm
/-- Real-address mode or V86 mode: segment registers hold paragraph numbers (R932, R952). -/
def State.paragraphs (s : State) : Bool := !s.pe || s.flag .vm
/-- Protected mode, VM = 0 (R2). -/
def State.prot (s : State) : Bool := s.pe && !s.flag .vm

/-- The defined bits of CR0 (R40). -/
def cr0Mask : Dword := 0x8000001F
/-- The defined bits of DR6 (R54). -/
def dr6Mask : Dword := 0x0000E00F
/-- The defined bits of DR7 (R55). -/
def dr7Mask : Dword := 0xFFFF03FF
/-- The defined bits of CR3 (R51). -/
def cr3Mask : Dword := 0xFFFFF000

/-! ### General registers (R10, R11) -/

/-- A general register. -/
def Regs.get (r : Regs) : Reg → Dword
  | .eax => r.eax | .ecx => r.ecx | .edx => r.edx | .ebx => r.ebx
  | .esp => r.esp | .ebp => r.ebp | .esi => r.esi | .edi => r.edi

/-- A general register written. -/
def Regs.set (r : Regs) (n : Reg) (v : Dword) : Regs :=
  match n with
  | .eax => { r with eax := v } | .ecx => { r with ecx := v } | .edx => { r with edx := v } | .ebx => { r with ebx := v }
  | .esp => { r with esp := v } | .ebp => { r with ebp := v } | .esi => { r with esi := v } | .edi => { r with edi := v }

/-- The 32-bit register that holds byte register `n`: codes 4 to 7 are the second bytes of EAX to EBX (R11). -/
def byteHome : Reg → Reg
  | .esp => .eax | .ebp => .ecx | .esi => .edx | .edi => .ebx | r => r

/-- Where byte register `n` begins in its 32-bit register (R11). -/
def byteLow : Reg → Nat
  | .esp | .ebp | .esi | .edi => 8
  | _ => 0

/-- Bits `lo + n - 1 .. lo` of `v` replaced by `x`; every other bit stays (R11). -/
def putBits (v : Dword) (lo n : Nat) (x : Dword) : Dword :=
  let mask : Dword := (((1 : Dword) <<< n) - 1) <<< lo
  (v &&& ~~~mask) ||| ((x <<< lo) &&& mask)

/-- `GPR(n, w)` read (R330). -/
def State.reg (s : State) (w : Width) (n : Reg) : BitVec w.bits :=
  match w with
  | .b8 => (s.regs.get (byteHome n)).extractLsb' (byteLow n) 8
  | .w16 => (s.regs.get n).extractLsb' 0 16
  | .d32 => s.regs.get n

/-- `GPR(n, w)` written: the other bits of the 32-bit register stay (R11). -/
def State.setReg (s : State) (w : Width) (n : Reg) (v : BitVec w.bits) : State :=
  match w, v with
  | .b8, v =>
    { s with regs := s.regs.set (byteHome n) (putBits (s.regs.get (byteHome n)) (byteLow n) 8 (BitVec.setWidth 32 v)) }
  | .w16, v => { s with regs := s.regs.set n (putBits (s.regs.get n) 0 16 (BitVec.setWidth 32 v)) }
  | .d32, v => { s with regs := s.regs.set n v }

/-! ### Segment registers (R33, R34) -/

/-- A segment register. -/
def State.sreg (s : State) : SReg → SegReg
  | .es => s.es | .cs => s.cs | .ss => s.ss | .ds => s.ds | .fs => s.fs | .gs => s.gs

/-- A segment register written. -/
def State.setSreg (s : State) (n : SReg) (v : SegReg) : State :=
  match n with
  | .es => { s with es := v } | .cs => { s with cs := v } | .ss => { s with ss := v }
  | .ds => { s with ds := v } | .fs => { s with fs := v } | .gs => { s with gs := v }

/-- Executable (R134). -/
def SegReg.isCode (r : SegReg) : Bool := r.typ.getLsbD 3
/-- Conforming code (R134). -/
def SegReg.conforming (r : SegReg) : Bool := r.isCode && r.typ.getLsbD 2
/-- Expand-down data (R137). -/
def SegReg.expandDown (r : SegReg) : Bool := !r.isCode && r.typ.getLsbD 2
/-- Writable data (R172). -/
def SegReg.writable (r : SegReg) : Bool := !r.isCode && r.typ.getLsbD 1
/-- Data, or readable code (R172). -/
def SegReg.readable (r : SegReg) : Bool := !r.isCode || r.typ.getLsbD 1

/-- A register loaded with a null selector (R35). -/
def SegReg.null (r : SegReg) (sel : Word) : SegReg := { r with sel := sel, valid := false }

/-- A load in real-address mode: selector and base, the rest as it was (R932). -/
def SegReg.loadReal (r : SegReg) (sel : Word) : SegReg :=
  { r with sel := sel, base := sel.setWidth 32 <<< 4, valid := true }

/-- A load in V86 mode (R952). -/
def SegReg.loadV86 (sel : Word) (code : Bool) : SegReg :=
  { sel := sel, base := sel.setWidth 32 <<< 4, limit := 0xFFFF, typ := if code then 0b1011 else 0b0011, s := true,
    dpl := 3, p := true, db := false, g := false, valid := true }

/-- INDEX and TI of a selector are zero: a null selector (R132). -/
def nullSel (sel : Word) : Bool := sel &&& 0xFFFC == 0
/-- TI (R131). -/
def selTi (sel : Word) : Bool := sel.getLsbD 2
/-- RPL (R131). -/
def selRpl (sel : Word) : BitVec 2 := sel.extractLsb' 0 2

/-! ### Widths of the stack and of the code -/

/-- `StackAddrSize` is 32: the B bit held in SS (R324). DEDUCED: a stale one stays in force after PE is cleared, where R945 has
software load B = 0 for R930 (d) to hold (log 36). -/
def State.stack32 (s : State) : Bool := s.ss.db

/-- `D` is 1 (R323): in protected mode the D bit held in CS, in real-address mode 0, whatever CS holds (R930 d). In V86 mode
every load of CS has cleared it (R952). -/
def State.code32 (s : State) : Bool := s.pe && s.cs.db

/-- A value cut to 16 bits unless `is32`. -/
def cut (is32 : Bool) (v : Dword) : Dword := if is32 then v else v &&& 0xFFFF

/-- `EIP_next`: the offset of the following instruction, cut to 16 bits in a 16-bit code segment (R325, D16): the base of a
relative operand and the return address of CALL, INT and a trap. -/
def State.nextEip (s : State) : Dword := cut s.code32 s.nextStart

/-- The following instruction lies past offset FFFFH of a 16-bit code segment (R15 c; log 24). -/
def State.nextPast (s : State) : Bool := !s.code32 && decide (0xFFFF < s.nextStart.toNat)

/-- EIP kept in 0 to FFFFH in a 16-bit code segment (R118, D16; log 24). -/
def State.trimEip (s : State) : State := { s with eip := cut s.code32 s.eip }

/-- The offset of the first byte of the next instruction, `trunc(EIP)` (R118). -/
def State.fetchOff (s : State) : Dword := cut s.code32 s.eip

/-- `eSP` as an offset (R107). -/
def State.esp (s : State) : Dword := cut s.stack32 s.regs.esp

/-- `eSP` written: ESP[31:16] stays when `StackAddrSize` is 16 (R107). -/
def State.setEsp (s : State) (v : Dword) : State :=
  if s.stack32 then s.setReg .d32 .esp v else s.setReg .w16 .esp (BitVec.setWidth 16 v)

/-- 16 or 32 bits as a width. -/
def sizeW (is32 : Bool) : Width := if is32 then .d32 else .w16

end Sys2Proof.Machine
end

