-- ==== Sys2Proof/Machine/Memory.lean ====
section
/-! DEFINITION. Physical memory as a sorted list of the bytes that differ from `Config.unlistedByte` (R90; log 8), values
of several bytes in little-endian order (R91), and the physical address space with its RAM, ROM, devices and holes (R7,
R103, R116). -/

namespace Sys2Proof.Machine

/-- The byte at physical address `a`. -/
def Memory.read : Memory → Nat → Byte
  | [], _ => Config.unlistedByte
  | (k, v) :: rest, a => if k = a then v else Memory.read rest a

/-- The byte at physical address `a` written; the list stays sorted and lists no byte equal to `unlistedByte`. -/
def Memory.write : Memory → Nat → Byte → Memory
  | [], a, v => if v = Config.unlistedByte then [] else [(a, v)]
  | (k, w) :: rest, a, v =>
    if a < k then (if v = Config.unlistedByte then (k, w) :: rest else (a, v) :: (k, w) :: rest)
    else if a = k then (if v = Config.unlistedByte then rest else (a, v) :: rest)
    else (k, w) :: Memory.write rest a v

/-- Every listed address is above `lo`, they rise, lie in the 2^32 bytes of the space, and no entry is what an unlisted
address reads as. -/
def Memory.wfAbove : Nat → Memory → Bool
  | _, [] => true
  | lo, (k, v) :: rest => decide (lo ≤ k) && decide (k < 2 ^ 32) && v != Config.unlistedByte && Memory.wfAbove (k + 1) rest

/-- The canonical form. -/
def Memory.wf (m : Memory) : Bool := Memory.wfAbove 0 m

/-- The bytes at the given addresses, in order. -/
def Memory.readAll (m : Memory) (as : List Nat) : List Byte := as.map m.read

/-- Bytes stored at the given addresses, in order. -/
def Memory.writeAll (m : Memory) : List Nat → List Byte → Memory
  | a :: as, v :: vs => Memory.writeAll (m.write a v) as vs
  | _, _ => m

/-- A number from its bytes, the least significant first (R91). -/
def natOfBytes : List Byte → Nat
  | [] => 0
  | b :: bs => b.toNat + 256 * natOfBytes bs

/-- `n` bytes of a number, the least significant first (R91). -/
def bytesOf : Nat → Nat → List Byte
  | 0, _ => []
  | n + 1, v => BitVec.ofNat 8 v :: bytesOf n (v / 256)

/-- The `n` linear addresses from `lin` on, modulo 2^32 (R102). -/
def span (lin : Dword) : Nat → List Dword
  | 0 => []
  | n + 1 => lin :: span (lin + 1) n

/-! ### The physical address space (R7, R103, R116) -/

/-- What answers at `a`: the first region that holds it, else RAM (log 8). -/
def kindIn : List Region → Nat → MemKind
  | [], _ => .ram
  | r :: rs, a => if r.base ≤ a ∧ a < r.base + r.size then r.kind else kindIn rs a

/-- What answers at physical address `a` (`PHYS_MEM`, R7). -/
def State.kindAt (s : State) (a : Nat) : MemKind := kindIn s.platform.physMem a

/-- The byte read at physical address `a` and the state after the read (R103, D4): a device answers what the outside world
has placed, else whatever it answers (log 52); where nothing answers the byte is a free value. -/
def State.readByte (s : State) (a : Nat) : Byte × State :=
  match s.kindAt a with
  | .ram | .rom => (s.mem.read a, s)
  | .device => (s.devInput.headD (Config.deviceByte s.devLog.length a), { s with devInput := s.devInput.tail })
  | .nothing => ((Config.freeBits s.free).setWidth 8, { s with free := s.free + 1 })

/-- The bytes read at some physical addresses in turn. -/
def State.readBytes : State → List Nat → List Byte × State
  | s, [] => ([], s)
  | s, a :: as => ((s.readByte a).1 :: ((s.readByte a).2.readBytes as).1, ((s.readByte a).2.readBytes as).2)

/-- The bytes of an access grouped into bus transfers, each within one aligned doubleword (R93, R113; log 52). -/
def busTransfers : List (Nat × Byte) → List (List (Nat × Byte))
  | [] => []
  | x :: xs =>
    match busTransfers xs with
    | (y :: ys) :: rest => if x.1 / 4 = y.1 / 4 then (x :: y :: ys) :: rest else [x] :: (y :: ys) :: rest
    | _ => [[x]]

/-- The device bytes of an access recorded, if it has any (R116, R303). -/
def State.deviceDid (s : State) (write : Bool) (items : List (Nat × Byte)) : State :=
  match items.filter fun x => s.kindAt x.1 == .device with
  | [] => s
  | x :: xs => { s with devLog := { write := write, transfers := busTransfers (x :: xs) } :: s.devLog }

/-- The number that the bytes at some physical addresses make (R91, `PhysRead` of R103). -/
def State.numAt (s : State) (pas : List Nat) : Nat := natOfBytes (s.readBytes pas).1

/-- The state after `PhysRead` at some physical addresses (R103). -/
def State.afterRead (s : State) (pas : List Nat) : State :=
  (s.readBytes pas).2.deviceDid false (pas.zip (s.readBytes pas).1)

/-- `PhysWrite` (R103, D4): RAM takes the bytes, a device is told of them, and a write to ROM or to nothing is lost. -/
def State.storeBytes (s : State) (pas : List Nat) (vs : List Byte) : State :=
  let ram : List (Nat × Byte) := (pas.zip vs).filter fun x => s.kindAt x.1 == .ram
  ({ s with mem := s.mem.writeAll (ram.map (·.1)) (ram.map (·.2)) } : State).deviceDid true (pas.zip vs)

end Sys2Proof.Machine
end

