-- ==== Sys2Proof/Machine/Access.lean ====
section
/-! DEFINITION. What an instruction is made of: a computation `M` over the state that may raise an exception; free
values; page translation with the TLB (R225, R251); the access primitives of spec/20_memory.md (R100 to R109) with the
segment checks (R170) and the notes for data breakpoints (R906); the I/O operations (R301). -/

namespace Sys2Proof.Machine

/-- An exception raised inside an instruction or inside a delivery. -/
structure Exc where
  vec : Byte
  code : Option Word
  /-- a fault: the pushed image has RF = 1 (R827); false for the aborts 8 and 9 -/
  isFault : Bool
  /-- the return offset where it is not that of the instruction (exception 9, R996) -/
  ret : Option Dword
  /-- raised after a task switch had committed: the new task's state stays (R279) -/
  committed : Bool
deriving DecidableEq, Repr, Inhabited

/-- A computation over the state that may raise an exception; the state reached stays known when it does. -/
abbrev M := EStateM Exc State

/-- Raise fault `vec` with an error code or none. -/
def raise {α : Type} (vec : Byte) (code : Option Word) : M α :=
  throw { vec := vec, code := code, isFault := true, ret := none, committed := false }

/-- #UD (R836). -/
def raiseUD {α : Type} : M α := raise 6 none
/-- #NM (R837). -/
def raiseNM {α : Type} : M α := raise 7 none
/-- #DE (R830). -/
def raiseDE {α : Type} : M α := raise 0 none
/-- #GP(0) (R843). -/
def raiseGP0 {α : Type} : M α := raise 13 (some 0)
/-- #SS(0) (R842). -/
def raiseSS0 {α : Type} : M α := raise 12 (some 0)

/-- `#XX(sel)`: the error code is the selector with bits 1:0 replaced by 0 and EXT (R822). -/
def raiseSel {α : Type} (vec : Byte) (sel : Word) (ext : Bool) : M α :=
  raise vec (some ((sel &&& 0xFFFC) ||| (if ext then 1 else 0)))

/-- `#XX(EXT)`: no selector (R822, R823). -/
def raiseExt {α : Type} (vec : Byte) (ext : Bool) : M α := raise vec (some (if ext then 1 else 0))

/-- An exception of `m` is marked as raised after a task switch had committed (R279). -/
def committed {α : Type} (m : M α) : M α := fun s =>
  match m s with
  | .ok a t => .ok a t
  | .error e t => .error { e with committed := true } t

/-- A step made only when `b` holds. -/
def when (b : Bool) (m : M Unit) : M Unit := if b then m else pure ()

/-- The next free value (log 7). -/
def draw : M Dword := do
  let s ← get
  set { s with free := s.free + 1 }
  pure (Config.freeBits s.free)

/-- A free bit. -/
def drawBit : M Bool := do pure (bitOf (← draw) 0)

/-! ### Page translation -/

/-- The privilege of explicit accesses: user at CPL 3 (R230). -/
def State.user (s : State) : Bool := s.cpl == 3

/-- `PageFault(lin, P, w, u)` (R225, R227, R858): CR2 is written; the upper bits of the code are free. -/
def pageFault {α : Type} (lin : Dword) (p w : Bool) : M α := do
  modify fun s => { s with cr2 := lin }
  let s ← get
  let upper ← draw
  let low : Dword := (if s.user then 4 else 0) + (if w then 2 else 0) + (if p then 1 else 0)
  raise 14 (some (((upper &&& 0xFFF8) ||| low).setWidth 16))

/-- `PhysRead` of some bytes as a number (R103). -/
def physRead (pas : List Nat) : M Nat := do
  let s ← get
  modify fun t => t.afterRead pas
  pure (s.numAt pas)

/-- The four addresses of a doubleword in physical memory. -/
def dwordAt (pa : Dword) : List Nat := (span pa 4).map BitVec.toNat

/-- The doubleword in physical memory at `pa`, as `PhysRead` gives it (R103). -/
def State.physDword (s : State) (pa : Dword) : Dword := BitVec.ofNat 32 (s.numAt (dwordAt pa))

/-- `PhysRead` of a doubleword (R103). -/
def physRead32 (pa : Dword) : M Dword := do pure (BitVec.ofNat 32 (← physRead (dwordAt pa)))

/-- `PhysWrite` of a doubleword (R103). -/
def State.setPhysDword (s : State) (pa v : Dword) : State := s.storeBytes (dwordAt pa) (bytesOf 4 v.toNat)

/-- `PhysWrite` of a doubleword as a step (R103). -/
def physWrite32 (pa v : Dword) : M Unit := modify fun s => s.setPhysDword pa v

/-- TLB entry number `i` (R250). -/
def State.tlbEntry (s : State) (i : Nat) : TlbEntry := s.tlb.getD i TlbEntry.reset

/-- The number of block `b` of the set of `lin`: linear address bits 14:12 select the set (R250). -/
def tlbIndex (lin : Dword) (b : Nat) : Nat := 4 * (lin.extractLsb' 12 3).toNat + b

/-- The blocks of the set of `lin` that hold a valid entry for its page (R251). -/
def State.tlbHits (s : State) (lin : Dword) : List Nat :=
  [0, 1, 2, 3].filter fun b =>
    (s.tlbEntry (tlbIndex lin b)).v && (s.tlbEntry (tlbIndex lin b)).lin == lin.extractLsb' 12 20

/-- One of several values: the first when it is alone, else by a free value (duplicate tags, R255; log 17). -/
def choose (xs : List Nat) : M (Option Nat) :=
  match xs with
  | [] => pure none
  | [x] => pure (some x)
  | _ => do
    let k ← draw
    pure xs[k.toNat % xs.length]?

/-- The block of the TLB an entry goes to: the stale one's, else a free value's choice (R251). -/
def freshBlock : Option Nat → M Nat
  | some b => pure b
  | none => do pure ((← draw).toNat % 4)

/-- The table walk of R225 with the TLB write of R251; `stale` is the block of an entry for this page that cannot be used. -/
def walkTables (lin : Dword) (w u : Bool) (stale : Option Nat) : M Dword := do
  let s ← get
  let pdeAddr := (s.cr3 &&& 0xFFFFF000) + ((lin.extractLsb' 22 10).setWidth 32 <<< 2)
  let pde ← physRead32 pdeAddr
  when (!bitOf pde 0) (pageFault lin false w)
  let pteAddr := (pde &&& 0xFFFFF000) + ((lin.extractLsb' 12 10).setWidth 32 <<< 2)
  let pte ← physRead32 pteAddr
  when (!bitOf pte 0) (pageFault lin false w)
  let us := bitOf pde 2 && bitOf pte 2
  let rw := bitOf pde 1 && bitOf pte 1
  when (u && !us) (pageFault lin true w)
  when (u && w && !rw) (pageFault lin true w)
  when (!bitOf pde 5) (physWrite32 pdeAddr (pde ||| 0x20))
  when (!bitOf pte 5 || (w && !bitOf pte 6))
    (physWrite32 pteAddr (pte ||| 0x20 ||| (if w then 0x40 else 0)))
  let b ← freshBlock stale
  let e : TlbEntry := { lin := lin.extractLsb' 12 20, v := true, d := bitOf pte 6 || w, u := us, w := rw,
                        phys := pte.extractLsb' 12 20 }
  modify fun s => { s with tlb := s.tlb.set (tlbIndex lin b) e }
  pure (pte.extractLsb' 12 20 ++ lin.extractLsb' 0 12)

/-- The translation by a valid entry `e` of block `b` (R251): a write to a page with D = 0 walks the tables. -/
def tlbUse (lin : Dword) (w u : Bool) (b : Nat) (e : TlbEntry) : M Dword :=
  if w && !e.d then walkTables lin w u (some b)
  else do
    when (u && !e.u) (pageFault lin true w)
    when (u && w && !e.w) (pageFault lin true w)
    pure (e.phys ++ lin.extractLsb' 0 12)

/-- The translation once it is known which block, if any, holds the page (R251). -/
def translateVia (lin : Dword) (w u : Bool) : Option Nat → M Dword
  | none => walkTables lin w u none
  | some b => do tlbUse lin w u b ((← get).tlbEntry (tlbIndex lin b))

/-- Translation with paging on (R251). -/
def translatePaged (lin : Dword) (w u : Bool) : M Dword := do
  let hits := (← get).tlbHits lin
  let b ← choose hits
  translateVia lin w u b

/-- `Translate(lin, w, u)` (R225, R251): the physical address of a linear one. -/
def translate (lin : Dword) (w u : Bool) : M Dword := do
  if (← get).pg then translatePaged lin w u else pure lin

/-- The physical addresses of some linear ones, the first that fails raising the page fault (R102). -/
def translateEach (w u : Bool) : List Dword → M (List Nat)
  | [] => pure []
  | lin :: rest => do
    let pa ← translate lin w u
    let pas ← translateEach w u rest
    pure (pa.toNat :: pas)

/-- The record of device accesses of `t` without the writes made since `s`. -/
def State.readsSince (s t : State) : List DeviceOp :=
  ((t.devLog.take (t.devLog.length - s.devLog.length)).filter fun o => !o.write) ++ s.devLog

/-- What `m` wrote, to memory, to devices or to the TLB, is not done when it raises an exception. -/
def undoing {α : Type} (m : M α) : M α := fun s =>
  match m s with
  | .ok a t => .ok a t
  | .error x t => .error x { t with mem := s.mem, tlb := s.tlb, devLog := s.readsSince t }

/-- The physical addresses of the bytes of one access (R102): one that raises #PF on any of its pages sets no accessed or
dirty bit, wherever the page tables lie, and fills no TLB entry (R226, R251, D28). -/
def translateAll (w u : Bool) (lins : List Dword) : M (List Nat) := undoing (translateEach w u lins)

/-! ### Linear accesses (R102) -/

/-- `LinRead(lin, n)`: the number the `n` bytes make (R91), with page checks as user (`u`) or supervisor. -/
def linRead (lin : Dword) (n : Nat) (u : Bool) : M Nat := do
  let pas ← translateAll false u (span lin n)
  physRead pas

/-- `LinWrite(lin, n, v)`: every page check comes before the first store (R101, R105). -/
def linWrite (lin : Dword) (n : Nat) (v : Nat) (u : Bool) : M Unit := do
  let pas ← translateAll true u (span lin n)
  modify fun s => s.storeBytes pas (bytesOf n v)

/-- A byte read on the processor's own account, at supervisor privilege (R102). -/
def sysRead8 (lin : Dword) : M Byte := do pure (BitVec.ofNat 8 (← linRead lin 1 false))
/-- A word read on the processor's own account (R102). -/
def sysRead16 (lin : Dword) : M Word := do pure (BitVec.ofNat 16 (← linRead lin 2 false))
/-- A doubleword read on the processor's own account (R102). -/
def sysRead32 (lin : Dword) : M Dword := do pure (BitVec.ofNat 32 (← linRead lin 4 false))
/-- A byte written on the processor's own account (R102). -/
def sysWrite8 (lin : Dword) (v : Byte) : M Unit := linWrite lin 1 v.toNat false

/-! ### Debug registers: data breakpoints (R903, R906) -/

/-- The breakpoint address registers (R52). -/
def State.dr (s : State) : Nat → Dword
  | 0 => s.dr0 | 1 => s.dr1 | 2 => s.dr2 | _ => s.dr3

/-- `R/Wn` of DR7 (R55). -/
def State.drRw (s : State) (n : Nat) : BitVec 2 := s.dr7.extractLsb' (16 + 4 * n) 2
/-- `LENn` of DR7 (R55). -/
def State.drLen (s : State) (n : Nat) : BitVec 2 := s.dr7.extractLsb' (18 + 4 * n) 2
/-- Breakpoint `n` is enabled: Ln or Gn (R902). -/
def State.drEnabled (s : State) (n : Nat) : Bool := bitOf s.dr7 (2 * n) || bitOf s.dr7 (2 * n + 1)

/-- The length in bytes that a LEN field stands for; 10 is undefined and matches nothing (R903, D68). -/
def drBytes (len : BitVec 2) : Nat :=
  match len.toNat with
  | 0 => 1 | 1 => 2 | 3 => 4 | _ => 0

/-- `Hit(n, lin, k)`: the access and the watched field have a byte in common (R903). -/
def State.drHit (s : State) (n : Nat) (lin : Dword) (k : Nat) : Bool :=
  let len := drBytes (s.drLen n)
  let lo := (s.dr n).toNat / len * len
  (span lin k).any fun a => decide (lo ≤ a.toNat) && decide (a.toNat < lo + len)

/-- The B bits of the breakpoints whose data condition an access meets (R906). -/
def State.dataHits (s : State) (lin : Dword) (k : Nat) (w : Bool) : Dword :=
  ([0, 1, 2, 3].filter fun n => (s.drRw n == 3 || (s.drRw n == 1 && w)) && s.drHit n lin k).foldl
    (fun acc n => setBit acc n true) 0

/-- The linear address of an offset in a segment (R170). -/
def State.linOf (s : State) (sr : SReg) (off : Dword) : Dword := (s.sreg sr).base + off

/-- An access of `n` bytes noted for the debug trap after the instruction (R906). -/
def State.noted (s : State) (sr : SReg) (off : Dword) (n : Nat) (w : Bool) : State :=
  { s with pend := s.pend ||| s.dataHits (s.linOf sr off) n w }

/-- An access is noted (R906). -/
def noteAccess (sr : SReg) (off : Dword) (n : Nat) (w : Bool) : M Unit := modify fun s => s.noted sr off n w

/-! ### Accesses through a segment register (R100, R101, R170) -/

/-- `InLimit(S, off, n)` (R173): the last byte's offset is not cut to 32 bits. -/
def inLimit (r : SegReg) (off : Dword) (n : Nat) : Bool :=
  let last := off.toNat + n - 1
  if r.expandDown then decide (r.limit.toNat < off.toNat) && decide (last ≤ (if r.db then 0xFFFFFFFF else 0xFFFF))
  else decide (last ≤ r.limit.toNat)

/-- The exception of a limit violation: 12 through SS, else 13, code 0 (R170, R934). -/
def raiseLimit {α : Type} (n : SReg) : M α := if n = .ss then raiseSS0 else raiseGP0

/-- May segment register `n` be written? In real-address and V86 mode CS may, although it holds code; attributes that
protected mode left in the others stay in force (R101, R934, D81; log 37). -/
def State.mayWrite (s : State) (n : SReg) : Bool := (s.sreg n).writable || (n == .cs && s.paragraphs)

/-- The checks of R170 for `n` bytes at `off`, for a write (`w`) or a read; the exception of an unusable register is that
of R100. -/
def checkSeg (sr : SReg) (off : Dword) (n : Nat) (w : Bool) : M Unit := do
  let s ← get
  let r := s.sreg sr
  when (!r.valid) (raiseLimit sr)
  when (w && !s.mayWrite sr) raiseGP0
  when (!w && !r.readable) raiseGP0
  when (!inLimit r off n) (raiseLimit sr)

/-- `MemRead(sreg, off, n)` as a number (R100). -/
def memReadN (sr : SReg) (off : Dword) (n : Nat) : M Nat := do
  checkSeg sr off n false
  let s ← get
  noteAccess sr off n false
  linRead (s.linOf sr off) n s.user

/-- `MemRead` of one operand (R100). -/
def memRead (sr : SReg) (off : Dword) (w : Width) : M (BitVec w.bits) := do
  pure (BitVec.ofNat w.bits (← memReadN sr off w.bytes))

/-- `MemWrite(sreg, off, n, v)` with page checks as user (`u`) or supervisor (R101). -/
def memWriteAs (u : Bool) (sr : SReg) (off : Dword) (n : Nat) (v : Nat) : M Unit := do
  checkSeg sr off n true
  let s ← get
  noteAccess sr off n true
  linWrite (s.linOf sr off) n v u

/-- `MemWrite` of one operand at the current privilege (R101). -/
def memWrite (sr : SReg) (off : Dword) (w : Width) (v : BitVec w.bits) : M Unit := do
  memWriteAs (← get).user sr off w.bytes v.toNat

/-- The checks of a write with nothing written: limit, type and page (R101). -/
def memWriteCheck (u : Bool) (sr : SReg) (off : Dword) (n : Nat) : M Unit := do
  checkSeg sr off n true
  let _ ← translateAll true u (span ((← get).linOf sr off) n)

/-- The value of width `w` read from the bytes at `pas` (R91); the state after it is `afterRead`. -/
def State.valueAt (t : State) (w : Width) (pas : List Nat) : BitVec w.bits := BitVec.ofNat w.bits (t.numAt pas)

/-- A value of width `w` stored at `pas` (R91). -/
def State.storeAt (t : State) (w : Width) (pas : List Nat) (v : BitVec w.bits) : State :=
  t.storeBytes pas (bytesOf w.bytes v.toNat)

/-- A read-modify-write operand (R106): the checks of a write come first, those of a read with them, then the read, then the
write of what `f` gives. -/
def memUpdate (sr : SReg) (off : Dword) (w : Width) (f : BitVec w.bits → M (BitVec w.bits)) : M Unit := do
  checkSeg sr off w.bytes true
  checkSeg sr off w.bytes false
  let s ← get
  noteAccess sr off w.bytes true
  let pas ← translateAll true s.user (span (s.linOf sr off) w.bytes)
  let old ← physRead pas
  let new ← f (BitVec.ofNat w.bits old)
  modify fun s => s.storeAt w pas new

/-! ### The stack (R107, R108) -/

/-- The offset of the new top of the stack for a push of width `w` (R107). -/
def State.pushOff (s : State) (w : Width) : Dword := cut s.stack32 (s.esp - BitVec.ofNat 32 w.bytes)

/-- `Push(v)` of width `w` with page checks as user (`u`) or supervisor: eSP changes after the store (R107). DESIGN CHOICE: an
item on a 16-bit stack that runs past offset FFFFH is checked against the SS limit alone (R109 leaves it open; log 58). -/
def pushAs (u : Bool) (w : Width) (v : BitVec w.bits) : M Unit := do
  let s ← get
  memWriteAs u .ss (s.pushOff w) w.bytes v.toNat
  modify fun t => t.setEsp (s.pushOff w)

/-- `Push(v)` at the current privilege (R107). -/
def push (w : Width) (v : BitVec w.bits) : M Unit := do pushAs (← get).user w v

/-- `Pop()` (R108); its item is checked as that of a push (R109; log 58). -/
def pop (w : Width) : M (BitVec w.bits) := do
  let s ← get
  let v ← memRead .ss s.esp w
  modify fun t => t.setEsp (s.esp + BitVec.ofNat 32 w.bytes)
  pure v

/-- `StackRead(k, n)`: `n` bytes at eSP + k, eSP unchanged (R601). -/
def stackRead (k : Nat) (w : Width) : M (BitVec w.bits) := do
  let s ← get
  memRead .ss (cut s.stack32 (s.esp + BitVec.ofNat 32 k)) w

/-- A block of `n` bytes at `off` does not run past the end of 16-bit offsets, where those are in force (R109). -/
def blockFits (is32 : Bool) (off : Dword) (n : Nat) : Bool := is32 || decide (off.toNat + n ≤ 65536)

/-- `StackRoom(n)`: the `n` bytes below eSP lie within the SS limit, and do not wrap (R601). -/
def stackRoom (n : Nat) : M Unit := do
  let s ← get
  let off := cut s.stack32 (s.esp - BitVec.ofNat 32 n)
  checkSeg .ss off n true
  when (!blockFits s.stack32 off n) raiseSS0

/-- A selector as a stack item of width `w`: the upper half of a doubleword is free (R107; log 29). -/
def selItem (w : Width) (sel : Word) : M (BitVec w.bits) :=
  match w with
  | .d32 => do pure (((← draw).extractLsb' 16 16 ++ sel : Dword))
  | w => pure (BitVec.setWidth w.bits sel)

/-- A selector pushed as an item of width `w` (R107; the padding is free). -/
def pushSel (u : Bool) (w : Width) (sel : Word) : M Unit := do pushAs u w (← selItem w sel)

/-! ### The I/O space (R300, R301) -/

/-- The byte ports of an operand of `n` bytes at `port`, modulo 2^16 (R300, R301, D36). -/
def ports (port : Word) : Nat → List Word
  | 0 => []
  | n + 1 => port :: ports (port + 1) n

/-- The bus accesses of an operand (R300, D36): one where its port is aligned, else one for each byte port, the lowest
first. -/
def portTransfers (port : Word) (bytes : List Byte) : List (List (Word × Byte)) :=
  let items := (ports port bytes.length).zip bytes
  if port.toNat % bytes.length = 0 then [items] else items.map fun x => [x]

/-- What byte ports answer to `IORead` number `k`: the bytes `given` that the outside world has placed, then whatever answers
there (R301, D5). -/
def portAnswers (k : Nat) : List Byte → List Word → List Byte
  | _, [] => []
  | b :: given, _ :: ps => b :: portAnswers k given ps
  | [], p :: ps => Config.ioNothing k p :: portAnswers k [] ps

/-- The bytes the next `IORead` of width `w` finds at `port`, the lowest port first. -/
def State.ioNext (s : State) (port : Word) (w : Width) : List Byte :=
  portAnswers s.ioLog.length s.ioInput (ports port w.bytes)

/-- An operation of the bytes `bs` on `port` recorded. -/
def State.ioDid (s : State) (write : Bool) (port : Word) (bs : List Byte) : State :=
  { s with ioLog := { write := write, transfers := portTransfers port bs } :: s.ioLog }

/-- The value an `IORead` of width `w` at `port` gives: the byte of the lowest port is the least significant (R300). -/
def State.ioValue (s : State) (port : Word) (w : Width) : BitVec w.bits := BitVec.ofNat w.bits (natOfBytes (s.ioNext port w))

/-- The state after an `IORead` of width `w` at `port`. -/
def State.ioTook (s : State) (port : Word) (w : Width) : State :=
  { s.ioDid false port (s.ioNext port w) with ioInput := s.ioInput.drop w.bytes }

/-- The state after an `IOWrite` of `v` at `port`. -/
def State.ioGave (s : State) (port : Word) (w : Width) (v : BitVec w.bits) : State :=
  s.ioDid true port (bytesOf w.bytes v.toNat)

/-- `IORead(port, n)`. -/
def ioRead (port : Word) (w : Width) : M (BitVec w.bits) := do
  let s ← get
  modify fun t => t.ioTook port w
  pure (s.ioValue port w)

/-- `IOWrite(port, n, v)`. -/
def ioWrite (port : Word) (w : Width) (v : BitVec w.bits) : M Unit := modify fun s => s.ioGave port w v

end Sys2Proof.Machine
end

