-- ==== Sys2Proof/Machine/Segment.lean ====
section
/-! DEFINITION. Descriptors and the loading of segment registers, LDTR and TR (spec/21_segmentation.md), and the stack
pointers of the inner levels (R607). -/

namespace Sys2Proof.Machine

/-- The two doublewords of a descriptor or gate (R133). -/
structure Desc where
  d0 : Dword
  d1 : Dword
deriving DecidableEq, Repr, Inhabited

/-- P (R133). -/
def Desc.p (d : Desc) : Bool := bitOf d.d1 15
/-- DPL (R133). -/
def Desc.dpl (d : Desc) : BitVec 2 := d.d1.extractLsb' 13 2
/-- S (R133). -/
def Desc.s (d : Desc) : Bool := bitOf d.d1 12
/-- TYPE (R134, R135). -/
def Desc.typ (d : Desc) : BitVec 4 := d.d1.extractLsb' 8 4
/-- BASE (R133). -/
def Desc.base (d : Desc) : Dword := d.d1.extractLsb' 24 8 ++ d.d1.extractLsb' 0 8 ++ d.d0.extractLsb' 16 16
/-- G (R133). -/
def Desc.g (d : Desc) : Bool := bitOf d.d1 23
/-- D or B (R133). -/
def Desc.db (d : Desc) : Bool := bitOf d.d1 22
/-- The 20-bit LIMIT (R133). -/
def Desc.rawLimit (d : Desc) : BitVec 20 := d.d1.extractLsb' 16 4 ++ d.d0.extractLsb' 0 16
/-- `limit32`: scaled by G (R136). -/
def Desc.limit (d : Desc) : Dword :=
  if d.g then (d.rawLimit.setWidth 32 <<< 12) ||| 0xFFF else d.rawLimit.setWidth 32

/-- A code segment (R134). -/
def Desc.isCode (d : Desc) : Bool := d.s && d.typ.getLsbD 3
/-- A data segment (R134). -/
def Desc.isData (d : Desc) : Bool := d.s && !d.typ.getLsbD 3
/-- A conforming code segment (R134). -/
def Desc.conforming (d : Desc) : Bool := d.isCode && d.typ.getLsbD 2
/-- A writable data segment (R134). -/
def Desc.writableData (d : Desc) : Bool := d.isData && d.typ.getLsbD 1
/-- Readable: data, or code with R (R134). -/
def Desc.readable (d : Desc) : Bool := d.isData || (d.isCode && d.typ.getLsbD 1)
/-- An available TSS: type 1 or 9 (R135). -/
def Desc.availTss (d : Desc) : Bool := !d.s && (d.typ == 1 || d.typ == 9)
/-- A busy TSS: type 3 or B (R135). -/
def Desc.busyTss (d : Desc) : Bool := !d.s && (d.typ == 3 || d.typ == 11)
/-- `T32`: an 80386 TSS, type 9 or B (R262). -/
def Desc.tss32 (d : Desc) : Bool := d.typ.getLsbD 3
/-- An LDT: type 2 (R135). -/
def Desc.isLdt (d : Desc) : Bool := !d.s && d.typ == 2

/-- The selector of a gate (R138, R139). -/
def Desc.gateSel (d : Desc) : Word := d.d0.extractLsb' 16 16
/-- The offset of a gate: 16 bits for the 80286 forms (R138, R139). -/
def Desc.gateOffset (d : Desc) (is32 : Bool) : Dword :=
  if is32 then d.d1.extractLsb' 16 16 ++ d.d0.extractLsb' 0 16 else (d.d0.extractLsb' 0 16).setWidth 32
/-- The DWORD COUNT of a call gate (R138). -/
def Desc.gateCount (d : Desc) : Nat := (d.d1.extractLsb' 0 5).toNat

/-- The hidden part a descriptor gives, with the accessed bit set (R34, R144). -/
def Desc.toSeg (d : Desc) (sel : Word) : SegReg :=
  { sel := sel, base := d.base, limit := d.limit, typ := d.typ ||| 1, s := d.s, dpl := d.dpl, p := d.p, db := d.db,
    g := d.g, valid := true }

/-- A descriptor read from the table at `base` (R143). -/
def readDesc (addr : Dword) : M Desc := do
  let d0 ← sysRead32 addr
  let d1 ← sysRead32 (addr + 4)
  pure { d0 := d0, d1 := d1 }

/-- Base and limit of the table a selector's TI names; none when it is the LDT and LDTR is invalid (R143). -/
def State.descTable (s : State) (sel : Word) : Option (Dword × Nat) :=
  if selTi sel then (if s.ldtr.valid then some (s.ldtr.base, s.ldtr.limit.toNat) else none)
  else some (s.gdtr.base, s.gdtr.limit.toNat)

/-- The linear address of a selector's descriptor, when it lies within its table (R143). -/
def State.descAddr (s : State) (sel : Word) : Option Dword :=
  match s.descTable sel with
  | none => none
  | some (base, limit) =>
    if (sel &&& 0xFFF8).toNat + 7 ≤ limit then some (base + (sel &&& 0xFFF8).setWidth 32) else none

/-- `FetchDescriptor(sel)` (R143): none when it fails; the caller names the exception. -/
def fetchDesc (sel : Word) : M (Option Desc) := do
  match (← get).descAddr sel with
  | none => pure none
  | some addr => do pure (some (← readDesc addr))

/-- `FetchDescriptor(sel)` with exception `vec(sel)` on failure (R143). -/
def fetchDescOr (vec : Byte) (ext : Bool) (sel : Word) : M Desc := do
  match (← fetchDesc sel) with
  | some d => pure d
  | none => raiseSel vec sel ext

/-- The type bits of a descriptor's access byte rewritten (R144, R184, R270). DESIGN CHOICE: the byte written is the one `d` had
when it was fetched, with the new type bits; it is not read a second time, although R144 and R270 call this a locked
read-modify-write. It shows where the instruction's own stores changed the descriptor after the fetch, or at a memory-mapped
device (log 60). -/
def setDescType (sel : Word) (d : Desc) (typ : BitVec 4) : M Unit := do
  match (← get).descAddr sel with
  | none => pure ()
  | some addr => sysWrite8 (addr + 5) (d.d1.extractLsb' 12 4 ++ typ)

/-- The accessed bit of a code or data descriptor is set in memory when it is clear (R144). -/
def setAccessed (sel : Word) (d : Desc) : M Unit :=
  if d.typ.getLsbD 0 then pure () else setDescType sel d (d.typ ||| 1)

/-- `LoadDataSeg` (R180) with CPL `cpl`; `vt` is the exception for a bad index or type: #GP, or #TS in a task switch
(R273). -/
def loadDataSeg (vt : Byte) (ext : Bool) (cpl : BitVec 2) (n : SReg) (sel : Word) : M Unit := do
  if nullSel sel then
    modify fun s => s.setSreg n ((s.sreg n).null sel)
  else
    let d ← fetchDescOr vt ext sel
    when (!d.s) (raiseSel vt sel ext)
    when (!d.readable) (raiseSel vt sel ext)
    when (!d.conforming && (d.dpl < selRpl sel || d.dpl < cpl)) (raiseSel 13 sel ext)
    when (!d.p) (raiseSel 11 sel ext)
    setAccessed sel d
    modify fun s => s.setSreg n (d.toSeg sel)

/-- The checks of a stack segment for privilege `cpl` (R181, R607, R273): `vec` is #GP or #TS; not present is #SS. -/
def checkStackSeg (vec : Byte) (ext : Bool) (cpl : BitVec 2) (sel : Word) : M Desc := do
  let d ← fetchDescOr vec ext sel
  when (selRpl sel != cpl) (raiseSel vec sel ext)
  when (!d.writableData) (raiseSel vec sel ext)
  when (d.dpl != cpl) (raiseSel vec sel ext)
  when (!d.p) (raiseSel 12 sel ext)
  pure d

/-- SS takes a checked stack segment (R181). -/
def setSS (sel : Word) (d : Desc) : M Unit := do
  setAccessed sel d
  modify fun s => { s with ss := d.toSeg sel }

/-- `LoadSS(sel)` (R181). -/
def loadSS (sel : Word) : M Unit := do
  when (nullSel sel) raiseGP0
  let d ← checkStackSeg 13 false (← get).cpl sel
  setSS sel d

/-- A segment register but CS loaded by an instruction, in the mode in force (R180, R181, R187, R932, R952). -/
def loadSreg (n : SReg) (sel : Word) : M Unit := do
  let s ← get
  if !s.pe then modify fun s => s.setSreg n ((s.sreg n).loadReal sel)
  else if s.flag .vm then modify fun s => s.setSreg n (SegReg.loadV86 sel (n = .cs))
  else if n = .ss then loadSS sel
  else loadDataSeg 13 false s.cpl n sel

/-- `SetCS(sel, d, cpl)` (R601): CS.selector gets the new CPL in its RPL field. -/
def setCS (sel : Word) (d : Desc) (cpl : BitVec 2) : M Unit := do
  setAccessed sel d
  modify fun s => { s with cs := d.toSeg ((sel &&& 0xFFFC) ||| cpl.setWidth 16), cpl := cpl }

/-- The CS of a far transfer in real-address or V86 mode (`RealFar`, R601). DESIGN CHOICE: in real-address mode its attributes stay
as they were (R932, D81), so that a CS which protected mode left execute-only still cannot be read, although D79 takes CS to be
readable after the far JMP of R945, step 6 (log 37). -/
def State.paragraphCS (s : State) (sel : Word) : State :=
  if !s.pe then { s with cs := s.cs.loadReal sel } else { s with cs := SegReg.loadV86 sel true }

/-- `InvalidateDataSegs(newCPL)` for one register (R186). -/
def SegReg.invalidateFor (r : SegReg) (cpl : BitVec 2) : SegReg :=
  if r.valid && !r.conforming && r.dpl < cpl then r.null 0 else r

/-- `InvalidateDataSegs(newCPL)` (R186). -/
def State.invalidateDataSegs (s : State) (cpl : BitVec 2) : State :=
  { s with es := s.es.invalidateFor cpl, ds := s.ds.invalidateFor cpl, fs := s.fs.invalidateFor cpl,
           gs := s.gs.invalidateFor cpl }

/-- `LoadLDTR(sel)` (R183): `vec` is #GP and `vnp` #NP for LLDT, both #TS for the task switch (R273). -/
def loadLDTR (vec vnp : Byte) (ext : Bool) (sel : Word) : M Unit := do
  if nullSel sel then
    modify fun s => { s with ldtr := { s.ldtr with sel := sel, valid := false } }
  else
    when (selTi sel) (raiseSel vec sel ext)
    let d ← fetchDescOr vec ext sel
    when (!d.isLdt) (raiseSel vec sel ext)
    when (!d.p) (raiseSel vnp sel ext)
    modify fun s => { s with ldtr := { sel := sel, base := d.base, limit := d.limit, valid := true } }

/-- `LoadTR(sel)` (R184). -/
def loadTR (sel : Word) : M Unit := do
  when (nullSel sel) raiseGP0
  when (selTi sel) (raiseSel 13 sel false)
  let d ← fetchDescOr 13 false sel
  when (!d.availTss) (raiseSel 13 sel false)
  when (!d.p) (raiseSel 11 sel false)
  setDescType sel d (d.typ ||| 2)
  modify fun s => { s with tr := { sel := sel, base := d.base, limit := d.limit, is386 := d.tss32 } }

/-- SS and eSP of inner level `n` from the current TSS (R607, R824): #TS(TR.selector) when they lie beyond its limit. DESIGN
CHOICE: a delivery from V86 mode finds them in an 80286 TSS too, with 16 bits of the stack pointer (R826 names SS0 and ESP0 only;
log 25). -/
def innerStack (ext : Bool) (n : BitVec 2) : M (Word × Dword) := do
  let t := (← get).tr
  if t.is386 then
    when (t.limit.toNat < 9 + 8 * n.toNat) (raiseSel 10 t.sel ext)
    let sp ← sysRead32 (t.base + BitVec.ofNat 32 (4 + 8 * n.toNat))
    let ss ← sysRead16 (t.base + BitVec.ofNat 32 (8 + 8 * n.toNat))
    pure (ss, sp)
  else
    when (t.limit.toNat < 5 + 4 * n.toNat) (raiseSel 10 t.sel ext)
    let sp ← sysRead16 (t.base + BitVec.ofNat 32 (2 + 4 * n.toNat))
    let ss ← sysRead16 (t.base + BitVec.ofNat 32 (4 + 4 * n.toNat))
    pure (ss, sp.setWidth 32)

/-- The checked stack segment of inner level `n` and its stack pointer (R607, R824); a null selector is #TS(EXT). -/
def innerStackSeg (ext : Bool) (n : BitVec 2) : M (Word × Desc × Dword) := do
  let (sel, sp) ← innerStack ext n
  when (nullSel sel) (raiseExt 10 ext)
  let d ← checkStackSeg 10 ext n sel
  pure (sel, d, sp)

/-- Room for `need` bytes below `sp` in a new stack segment `d`, page checks at supervisor privilege; else #SS(0) (R607,
R824). DESIGN CHOICE: the page checks are made as a write of all those bytes, so that the accessed and dirty bits of their pages
stay set (R226) where a later check of the same CALL or delivery faults and nothing is stored (log 30). -/
def newStackRoom (sel : Word) (d : Desc) (sp : Dword) (need : Nat) : M Unit := do
  let r := d.toSeg sel
  let off := cut r.db (cut r.db sp - BitVec.ofNat 32 need)
  when (!inLimit r off need || !blockFits r.db off need) raiseSS0
  let _ ← translateAll true false (span (r.base + off) need)

/-- SS and eSP take the new stack (R607, R824): all of ESP from an 80386 TSS. DESIGN CHOICE: in a delivery from V86 mode the SP0
of an 80286 TSS loads SP alone where the new SS has B = 0, ESP[31:16] staying (R826 writes ESP <- sp; log 25). -/
def switchStack (sel : Word) (d : Desc) (sp : Dword) : M Unit := do
  setSS sel d
  modify fun s => if s.tr.is386 then s.setReg .d32 .esp sp else s.setEsp sp

/-- A far transfer's target offset must lie in the new code segment, else #GP(0) (R601). -/
def checkTarget (d : Desc) (sel : Word) (off : Dword) : M Unit :=
  if inLimit (d.toSeg sel) off 1 then pure () else raiseGP0

end Sys2Proof.Machine
end

