-- ==== Sys2Proof/Machine/Task.lean ====
section
/-! DEFINITION. The task switch (spec/23_tasks.md, R268 to R283). -/

namespace Sys2Proof.Machine

/-- What switches tasks (R270): INT stands for every interrupt and exception through a task gate. -/
inductive SwitchKind where
  | jmp | call | int | iret
deriving DecidableEq, Repr, Inhabited

/-- CALL and INT switch with nesting (R270). -/
def SwitchKind.nests : SwitchKind → Bool
  | .call | .int => true
  | .jmp | .iret => false

/-- The state a TSS holds (R261, R263), but for CR3. `trap` exists in an 80386 TSS only. -/
structure TssImage where
  eip : Dword
  eflags : Dword
  regs : Regs
  es : Word
  cs : Word
  ss : Word
  ds : Word
  fs : Word
  gs : Word
  ldt : Word
  trap : Bool
deriving DecidableEq, Repr, Inhabited

/-- A word read zero-extended on the processor's own account. -/
def sysRead16z (lin : Dword) : M Dword := do pure (BitVec.setWidth 32 (← sysRead16 lin))

/-- The general registers of a TSS: items of `n` bytes from `lin` on, in the order EAX, ECX, EDX, EBX, ESP, EBP, ESI,
EDI (R261, R263). -/
def readTssRegs (lin n : Dword) (item : Dword → M Dword) : M Regs := do
  let eax ← item lin
  let ecx ← item (lin + n)
  let edx ← item (lin + 2 * n)
  let ebx ← item (lin + 3 * n)
  let esp ← item (lin + 4 * n)
  let ebp ← item (lin + 5 * n)
  let esi ← item (lin + 6 * n)
  let edi ← item (lin + 7 * n)
  pure { eax := eax, ecx := ecx, edx := edx, ebx := ebx, esp := esp, ebp := ebp, esi := esi, edi := edi }

/-- The state of the incoming task read from an 80386 TSS at `b` (R261, R272). DESIGN CHOICE: its fields are read by ascending
offset, the LDT selector so after GS, and the word of the T bit, which R270 tests in step 6, last of them. R272 lists what is
loaded, LDTR before the segment registers, and R96 leaves the order of the reads open; it shows only where the TSS lies at a
memory-mapped device (log 28). -/
def readTss386 (b : Dword) : M TssImage := do
  let eip ← sysRead32 (b + 0x20)
  let eflags ← sysRead32 (b + 0x24)
  let regs ← readTssRegs (b + 0x28) 4 sysRead32
  let es ← sysRead16 (b + 0x48)
  let cs ← sysRead16 (b + 0x4C)
  let ss ← sysRead16 (b + 0x50)
  let ds ← sysRead16 (b + 0x54)
  let fs ← sysRead16 (b + 0x58)
  let gs ← sysRead16 (b + 0x5C)
  let ldt ← sysRead16 (b + 0x60)
  let t ← sysRead16 (b + 0x64)
  pure { eip := eip, eflags := eflags, regs := regs, es := es, cs := cs, ss := ss, ds := ds, fs := fs, gs := gs,
         ldt := ldt, trap := t.getLsbD 0 }

/-- The state of the incoming task read from an 80286 TSS at `b`: the high words are 0, FS and GS null (R263, R277). The order
of the reads is the choice said at `readTss386` (log 28). -/
def readTss286 (b : Dword) : M TssImage := do
  let eip ← sysRead16z (b + 0x0E)
  let eflags ← sysRead16z (b + 0x10)
  let regs ← readTssRegs (b + 0x12) 2 sysRead16z
  let es ← sysRead16 (b + 0x22)
  let cs ← sysRead16 (b + 0x24)
  let ss ← sysRead16 (b + 0x26)
  let ds ← sysRead16 (b + 0x28)
  let ldt ← sysRead16 (b + 0x2A)
  pure { eip := eip, eflags := eflags, regs := regs, es := es, cs := cs, ss := ss, ds := ds, fs := 0, gs := 0,
         ldt := ldt, trap := false }

/-- The state of the incoming task read from its TSS (R272). -/
def readTss (new : Desc) : M TssImage := if new.tss32 then readTss386 new.base else readTss286 new.base

/-- A TLB with every entry invalid (R252). -/
def State.flushTlb (s : State) : State := { s with tlb := s.tlb.map fun e => { e with v := false } }

/-- CR3 of the incoming task is loaded first, and the TLB flushed, so that all the rest is read through its page tables
(R272, D33). -/
def loadTables (new : Desc) : M Unit := do
  if new.tss32 && (← get).pg then
    let v ← sysRead32 (new.base + 0x1C)
    modify fun s => ({ s with cr3 := v &&& cr3Mask }).flushTlb
  else pure ()

/-- The outgoing state stored as 32-bit items from offset 20H on, selectors with a zero high word (R271). DESIGN CHOICE: the
stores are made in this order, by ascending offset, EIP and EFLAGS first. R271 gives them none and R96 leaves it open; it shows
only where the TSS lies at a memory-mapped device (log 28). -/
def tssItems (s : State) (eip image : Dword) : List Dword :=
  [eip, image, s.regs.eax, s.regs.ecx, s.regs.edx, s.regs.ebx, s.regs.esp, s.regs.ebp, s.regs.esi, s.regs.edi,
   s.es.sel.setWidth 32, s.cs.sel.setWidth 32, s.ss.sel.setWidth 32, s.ds.sel.setWidth 32, s.fs.sel.setWidth 32,
   s.gs.sel.setWidth 32]

/-- Items of `n` bytes written one after the other on the processor's own account. -/
def writeItems (n : Nat) : Dword → List Dword → M Unit
  | _, [] => pure ()
  | lin, v :: vs => do
    linWrite lin n v.toNat false
    writeItems n (lin + BitVec.ofNat 32 n) vs

/-- Step 2 of the switch: the outgoing state goes into the current TSS (R271); an 80286 TSS takes the low words and
neither FS nor GS. -/
def saveTask (eip image : Dword) : M Unit := do
  let s ← get
  if s.tr.is386 then writeItems 4 (s.tr.base + 0x20) (tssItems s eip image)
  else writeItems 2 (s.tr.base + 0x0E) ((tssItems s eip image).take 14)

/-- The bytes of the back link: the doubleword of an 80386 TSS (R261), the word of an 80286 TSS (R263). -/
def linkBytes (new : Desc) : Nat := if new.tss32 then 4 else 2

/-- The selector of the old TSS goes into the back link of the new one (R270 step 3, R280), the high word of the field in an
80386 TSS written as 0, as for every selector the processor saves (R261; log 59). -/
def writeBackLink (new : Desc) (old : Word) : M Unit := linWrite new.base (linkBytes new) old.toNat false

/-- `m` runs under the page tables at `cr3` with an empty TLB; CR3 and the TLB are as before after it. -/
def underTables (cr3 : Dword) (m : M Unit) : M Unit := fun s =>
  match m ({ s with cr3 := cr3 }).flushTlb with
  | .ok a t => .ok a { t with cr3 := s.cr3, tlb := s.tlb }
  | .error x t => .error x { t with cr3 := s.cr3, tlb := s.tlb }

/-- The access byte of a descriptor can be rewritten: its page check. -/
def precheckType (sel : Word) : M Unit := do
  match (← get).descAddr sel with
  | none => pure ()
  | some addr => do
    let _ ← translateAll true false [addr + 5]
    pure ()

/-- The bytes that an incoming TSS is read from, without those of CR3, can be reached. -/
def precheckImage (new : Desc) : M Unit := do
  let _ ← translateAll false false (if new.tss32 then span (new.base + 0x20) 70 else span (new.base + 0x0E) 30)
  pure ()

/-- The incoming TSS can be read, each part of it under the page tables it will be read through (D33, D35; log 35). Its CR3 is
looked at, not accessed: the access is that of `loadTables`. -/
def precheckNew (new : Desc) : M Unit := do
  if new.tss32 && (← get).pg then
    let pas ← translateAll false false (span (new.base + 0x1C) 4)
    underTables (BitVec.ofNat 32 ((← get).numAt pas) &&& cr3Mask) (precheckImage new)
  else precheckImage new

/-- The bytes of both TSSs and of the two descriptors that the switch touches are translated before anything is written
(R279, D35; log 35). -/
def precheckTask (k : SwitchKind) (tss : Word) (new : Desc) : M Unit := do
  let old := (← get).tr
  let _ ← translateAll true false (if old.is386 then span (old.base + 0x20) 64 else span (old.base + 0x0E) 28)
  when (!k.nests) (precheckType old.sel)
  when (k ≠ .iret) (precheckType tss)
  when k.nests (do let _ ← translateAll true false (span new.base (linkBytes new)))
  precheckNew new

/-- The busy bit of the old TSS descriptor is cleared (R270 step 3, R282). DESIGN CHOICE: where the descriptor no longer lies
within GDTR.limit nothing is written; the rule names no test and no exception for it (log 53). -/
def clearBusy (sel : Word) : M Unit := do
  match (← get).descAddr sel with
  | none => pure ()
  | some addr => do
    let b ← sysRead8 (addr + 5)
    sysWrite8 (addr + 5) (b &&& 0xFD)

/-- A segment register with a new selector that has not been checked yet (R272). -/
def SegReg.unchecked (r : SegReg) (sel : Word) : SegReg := { r with sel := sel, valid := false }

/-- Step 4: the incoming state, every segment register and LDTR not yet valid (R272, R281). -/
def State.loadImage (s : State) (k : SwitchKind) (t : TssImage) : State :=
  let fl := fixFlags t.eflags
  let fl := match k with
    | .jmp => setBit fl 14 false
    | .call | .int => setBit fl 14 true
    | .iret => fl
  { s with
    eip := t.eip
    eflags := fl
    regs := t.regs
    ldtr := { s.ldtr with sel := t.ldt, valid := false }
    es := s.es.unchecked t.es
    cs := s.cs.unchecked t.cs
    ss := s.ss.unchecked t.ss
    ds := s.ds.unchecked t.ds
    fs := s.fs.unchecked t.fs
    gs := s.gs.unchecked t.gs
    cpl := if bitOf fl 17 then 3 else selRpl t.cs }

/-- CS of the incoming task (tests 6 to 8 of R273). -/
def checkTaskCS (ext : Bool) (sel : Word) : M Unit := do
  when (nullSel sel) (raiseSel 10 sel ext)
  let d ← fetchDescOr 10 ext sel
  when (!d.isCode) (raiseSel 10 sel ext)
  when (d.conforming && selRpl sel < d.dpl) (raiseSel 10 sel ext)
  when (!d.conforming && d.dpl != selRpl sel) (raiseSel 10 sel ext)
  when (!d.p) (raiseSel 11 sel ext)
  setAccessed sel d
  modify fun s => { s with cs := d.toSeg sel }

/-- SS of the incoming task (tests 9 to 12 of R273). -/
def checkTaskSS (ext : Bool) (sel : Word) : M Unit := do
  when (nullSel sel) (raiseSel 10 sel ext)
  let d ← checkStackSeg 10 ext (← get).cpl sel
  setSS sel d

/-- Step 5: LDTR and the segment registers of the incoming task are checked and loaded in turn (R273). -/
def checkTaskSegs (ext : Bool) (t : TssImage) : M Unit := do
  loadLDTR 10 10 ext t.ldt
  let s ← get
  if s.flag .vm then
    modify fun s => { s with es := SegReg.loadV86 t.es false, cs := SegReg.loadV86 t.cs true,
                             ss := SegReg.loadV86 t.ss false, ds := SegReg.loadV86 t.ds false,
                             fs := SegReg.loadV86 t.fs false, gs := SegReg.loadV86 t.gs false }
  else
    checkTaskCS ext t.cs
    checkTaskSS ext t.ss
    loadDataSeg 10 ext s.cpl .ds t.ds
    loadDataSeg 10 ext s.cpl .es t.es
    loadDataSeg 10 ext s.cpl .fs t.fs
    loadDataSeg 10 ext s.cpl .gs t.gs

/-- Step 6: the local breakpoint enables are cleared and the T bit makes a debug trap due (R270, R276, R902, R917). -/
def State.taskDebug (s : State) (trap : Bool) : State :=
  { s with dr7 := s.dr7 &&& 0xFFFFFEAA, pend := if trap then setBit s.pend 15 true else s.pend }

/-- The TSS `tss`, checked, becomes the current one, and TS is set (R270 step 3). -/
def State.taskSwitched (s : State) (tss : Word) (new : Desc) : State :=
  { s with tr := { sel := tss, base := new.base, limit := new.limit, is386 := new.tss32 }, cr0 := setBit s.cr0 3 true }

/-- `SwitchTasks` up to the point from which errors are the new task's: the checks of step 1, the outgoing state saved, the
busy bits, TR, TS and the back link (R270 steps 1 to 3, R271, R279). -/
def switchOut (k : SwitchKind) (ext : Bool) (tss : Word) (new : Desc) (eip image : Dword) : M Unit := do
  when (new.limit.toNat < (if new.tss32 then 103 else 43)) (raiseSel 10 tss ext)
  precheckTask k tss new
  let old := (← get).tr
  saveTask eip (if k = .iret then setBit image 14 false else image)
  when (!k.nests) (clearBusy old.sel)
  when (k ≠ .iret) (setDescType tss new (new.typ ||| 2))
  modify fun s => s.taskSwitched tss new
  committed (when k.nests (writeBackLink new old.sel))

/-- The rest of `SwitchTasks` up to its step 6: the incoming state is loaded and checked (R270 steps 4 to 6, R272, R273).
DESIGN CHOICE: a page fault before the image is loaded (the read of CR3 or of the TSS here, or the back link written in
`switchOut`, that `precheckTask` could not foresee) is taken with TR and TS those of the new task, but with the registers, and so
the saved CS:EIP, still those of the old one: the image of CS:EIP that R279 has such a fault save is not there yet (log 35). -/
def switchIn (k : SwitchKind) (ext : Bool) (new : Desc) : M Unit := committed do
  loadTables new
  let t ← readTss new
  modify fun s => s.loadImage k t
  checkTaskSegs ext t
  modify fun s => s.taskDebug t.trap

/-- `SwitchTasks` up to its step 6 (R270). `new` is the checked descriptor of `tss`, `eip` and `image` what is saved in
the outgoing TSS. Step 7 is `checkTaskEip`. -/
def switchTasks (k : SwitchKind) (ext : Bool) (tss : Word) (new : Desc) (eip image : Dword) : M Unit := do
  switchOut k ext tss new eip image
  switchIn k ext new

/-- Step 7: the new EIP must lie in the new code segment, in the new task's context (R270, R825). -/
def checkTaskEip : M Unit := committed do
  let s ← get
  when (!inLimit s.cs s.eip 1) raiseGP0

/-- The TSS selector of a task gate or back link: TI = 0, not null, within the GDT; the descriptor (R268). A null one is
`vec(0)`, exactly 0 whatever EXT is (R268, R822, D61; log 38). -/
def taskDesc (vec : Byte) (ext : Bool) (tss : Word) : M Desc := do
  when (nullSel tss) (raise vec (some 0))
  when (selTi tss) (raiseSel vec tss ext)
  fetchDescOr vec ext tss

/-- The checks on a TSS reached through a task gate (R268): `vec` is #GP for JMP and CALL, #TS for an interrupt; `busy` is the
exception of a busy TSS. -/
def gateTaskDesc (vec busy : Byte) (ext : Bool) (tss : Word) : M Desc := do
  let d ← taskDesc vec ext tss
  when (!d.availTss) (raiseSel (if d.busyTss then busy else vec) tss ext)
  when (!d.p) (raiseSel 11 tss ext)
  pure d

end Sys2Proof.Machine
end

