-- ==== Sys2Proof/Machine/Ops.lean ====
section
/-! DEFINITION. The shared operations of the machine: taking an interrupt or exception (spec/60_exceptions.md R820 to
R828, R885; spec/62_modes.md R936), the return from one (spec/44_control_far.md R640 to R645), and how an instruction
begins, ends and is abandoned (R15, R860, R908, R913). -/

namespace Sys2Proof.Machine

/-! ### Far transfers in real-address and V86 mode, and the loading of flags -/

/-- A far target in real-address or V86 mode must lie within the CS limit (R601, D53). -/
def checkTargetHere (off : Dword) : M Unit := do
  when (!inLimit (← get).cs off 1) raiseGP0

/-- `RealFar(sel, off)` (R601). -/
def realFar (sel : Word) (off : Dword) : M Unit :=
  modify fun s => { s.paragraphCS sel with eip := off }

/-- The bits of EFLAGS that IRET writes: `w` is the operand size, the CPL is the one before the return (R641). -/
def State.iretMask (s : State) (w : Width) : Dword :=
  0x4DD5
  ||| (if s.cpl ≤ s.iopl then 0x200 else 0)
  ||| (if s.cpl = 0 then 0x3000 else 0)
  ||| (if w = .d32 then 0x10000 else 0)
  ||| (if w = .d32 ∧ s.pe ∧ s.cpl = 0 then 0x20000 else 0)

/-- The bits of EFLAGS in `mask` taken from `image`. -/
def State.putFlags (s : State) (mask image : Dword) : State :=
  { s with eflags := (s.eflags &&& ~~~mask) ||| (image &&& mask) }

/-! ### Events -/

/-- What causes a delivery (R820). -/
inductive EventKind where
  | soft | exc | hw
deriving DecidableEq, Repr, Inhabited

/-- One delivery: vector, kind, error code, whether it is a fault (its image has RF = 1) and the return offset (R820); and
whether it is the debug trap of a task whose TSS has its T bit set (R917). -/
structure Event where
  vec : Byte
  kind : EventKind
  code : Option Word
  isFault : Bool
  ret : Dword
  taskTrap : Bool := false
deriving DecidableEq, Repr, Inhabited

/-- EXT (R822; for an exception the parameter of log 13). -/
def EventKind.ext : EventKind → Bool
  | .soft => false
  | .exc => Config.extOnException
  | .hw => true

/-- The EFLAGS image that is saved: RF is 1 for a fault (R827). -/
def Event.image (e : Event) (s : State) : Dword := if e.isFault then setBit s.eflags 16 true else s.eflags

/-- The error code of an exception about IDT entry `v`: v*8 + 2 + EXT (R822). -/
def idtCode (v : Byte) (ext : Bool) : Word := (v.setWidth 16 <<< 3) + 2 + (if ext then 1 else 0)

/-! ### Real-address mode (R936) -/

/-- Delivery in real-address mode (R936). -/
def deliverReal (e : Event) : M Unit := do
  let s ← get
  let v := e.vec.toNat
  when (s.idtr.limit.toNat < 4 * v + 3)
    (throw { vec := 8, code := none, isFault := false, ret := none, committed := false })
  pushAs s.user .w16 (s.eflags.setWidth 16)
  pushSel s.user .w16 s.cs.sel
  pushAs s.user .w16 (e.ret.setWidth 16)
  let off ← sysRead16 (s.idtr.base + BitVec.ofNat 32 (4 * v))
  let seg ← sysRead16 (s.idtr.base + BitVec.ofNat 32 (4 * v + 2))
  modify fun s => ((s.setFlag .iflag false).setFlag .tf false).setFlag .rf false
  realFar seg (off.setWidth 32)

/-! ### Protected and V86 mode (R820 to R828) -/

/-- The IDT entry and its checks (R821). -/
def idtGate (e : Event) : M Desc := do
  let s ← get
  let code := idtCode e.vec e.kind.ext
  when (s.idtr.limit.toNat < e.vec.toNat * 8 + 7) (raise 13 (some code))
  let g ← readDesc (s.idtr.base + (e.vec.setWidth 32 <<< 3))
  when (g.s || !([5, 6, 7, 14, 15] : List (BitVec 4)).contains g.typ) (raise 13 (some code))
  when (e.kind = .soft ∧ g.dpl < s.cpl) (raise 13 (some code))
  when (!g.p) (raise 11 (some code))
  pure g

/-- The target code segment of an interrupt or trap gate, its first five checks (R823). -/
def gateCode (ext : Bool) (cs : Word) : M Desc := do
  when (nullSel cs) (raiseExt 13 ext)
  let c ← fetchDescOr 13 ext cs
  when (!c.isCode) (raiseSel 13 cs ext)
  when (!c.p) (raiseSel 11 cs ext)
  when (!c.conforming && (← get).cpl < c.dpl) (raiseSel 13 cs ext)
  pure c

/-- An error code pushed, if there is one (R822). -/
def pushCode (u : Bool) (w : Width) : Option Word → M Unit
  | none => pure ()
  | some c => pushSel u w c

/-- EFLAGS, CS, the return offset and the error code, if any, pushed for a gate of size `w` (R823, R824, R826). The upper
half of an error code pushed as a doubleword is free (R822). -/
def pushFrame (u : Bool) (w : Width) (e : Event) (image : Dword) (cs : Word) : M Unit := do
  pushAs u w (BitVec.setWidth w.bits image)
  pushSel u w cs
  pushAs u w (BitVec.setWidth w.bits e.ret)
  pushCode u w e.code

/-- The size of a frame of `n` items and an error code, if any (R823, R824, R826). -/
def Event.frame (e : Event) (w : Width) (n : Nat) : Nat := (n + (if e.code.isSome then 1 else 0)) * w.bytes

/-- Delivery to the current privilege level (R823). -/
def deliverSame (e : Event) (w : Width) (cs : Word) (c : Desc) (t : Dword) : M Unit := do
  let s ← get
  stackRoom (e.frame w 3)
  checkTarget c cs t
  pushFrame s.user w e (e.image s) s.cs.sel
  setCS cs c s.cpl
  modify fun s => { s with eip := t }

/-- Delivery to an inner privilege level (R824). -/
def deliverInner (e : Event) (w : Width) (cs : Word) (c : Desc) (t : Dword) : M Unit := do
  let s ← get
  let (ssel, sd, sp) ← innerStackSeg e.kind.ext c.dpl
  newStackRoom ssel sd sp (e.frame w 5)
  checkTarget c cs t
  switchStack ssel sd sp
  modify fun s => { s with cpl := c.dpl }
  pushSel false w s.ss.sel
  pushAs false w (BitVec.setWidth w.bits s.regs.esp)
  pushFrame false w e (e.image s) s.cs.sel
  setCS cs c c.dpl
  modify fun s => { s with eip := t }

/-- DS, ES, FS and GS hold the null selector (R826). -/
def State.nullDataSegs (s : State) : State :=
  { s with ds := s.ds.null 0, es := s.es.null 0, fs := s.fs.null 0, gs := s.gs.null 0 }

/-- Delivery from V86 mode (R826). DESIGN CHOICE: where TR holds an 80286 TSS, SS0 and SP0 are taken from it as for any other
delivery to an inner level; R826 names only the SS0 and ESP0 of an 80386 TSS (log 25). -/
def deliverV86 (e : Event) (w : Width) (cs : Word) (c : Desc) (t : Dword) : M Unit := do
  let s ← get
  let ext := e.kind.ext
  when (c.conforming || c.dpl != 0) (raiseSel 13 cs ext)
  when (w = .w16) (raiseSel 13 cs ext)
  let (ssel, sd, sp) ← innerStackSeg ext 0
  newStackRoom ssel sd sp (e.frame .d32 9)
  checkTarget c cs t
  modify fun s => { s.setFlag .vm false with cpl := 0 }
  switchStack ssel sd sp
  pushSel false .d32 s.gs.sel
  pushSel false .d32 s.fs.sel
  pushSel false .d32 s.ds.sel
  pushSel false .d32 s.es.sel
  pushSel false .d32 s.ss.sel
  pushAs false .d32 s.regs.esp
  pushFrame false .d32 e (e.image s) s.cs.sel
  modify State.nullDataSegs
  setCS cs c 0
  modify fun s => { s with eip := t }

/-- The flags after delivery through an interrupt gate (`int`) or a trap gate (R828). -/
def State.afterGate (s : State) (int : Bool) : State :=
  let s := if int then s.setFlag .iflag false else s
  (((s.setFlag .tf false).setFlag .vm false).setFlag .nt false).setFlag .rf false

/-- The error code, if there is one, on the new task's stack (R825). -/
def taskCode (w : Width) (code : Option Word) : M Unit := do pushCode (← get).user w code

/-- The exception of a busy TSS found through a task gate of the IDT: #TS (R268, R825), but #GP where the T-bit trap of the
current task's TSS names that TSS as its handler's (R917, D71; log 57). -/
def Event.busyVec (e : Event) (s : State) (tss : Word) : Byte :=
  if e.taskTrap ∧ tss &&& 0xFFFC = s.tr.sel &&& 0xFFFC then 13 else 10

/-- Delivery through a task gate (R825). -/
def deliverTask (e : Event) (tss : Word) : M Unit := do
  let ext := e.kind.ext
  let s ← get
  let d ← gateTaskDesc 10 (e.busyVec s tss) ext tss
  let s ← get
  switchTasks .int ext tss d e.ret (e.image s)
  committed (taskCode (sizeW d.tss32) e.code)
  checkTaskEip

/-- Delivery to the code segment `c`: from V86 mode, to an inner or to the current level (R823). -/
def deliverTo (e : Event) (w : Width) (cs : Word) (c : Desc) (t : Dword) : M Unit := do
  let s ← get
  if s.flag .vm then deliverV86 e w cs c t
  else if !c.conforming && c.dpl < s.cpl then deliverInner e w cs c t
  else deliverSame e w cs c t

/-- Delivery through an interrupt or trap gate (R823, R828). -/
def deliverGate (e : Event) (g : Desc) : M Unit := do
  let is32 := g.typ.getLsbD 3
  let c ← gateCode e.kind.ext g.gateSel
  deliverTo e (sizeW is32) g.gateSel c (g.gateOffset is32)
  modify fun s => s.afterGate (!g.typ.getLsbD 0)

/-- `Deliver` (R820): the one way an interrupt or exception is taken. -/
def deliver (e : Event) : M Unit := do
  if !(← get).pe then deliverReal e
  else
    let g ← idtGate e
    if g.typ == 5 then deliverTask e g.gateSel
    else deliverGate e g

/-! ### Exceptions during delivery (R885) -/

/-- The contributory exceptions (R885). -/
def contributory (v : Byte) : Bool := ([0, 9, 10, 11, 12, 13] : List Byte).contains v

/-- The pairs of R885 that make a double fault. -/
def doubles (first second : Byte) : Bool :=
  (contributory first && contributory second) || (first == 14 && (contributory second || second == 14))

/-- A state given back after an abandoned attempt that reached `t`: memory (accessed and dirty bits, stores already made),
the TLB, CR2, the free values and the operations on the outside world stay done (R860). -/
def State.keep (s t : State) : State :=
  { s with mem := t.mem, tlb := t.tlb, cr2 := t.cr2, free := t.free, ioInput := t.ioInput, ioLog := t.ioLog,
           devInput := t.devInput, devLog := t.devLog, pinBusy := t.pinBusy, pinError := t.pinError,
           coprocReplies := t.coprocReplies, coprocSent := t.coprocSent }

/-- Delivery with the exceptions that it raises delivered in turn, a double fault, shutdown (R870, R885). Chains are
shorter than the fuel: a class never repeats before the double fault. An exception raised after a task switch has committed
drops the debug trap of the T bit (R917) and, handled serially, saves the new task's EIP (R279, R840); a double fault saves the
return offset of the first exception of the pair even then (R838, R885; log 54). -/
def deliverAll : Nat → Event → State → State
  | 0, _, s => { s with run := .shutdown }
  | n + 1, e, s =>
    match deliver e s with
    | .ok _ t => { t with run := .running }
    | .error x t =>
      let base := if x.committed then { t with pend := 0 } else s.keep t
      let ret := if x.committed then t.eip else e.ret
      if e.kind = .exc ∧ e.vec = 8 then { base with run := .shutdown }
      else if e.kind = .exc ∧ doubles e.vec x.vec then
        deliverAll n { vec := 8, kind := .exc, code := some 0, isFault := false, ret := e.ret } base
      else deliverAll n { vec := x.vec, kind := .exc, code := x.code, isFault := x.isFault, ret := ret } base

/-- The fuel of `deliverAll`. -/
def deliverFuel : Nat := 8

/-! ### Debug traps at the end of an instruction (R907, R908) -/

/-- A gathered data-breakpoint bit whose breakpoint is enabled (R908). -/
def State.dataDue (s : State) (bits : Dword) : Bool := [0, 1, 2, 3].any fun n => bitOf bits n && s.drEnabled n

/-- A debug trap is due (R908): BS, BT or an enabled data breakpoint. -/
def State.due (s : State) : Bool := bitOf s.pend 14 || bitOf s.pend 15 || s.dataDue s.pend

/-- The data-breakpoint bits of `bits` whose share of the free value `x` is `k` modulo 3: 0 reported now, 1 one instruction
later, 2 never (R907; log 15). -/
def inexact (x bits : Dword) (k : Nat) : Dword :=
  ([0, 1, 2, 3].filter fun n => bitOf bits n && (x.extractLsb' (8 * n) 8).toNat % 3 == k).foldl
    (fun acc n => setBit acc n true) 0

/-- The data-breakpoint bits of `bits` whose breakpoint is enabled, or (`on` false) is not (R908, R909). -/
def State.dataBits (s : State) (bits : Dword) (on : Bool) : Dword :=
  ([0, 1, 2, 3].filter fun n => bitOf bits n && s.drEnabled n == on).foldl (fun acc n => setBit acc n true) 0

/-- The bits gathered by an instruction join those kept from before (`kept`, R813) and those reported late (`late`). With LE =
GE = 0 a free value says of each enabled data breakpoint whether its bit is reported now, one instruction later, or never (R907;
log 15); the bits of breakpoints that are not enabled go with every report (R909, D70). DESIGN CHOICE: LE and GE are those of
DR7 after the instruction, so that a task switch, which clears LE, makes its own accesses inexact unless GE is 1 (log 15). -/
def State.gather (s : State) (kept late : Dword) : State :=
  if !s.dataDue s.pend || bitOf s.dr7 8 || bitOf s.dr7 9 then { s with pend := kept ||| late ||| s.pend }
  else
    let x := Config.freeBits s.free
    let on := s.dataBits s.pend true
    let off := s.dataBits s.pend false
    let next := inexact x on 1
    { s with
      free := s.free + 1
      pend := kept ||| late ||| (s.pend &&& 0xFFFFFFF0) ||| inexact x on 0 ||| off
      pendLate := s.pendLate ||| (if next = 0 then 0 else next ||| off) }

/-- `gather`, and nothing is kept when no trap is due (R908). DESIGN CHOICE: the enables are read after the instruction that just
ended for a late bit (R907) too, so that one whose breakpoint this instruction has disabled (MOV to DR7, or a task switch that
clears Ln) makes no trap of its own and is dropped with the rest where none is due; where another is due it goes with that
report (R909). R907 does not say (log 15). -/
def State.settle (s : State) (kept late : Dword) : State :=
  let t := s.gather kept late
  if t.due then t else { t with pend := 0 }

/-! ### The beginning and the end of an instruction -/

/-- How an instruction ends. -/
inductive Done where
  /-- EIP advances; RF is cleared (R15, R913) -/
  | next
  /-- EIP advances; RF stays (POPF, R913) -/
  | nextKeepRf
  /-- the instruction has set EIP; RF is cleared -/
  | went
  /-- the instruction has set EIP; RF stays as loaded (IRET, task switch, R913) -/
  | wentKeepRf
  /-- one iteration of a repeated string instruction is done and more remain (R691) -/
  | again
  /-- the instruction waits and has done nothing (WAIT and ESC with BUSY# active, R726, R997): what waits for its end
  waits on -/
  | waiting
deriving DecidableEq, Repr, Inhabited

/-- The state in which an instruction's meaning runs: the one-instruction inhibits are used up (R64), no debug trap is
gathered yet. -/
def State.begun (s : State) : State :=
  { s with inhibit := false, inhibitIntr := false, pend := 0, pendLate := 0, repActive := false, ranPast := false }

/-- EIP and RF where instruction `d` that began in `s` leaves them (R15, R913). -/
def Done.place (d : Done) (s t : State) : State :=
  match d with
  | .next => { t.setFlag .rf false with eip := s.nextEip, ranPast := s.nextPast }
  | .nextKeepRf => { t with eip := s.nextEip, ranPast := s.nextPast }
  | .went => t.setFlag .rf false
  | .wentKeepRf => t
  | .again => { t with repActive := true, inhibit := s.inhibit, inhibitIntr := s.inhibitIntr }
  | .waiting => { t with inhibit := s.inhibit, inhibitIntr := s.inhibitIntr, pendLate := s.pendLate }

/-- The end of an instruction that began in `s` (R118, R908, R915): EIP is kept in 0 to FFFFH in a 16-bit code segment, whatever
transferred control there (log 24), and the single-step trap is due when TF was 1 at its beginning.
DESIGN CHOICE: an iteration of a repeated string instruction ends here too, so that a late data-breakpoint bit (R907) is reported
at the end of the next iteration, not of the next whole instruction (logs 15, 19). -/
def finish (s : State) (d : Done) (t : State) : State :=
  let t := (d.place s t).trimEip
  let t := if s.flag .tf && d != .waiting then { t with pend := setBit t.pend 14 true } else t
  t.settle s.pend (if d = .waiting then 0 else s.pendLate)

/-- The end of an instruction that raised `x`, having reached `t` (R860, R880): nothing it did stays but what `keep` keeps,
and the exception is delivered; EIP is then as `finish` has it (R118). DESIGN CHOICE: a late data-breakpoint bit (R907) is
reported right after that delivery, before its handler's first instruction. DESIGN CHOICE: the data-breakpoint bits kept over the
inhibited boundary before this instruction, which R813 has taken now, are judged by the enables as they are after the delivery:
one whose breakpoint a task gate has disabled with Ln makes no trap, and goes only with another report that is due (log 15). -/
def abandon (s : State) (x : Exc) (t : State) : State :=
  let base := if x.committed then { t with pend := 0 } else s.begun.keep t
  let ret := if x.committed then t.eip else x.ret.getD s.eip
  let e : Event := { vec := x.vec, kind := .exc, code := x.code, isFault := x.isFault, ret := ret }
  (deliverAll deliverFuel e base).trimEip.settle s.pend s.pendLate

/-- One instruction: its effect, or the exception it raises taken. -/
def runM (m : M Done) (s : State) : State :=
  match m s.begun with
  | .ok d t => finish s d t
  | .error x t => abandon s x t

/-- The outcome of an instruction with effect `m`. -/
def instr (m : M Done) (s : State) : Host.Outcome State Fault Refusal := .next (runM m s)

/-- The outcome of an instruction that runs to the next one (R15 c). -/
def plain (m : M Unit) (s : State) : Host.Outcome State Fault Refusal :=
  instr (do m; pure .next) s

/-- An event taken between instructions: a debug exception, NMI or INTR (R880); EIP is then as `finish` has it (R118). A late
data-breakpoint bit waits on for the end of an instruction (R907). DESIGN CHOICE: NMI, when it leaves shutdown, drops the debug-trap bits that were kept over an
inhibited boundary (R813) before the fault that led to the shutdown (R870; log 32). -/
def takeEvent (e : Event) (s : State) : State :=
  (deliverAll deliverFuel e { s with pend := 0, repActive := false, ranPast := false }).trimEip.settle 0 0

/-- An instruction whose whole effect is exception `#UD` (R836). -/
def undefined (s : State) : Host.Outcome State Fault Refusal := instr raiseUD s

/-! ### The return from an interrupt or exception (R640 to R645) -/

/-- The first `n` bytes of the stack lie within its limit and do not wrap, else #SS(0) (R109, R613, R642). -/
def stackTop (n : Nat) : M Unit := do
  let s ← get
  checkSeg .ss s.esp n false
  when (!blockFits s.stack32 s.esp n) raiseSS0

/-- REAL-IRET: the return in real-address mode, and in V86 mode with IOPL 3 (R640). -/
def iretReal (w : Width) : M Unit := do
  let s ← get
  let off ← stackRead 0 w
  let csv ← stackRead w.bytes w
  let fl ← stackRead (2 * w.bytes) w
  let off : Dword := BitVec.setWidth 32 off
  checkTargetHere off
  modify fun s => s.setEsp (s.esp + BitVec.ofNat 32 (3 * w.bytes))
  realFar (BitVec.setWidth 16 csv) off
  modify fun t => t.putFlags (s.iretMask w) (BitVec.setWidth 32 fl)

/-- STACK-RETURN-TO-V86 (R644). -/
def iretV86 : M Unit := do
  let s ← get
  stackTop 36
  let off ← stackRead 0 .d32
  let csv ← stackRead 4 .d32
  let fl ← stackRead 8 .d32
  let nsp ← stackRead 12 .d32
  let nss ← stackRead 16 .d32
  let es ← stackRead 20 .d32
  let ds ← stackRead 24 .d32
  let fs ← stackRead 28 .d32
  let gs ← stackRead 32 .d32
  when (0xFFFF < off.toNat) raiseGP0
  modify fun t =>
    { t.putFlags (s.iretMask .d32) fl with
      cpl := 3
      cs := SegReg.loadV86 (csv.extractLsb' 0 16) true
      ss := SegReg.loadV86 (nss.extractLsb' 0 16) false
      es := SegReg.loadV86 (es.extractLsb' 0 16) false
      ds := SegReg.loadV86 (ds.extractLsb' 0 16) false
      fs := SegReg.loadV86 (fs.extractLsb' 0 16) false
      gs := SegReg.loadV86 (gs.extractLsb' 0 16) false
      eip := off
      regs := { t.regs with esp := nsp } }

/-- The code segment a far return goes to, with new privilege `cpl` (R612, R613, R642, R643). -/
def returnCode (sel : Word) (cpl : BitVec 2) : M Desc := do
  when (nullSel sel) raiseGP0
  let c ← fetchDescOr 13 false sel
  when (!c.isCode) (raiseSel 13 sel false)
  when (!c.conforming && c.dpl != cpl) (raiseSel 13 sel false)
  when (c.conforming && cpl < c.dpl) (raiseSel 13 sel false)
  when (!c.p) (raiseSel 11 sel false)
  pure c

/-- The stack segment of an outer level on a far return (R613, R643). -/
def returnStack (sel : Word) (cpl : BitVec 2) : M Desc := do
  when (nullSel sel) raiseGP0
  checkStackSeg 13 false cpl sel

/-- SS and eSP of the outer level: with a 16-bit operand size only SP is loaded (R613, D58). -/
def returnSP (sel : Word) (d : Desc) (w : Width) (sp : Dword) : M Unit := do
  setSS sel d
  modify fun s => if w = .d32 then s.setReg .d32 .esp sp else s.setReg .w16 .esp (BitVec.setWidth 16 sp)

/-- The flags of a return that stays out of V86 mode: VM is 0 in the image and in EFLAGS (R640, R641). -/
def State.stayMask (s : State) (w : Width) : Dword := setBit (s.iretMask w) 17 false

/-- RETURN-SAME-LEVEL (R642). -/
def iretSame (w : Width) (rs : Word) : M Unit := do
  let s ← get
  stackTop (3 * w.bytes)
  let c ← returnCode rs s.cpl
  let off ← stackRead 0 w
  let off : Dword := BitVec.setWidth 32 off
  checkTarget c rs off
  let fl ← stackRead (2 * w.bytes) w
  setCS rs c s.cpl
  modify fun t => { t.putFlags (s.stayMask w) (BitVec.setWidth 32 fl) with eip := off }
  modify fun t => t.setEsp (t.esp + BitVec.ofNat 32 (3 * w.bytes))

/-- RETURN-OUTER-LEVEL (R643). -/
def iretOuter (w : Width) (rs : Word) : M Unit := do
  let s ← get
  let cpl := selRpl rs
  stackTop (5 * w.bytes)
  let c ← returnCode rs cpl
  let nsp ← stackRead (3 * w.bytes) w
  let nss ← stackRead (4 * w.bytes) .w16
  let sd ← returnStack nss cpl
  let off ← stackRead 0 w
  let off : Dword := BitVec.setWidth 32 off
  checkTarget c rs off
  let fl ← stackRead (2 * w.bytes) w
  setCS rs c cpl
  modify fun t => { t.putFlags (s.stayMask w) (BitVec.setWidth 32 fl) with eip := off }
  returnSP nss sd w (BitVec.setWidth 32 nsp)
  modify fun t => t.invalidateDataSegs cpl

/-- TASK-RETURN (R645, R268). -/
def iretTask : M Unit := do
  let s ← get
  let tss ← sysRead16 s.tr.base
  let d ← taskDesc 10 false tss
  when (!(d.availTss || d.busyTss)) (raiseSel 10 tss false)
  when (!d.busyTss) (raiseSel 10 tss false)
  when (!d.p) (raiseSel 11 tss false)
  switchTasks .iret false tss d s.nextEip s.eflags
  checkTaskEip

/-- Does the image on the stack have VM = 1, with a 32-bit operand size at CPL 0? (R642) -/
def returnsToV86 (w : Width) : M Bool := do
  if w = .d32 ∧ (← get).cpl = 0 then do pure (bitOf (← stackRead 8 .d32) 17) else pure false

/-- STACK-RETURN: to V86 mode, to the same or to an outer level (R640, R642). -/
def iretStack (w : Width) : M Unit := do
  let s ← get
  let toV86 ← returnsToV86 w
  if toV86 then iretV86
  else
    let rs ← stackRead w.bytes .w16
    when (selRpl rs < s.cpl) (raiseSel 13 rs false)
    if s.cpl < selRpl rs then iretOuter w rs else iretSame w rs

/-- The kinds of return (R640). -/
def iretBy (w : Width) : M Unit := do
  let s ← get
  if !s.pe then iretReal w
  else if s.flag .vm then
    when (s.iopl < 3) raiseGP0
    iretReal w
  else if s.flag .nt then iretTask
  else iretStack w

/-- IRET (R640): every IRET ends the masking of NMI (R811). -/
def ireturn (w : Width) : M Done := do
  modify fun s => { s with nmiMask := false }
  iretBy w
  pure .wentKeepRf

end Sys2Proof.Machine
end

