-- ==== Sys2Proof/Machine/Flags.lean ====
section
/-! DEFINITION. Every flag computation: addition and subtraction (R450), logic (R500), shifts and rotates (R510 to R519),
multiplication (R460 to R463), bits (R540 to R546), decimal adjustment (R466 to R471), and undefined flags as free bits. -/

namespace Sys2Proof.Machine

/-- A flag the manual leaves undefined takes a free bit (log 7). -/
def freeFlag (f : Flag) : M Unit := do
  let b ← drawBit
  modify fun s => s.setFlag f b

/-- Several undefined flags, each with its own free bit. -/
def freeFlags : List Flag → M Unit
  | [] => pure ()
  | f :: fs => do
    freeFlag f
    freeFlags fs

/-- A flag written. -/
def putFlag (f : Flag) (b : Bool) : M Unit := modify fun s => s.setFlag f b

/-- PF: the low eight bits hold an even number of ones (R18). -/
def parity {n : Nat} (r : BitVec n) : Bool :=
  ((List.range 8).filter fun i => r.getLsbD i).length % 2 == 0

/-- `SZP(w, r)` (R450). -/
def State.szp {n : Nat} (s : State) (r : BitVec n) : State :=
  ((s.setFlag .sf r.msb).setFlag .zf (r == 0)).setFlag .pf (parity r)

/-- The sum of `ADDF` (R450). -/
def addVal {n : Nat} (a b : BitVec n) (c : Bool) : BitVec n := BitVec.ofNat n (a.toNat + b.toNat + c.toNat)

/-- The flags of `ADDF` (R450). -/
def State.addFlags {n : Nat} (s : State) (a b : BitVec n) (c : Bool) : State :=
  let r := addVal a b c
  let s := s.setFlag .cf (decide (2 ^ n ≤ a.toNat + b.toNat + c.toNat))
  let s := s.setFlag .af (decide (16 ≤ a.toNat % 16 + b.toNat % 16 + c.toNat))
  let s := s.setFlag .of (a.msb == b.msb && r.msb != a.msb)
  s.szp r

/-- The difference of `SUBF` (R450). -/
def subVal {n : Nat} (a b : BitVec n) (c : Bool) : BitVec n := a - b - BitVec.ofNat n c.toNat

/-- The flags of `SUBF` (R450). -/
def State.subFlags {n : Nat} (s : State) (a b : BitVec n) (c : Bool) : State :=
  let r := subVal a b c
  let s := s.setFlag .cf (decide (a.toNat < b.toNat + c.toNat))
  let s := s.setFlag .af (decide (a.toNat % 16 < b.toNat % 16 + c.toNat))
  let s := s.setFlag .of (a.msb != b.msb && r.msb != a.msb)
  s.szp r

/-- `ADDF(w, a, b, c)` (R450). -/
def addF {n : Nat} (a b : BitVec n) (c : Bool) : M (BitVec n) := do
  modify fun s => s.addFlags a b c
  pure (addVal a b c)

/-- `SUBF(w, a, b, c)` (R450). -/
def subF {n : Nat} (a b : BitVec n) (c : Bool) : M (BitVec n) := do
  modify fun s => s.subFlags a b c
  pure (subVal a b c)

/-- `LogicFlags(w, r)` but for AF (R500). -/
def State.logicFlags {n : Nat} (s : State) (r : BitVec n) : State :=
  ((s.setFlag .cf false).setFlag .of false).szp r

/-- `LogicFlags(w, r)` (R500): AF is free. -/
def logicF {n : Nat} (r : BitVec n) : M (BitVec n) := do
  modify fun s => s.logicFlags r
  freeFlag .af
  pure r

/-- An operation that leaves CF as it was (R457, R458). -/
def keepCF {α : Type} (m : M α) : M α := do
  let c := (← get).flag .cf
  let r ← m
  putFlag .cf c
  pure r

/-! ### Shifts and rotates (R510 to R517) -/

/-- One kind of shift or rotate: one single-bit step on the operand and CF, OF for a count of 1 from the original, the
result and the new CF, and whether SF, ZF and PF are written. -/
structure ShiftKind where
  step : {n : Nat} → BitVec n → Bool → BitVec n × Bool
  overflow : {n : Nat} → BitVec n → BitVec n → Bool → Bool
  rotates : Bool

/-- A Bool as the lowest bit of a value. -/
def lowBit (n : Nat) (b : Bool) : BitVec n := BitVec.ofNat n b.toNat
/-- A Bool as the highest bit of a value. -/
def highBit (n : Nat) (b : Bool) : BitVec n := lowBit n b <<< (n - 1)

/-- SHL (R511). -/
def kindShl : ShiftKind :=
  { step := fun x _ => (x <<< 1, x.msb), overflow := fun _ r c => r.msb ^^ c, rotates := false }
/-- SHR (R512). -/
def kindShr : ShiftKind :=
  { step := fun x _ => (x >>> 1, x.getLsbD 0), overflow := fun o _ _ => o.msb, rotates := false }
/-- SAR (R513). -/
def kindSar : ShiftKind :=
  { step := fun x _ => (x >>> 1 ||| highBit _ x.msb, x.getLsbD 0), overflow := fun _ _ _ => false, rotates := false }
/-- ROL (R514). -/
def kindRol : ShiftKind :=
  { step := fun x _ => (x <<< 1 ||| lowBit _ x.msb, x.msb), overflow := fun _ r c => r.msb ^^ c, rotates := true }
/-- The two highest bits of a result differ (R515, R517). -/
def topDiffer {n : Nat} (r : BitVec n) : Bool := r.msb ^^ r.getLsbD (n - 2)
/-- ROR (R515). -/
def kindRor : ShiftKind :=
  { step := fun x _ => (x >>> 1 ||| highBit _ (x.getLsbD 0), x.getLsbD 0), overflow := fun _ r _ => topDiffer r,
    rotates := true }
/-- RCL (R516). -/
def kindRcl : ShiftKind :=
  { step := fun x c => (x <<< 1 ||| lowBit _ c, x.msb), overflow := fun _ r c => r.msb ^^ c, rotates := true }
/-- RCR (R517). -/
def kindRcr : ShiftKind :=
  { step := fun x c => (x >>> 1 ||| highBit _ c, x.getLsbD 0), overflow := fun _ r _ => topDiffer r, rotates := true }

/-- `n` single-bit steps (R510). -/
def ShiftKind.steps (k : ShiftKind) {n : Nat} : Nat → BitVec n → Bool → BitVec n × Bool
  | 0, x, c => (x, c)
  | m + 1, x, c =>
    let p := k.step x c
    k.steps m p.1 p.2

/-- The masked count (R510). -/
def maskCount (c : Byte) : Nat := (c &&& 0x1F).toNat

/-- `SZP` and a free AF: what a shift does to them (R510). -/
def szpFreeAF {n : Nat} (r : BitVec n) : M Unit := do
  modify fun s => s.szp r
  freeFlag .af

/-- OF after a shift or rotate by `count`: defined for 1 only (R510). -/
def shiftOF (count : Nat) (b : Bool) : M Unit := if count = 1 then putFlag .of b else freeFlag .of

/-- A shift or rotate by a masked count: a count of 0 changes nothing; OF is defined for a count of 1 only; AF is free after
a shift (R510). -/
def shiftF (k : ShiftKind) {n : Nat} (count : Nat) (x : BitVec n) : M (BitVec n) := do
  if count = 0 then pure x
  else
    let p := k.steps count x ((← get).flag .cf)
    putFlag .cf p.2
    when (!k.rotates) (szpFreeAF p.1)
    shiftOF count (k.overflow x p.1 p.2)
    pure p.1

/-- The six status flags, which a double shift by the width or more leaves undefined (R518). -/
def allStatus : List Flag := [.cf, .of, .sf, .zf, .af, .pf]

/-- SHLD and SHRD (R518, R519): `r` and `c` are the result and the last bit shifted out for counts below the width. DESIGN
CHOICE: a word shifted by exactly 16 is among the undefined results, as R518 has it; section 3 of
spec/93_implementation_defined.md begins them at 17 (log 7). -/
def dshiftF {n : Nat} (count : Nat) (x r : BitVec n) (c : Bool) : M (BitVec n) := do
  if count = 0 then pure x
  else if n ≤ count then
    let v ← draw
    freeFlags allStatus
    pure (BitVec.setWidth n v)
  else
    modify fun s => (s.setFlag .cf c).szp r
    freeFlags [.of, .af]
    pure r

/-- SHLD's result (R518). -/
def shldVal {n : Nat} (k : Nat) (x y : BitVec n) : BitVec n := x <<< k ||| y >>> (n - k)
/-- SHRD's result (R519). -/
def shrdVal {n : Nat} (k : Nat) (x y : BitVec n) : BitVec n := x >>> k ||| y <<< (n - k)

/-! ### Multiplication and bits -/

/-- CF = OF = `b`; SF, ZF, AF and PF are free (R460 to R463). -/
def mulFlags (b : Bool) : M Unit := do
  putFlag .cf b
  putFlag .of b
  freeFlags [.sf, .zf, .af, .pf]

/-- CF is the bit; OF, SF, ZF, AF and PF are free (R541 to R544). -/
def bitFlags (b : Bool) : M Unit := do
  putFlag .cf b
  freeFlags [.of, .sf, .zf, .af, .pf]

/-- SF, ZF and PF from a byte (R466 to R471). -/
def szpF {n : Nat} (r : BitVec n) : M Unit := modify fun s => s.szp r

end Sys2Proof.Machine
end

