-- ==== Sys2Proof/Machine/Operands.lean ====
section
/-! DEFINITION. Operand forms: effective addresses (R333 to R338), the segment of a memory operand (R339), the r/m operand
read, written and updated (R400), immediates (R326), and the addressing of the string instructions (R660). -/

namespace Sys2Proof.Machine

/-- A displacement sign-extended (R333, R334). -/
def dispVal : Disp → Dword
  | .none => 0
  | .d8 v => v.signExtend 32
  | .d16 v => v.signExtend 32
  | .d32 v => v

/-- The registers of a 16-bit form added up (R333, R335). -/
def State.base16 (s : State) : Base16 → Word
  | .bxsi => s.reg .w16 .ebx + s.reg .w16 .esi
  | .bxdi => s.reg .w16 .ebx + s.reg .w16 .edi
  | .bpsi => s.reg .w16 .ebp + s.reg .w16 .esi
  | .bpdi => s.reg .w16 .ebp + s.reg .w16 .edi
  | .si => s.reg .w16 .esi
  | .di => s.reg .w16 .edi
  | .bp => s.reg .w16 .ebp
  | .bx => s.reg .w16 .ebx

/-- The address size of a form: 32 bits or 16 (R333, R334). -/
def addr32 : Addr → Bool
  | .direct16 _ | .based16 _ _ => false
  | .direct32 _ | .based32 _ _ | .sib _ _ _ _ => true

/-- A register of a SIB form, 0 when there is none (R337). -/
def State.regOr0 (s : State) : Option Reg → Dword
  | none => 0
  | some r => s.reg .d32 r

/-- The effective address (R335 to R337). -/
def State.ea (s : State) : Addr → Dword
  | .direct16 v => v.setWidth 32
  | .based16 b d => (s.base16 b + (dispVal d).setWidth 16).setWidth 32
  | .direct32 v => v
  | .based32 r d => s.reg .d32 r + dispVal d
  | .sib base index scale d => s.regOr0 base + (s.regOr0 index <<< scale.toNat) + dispVal d

/-- Does a base register select SS? (R333, R334, R337) -/
def frameReg : Reg → Bool
  | .esp | .ebp => true
  | _ => false

/-- The default segment of a form (R333, R334, R337). -/
def addrSegment : Addr → SReg
  | .direct16 _ | .direct32 _ => .ds
  | .based16 b _ => match b with
    | .bpsi | .bpdi | .bp => .ss
    | .bxsi | .bxdi | .si | .di | .bx => .ds
  | .based32 r _ => if frameReg r then .ss else .ds
  | .sib (some r) _ _ _ => if frameReg r then .ss else .ds
  | .sib none _ _ _ => .ds

/-- The segment of a memory operand: the override or the default (R339). -/
def segOf (m : MemRef) : SReg := m.seg.getD (addrSegment m.addr)

/-- The effective address of a memory operand. -/
def State.memEa (s : State) (m : MemRef) : Dword := s.ea m.addr

/-- An offset `k` bytes further on, in the address size of the operand (R338, R582). -/
def nextOff (m : MemRef) (off : Dword) (k : Nat) : Dword := cut (addr32 m.addr) (off + BitVec.ofNat 32 k)

/-- A memory operand read (R400). -/
def readMem (w : Width) (m : MemRef) : M (BitVec w.bits) := do
  memRead (segOf m) ((← get).memEa m) w

/-- A memory operand written (R400). -/
def writeMem (w : Width) (m : MemRef) (v : BitVec w.bits) : M Unit := do
  memWrite (segOf m) ((← get).memEa m) w v

/-- `ReadRM` (R400). -/
def readRm (w : Width) : Rm → M (BitVec w.bits)
  | .reg r => do pure ((← get).reg w r)
  | .mem m => readMem w m

/-- `WriteRM` (R400). -/
def writeRm (w : Width) (rm : Rm) (v : BitVec w.bits) : M Unit :=
  match rm with
  | .reg r => modify fun s => s.setReg w r v
  | .mem m => writeMem w m v

/-- `RMW` (R400, R106). -/
def updateRm (w : Width) (rm : Rm) (f : BitVec w.bits → M (BitVec w.bits)) : M Unit :=
  match rm with
  | .reg r => do
    let v ← f ((← get).reg w r)
    modify fun s => s.setReg w r v
  | .mem m => do memUpdate (segOf m) ((← get).memEa m) w f

/-- A register read. -/
def readReg (w : Width) (r : Reg) : M (BitVec w.bits) := do pure ((← get).reg w r)

/-- A register written. -/
def writeReg (w : Width) (r : Reg) (v : BitVec w.bits) : M Unit := modify fun s => s.setReg w r v

/-- An immediate of the operand's width. -/
def immOf (w : Width) (v : Dword) : BitVec w.bits := v.setWidth w.bits

/-- An immediate byte sign-extended to the operand's width (R326). -/
def immSx (w : Width) (v : Byte) : BitVec w.bits := v.signExtend w.bits

/-- A two-operand operation whose destination is written (R451). `f` is given the destination and the source. -/
def aluWrite (f : {n : Nat} → BitVec n → BitVec n → M (BitVec n)) : AluForm → M Unit
  | .rmReg w rm r => do
    let b ← readReg w r
    updateRm w rm fun a => f a b
  | .regRm w r rm => do
    let b ← readRm w rm
    let v ← f (← readReg w r) b
    writeReg w r v
  | .accImm w imm => do
    let v ← f (← readReg w .eax) (immOf w imm)
    writeReg w .eax v
  | .rmImm w rm imm => updateRm w rm fun a => f a (immOf w imm)
  | .rmImm8 w rm imm => updateRm w rm fun a => f a (immSx w imm)

/-- A two-operand operation that reads only: CMP (R451, R456). -/
def aluRead (f : {n : Nat} → BitVec n → BitVec n → M (BitVec n)) : AluForm → M Unit
  | .rmReg w rm r => do
    let a ← readRm w rm
    let _ ← f a (← readReg w r)
  | .regRm w r rm => do
    let b ← readRm w rm
    let _ ← f (← readReg w r) b
  | .accImm w imm => do
    let _ ← f (← readReg w .eax) (immOf w imm)
  | .rmImm w rm imm => do
    let a ← readRm w rm
    let _ ← f a (immOf w imm)
  | .rmImm8 w rm imm => do
    let a ← readRm w rm
    let _ ← f a (immSx w imm)

/-! ### Index and count registers by address size (R660, R574) -/

/-- A register as an offset or count of the address size, zero-extended. -/
def State.idx (s : State) (asz : Width) (r : Reg) : Dword := cut (asz = .d32) (s.regs.get r)

/-- The same register written: its upper half stays when the address size is 16. -/
def State.setIdx (s : State) (asz : Width) (r : Reg) (v : Dword) : State :=
  if asz = .d32 then s.setReg .d32 r v else s.setReg .w16 r (v.setWidth 16)

/-- An index register moved by `n` bytes, down when DF = 1 (R661). -/
def State.stepIdx (s : State) (asz : Width) (r : Reg) (n : Nat) : State :=
  let d := BitVec.ofNat 32 n
  s.setIdx asz r (if s.flag .df then s.idx asz r - d else s.idx asz r + d)

end Sys2Proof.Machine
end

