-- ==== Sys2Proof/Machine/Arith.lean ====
section
/-! DEFINITION. Binary and decimal arithmetic (spec/41_arithmetic.md). -/

namespace Sys2Proof.Machine

/-! ### Addition and subtraction -/

/-- ADD (R452). -/
def execAdd (f : AluForm) (s : State) : Host.Outcome State Fault Refusal :=
  plain (aluWrite (fun a b => addF a b false) f) s

/-- ADC (R453): CF is read before it is written. -/
def execAdc (f : AluForm) (s : State) : Host.Outcome State Fault Refusal :=
  plain (aluWrite (fun a b => addF a b (s.flag .cf)) f) s

/-- SUB (R454). -/
def execSub (f : AluForm) (s : State) : Host.Outcome State Fault Refusal :=
  plain (aluWrite (fun a b => subF a b false) f) s

/-- SBB (R455). -/
def execSbb (f : AluForm) (s : State) : Host.Outcome State Fault Refusal :=
  plain (aluWrite (fun a b => subF a b (s.flag .cf)) f) s

/-- CMP (R456): the result is discarded. -/
def execCmp (f : AluForm) (s : State) : Host.Outcome State Fault Refusal :=
  plain (aluRead (fun a b => subF a b false) f) s

/-- The operand of INC and DEC rewritten. -/
def incForm (g : {n : Nat} → BitVec n → M (BitVec n)) : IncForm → M Unit
  | .reg w r => updateRm w (.reg r) fun a => g a
  | .rm w rm => updateRm w rm fun a => g a

/-- INC (R457): CF stays. -/
def execInc (f : IncForm) (s : State) : Host.Outcome State Fault Refusal :=
  plain (incForm (fun a => keepCF (addF a (BitVec.ofNat _ 1) false)) f) s

/-- DEC (R458): CF stays. -/
def execDec (f : IncForm) (s : State) : Host.Outcome State Fault Refusal :=
  plain (incForm (fun a => keepCF (subF a (BitVec.ofNat _ 1) false)) f) s

/-- NEG (R459). -/
def execNeg (w : Width) (rm : Rm) (s : State) : Host.Outcome State Fault Refusal :=
  plain (updateRm w rm fun a => subF (BitVec.ofNat _ 0) a false) s

/-! ### Multiplication -/

/-- A double-length product in AX, DX:AX or EDX:EAX (R460, R461). -/
def State.setProduct (s : State) (w : Width) (p : Nat) : State :=
  match w with
  | .b8 => s.setReg .w16 .eax (BitVec.ofNat 16 p)
  | .w16 => (s.setReg .w16 .eax (BitVec.ofNat 16 p)).setReg .w16 .edx (BitVec.ofNat 16 (p / 2 ^ 16))
  | .d32 => (s.setReg .d32 .eax (BitVec.ofNat 32 p)).setReg .d32 .edx (BitVec.ofNat 32 (p / 2 ^ 32))

/-- The signed product `p` does not fit in `n` bits (R461 to R463). -/
def misfits (n : Nat) (p : Int) : Bool := decide (p < -(2 ^ (n - 1))) || decide (2 ^ (n - 1) - 1 < p)

/-- MUL (R460). -/
def execMul (w : Width) (rm : Rm) (s : State) : Host.Outcome State Fault Refusal :=
  plain (do
    let b ← readRm w rm
    let p := (s.reg w .eax).toNat * b.toNat
    modify fun s => s.setProduct w p
    mulFlags (decide (2 ^ w.bits ≤ p))) s

/-- A signed product cut to the operand width (R462, R463). -/
def imulReg (w : Width) (r : Reg) (a b : BitVec w.bits) : M Unit := do
  let p := a.toInt * b.toInt
  writeReg w r (BitVec.ofInt w.bits p)
  mulFlags (misfits w.bits p)

/-- The four forms of IMUL (R461 to R463). -/
def imulForm : ImulForm → M Unit
  | .acc w rm => do
    let b ← readRm w rm
    let p := ((← get).reg w .eax).toInt * b.toInt
    modify fun s => s.setProduct w (BitVec.ofInt (2 * w.bits) p).toNat
    mulFlags (misfits w.bits p)
  | .reg w r rm => do
    let b ← readRm w rm
    imulReg w r (← readReg w r) b
  | .imm w r rm v => do
    let b ← readRm w rm
    imulReg w r b (immOf w v)
  | .imm8 w r rm v => do
    let b ← readRm w rm
    imulReg w r b (immSx w v)

/-- IMUL (R461 to R463). -/
def execImul (f : ImulForm) (s : State) : Host.Outcome State Fault Refusal := plain (imulForm f) s

/-! ### Division -/

/-- The dividend in AX, DX:AX or EDX:EAX (R464). -/
def State.dividend (s : State) (w : Width) : BitVec (2 * w.bits) :=
  match w with
  | .b8 => s.reg .w16 .eax
  | .w16 => (s.reg .w16 .edx ++ s.reg .w16 .eax : BitVec 32)
  | .d32 => (s.reg .d32 .edx ++ s.reg .d32 .eax : BitVec 64)

/-- Where the remainder goes: AH, DX or EDX (R464). -/
def remReg : Width → Reg
  | .b8 => .esp
  | .w16 | .d32 => .edx

/-- Quotient and remainder in their registers (R464). -/
def State.setQuotient (s : State) (w : Width) (q r : BitVec w.bits) : State :=
  (s.setReg w .eax q).setReg w (remReg w) r

/-- DIV (R464): every status flag is free. -/
def execDiv (w : Width) (rm : Rm) (s : State) : Host.Outcome State Fault Refusal :=
  plain (do
    let d ← readRm w rm
    when (d == 0) raiseDE
    let n := (s.dividend w).toNat
    when (2 ^ w.bits ≤ n / d.toNat) raiseDE
    modify fun s => s.setQuotient w (BitVec.ofNat w.bits (n / d.toNat)) (BitVec.ofNat w.bits (n % d.toNat))
    freeFlags allStatus) s

/-- IDIV (R465): truncation toward 0; every status flag is free. -/
def execIdiv (w : Width) (rm : Rm) (s : State) : Host.Outcome State Fault Refusal :=
  plain (do
    let d ← readRm w rm
    when (d == 0) raiseDE
    let n := (s.dividend w).toInt
    let q := n.tdiv d.toInt
    when (misfits w.bits q) raiseDE
    modify fun s => s.setQuotient w (BitVec.ofInt w.bits q) (BitVec.ofInt w.bits (n.tmod d.toInt))
    freeFlags allStatus) s

/-! ### Decimal adjustment -/

/-- The first test of the decimal adjustments: the low digit of AL is above 9, or AF (R466). -/
def State.lowAdjust (s : State) : Bool := decide (9 < (s.reg .b8 .eax &&& 0x0F).toNat) || s.flag .af

/-- DAA and DAS: 6 and 60H added by `g` (R466, R467); OF is free. -/
def decimalAdjust (g : Byte → Byte → Byte) : M Unit := do
  let s ← get
  let al := s.reg .b8 .eax
  let al := if s.lowAdjust then g al 6 else al
  let high := decide (0x9F < al.toNat) || s.flag .cf
  let al := if high then g al 0x60 else al
  writeReg .b8 .eax al
  putFlag .af s.lowAdjust
  putFlag .cf high
  szpF al
  freeFlag .of

/-- DAA (R466). -/
def execDaa (s : State) : Host.Outcome State Fault Refusal := plain (decimalAdjust fun a k => a + k) s

/-- DAS (R467). -/
def execDas (s : State) : Host.Outcome State Fault Refusal := plain (decimalAdjust fun a k => a - k) s

/-- AAA and AAS: 6 and 1 added by `g` to AL and AH (R468, R469); OF, SF, ZF and PF are free. -/
def asciiAdjust (g : Byte → Byte → Byte) : M Unit := do
  let s ← get
  let al := s.reg .b8 .eax
  let ah := s.reg .b8 .esp
  writeReg .b8 .eax ((if s.lowAdjust then g al 6 else al) &&& 0x0F)
  writeReg .b8 .esp (if s.lowAdjust then g ah 1 else ah)
  putFlag .af s.lowAdjust
  putFlag .cf s.lowAdjust
  freeFlags [.of, .sf, .zf, .pf]

/-- AAA (R468). -/
def execAaa (s : State) : Host.Outcome State Fault Refusal := plain (asciiAdjust fun a k => a + k) s

/-- AAS (R469). -/
def execAas (s : State) : Host.Outcome State Fault Refusal := plain (asciiAdjust fun a k => a - k) s

/-- AAM (R470): base 0 is #DE; OF, AF and CF are free. -/
def execAam (base : Byte) (s : State) : Host.Outcome State Fault Refusal :=
  plain (do
    when (base == 0) raiseDE
    let al := s.reg .b8 .eax
    writeReg .b8 .esp (al / base)
    writeReg .b8 .eax (al % base)
    szpF (al % base)
    freeFlags [.of, .af, .cf]) s

/-- AAD (R471): OF, AF and CF are free. -/
def execAad (base : Byte) (s : State) : Host.Outcome State Fault Refusal :=
  plain (do
    let al := s.reg .b8 .esp * base + s.reg .b8 .eax
    writeReg .b8 .eax al
    writeReg .b8 .esp 0
    szpF al
    freeFlags [.of, .af, .cf]) s

end Sys2Proof.Machine
end

