-- ==== Sys2Proof/WellFormed.lean ====
section
/-! DEFINITION. Which terms of `Instr` some encoding stands for: operand sizes, address sizes, segment overrides and
repeat kinds agree with the lead bytes in front and the code segment's D bit (R322, R323), and operands fit their
fields (R330 to R341). -/

namespace Sys2Proof

/-- What the lead bytes read so far say (R322): the last segment override, whether 66 and 67 are present, the last of
F2 and F3. -/
structure Lead where
  seg : Option SReg
  o66 : Bool
  a67 : Bool
  rep : Rep
deriving DecidableEq, Repr, Inhabited

/-- No lead byte. -/
def Lead.start : Lead := { seg := none, o66 := false, a67 := false, rep := .none }

/-- The attributes an instruction is decoded with (R323). -/
structure Ctx where
  osz : Width
  asz : Width
  seg : Option SReg
  rep : Rep
deriving DecidableEq, Repr, Inhabited

/-- Table 17-1: the D bit, reversed when the size byte is present (R323). -/
def sizeOf (d flip : Bool) : Width := if d != flip then .d32 else .w16

/-- The attributes under lead bytes `l` in a code segment with D bit `d` (R323). -/
def Lead.ctx (d : Bool) (l : Lead) : Ctx :=
  { osz := sizeOf d l.o66, asz := sizeOf d l.a67, seg := l.seg, rep := l.rep }

/-- Byte form, or the operand size in force. -/
def okW (c : Ctx) (w : Width) : Bool := w == .b8 || w == c.osz

/-- The operand size in force. -/
def okV (c : Ctx) (w : Width) : Bool := w == c.osz

/-- An immediate fits its width. -/
def okImm (w : Width) (v : Dword) : Bool := decide (v.toNat < 2 ^ w.bits)

/-- A displacement that 16-bit addressing can hold. -/
def okDisp16 : Disp → Bool
  | .none | .d8 _ | .d16 _ => true
  | .d32 _ => false

/-- A displacement that 32-bit addressing can hold. -/
def okDisp32 : Disp → Bool
  | .none | .d8 _ | .d32 _ => true
  | .d16 _ => false

/-- An addressing form that the address size has (R333, R334, R337). -/
def okAddr (asz : Width) : Addr → Bool
  | .direct16 _ => asz == .w16
  | .based16 b d => asz == .w16 && okDisp16 d && !(b == .bp && d == .none)
  | .direct32 _ => asz == .d32
  | .based32 r d => asz == .d32 && okDisp32 d && r != .esp && !(r == .ebp && d == .none)
  | .sib none i _ d => asz == .d32 && i != some .esp && (match d with | .d32 _ => true | _ => false)
  | .sib (some b) i _ d => asz == .d32 && okDisp32 d && i != some .esp && !(b == .ebp && d == .none)

/-- A memory operand under the attributes in force. -/
def okMem (c : Ctx) (m : MemRef) : Bool := m.seg == c.seg && okAddr c.asz m.addr

/-- A register-or-memory operand. -/
def okRm (c : Ctx) : Rm → Bool
  | .reg _ => true
  | .mem m => okMem c m

/-- A `moffs` operand: a direct address of the address size (R340). -/
def okMoffs (c : Ctx) (m : MemRef) : Bool :=
  okMem c m && (match m.addr with | .direct16 _ | .direct32 _ => true | _ => false)

/-- Attributes of a string instruction. -/
def okStr (c : Ctx) (a : StrAttr) : Bool := a.asz == c.asz && a.seg == c.seg && a.rep == c.rep

def okAlu (c : Ctx) : AluForm → Bool
  | .rmReg w rm _ => okW c w && okRm c rm
  | .regRm w _ rm => okW c w && okRm c rm
  | .accImm w v => okW c w && okImm w v
  | .rmImm w rm v => okW c w && okRm c rm && okImm w v
  | .rmImm8 w rm _ => okV c w && okRm c rm

def okInc (c : Ctx) : IncForm → Bool
  | .reg w _ => okV c w
  | .rm w rm => okW c w && okRm c rm

def okImul (c : Ctx) : ImulForm → Bool
  | .acc w rm => okW c w && okRm c rm
  | .reg w _ rm => okV c w && okRm c rm
  | .imm w _ rm v => okV c w && okRm c rm && okImm w v
  | .imm8 w _ rm _ => okV c w && okRm c rm

def okTest (c : Ctx) : TestForm → Bool
  | .rmReg w rm _ => okW c w && okRm c rm
  | .accImm w v => okW c w && okImm w v
  | .rmImm w rm v => okW c w && okRm c rm && okImm w v

def okShift (c : Ctx) : ShiftForm → Bool
  | .imm w rm _ => okW c w && okRm c rm
  | .one w rm => okW c w && okRm c rm
  | .cl w rm => okW c w && okRm c rm

def okDShift (c : Ctx) : DShiftForm → Bool
  | .imm w rm _ _ => okV c w && okRm c rm
  | .cl w rm _ => okV c w && okRm c rm

def okBt (c : Ctx) : BtForm → Bool
  | .reg w rm _ => okV c w && okRm c rm
  | .imm w rm _ => okV c w && okRm c rm

def okMov (c : Ctx) : MovForm → Bool
  | .rmReg w rm _ => okW c w && okRm c rm
  | .regRm w _ rm => okW c w && okRm c rm
  | .accMoffs w m => okW c w && okMoffs c m
  | .moffsAcc w m => okW c w && okMoffs c m
  | .regImm w _ v => okW c w && okImm w v
  | .rmImm w rm v => okW c w && okRm c rm && okImm w v

def okXchg (c : Ctx) : XchgForm → Bool
  | .rmReg w rm _ => okW c w && okRm c rm
  | .acc w r => okV c w && r != .eax

def okPush (c : Ctx) : PushForm → Bool
  | .sreg w _ => okV c w
  | .reg w _ => okV c w
  | .imm w v => okV c w && okImm w v
  | .imm8 w _ => okV c w
  | .rm w rm => okV c w && okRm c rm

def okPop (c : Ctx) : PopForm → Bool
  | .sreg w sr => okV c w && sr != .cs
  | .reg w _ => okV c w
  | .rm w rm => okV c w && okRm c rm

def okRel (c : Ctx) : RelForm → Bool
  | .rel8 w _ => okV c w
  | .rel w v => okV c w && okImm w v

/-- A near JMP target. -/
def okNearJmp (c : Ctx) : NearForm → Bool
  | .rel8 w _ => okV c w
  | .rel w v => okV c w && okImm w v
  | .rm w rm => okV c w && okRm c rm

/-- A near CALL target: there is no rel8 form. -/
def okNearCall (c : Ctx) : NearForm → Bool
  | .rel8 _ _ => false
  | .rel w v => okV c w && okImm w v
  | .rm w rm => okV c w && okRm c rm

def okFar (c : Ctx) : FarForm → Bool
  | .ptr w _ v => okV c w && okImm w v
  | .mem w m => okV c w && okMem c m

def okIo (c : Ctx) : IoForm → Bool
  | .imm w _ => okW c w
  | .dx w => okW c w

/-- `i` is what some bytes in a code segment with D bit `d` stand for after lead bytes `l`. -/
def wfUnder (d : Bool) (l : Lead) : Instr → Bool
  | .add f | .or f | .adc f | .sbb f | .and f | .sub f | .xor f | .cmp f => okAlu (l.ctx d) f
  | .inc f | .dec f => okInc (l.ctx d) f
  | .not w rm | .neg w rm | .mul w rm | .div w rm | .idiv w rm => okW (l.ctx d) w && okRm (l.ctx d) rm
  | .imul f => okImul (l.ctx d) f
  | .daa | .das | .aaa | .aas | .aam _ | .aad _ => true
  | .test f => okTest (l.ctx d) f
  | .rol f | .ror f | .rcl f | .rcr f | .shl f | .shr f | .sar f => okShift (l.ctx d) f
  | .shld f | .shrd f => okDShift (l.ctx d) f
  | .bt f | .bts f | .btr f | .btc f => okBt (l.ctx d) f
  | .bsf w _ rm | .bsr w _ rm => okV (l.ctx d) w && okRm (l.ctx d) rm
  | .seto rm | .setno rm | .setb rm | .setae rm | .sete rm | .setne rm | .setbe rm | .seta rm
  | .sets rm | .setns rm | .setp rm | .setnp rm | .setl rm | .setge rm | .setle rm | .setg rm => okRm (l.ctx d) rm
  | .mov f => okMov (l.ctx d) f
  | .movFromSreg rm _ => okRm (l.ctx d) rm
  | .movToSreg sr rm => sr != .cs && okRm (l.ctx d) rm
  | .movFromCr _ _ | .movToCr _ _ | .movFromDr _ _ | .movToDr _ _ | .movFromTr _ _ | .movToTr _ _ => true
  | .xchg f => okXchg (l.ctx d) f
  | .push f => okPush (l.ctx d) f
  | .pop f => okPop (l.ctx d) f
  | .pusha | .popa | .cbw | .cwd | .popf | .pushf | .iret => (l.ctx d).osz == .w16
  | .pushad | .popad | .cwde | .cdq | .popfd | .pushfd | .iretd => (l.ctx d).osz == .d32
  | .movsx w _ src rm | .movzx w _ src rm => okV (l.ctx d) w && src != .d32 && okRm (l.ctx d) rm
  | .lea w _ m | .les w _ m | .lds w _ m | .lss w _ m | .lfs w _ m | .lgs w _ m | .bound w _ m =>
    okV (l.ctx d) w && okMem (l.ctx d) m
  | .xlat a => okStr (l.ctx d) a
  | .jo t | .jno t | .jb t | .jae t | .je t | .jne t | .jbe t | .ja t
  | .js t | .jns t | .jp t | .jnp t | .jl t | .jge t | .jle t | .jg t => okRel (l.ctx d) t
  | .jcxz w a _ | .loop w a _ | .loope w a _ | .loopne w a _ => okV (l.ctx d) w && a == (l.ctx d).asz
  | .jmp t => okNearJmp (l.ctx d) t
  | .call t => okNearCall (l.ctx d) t
  | .jmpFar t | .callFar t => okFar (l.ctx d) t
  | .ret w _ | .retFar w _ | .enter w _ _ | .leave w => okV (l.ctx d) w
  | .intN _ | .int3 | .into => true
  | .movsb a | .cmpsb a | .stosb a | .lodsb a | .scasb a | .insb a | .outsb a => okStr (l.ctx d) a
  | .movsw a | .cmpsw a | .stosw a | .lodsw a | .scasw a | .insw a | .outsw a =>
    okStr (l.ctx d) a && (l.ctx d).osz == .w16
  | .movsd a | .cmpsd a | .stosd a | .lodsd a | .scasd a | .insd a | .outsd a =>
    okStr (l.ctx d) a && (l.ctx d).osz == .d32
  | .inp f | .out f => okIo (l.ctx d) f
  | .stc | .clc | .cmc | .std | .cld | .cli | .sti | .lahf | .sahf | .nop | .hlt | .wait | .clts => true
  | .esc w a _ _ rm => okV (l.ctx d) w && a == (l.ctx d).asz && okRm (l.ctx d) rm
  | .lgdt w m | .lidt w m | .sgdt w m | .sidt w m => okV (l.ctx d) w && okMem (l.ctx d) m
  | .lldt rm | .sldt rm | .ltr rm | .str rm | .lmsw rm | .smsw rm | .verr rm | .verw rm | .arpl rm _ =>
    okRm (l.ctx d) rm
  | .lar w _ rm | .lsl w _ rm => okV (l.ctx d) w && okRm (l.ctx d) rm
  | .undef _ => true
  | .rep i => wfUnder d { l with rep := .rep } i
  | .repne i => wfUnder d { l with rep := .repne } i
  | .lock i => wfUnder d l i
  | .segES i => wfUnder d { l with seg := some .es } i
  | .segCS i => wfUnder d { l with seg := some .cs } i
  | .segSS i => wfUnder d { l with seg := some .ss } i
  | .segDS i => wfUnder d { l with seg := some .ds } i
  | .segFS i => wfUnder d { l with seg := some .fs } i
  | .segGS i => wfUnder d { l with seg := some .gs } i
  | .opsize i => wfUnder d { l with o66 := true } i
  | .addrsize i => wfUnder d { l with a67 := true } i

/-- Well-formed in a code segment whose D bit is `d` (R323). -/
def wf (d : Bool) (i : Instr) : Bool := wfUnder d Lead.start i

end Sys2Proof
end

