-- ==== Sys2Proof/Decode.lean ====
section
/-! DEFINITION. Decoding: the bytes at CS:EIP to an instruction and its length, total, rejecting by name (R325); and
after it the encoder, the bytes of a well-formed instruction, from the same tables (R344 to R346). -/

namespace Sys2Proof

/-- Why bytes are not an instruction. -/
inductive DecErr where
  /-- more bytes are needed (fewer than 15 were given) -/
  | truncated
  /-- the instruction needs a 16th byte (R119): #GP(0) -/
  | tooLong
  /-- an opcode that no map lists (R347): #UD -/
  | undefinedOpcode
  /-- a digit of a group that the map shows blank (R346): #UD -/
  | undefinedGroup
  /-- a register where the operand must be memory (R341): #UD -/
  | memoryRequired
  /-- a segment register number that does not exist, or CS as a destination (R330, R405): #UD -/
  | badRegister
deriving DecidableEq, Repr, Inhabited

/-- Reading the instruction bytes one after another. -/
abbrev Dec := StateT (List Byte) (Except DecErr)

/-- The next instruction byte. -/
def Dec.byte : Dec Byte := do
  match (← get) with
  | [] => throw .truncated
  | b :: rest => set rest; pure b

/-- Two bytes, the low one first (R326). -/
def Dec.word : Dec Word := do
  let lo ← Dec.byte
  let hi ← Dec.byte
  pure (hi ++ lo)

/-- Four bytes, the low one first (R326). -/
def Dec.dword : Dec Dword := do
  let lo ← Dec.word
  let hi ← Dec.word
  pure (hi ++ lo)

/-- An immediate of width `w`, zero-extended to be held (R326). -/
def Dec.imm : Width → Dec Dword
  | .b8 => do pure ((← Dec.byte).setWidth 32)
  | .w16 => do pure ((← Dec.word).setWidth 32)
  | .d32 => Dec.dword

/-- Register codes (R330). -/
def Reg.ofCode (n : BitVec 3) : Reg :=
  match n.toNat with
  | 0 => .eax | 1 => .ecx | 2 => .edx | 3 => .ebx | 4 => .esp | 5 => .ebp | 6 => .esi | _ => .edi

/-- Register codes (R330). -/
def Reg.code : Reg → BitVec 3
  | .eax => 0 | .ecx => 1 | .edx => 2 | .ebx => 3 | .esp => 4 | .ebp => 5 | .esi => 6 | .edi => 7

/-- Segment register codes; 6 and 7 name none (R330). -/
def SReg.ofCode (n : BitVec 3) : Option SReg :=
  match n.toNat with
  | 0 => some .es | 1 => some .cs | 2 => some .ss | 3 => some .ds | 4 => some .fs | 5 => some .gs | _ => none

/-- Segment register codes (R330). -/
def SReg.code : SReg → BitVec 3
  | .es => 0 | .cs => 1 | .ss => 2 | .ds => 3 | .fs => 4 | .gs => 5

/-- The r/m column of Table 17-2 (R333). -/
def Base16.ofCode (n : BitVec 3) : Base16 :=
  match n.toNat with
  | 0 => .bxsi | 1 => .bxdi | 2 => .bpsi | 3 => .bpdi | 4 => .si | 5 => .di | 6 => .bp | _ => .bx

/-- The r/m column of Table 17-2 (R333). -/
def Base16.code : Base16 → BitVec 3
  | .bxsi => 0 | .bxdi => 1 | .bpsi => 2 | .bpdi => 3 | .si => 4 | .di => 5 | .bp => 6 | .bx => 7

/-- A ModR/M byte's fields (R331). -/
structure ModRm where
  mod : BitVec 2
  reg : BitVec 3
  rm : BitVec 3
deriving DecidableEq, Repr, Inhabited

/-- The three fields of a ModR/M (or SIB) byte (R331, R332). -/
def ModRm.ofByte (b : Byte) : ModRm :=
  { mod := b.extractLsb' 6 2, reg := b.extractLsb' 3 3, rm := b.extractLsb' 0 3 }

/-- A displacement by the mod field in 16-bit addressing: none, disp8, disp16 (R333). -/
def Dec.disp16 (mod : BitVec 2) : Dec Disp :=
  match mod.toNat with
  | 0 => pure .none
  | 1 => do pure (.d8 (← Dec.byte))
  | _ => do pure (.d16 (← Dec.word))

/-- A displacement by the mod field in 32-bit addressing: none, disp8, disp32 (R334). -/
def Dec.disp32 (mod : BitVec 2) : Dec Disp :=
  match mod.toNat with
  | 0 => pure .none
  | 1 => do pure (.d8 (← Dec.byte))
  | _ => do pure (.d32 (← Dec.dword))

/-- The SIB byte and its displacement (R332, R337). -/
def Dec.sib (mod : BitVec 2) : Dec Addr := do
  let s := ModRm.ofByte (← Dec.byte)
  let index := if s.reg = 4 then none else some (Reg.ofCode s.reg)
  if s.rm = 5 ∧ mod = 0 then
    pure (.sib none index s.mod (.d32 (← Dec.dword)))
  else
    pure (.sib (some (Reg.ofCode s.rm)) index s.mod (← Dec.disp32 mod))

/-- The addressing form of a ModR/M byte with mod other than 11 (R333, R334). -/
def Dec.addr (asz : Width) (m : ModRm) : Dec Addr :=
  match asz with
  | .d32 =>
    if m.rm = 4 then Dec.sib m.mod
    else if m.rm = 5 ∧ m.mod = 0 then do pure (.direct32 (← Dec.dword))
    else do pure (.based32 (Reg.ofCode m.rm) (← Dec.disp32 m.mod))
  | _ =>
    if m.rm = 6 ∧ m.mod = 0 then do pure (.direct16 (← Dec.word))
    else do pure (.based16 (Base16.ofCode m.rm) (← Dec.disp16 m.mod))

/-- The r/m operand (R331). -/
def Dec.rm (c : Ctx) (m : ModRm) : Dec Rm :=
  if m.mod = 3 then pure (.reg (Reg.ofCode m.rm))
  else do pure (.mem { seg := c.seg, addr := ← Dec.addr c.asz m })

/-- A memory operand; a register is refused (R341). -/
def Dec.mem (c : Ctx) (m : ModRm) : Dec MemRef := do
  match (← Dec.rm c m) with
  | .mem r => pure r
  | .reg _ => throw .memoryRequired

/-- The direct offset of A0 to A3 (R340). -/
def Dec.moffs (c : Ctx) : Dec MemRef :=
  match c.asz with
  | .d32 => do pure { seg := c.seg, addr := .direct32 (← Dec.dword) }
  | _ => do pure { seg := c.seg, addr := .direct16 (← Dec.word) }

/-- A ModR/M byte and its r/m operand. -/
def Dec.modrm (c : Ctx) : Dec (ModRm × Rm) := do
  let m := ModRm.ofByte (← Dec.byte)
  pure (m, ← Dec.rm c m)

/-- A ModR/M byte whose operand must be memory. -/
def Dec.modmem (c : Ctx) : Dec (ModRm × MemRef) := do
  let m := ModRm.ofByte (← Dec.byte)
  pure (m, ← Dec.mem c m)

/-- The width a byte opcode's w bit selects (R323). -/
def widthOf (c : Ctx) (b : Byte) : Width := if b.getLsbD 0 then c.osz else .b8

/-- Group 1 and opcodes 00 to 3D: the operation in bits 5:3 (R344, R346). -/
def aluOf (n : BitVec 3) (f : AluForm) : Instr :=
  match n.toNat with
  | 0 => .add f | 1 => .or f | 2 => .adc f | 3 => .sbb f | 4 => .and f | 5 => .sub f | 6 => .xor f | _ => .cmp f

/-- Group 2 (R346): digit /6 is blank. -/
def shiftOf (n : BitVec 3) (f : ShiftForm) : Dec Instr :=
  match n.toNat with
  | 0 => pure (.rol f) | 1 => pure (.ror f) | 2 => pure (.rcl f) | 3 => pure (.rcr f)
  | 4 => pure (.shl f) | 5 => pure (.shr f) | 6 => throw .undefinedGroup | _ => pure (.sar f)

/-- The sixteen conditional jumps (R344, R345). -/
def jccOf (n : BitVec 4) (t : RelForm) : Instr :=
  match n.toNat with
  | 0 => .jo t
  | 1 => .jno t
  | 2 => .jb t
  | 3 => .jae t
  | 4 => .je t
  | 5 => .jne t
  | 6 => .jbe t
  | 7 => .ja t
  | 8 => .js t
  | 9 => .jns t
  | 10 => .jp t
  | 11 => .jnp t
  | 12 => .jl t
  | 13 => .jge t
  | 14 => .jle t
  | _ => .jg t

/-- The sixteen SETcc (R345). -/
def setccOf (n : BitVec 4) (rm : Rm) : Instr :=
  match n.toNat with
  | 0 => .seto rm
  | 1 => .setno rm
  | 2 => .setb rm
  | 3 => .setae rm
  | 4 => .sete rm
  | 5 => .setne rm
  | 6 => .setbe rm
  | 7 => .seta rm
  | 8 => .sets rm
  | 9 => .setns rm
  | 10 => .setp rm
  | 11 => .setnp rm
  | 12 => .setl rm
  | 13 => .setge rm
  | 14 => .setle rm
  | _ => .setg rm

/-- BT, BTS, BTR, BTC by the low two bits of their group digit (R346). -/
def btOf (n : BitVec 2) (f : BtForm) : Instr :=
  match n.toNat with
  | 0 => .bt f | 1 => .bts f | 2 => .btr f | _ => .btc f

/-- The attributes a string instruction is decoded with. -/
def strAttr (c : Ctx) : StrAttr := { asz := c.asz, seg := c.seg, rep := c.rep }

/-- The 16-bit form or the 32-bit form by the operand size. -/
def bySize (c : Ctx) (i16 i32 : Instr) : Instr := if c.osz = .d32 then i32 else i16

/-- Opcodes 00 to 3D with low bits 0 to 5 (R344). -/
def decodeAlu (c : Ctx) (b : Byte) : Dec Instr := do
  let op := aluOf (b.extractLsb' 3 3)
  let w := widthOf c b
  match (b.extractLsb' 1 2).toNat with
  | 0 => let (m, rm) ← Dec.modrm c
         pure (op (.rmReg w rm (Reg.ofCode m.reg)))
  | 1 => let (m, rm) ← Dec.modrm c
         pure (op (.regRm w (Reg.ofCode m.reg) rm))
  | _ => pure (op (.accImm w (← Dec.imm w)))

/-- Group 3: F6 and F7 (R346). DESIGN CHOICE: the blank digit /1 is undefined before an immediate is fetched (log 46). -/
def decodeGrp3 (c : Ctx) (w : Width) : Dec Instr := do
  let (m, rm) ← Dec.modrm c
  match m.reg.toNat with
  | 0 => pure (.test (.rmImm w rm (← Dec.imm w)))
  | 1 => throw .undefinedGroup
  | 2 => pure (.not w rm)
  | 3 => pure (.neg w rm)
  | 4 => pure (.mul w rm)
  | 5 => pure (.imul (.acc w rm))
  | 6 => pure (.div w rm)
  | _ => pure (.idiv w rm)

/-- Group 4: FE (R346). -/
def decodeGrp4 (c : Ctx) : Dec Instr := do
  let (m, rm) ← Dec.modrm c
  match m.reg.toNat with
  | 0 => pure (.inc (.rm .b8 rm))
  | 1 => pure (.dec (.rm .b8 rm))
  | _ => throw .undefinedGroup

/-- A far pointer in memory, for group 5 /3 and /5 (R341). -/
def farMem (w : Width) : Rm → Dec FarForm
  | .mem m => pure (.mem w m)
  | .reg _ => throw .memoryRequired

/-- Group 5: FF (R346). -/
def decodeGrp5 (c : Ctx) : Dec Instr := do
  let (m, rm) ← Dec.modrm c
  let w := c.osz
  match m.reg.toNat with
  | 0 => pure (.inc (.rm w rm))
  | 1 => pure (.dec (.rm w rm))
  | 2 => pure (.call (.rm w rm))
  | 3 => pure (.callFar (← farMem w rm))
  | 4 => pure (.jmp (.rm w rm))
  | 5 => pure (.jmpFar (← farMem w rm))
  | 6 => pure (.push (.rm w rm))
  | _ => throw .undefinedGroup

/-- Group 6: 0F 00 (R346). -/
def decodeGrp6 (c : Ctx) : Dec Instr := do
  let (m, rm) ← Dec.modrm c
  match m.reg.toNat with
  | 0 => pure (.sldt rm)
  | 1 => pure (.str rm)
  | 2 => pure (.lldt rm)
  | 3 => pure (.ltr rm)
  | 4 => pure (.verr rm)
  | 5 => pure (.verw rm)
  | _ => throw .undefinedGroup

/-- The memory operand of group 7 /0 to /3 (R341). -/
def memOf : Rm → Dec MemRef
  | .mem m => pure m
  | .reg _ => throw .memoryRequired

/-- Group 7: 0F 01 (R346). -/
def decodeGrp7 (c : Ctx) : Dec Instr := do
  let (m, rm) ← Dec.modrm c
  match m.reg.toNat with
  | 0 => pure (.sgdt c.osz (← memOf rm))
  | 1 => pure (.sidt c.osz (← memOf rm))
  | 2 => pure (.lgdt c.osz (← memOf rm))
  | 3 => pure (.lidt c.osz (← memOf rm))
  | 4 => pure (.smsw rm)
  | 6 => pure (.lmsw rm)
  | _ => throw .undefinedGroup

/-- Group 8: 0F BA (R346). DESIGN CHOICE: a blank digit (/0 to /3) is undefined before its Ib is fetched, unlike those of C0, C1,
C6 and C7 (R325 steps 5 and 7; log 46). -/
def decodeGrp8 (c : Ctx) : Dec Instr := do
  let (m, rm) ← Dec.modrm c
  if m.reg.getLsbD 2 then
    pure (btOf (m.reg.extractLsb' 0 2) (.imm c.osz rm (← Dec.byte)))
  else throw .undefinedGroup

/-- The segment register of a reg field (R330). -/
def sregOf (n : BitVec 3) : Dec SReg :=
  match SReg.ofCode n with
  | some sr => pure sr
  | none => throw .badRegister

/-- The two-byte map, second byte below 80 (R345). -/
def decodeTwoLow (c : Ctx) (b : Byte) : Dec Instr :=
  match b.toNat with
  | 0x00 => decodeGrp6 c
  | 0x01 => decodeGrp7 c
  | 0x02 => do let (m, rm) ← Dec.modrm c; pure (.lar c.osz (Reg.ofCode m.reg) rm)
  | 0x03 => do let (m, rm) ← Dec.modrm c; pure (.lsl c.osz (Reg.ofCode m.reg) rm)
  | 0x06 => pure .clts
  | 0x20 => do let m := ModRm.ofByte (← Dec.byte); pure (.movFromCr m.reg (Reg.ofCode m.rm))
  | 0x21 => do let m := ModRm.ofByte (← Dec.byte); pure (.movFromDr m.reg (Reg.ofCode m.rm))
  | 0x22 => do let m := ModRm.ofByte (← Dec.byte); pure (.movToCr m.reg (Reg.ofCode m.rm))
  | 0x23 => do let m := ModRm.ofByte (← Dec.byte); pure (.movToDr m.reg (Reg.ofCode m.rm))
  | 0x24 => do let m := ModRm.ofByte (← Dec.byte); pure (.movFromTr m.reg (Reg.ofCode m.rm))
  | 0x26 => do let m := ModRm.ofByte (← Dec.byte); pure (.movToTr m.reg (Reg.ofCode m.rm))
  | _ => throw .undefinedOpcode

/-- The two-byte map, second byte from A0 (R345). -/
def decodeTwoHigh (c : Ctx) (b : Byte) : Dec Instr :=
  match b.toNat with
  | 0xA0 => pure (.push (.sreg c.osz .fs))
  | 0xA1 => pure (.pop (.sreg c.osz .fs))
  | 0xA3 => do let (m, rm) ← Dec.modrm c; pure (.bt (.reg c.osz rm (Reg.ofCode m.reg)))
  | 0xA4 => do let (m, rm) ← Dec.modrm c; pure (.shld (.imm c.osz rm (Reg.ofCode m.reg) (← Dec.byte)))
  | 0xA5 => do let (m, rm) ← Dec.modrm c; pure (.shld (.cl c.osz rm (Reg.ofCode m.reg)))
  | 0xA8 => pure (.push (.sreg c.osz .gs))
  | 0xA9 => pure (.pop (.sreg c.osz .gs))
  | 0xAB => do let (m, rm) ← Dec.modrm c; pure (.bts (.reg c.osz rm (Reg.ofCode m.reg)))
  | 0xAC => do let (m, rm) ← Dec.modrm c; pure (.shrd (.imm c.osz rm (Reg.ofCode m.reg) (← Dec.byte)))
  | 0xAD => do let (m, rm) ← Dec.modrm c; pure (.shrd (.cl c.osz rm (Reg.ofCode m.reg)))
  | 0xAF => do let (m, rm) ← Dec.modrm c; pure (.imul (.reg c.osz (Reg.ofCode m.reg) rm))
  | 0xB2 => do let (m, a) ← Dec.modmem c; pure (.lss c.osz (Reg.ofCode m.reg) a)
  | 0xB3 => do let (m, rm) ← Dec.modrm c; pure (.btr (.reg c.osz rm (Reg.ofCode m.reg)))
  | 0xB4 => do let (m, a) ← Dec.modmem c; pure (.lfs c.osz (Reg.ofCode m.reg) a)
  | 0xB5 => do let (m, a) ← Dec.modmem c; pure (.lgs c.osz (Reg.ofCode m.reg) a)
  | 0xB6 => do let (m, rm) ← Dec.modrm c; pure (.movzx c.osz (Reg.ofCode m.reg) .b8 rm)
  | 0xB7 => do let (m, rm) ← Dec.modrm c; pure (.movzx c.osz (Reg.ofCode m.reg) .w16 rm)
  | 0xBA => decodeGrp8 c
  | 0xBB => do let (m, rm) ← Dec.modrm c; pure (.btc (.reg c.osz rm (Reg.ofCode m.reg)))
  | 0xBC => do let (m, rm) ← Dec.modrm c; pure (.bsf c.osz (Reg.ofCode m.reg) rm)
  | 0xBD => do let (m, rm) ← Dec.modrm c; pure (.bsr c.osz (Reg.ofCode m.reg) rm)
  | 0xBE => do let (m, rm) ← Dec.modrm c; pure (.movsx c.osz (Reg.ofCode m.reg) .b8 rm)
  | 0xBF => do let (m, rm) ← Dec.modrm c; pure (.movsx c.osz (Reg.ofCode m.reg) .w16 rm)
  | _ => throw .undefinedOpcode

/-- The two-byte map (R345). -/
def decodeTwo (c : Ctx) (b : Byte) : Dec Instr :=
  if b < 0x80 then decodeTwoLow c b
  else if b < 0x90 then do pure (jccOf (b.extractLsb' 0 4) (.rel c.osz (← Dec.imm c.osz)))
  else if b < 0xA0 then do let (_, rm) ← Dec.modrm c; pure (setccOf (b.extractLsb' 0 4) rm)
  else decodeTwoHigh c b

/-- The one-byte map: rows 0 to 3 outside the arithmetic columns (R344). -/
def decodeLow (c : Ctx) (b : Byte) : Dec Instr :=
  match b.toNat with
  | 0x06 => pure (.push (.sreg c.osz .es))
  | 0x07 => pure (.pop (.sreg c.osz .es))
  | 0x0E => pure (.push (.sreg c.osz .cs))
  | 0x0F => do decodeTwo c (← Dec.byte)
  | 0x16 => pure (.push (.sreg c.osz .ss))
  | 0x17 => pure (.pop (.sreg c.osz .ss))
  | 0x1E => pure (.push (.sreg c.osz .ds))
  | 0x1F => pure (.pop (.sreg c.osz .ds))
  | 0x27 => pure .daa
  | 0x2F => pure .das
  | 0x37 => pure .aaa
  | 0x3F => pure .aas
  | _ => throw .undefinedOpcode

/-- The one-byte map: row 6 (R344). -/
def decodeRow6 (c : Ctx) (b : Byte) : Dec Instr :=
  match b.toNat with
  | 0x60 => pure (bySize c .pusha .pushad)
  | 0x61 => pure (bySize c .popa .popad)
  | 0x62 => do let (m, a) ← Dec.modmem c; pure (.bound c.osz (Reg.ofCode m.reg) a)
  | 0x63 => do let (m, rm) ← Dec.modrm c; pure (.arpl rm (Reg.ofCode m.reg))
  | 0x68 => do pure (.push (.imm c.osz (← Dec.imm c.osz)))
  | 0x69 => do let (m, rm) ← Dec.modrm c; pure (.imul (.imm c.osz (Reg.ofCode m.reg) rm (← Dec.imm c.osz)))
  | 0x6A => do pure (.push (.imm8 c.osz (← Dec.byte)))
  | 0x6B => do let (m, rm) ← Dec.modrm c; pure (.imul (.imm8 c.osz (Reg.ofCode m.reg) rm (← Dec.byte)))
  | 0x6C => pure (.insb (strAttr c))
  | 0x6D => pure (bySize c (.insw (strAttr c)) (.insd (strAttr c)))
  | 0x6E => pure (.outsb (strAttr c))
  | 0x6F => pure (bySize c (.outsw (strAttr c)) (.outsd (strAttr c)))
  | _ => throw .undefinedOpcode

/-- The one-byte map: row 8 (R344). -/
def decodeRow8 (c : Ctx) (b : Byte) : Dec Instr :=
  match b.toNat with
  | 0x80 => do let (m, rm) ← Dec.modrm c; pure (aluOf m.reg (.rmImm .b8 rm (← Dec.imm .b8)))
  | 0x81 => do let (m, rm) ← Dec.modrm c; pure (aluOf m.reg (.rmImm c.osz rm (← Dec.imm c.osz)))
  | 0x82 => pure (.undef .op82)
  | 0x83 => do let (m, rm) ← Dec.modrm c; pure (aluOf m.reg (.rmImm8 c.osz rm (← Dec.byte)))
  | 0x84 => do let (m, rm) ← Dec.modrm c; pure (.test (.rmReg .b8 rm (Reg.ofCode m.reg)))
  | 0x85 => do let (m, rm) ← Dec.modrm c; pure (.test (.rmReg c.osz rm (Reg.ofCode m.reg)))
  | 0x86 => do let (m, rm) ← Dec.modrm c; pure (.xchg (.rmReg .b8 rm (Reg.ofCode m.reg)))
  | 0x87 => do let (m, rm) ← Dec.modrm c; pure (.xchg (.rmReg c.osz rm (Reg.ofCode m.reg)))
  | 0x88 => do let (m, rm) ← Dec.modrm c; pure (.mov (.rmReg .b8 rm (Reg.ofCode m.reg)))
  | 0x89 => do let (m, rm) ← Dec.modrm c; pure (.mov (.rmReg c.osz rm (Reg.ofCode m.reg)))
  | 0x8A => do let (m, rm) ← Dec.modrm c; pure (.mov (.regRm .b8 (Reg.ofCode m.reg) rm))
  | 0x8B => do let (m, rm) ← Dec.modrm c; pure (.mov (.regRm c.osz (Reg.ofCode m.reg) rm))
  | 0x8C => do let (m, rm) ← Dec.modrm c; pure (.movFromSreg rm (← sregOf m.reg))
  | 0x8D => do let (m, a) ← Dec.modmem c; pure (.lea c.osz (Reg.ofCode m.reg) a)
  | 0x8E => do
    let (m, rm) ← Dec.modrm c
    let sr ← sregOf m.reg
    if sr = .cs then throw .badRegister else pure (.movToSreg sr rm)
  | 0x8F => do
    let (m, rm) ← Dec.modrm c
    if m.reg = 0 then pure (.pop (.rm c.osz rm)) else throw .undefinedGroup
  | _ => throw .undefinedOpcode

/-- The one-byte map: row 9 from 98 (R344). -/
def decodeRow9 (c : Ctx) (b : Byte) : Dec Instr :=
  match b.toNat with
  | 0x98 => pure (bySize c .cbw .cwde)
  | 0x99 => pure (bySize c .cwd .cdq)
  | 0x9A => do
    let off ← Dec.imm c.osz
    pure (.callFar (.ptr c.osz (← Dec.word) off))
  | 0x9B => pure .wait
  | 0x9C => pure (bySize c .pushf .pushfd)
  | 0x9D => pure (bySize c .popf .popfd)
  | 0x9E => pure .sahf
  | 0x9F => pure .lahf
  | _ => throw .undefinedOpcode

/-- The one-byte map: row A (R344). -/
def decodeRowA (c : Ctx) (b : Byte) : Dec Instr :=
  let a := strAttr c
  match b.toNat with
  | 0xA0 => do pure (.mov (.accMoffs .b8 (← Dec.moffs c)))
  | 0xA1 => do pure (.mov (.accMoffs c.osz (← Dec.moffs c)))
  | 0xA2 => do pure (.mov (.moffsAcc .b8 (← Dec.moffs c)))
  | 0xA3 => do pure (.mov (.moffsAcc c.osz (← Dec.moffs c)))
  | 0xA4 => pure (.movsb a)
  | 0xA5 => pure (bySize c (.movsw a) (.movsd a))
  | 0xA6 => pure (.cmpsb a)
  | 0xA7 => pure (bySize c (.cmpsw a) (.cmpsd a))
  | 0xA8 => do pure (.test (.accImm .b8 (← Dec.imm .b8)))
  | 0xA9 => do pure (.test (.accImm c.osz (← Dec.imm c.osz)))
  | 0xAA => pure (.stosb a)
  | 0xAB => pure (bySize c (.stosw a) (.stosd a))
  | 0xAC => pure (.lodsb a)
  | 0xAD => pure (bySize c (.lodsw a) (.lodsd a))
  | 0xAE => pure (.scasb a)
  | 0xAF => pure (bySize c (.scasw a) (.scasd a))
  | _ => throw .undefinedOpcode

/-- The one-byte map: row C (R344). C6 and C7 have digit /0 only (D42). DESIGN CHOICE: the immediate of a blank digit (C0 and C1
/6, C6 and C7 /1 to /7) is fetched before the digit is refused, unlike that of 0F BA (R325 steps 5 and 7; log 46). -/
def decodeRowC (c : Ctx) (b : Byte) : Dec Instr :=
  match b.toNat with
  | 0xC0 => do let (m, rm) ← Dec.modrm c; shiftOf m.reg (.imm .b8 rm (← Dec.byte))
  | 0xC1 => do let (m, rm) ← Dec.modrm c; shiftOf m.reg (.imm c.osz rm (← Dec.byte))
  | 0xC2 => do pure (.ret c.osz (some (← Dec.word)))
  | 0xC3 => pure (.ret c.osz none)
  | 0xC4 => do let (m, a) ← Dec.modmem c; pure (.les c.osz (Reg.ofCode m.reg) a)
  | 0xC5 => do let (m, a) ← Dec.modmem c; pure (.lds c.osz (Reg.ofCode m.reg) a)
  | 0xC6 => do
    let (m, rm) ← Dec.modrm c
    let v ← Dec.imm .b8
    if m.reg = 0 then pure (.mov (.rmImm .b8 rm v)) else throw .undefinedGroup
  | 0xC7 => do
    let (m, rm) ← Dec.modrm c
    let v ← Dec.imm c.osz
    if m.reg = 0 then pure (.mov (.rmImm c.osz rm v)) else throw .undefinedGroup
  | 0xC8 => do
    let n ← Dec.word
    pure (.enter c.osz n (← Dec.byte))
  | 0xC9 => pure (.leave c.osz)
  | 0xCA => do pure (.retFar c.osz (some (← Dec.word)))
  | 0xCB => pure (.retFar c.osz none)
  | 0xCC => pure .int3
  | 0xCD => do pure (.intN (← Dec.byte))
  | 0xCE => pure .into
  | 0xCF => pure (bySize c .iret .iretd)
  | _ => throw .undefinedOpcode

/-- The one-byte map: row D below D8 (R344). -/
def decodeRowD (c : Ctx) (b : Byte) : Dec Instr :=
  match b.toNat with
  | 0xD0 => do let (m, rm) ← Dec.modrm c; shiftOf m.reg (.one .b8 rm)
  | 0xD1 => do let (m, rm) ← Dec.modrm c; shiftOf m.reg (.one c.osz rm)
  | 0xD2 => do let (m, rm) ← Dec.modrm c; shiftOf m.reg (.cl .b8 rm)
  | 0xD3 => do let (m, rm) ← Dec.modrm c; shiftOf m.reg (.cl c.osz rm)
  | 0xD4 => do pure (.aam (← Dec.byte))
  | 0xD5 => do pure (.aad (← Dec.byte))
  | 0xD6 => pure (.undef .opD6)
  | 0xD7 => pure (.xlat (strAttr c))
  | _ => throw .undefinedOpcode

/-- The one-byte map: row E (R344). -/
def decodeRowE (c : Ctx) (b : Byte) : Dec Instr :=
  match b.toNat with
  | 0xE0 => do pure (.loopne c.osz c.asz (← Dec.byte))
  | 0xE1 => do pure (.loope c.osz c.asz (← Dec.byte))
  | 0xE2 => do pure (.loop c.osz c.asz (← Dec.byte))
  | 0xE3 => do pure (.jcxz c.osz c.asz (← Dec.byte))
  | 0xE4 => do pure (.inp (.imm .b8 (← Dec.byte)))
  | 0xE5 => do pure (.inp (.imm c.osz (← Dec.byte)))
  | 0xE6 => do pure (.out (.imm .b8 (← Dec.byte)))
  | 0xE7 => do pure (.out (.imm c.osz (← Dec.byte)))
  | 0xE8 => do pure (.call (.rel c.osz (← Dec.imm c.osz)))
  | 0xE9 => do pure (.jmp (.rel c.osz (← Dec.imm c.osz)))
  | 0xEA => do
    let off ← Dec.imm c.osz
    pure (.jmpFar (.ptr c.osz (← Dec.word) off))
  | 0xEB => do pure (.jmp (.rel8 c.osz (← Dec.byte)))
  | 0xEC => pure (.inp (.dx .b8))
  | 0xED => pure (.inp (.dx c.osz))
  | 0xEE => pure (.out (.dx .b8))
  | 0xEF => pure (.out (.dx c.osz))
  | _ => throw .undefinedOpcode

/-- The one-byte map: row F but for its lead bytes (R344). -/
def decodeRowF (c : Ctx) (b : Byte) : Dec Instr :=
  match b.toNat with
  | 0xF1 => pure (.undef .opF1)
  | 0xF4 => pure .hlt
  | 0xF5 => pure .cmc
  | 0xF6 => decodeGrp3 c .b8
  | 0xF7 => decodeGrp3 c c.osz
  | 0xF8 => pure .clc
  | 0xF9 => pure .stc
  | 0xFA => pure .cli
  | 0xFB => pure .sti
  | 0xFC => pure .cld
  | 0xFD => pure .std
  | 0xFE => decodeGrp4 c
  | 0xFF => decodeGrp5 c
  | _ => throw .undefinedOpcode

/-- ESC: D8 to DF (R348). -/
def decodeEsc (c : Ctx) (b : Byte) : Dec Instr := do
  let (m, rm) ← Dec.modrm c
  pure (.esc c.osz c.asz (b.extractLsb' 0 3) m.reg rm)

/-- The one-byte map, the opcode byte being `b` (R344). -/
def decodeOne (c : Ctx) (b : Byte) : Dec Instr :=
  let r := Reg.ofCode (b.extractLsb' 0 3)
  if b < 0x40 then
    if b.extractLsb' 0 3 < 6 then decodeAlu c b else decodeLow c b
  else if b < 0x48 then pure (.inc (.reg c.osz r))
  else if b < 0x50 then pure (.dec (.reg c.osz r))
  else if b < 0x58 then pure (.push (.reg c.osz r))
  else if b < 0x60 then pure (.pop (.reg c.osz r))
  else if b < 0x70 then decodeRow6 c b
  else if b < 0x80 then do pure (jccOf (b.extractLsb' 0 4) (.rel8 c.osz (← Dec.byte)))
  else if b < 0x90 then decodeRow8 c b
  else if b = 0x90 then pure .nop
  else if b < 0x98 then pure (.xchg (.acc c.osz r))
  else if b < 0xA0 then decodeRow9 c b
  else if b < 0xB0 then decodeRowA c b
  else if b < 0xB8 then do pure (.mov (.regImm .b8 r (← Dec.imm .b8)))
  else if b < 0xC0 then do pure (.mov (.regImm c.osz r (← Dec.imm c.osz)))
  else if b < 0xD0 then decodeRowC c b
  else if b < 0xD8 then decodeRowD c b
  else if b < 0xE0 then decodeEsc c b
  else if b < 0xF0 then decodeRowE c b
  else decodeRowF c b

/-- The lead bytes (R321). -/
inductive LeadByte where
  | rep | repne | lock | es | cs | ss | ds | fs | gs | opsize | addrsize
deriving DecidableEq, Repr, Inhabited

/-- The lead bytes' codes (R321). -/
def LeadByte.ofByte (b : Byte) : Option LeadByte :=
  match b.toNat with
  | 0xF3 => some .rep
  | 0xF2 => some .repne
  | 0xF0 => some .lock
  | 0x26 => some .es
  | 0x2E => some .cs
  | 0x36 => some .ss
  | 0x3E => some .ds
  | 0x64 => some .fs
  | 0x65 => some .gs
  | 0x66 => some .opsize
  | 0x67 => some .addrsize
  | _ => none

/-- What a lead byte adds to those before it: the last segment override and the last of F2 and F3 win (R322). -/
def LeadByte.apply (l : Lead) : LeadByte → Lead
  | .rep => { l with rep := .rep }
  | .repne => { l with rep := .repne }
  | .lock => l
  | .es => { l with seg := some .es }
  | .cs => { l with seg := some .cs }
  | .ss => { l with seg := some .ss }
  | .ds => { l with seg := some .ds }
  | .fs => { l with seg := some .fs }
  | .gs => { l with seg := some .gs }
  | .opsize => { l with o66 := true }
  | .addrsize => { l with a67 := true }

/-- The constructor a lead byte puts in front of an instruction. -/
def LeadByte.wrap : LeadByte → Instr → Instr
  | .rep => .rep
  | .repne => .repne
  | .lock => .lock
  | .es => .segES
  | .cs => .segCS
  | .ss => .segSS
  | .ds => .segDS
  | .fs => .segFS
  | .gs => .segGS
  | .opsize => .opsize
  | .addrsize => .addrsize

/-- Lead bytes, then the opcode and its operands (R325 steps 1 to 5): the instruction and the bytes that follow it. -/
def decodeFrom (d : Bool) (l : Lead) : List Byte → Except DecErr (Instr × List Byte)
  | [] => .error .truncated
  | b :: rest =>
    match LeadByte.ofByte b with
    | some k =>
      match decodeFrom d (k.apply l) rest with
      | .ok (i, rest') => .ok (k.wrap i, rest')
      | .error e => .error e
    | none => (decodeOne (l.ctx d) b).run rest

/-- The longest instruction, in bytes (R119). -/
def maxInstrBytes : Nat := 15

/-- `Decode` (R325) of the bytes at CS:EIP, of which only the first 15 count (R119), in a code segment with D bit `d`:
the instruction and its length. -/
def decode (d : Bool) (bs : List Byte) : Except DecErr (Instr × Nat) :=
  let win := bs.take maxInstrBytes
  match decodeFrom d Lead.start win with
  | .ok (i, rest) => .ok (i, win.length - rest.length)
  | .error .truncated => if win.length < maxInstrBytes then .error .truncated else .error .tooLong
  | .error e => .error e

/-! ### The encoder -/

/-- A ModR/M or SIB byte (R331, R332). -/
def modrmByte (mod : BitVec 2) (reg rm : BitVec 3) : Byte := mod ++ reg ++ rm

/-- A word, the low byte first (R326). -/
def wordBytes (v : Word) : List Byte := [v.extractLsb' 0 8, v.extractLsb' 8 8]

/-- A doubleword, the low byte first (R326). -/
def dwordBytes (v : Dword) : List Byte :=
  [v.extractLsb' 0 8, v.extractLsb' 8 8, v.extractLsb' 16 8, v.extractLsb' 24 8]

/-- An immediate of width `w` (R326). -/
def immBytes (w : Width) (v : Dword) : List Byte :=
  match w with
  | .b8 => [v.extractLsb' 0 8]
  | .w16 => wordBytes (v.setWidth 16)
  | .d32 => dwordBytes v

/-- The mod field a displacement needs (R333, R334). -/
def Disp.mod : Disp → BitVec 2
  | .none => 0
  | .d8 _ => 1
  | .d16 _ | .d32 _ => 2

/-- The bytes of a displacement. -/
def Disp.bytes : Disp → List Byte
  | .none => []
  | .d8 v => [v]
  | .d16 v => wordBytes v
  | .d32 v => dwordBytes v

/-- The index code of a SIB byte (R337). -/
def indexCode : Option Reg → BitVec 3
  | none => 4
  | some r => r.code

/-- ModR/M, SIB and displacement bytes of an addressing form (R333, R334, R337). -/
def Addr.bytes (reg : BitVec 3) : Addr → List Byte
  | .direct16 v => modrmByte 0 reg 6 :: wordBytes v
  | .based16 b d => modrmByte d.mod reg b.code :: d.bytes
  | .direct32 v => modrmByte 0 reg 5 :: dwordBytes v
  | .based32 r d => modrmByte d.mod reg r.code :: d.bytes
  | .sib none i sc d => modrmByte 0 reg 4 :: modrmByte sc (indexCode i) 5 :: d.bytes
  | .sib (some b) i sc d => modrmByte d.mod reg 4 :: modrmByte sc (indexCode i) b.code :: d.bytes

/-- ModR/M bytes of an r/m operand with `reg` in the middle field. -/
def Rm.bytes (reg : BitVec 3) : Rm → List Byte
  | .reg r => [modrmByte 3 reg r.code]
  | .mem m => m.addr.bytes reg

/-- The offset bytes of A0 to A3. -/
def moffsBytes (m : MemRef) : List Byte :=
  match m.addr with
  | .direct16 v => wordBytes v
  | .direct32 v => dwordBytes v
  | _ => []

/-- The w bit: 0 for the byte form. -/
def wbit (w : Width) : Byte := if w = .b8 then 0 else 1

def encodeAlu (op : BitVec 3) : AluForm → List Byte
  | .rmReg w rm r => ((0 : BitVec 2) ++ op ++ (0 : BitVec 3) ||| wbit w) :: rm.bytes r.code
  | .regRm w r rm => ((0 : BitVec 2) ++ op ++ (2 : BitVec 3) ||| wbit w) :: rm.bytes r.code
  | .accImm w v => ((0 : BitVec 2) ++ op ++ (4 : BitVec 3) ||| wbit w) :: immBytes w v
  | .rmImm w rm v => (0x80 ||| wbit w) :: rm.bytes op ++ immBytes w v
  | .rmImm8 _ rm v => 0x83 :: rm.bytes op ++ [v]

/-- INC (digit 0) and DEC (digit 1). -/
def encodeInc (digit : BitVec 3) : IncForm → List Byte
  | .reg _ r => [(0x40 : Byte) + (digit ++ r.code : BitVec 6).setWidth 8]
  | .rm w rm => (0xFE ||| wbit w) :: rm.bytes digit

def encodeGrp3 (digit : BitVec 3) (w : Width) (rm : Rm) : List Byte := (0xF6 ||| wbit w) :: rm.bytes digit

def encodeImul : ImulForm → List Byte
  | .acc w rm => encodeGrp3 5 w rm
  | .reg _ r rm => 0x0F :: 0xAF :: rm.bytes r.code
  | .imm w r rm v => 0x69 :: rm.bytes r.code ++ immBytes w v
  | .imm8 _ r rm v => 0x6B :: rm.bytes r.code ++ [v]

def encodeTest : TestForm → List Byte
  | .rmReg w rm r => (0x84 ||| wbit w) :: rm.bytes r.code
  | .accImm w v => (0xA8 ||| wbit w) :: immBytes w v
  | .rmImm w rm v => encodeGrp3 0 w rm ++ immBytes w v

def encodeShift (digit : BitVec 3) : ShiftForm → List Byte
  | .imm w rm n => (0xC0 ||| wbit w) :: rm.bytes digit ++ [n]
  | .one w rm => (0xD0 ||| wbit w) :: rm.bytes digit
  | .cl w rm => (0xD2 ||| wbit w) :: rm.bytes digit

/-- SHLD (`op` A4) and SHRD (`op` AC). -/
def encodeDShift (op : Byte) : DShiftForm → List Byte
  | .imm _ rm r n => 0x0F :: op :: rm.bytes r.code ++ [n]
  | .cl _ rm r => 0x0F :: (op ||| 1) :: rm.bytes r.code

/-- BT, BTS, BTR, BTC by their number 0 to 3. -/
def encodeBt (k : BitVec 2) : BtForm → List Byte
  | .reg _ rm r => 0x0F :: (0xA3 ||| ((k ++ (0 : BitVec 3) : BitVec 5).setWidth 8)) :: rm.bytes r.code
  | .imm _ rm n => 0x0F :: 0xBA :: rm.bytes ((1 : BitVec 1) ++ k) ++ [n]

def encodeMov : MovForm → List Byte
  | .rmReg w rm r => (0x88 ||| wbit w) :: rm.bytes r.code
  | .regRm w r rm => (0x8A ||| wbit w) :: rm.bytes r.code
  | .accMoffs w m => (0xA0 ||| wbit w) :: moffsBytes m
  | .moffsAcc w m => (0xA2 ||| wbit w) :: moffsBytes m
  | .regImm w r v => ((if w = .b8 then 0xB0 else 0xB8) ||| r.code.setWidth 8) :: immBytes w v
  | .rmImm w rm v => (0xC6 ||| wbit w) :: rm.bytes 0 ++ immBytes w v

def encodeXchg : XchgForm → List Byte
  | .rmReg w rm r => (0x86 ||| wbit w) :: rm.bytes r.code
  | .acc _ r => [0x90 ||| r.code.setWidth 8]

def encodePushSreg : SReg → List Byte
  | .es => [0x06] | .cs => [0x0E] | .ss => [0x16] | .ds => [0x1E] | .fs => [0x0F, 0xA0] | .gs => [0x0F, 0xA8]

/-- POP CS does not exist (R413): CS has no bytes. -/
def encodePopSreg : SReg → List Byte
  | .es => [0x07] | .cs => [] | .ss => [0x17] | .ds => [0x1F] | .fs => [0x0F, 0xA1] | .gs => [0x0F, 0xA9]

def encodePush : PushForm → List Byte
  | .sreg _ sr => encodePushSreg sr
  | .reg _ r => [0x50 ||| r.code.setWidth 8]
  | .imm w v => 0x68 :: immBytes w v
  | .imm8 _ v => [0x6A, v]
  | .rm _ rm => 0xFF :: rm.bytes 6

def encodePop : PopForm → List Byte
  | .sreg _ sr => encodePopSreg sr
  | .reg _ r => [0x58 ||| r.code.setWidth 8]
  | .rm _ rm => 0x8F :: rm.bytes 0

/-- A conditional jump with condition number `cc` (R570). -/
def encodeJcc (cc : BitVec 4) : RelForm → List Byte
  | .rel8 _ d => [(7 : BitVec 4) ++ cc, d]
  | .rel w v => 0x0F :: ((8 : BitVec 4) ++ cc) :: immBytes w v

/-- SETcc with condition number `cc` (R550). -/
def encodeSetcc (cc : BitVec 4) (rm : Rm) : List Byte := 0x0F :: ((9 : BitVec 4) ++ cc) :: rm.bytes 0

def encodeJmp : NearForm → List Byte
  | .rel8 _ d => [0xEB, d]
  | .rel w v => 0xE9 :: immBytes w v
  | .rm _ rm => 0xFF :: rm.bytes 4

/-- CALL has no rel8 form: it has no bytes. -/
def encodeCall : NearForm → List Byte
  | .rel8 _ _ => []
  | .rel w v => 0xE8 :: immBytes w v
  | .rm _ rm => 0xFF :: rm.bytes 2

/-- A far JMP (`op` EA, digit 5) or CALL (`op` 9A, digit 3). -/
def encodeFar (op : Byte) (digit : BitVec 3) : FarForm → List Byte
  | .ptr w sel off => op :: immBytes w off ++ wordBytes sel
  | .mem _ m => 0xFF :: m.addr.bytes digit

/-- RET near (`op` C2) and far (`op` CA). -/
def encodeRet (op : Byte) : Option Word → List Byte
  | some n => op :: wordBytes n
  | none => [op ||| 1]

/-- IN (`op` E4) and OUT (`op` E6); the DX forms are 8 further on. -/
def encodeIo (op : Byte) : IoForm → List Byte
  | .imm w p => [op ||| wbit w, p]
  | .dx w => [op ||| 8 ||| wbit w]

def Undef.byte : Undef → Byte
  | .op82 => 0x82 | .opD6 => 0xD6 | .opF1 => 0xF1

/-- A MOV to or from a special register: `0F op` and a ModR/M byte with mod 11 (R770). -/
def encodeMovSpecial (op : Byte) (n : BitVec 3) (r : Reg) : List Byte := [0x0F, op, modrmByte 3 n r.code]

/-- The bytes of an instruction (R320). -/
def encode : Instr → List Byte
  | .add f => encodeAlu 0 f
  | .or f => encodeAlu 1 f
  | .adc f => encodeAlu 2 f
  | .sbb f => encodeAlu 3 f
  | .and f => encodeAlu 4 f
  | .sub f => encodeAlu 5 f
  | .xor f => encodeAlu 6 f
  | .cmp f => encodeAlu 7 f
  | .inc f => encodeInc 0 f
  | .dec f => encodeInc 1 f
  | .not w rm => encodeGrp3 2 w rm
  | .neg w rm => encodeGrp3 3 w rm
  | .mul w rm => encodeGrp3 4 w rm
  | .imul f => encodeImul f
  | .div w rm => encodeGrp3 6 w rm
  | .idiv w rm => encodeGrp3 7 w rm
  | .daa => [0x27]
  | .das => [0x2F]
  | .aaa => [0x37]
  | .aas => [0x3F]
  | .aam b => [0xD4, b]
  | .aad b => [0xD5, b]
  | .test f => encodeTest f
  | .rol f => encodeShift 0 f
  | .ror f => encodeShift 1 f
  | .rcl f => encodeShift 2 f
  | .rcr f => encodeShift 3 f
  | .shl f => encodeShift 4 f
  | .shr f => encodeShift 5 f
  | .sar f => encodeShift 7 f
  | .shld f => encodeDShift 0xA4 f
  | .shrd f => encodeDShift 0xAC f
  | .bt f => encodeBt 0 f
  | .bts f => encodeBt 1 f
  | .btr f => encodeBt 2 f
  | .btc f => encodeBt 3 f
  | .bsf _ r rm => 0x0F :: 0xBC :: rm.bytes r.code
  | .bsr _ r rm => 0x0F :: 0xBD :: rm.bytes r.code
  | .seto rm => encodeSetcc 0 rm
  | .setno rm => encodeSetcc 1 rm
  | .setb rm => encodeSetcc 2 rm
  | .setae rm => encodeSetcc 3 rm
  | .sete rm => encodeSetcc 4 rm
  | .setne rm => encodeSetcc 5 rm
  | .setbe rm => encodeSetcc 6 rm
  | .seta rm => encodeSetcc 7 rm
  | .sets rm => encodeSetcc 8 rm
  | .setns rm => encodeSetcc 9 rm
  | .setp rm => encodeSetcc 10 rm
  | .setnp rm => encodeSetcc 11 rm
  | .setl rm => encodeSetcc 12 rm
  | .setge rm => encodeSetcc 13 rm
  | .setle rm => encodeSetcc 14 rm
  | .setg rm => encodeSetcc 15 rm
  | .mov f => encodeMov f
  | .movFromSreg rm sr => 0x8C :: rm.bytes sr.code
  | .movToSreg sr rm => 0x8E :: rm.bytes sr.code
  | .movFromCr n r => encodeMovSpecial 0x20 n r
  | .movToCr n r => encodeMovSpecial 0x22 n r
  | .movFromDr n r => encodeMovSpecial 0x21 n r
  | .movToDr n r => encodeMovSpecial 0x23 n r
  | .movFromTr n r => encodeMovSpecial 0x24 n r
  | .movToTr n r => encodeMovSpecial 0x26 n r
  | .xchg f => encodeXchg f
  | .push f => encodePush f
  | .pop f => encodePop f
  | .pusha | .pushad => [0x60]
  | .popa | .popad => [0x61]
  | .cbw | .cwde => [0x98]
  | .cwd | .cdq => [0x99]
  | .movsx _ r src rm => 0x0F :: (0xBE ||| wbit src) :: rm.bytes r.code
  | .movzx _ r src rm => 0x0F :: (0xB6 ||| wbit src) :: rm.bytes r.code
  | .lea _ r m => 0x8D :: m.addr.bytes r.code
  | .les _ r m => 0xC4 :: m.addr.bytes r.code
  | .lds _ r m => 0xC5 :: m.addr.bytes r.code
  | .lss _ r m => 0x0F :: 0xB2 :: m.addr.bytes r.code
  | .lfs _ r m => 0x0F :: 0xB4 :: m.addr.bytes r.code
  | .lgs _ r m => 0x0F :: 0xB5 :: m.addr.bytes r.code
  | .xlat _ => [0xD7]
  | .jo t => encodeJcc 0 t
  | .jno t => encodeJcc 1 t
  | .jb t => encodeJcc 2 t
  | .jae t => encodeJcc 3 t
  | .je t => encodeJcc 4 t
  | .jne t => encodeJcc 5 t
  | .jbe t => encodeJcc 6 t
  | .ja t => encodeJcc 7 t
  | .js t => encodeJcc 8 t
  | .jns t => encodeJcc 9 t
  | .jp t => encodeJcc 10 t
  | .jnp t => encodeJcc 11 t
  | .jl t => encodeJcc 12 t
  | .jge t => encodeJcc 13 t
  | .jle t => encodeJcc 14 t
  | .jg t => encodeJcc 15 t
  | .jcxz _ _ d => [0xE3, d]
  | .loop _ _ d => [0xE2, d]
  | .loope _ _ d => [0xE1, d]
  | .loopne _ _ d => [0xE0, d]
  | .jmp t => encodeJmp t
  | .jmpFar t => encodeFar 0xEA 5 t
  | .call t => encodeCall t
  | .callFar t => encodeFar 0x9A 3 t
  | .ret _ n => encodeRet 0xC2 n
  | .retFar _ n => encodeRet 0xCA n
  | .enter _ n l => 0xC8 :: wordBytes n ++ [l]
  | .leave _ => [0xC9]
  | .bound _ r m => 0x62 :: m.addr.bytes r.code
  | .intN n => [0xCD, n]
  | .int3 => [0xCC]
  | .into => [0xCE]
  | .iret | .iretd => [0xCF]
  | .movsb _ => [0xA4]
  | .movsw _ | .movsd _ => [0xA5]
  | .cmpsb _ => [0xA6]
  | .cmpsw _ | .cmpsd _ => [0xA7]
  | .stosb _ => [0xAA]
  | .stosw _ | .stosd _ => [0xAB]
  | .lodsb _ => [0xAC]
  | .lodsw _ | .lodsd _ => [0xAD]
  | .scasb _ => [0xAE]
  | .scasw _ | .scasd _ => [0xAF]
  | .insb _ => [0x6C]
  | .insw _ | .insd _ => [0x6D]
  | .outsb _ => [0x6E]
  | .outsw _ | .outsd _ => [0x6F]
  | .inp f => encodeIo 0xE4 f
  | .out f => encodeIo 0xE6 f
  | .stc => [0xF9]
  | .clc => [0xF8]
  | .cmc => [0xF5]
  | .std => [0xFD]
  | .cld => [0xFC]
  | .cli => [0xFA]
  | .sti => [0xFB]
  | .lahf => [0x9F]
  | .sahf => [0x9E]
  | .popf | .popfd => [0x9D]
  | .pushf | .pushfd => [0x9C]
  | .nop => [0x90]
  | .hlt => [0xF4]
  | .wait => [0x9B]
  | .esc _ _ op reg rm => ((0b11011 : BitVec 5) ++ op) :: rm.bytes reg
  | .lgdt _ m => 0x0F :: 0x01 :: m.addr.bytes 2
  | .lidt _ m => 0x0F :: 0x01 :: m.addr.bytes 3
  | .sgdt _ m => 0x0F :: 0x01 :: m.addr.bytes 0
  | .sidt _ m => 0x0F :: 0x01 :: m.addr.bytes 1
  | .sldt rm => 0x0F :: 0x00 :: rm.bytes 0
  | .str rm => 0x0F :: 0x00 :: rm.bytes 1
  | .lldt rm => 0x0F :: 0x00 :: rm.bytes 2
  | .ltr rm => 0x0F :: 0x00 :: rm.bytes 3
  | .verr rm => 0x0F :: 0x00 :: rm.bytes 4
  | .verw rm => 0x0F :: 0x00 :: rm.bytes 5
  | .smsw rm => 0x0F :: 0x01 :: rm.bytes 4
  | .lmsw rm => 0x0F :: 0x01 :: rm.bytes 6
  | .clts => [0x0F, 0x06]
  | .lar _ r rm => 0x0F :: 0x02 :: rm.bytes r.code
  | .lsl _ r rm => 0x0F :: 0x03 :: rm.bytes r.code
  | .arpl rm r => 0x63 :: rm.bytes r.code
  | .undef u => [u.byte]
  | .rep i => 0xF3 :: encode i
  | .repne i => 0xF2 :: encode i
  | .lock i => 0xF0 :: encode i
  | .segES i => 0x26 :: encode i
  | .segCS i => 0x2E :: encode i
  | .segSS i => 0x36 :: encode i
  | .segDS i => 0x3E :: encode i
  | .segFS i => 0x64 :: encode i
  | .segGS i => 0x65 :: encode i
  | .opsize i => 0x66 :: encode i
  | .addrsize i => 0x67 :: encode i

/-- `n` bytes of the number `w`, the least significant first. -/
def bytesOfNat : Nat → Nat → List Byte
  | 0, _ => []
  | n + 1, w => BitVec.ofNat 8 w :: bytesOfNat n (w / 256)

/-- The 15 bytes that an instruction of `nbits` bits `w` stands for: byte 0 is the least significant; every byte past
`nbits` is 0. -/
def tableBytes (nbits w : Nat) : List Byte := bytesOfNat maxInstrBytes (w % 2 ^ nbits)

/-- The instruction the decoder reads from an opcode-table word, in a 16-bit code segment as after RESET (R70). -/
def decodeTableWord (nbits w : Nat) : Option Instr :=
  match decode false (tableBytes nbits w) with
  | .ok (i, _) => some i
  | .error _ => none

end Sys2Proof
end

