-- ==== Sys2Proof/Machine/Coproc.lean ====
section
/-! DEFINITION. WAIT and ESC: the processor's side of the coprocessor interface (spec/46_flag_misc.md R726, R727;
spec/63_coprocessor_multiproc.md R990 to R997). -/

namespace Sys2Proof.Machine

/-- BUSY# as the processor sees it: inactive without a coprocessor (R990). -/
def State.busy (s : State) : Bool := s.coproc != .none && s.pinBusy
/-- ERROR# as the processor sees it: inactive without a coprocessor (R990). -/
def State.coprocError (s : State) : Bool := s.coproc != .none && s.pinError

/-- #MF (R845, R995). -/
def raiseMF {α : Type} : M α := raise 16 none

/-- WAIT (R726, R993, R995, R997). -/
def execWait (s : State) : Host.Outcome State Fault Refusal :=
  instr (do
    when (s.mp && s.tsw) raiseNM
    if s.busy then pure .waiting
    else
      when s.coprocError raiseMF
      pure .next) s

/-- The 11 bits of a coprocessor opcode: the low three of the first byte, then the ModR/M byte (R990). -/
def escOpcode (op reg : BitVec 3) (rm : Rm) : BitVec 11 := op ++ (rm.bytes reg).headD 0

/-- The offsets of the `n` bytes of a coprocessor operand, modulo the address size (R996). -/
def escOffsets (asz : Width) (off : Dword) : Nat → List Dword
  | 0 => []
  | n + 1 => off :: escOffsets asz (cut (asz = .d32) (off + 1)) n

/-- The checks of one byte of the operand: limit, type and page (R996). -/
def escCheck (sr : SReg) (w : Bool) (off : Dword) : M Unit := do
  checkSeg sr off 1 w
  let s ← get
  let _ ← translate (s.linOf sr off) w s.user

/-- A middle byte's violation is exception 9: an abort without error code that leaves CR2 as it was, with a return offset
drawn from this instruction's and the next one's (R996, D85; log 26). -/
def overrun {α : Type} (m : M α) : M α := fun s =>
  match m s with
  | .ok a t => .ok a t
  | .error _ t =>
    (do
      let next ← drawBit
      throw { vec := 9, code := none, isFault := false, ret := some (if next then s.nextEip else s.eip),
              committed := false } : M α) { t with cr2 := s.cr2 }

/-- The bytes of an operand read for the coprocessor (R996). DESIGN CHOICE: one access for each byte, in ascending order; R996
says "in several parts" and gives neither their width nor, with R96, their order (log 26). -/
def escLoad (sr : SReg) : List Dword → M (List Byte)
  | [] => pure []
  | off :: rest => do
    let b ← memRead sr off .b8
    let bs ← escLoad sr rest
    pure (b :: bs)

/-- The bytes the coprocessor stores (R996). DESIGN CHOICE: one access for each byte, as in `escLoad` (log 26). -/
def escStore (sr : SReg) : List (Dword × Byte) → M Unit
  | [] => pure ()
  | (off, b) :: rest => do
    memWrite sr off .b8 b
    escStore sr rest

/-- The checks of every byte in turn: the bytes before the first that fails. -/
def escReach (sr : SReg) (w : Bool) : List Dword → M Nat
  | [] => pure 0
  | off :: rest => do
    let ok ← (do escCheck sr w off; pure true : M Bool).tryCatch fun _ => pure false
    if ok then do pure ((← escReach sr w rest) + 1) else pure 0

/-- Of the bytes of a store before the failing one each was written or not (R996, D85). -/
def escPartial (sr : SReg) : List (Dword × Byte) → M Unit
  | [] => pure ()
  | (off, b) :: rest => do
    when ((← drawBit)) (memWrite sr off .b8 b)
    escPartial sr rest

/-- A store whose byte number `ok` fails: whatever the stores before it change, it is exception 9 (R996). -/
def escBroken (sr : SReg) (items : List (Dword × Byte)) (ok : Nat) : M Unit :=
  overrun (do
    escPartial sr (items.take ok)
    raise 9 none)

/-- The first and the last byte of the operand are checked first: their violations are ordinary faults (R996), which mark no
page (R226). DESIGN CHOICE: where both pass and a middle byte then ends the transfer in exception 9, the accessed and, for a
store, dirty bits that these checks set stay, and so do those of the earlier bytes that passed theirs (`escReach`), whether or
not a byte was written there; R226 does not say (log 26). -/
def escEnds (sr : SReg) (w : Bool) (offs : List Dword) : M Unit :=
  match offs with
  | [] => pure ()
  | first :: _ => undoing do
    escCheck sr w first
    escCheck sr w (offs.getLastD first)

/-- The transfer a coprocessor asks for (R990, R996): the bytes read for it. -/
def escTransfer (asz : Width) (t : CoprocTransfer) : Option (SReg × Dword) → M (List Byte)
  | none => pure []
  | some (sr, off) =>
    match t with
    | .none => pure []
    | .load n => do
      let offs := escOffsets asz off n
      overrun (escLoad sr offs)
    | .store bytes => do
      let items := (escOffsets asz off bytes.length).zip bytes
      let cr2 := (← get).cr2
      let ok ← escReach sr true (items.map (·.1))
      modify fun s => { s with cr2 := cr2 }
      (if ok = items.length then overrun (escStore sr items) else escBroken sr items ok)
      pure []

/-- The checks of both ends of the transfer a reply asks for (R996). -/
def escCheckEnds (asz : Width) (t : CoprocTransfer) : Option (SReg × Dword) → M Unit
  | none => pure ()
  | some (sr, off) =>
    match t with
    | .none => pure ()
    | .load n => escEnds sr false (escOffsets asz off n)
    | .store bytes => escEnds sr true (escOffsets asz off bytes.length)

/-- AX takes the status word, when the coprocessor answers one (R990). -/
def coprocAx : Option Word → M Unit
  | none => pure ()
  | some v => writeReg .w16 .eax v

/-- The memory operand of an ESC instruction. -/
def State.escOperand (s : State) : Rm → Option (SReg × Dword)
  | .reg _ => none
  | .mem m => some (segOf m, s.memEa m)

/-- `CoprocExec` (R990): the reply is taken, the transfer made, AX and the pins take what the coprocessor answers. -/
def coprocExec (w asz : Width) (opcode : BitVec 11) (operand : Option (SReg × Dword)) (r : CoprocReply) : M Unit := do
  escCheckEnds asz r.transfer operand
  modify fun s => { s with coprocReplies := s.coprocReplies.tail, pinBusy := r.busy, pinError := r.error }
  let bytes ← escTransfer asz r.transfer operand
  modify fun s =>
    { s with coprocSent := s.coprocSent ++
        [{ opcode := opcode, operand := operand.map fun (sr, off) => ((s.sreg sr).sel, off), opsize := w.bits,
           addrsize := asz.bits, loaded := bytes }] }
  coprocAx r.ax

/-- The coprocessor's next reply; where none has been placed it asks for nothing and leaves the pins (R990; log 11). -/
def State.nextReply (s : State) : CoprocReply :=
  s.coprocReplies.headD { transfer := .none, ax := none, busy := s.pinBusy, error := s.pinError }

/-- ESC (R727, R993, R995, D76, D86). DESIGN CHOICE: an ESC that has waited for BUSY# runs again from its beginning, so that
EM, TS and ERROR# are tested again after the wait (R995, R997; log 19). -/
def execEsc (w : Width) (asz : Width) (op : BitVec 3) (reg : BitVec 3) (rm : Rm) (s : State) :
    Host.Outcome State Fault Refusal :=
  instr (do
    when (s.em || s.tsw) raiseNM
    let opcode := escOpcode op reg rm
    when (s.coprocError && Config.escTestsError opcode) raiseMF
    if s.busy then pure .waiting
    else
      when (s.coproc != .none) (coprocExec w asz opcode (s.escOperand rm) s.nextReply)
      pure .next) s

end Sys2Proof.Machine
end

