-- ==== Sys2Proof/Machine/Logic.lean ====
section
/-! DEFINITION. Boolean operations, shifts and rotates, bit instructions and SETcc (spec/42_logic_shift_bit.md), and the
sixteen conditions (R570). -/

namespace Sys2Proof.Machine

/-! ### Boolean operations -/

/-- AND (R501). -/
def execAnd (f : AluForm) (s : State) : Host.Outcome State Fault Refusal :=
  plain (aluWrite (fun a b => logicF (a &&& b)) f) s

/-- OR (R502). -/
def execOr (f : AluForm) (s : State) : Host.Outcome State Fault Refusal :=
  plain (aluWrite (fun a b => logicF (a ||| b)) f) s

/-- XOR (R503). -/
def execXor (f : AluForm) (s : State) : Host.Outcome State Fault Refusal :=
  plain (aluWrite (fun a b => logicF (a ^^^ b)) f) s

/-- NOT (R504): no flag changes. -/
def execNot (w : Width) (rm : Rm) (s : State) : Host.Outcome State Fault Refusal :=
  plain (updateRm w rm fun a => pure (~~~a)) s

/-- The operands of TEST combined (R505). -/
def testForm : TestForm → M Unit
  | .rmReg w rm r => do
    let a ← readRm w rm
    let _ ← logicF (a &&& (← readReg w r))
  | .accImm w imm => do
    let a ← readReg w .eax
    let _ ← logicF (a &&& immOf w imm)
  | .rmImm w rm imm => do
    let a ← readRm w rm
    let _ ← logicF (a &&& immOf w imm)

/-- TEST (R505): only the flags change. -/
def execTest (f : TestForm) (s : State) : Host.Outcome State Fault Refusal := plain (testForm f) s

/-! ### Shifts and rotates -/

/-- A shift or rotate of kind `k` (R510). -/
def shiftForm (k : ShiftKind) : ShiftForm → M Unit
  | .imm w rm n => updateRm w rm fun x => shiftF k (maskCount n) x
  | .one w rm => updateRm w rm fun x => shiftF k 1 x
  | .cl w rm => do
    let n := maskCount ((← get).reg .b8 .ecx)
    updateRm w rm fun x => shiftF k n x

/-- ROL (R514). -/
def execRol (f : ShiftForm) (s : State) : Host.Outcome State Fault Refusal := plain (shiftForm kindRol f) s
/-- ROR (R515). -/
def execRor (f : ShiftForm) (s : State) : Host.Outcome State Fault Refusal := plain (shiftForm kindRor f) s
/-- RCL (R516). -/
def execRcl (f : ShiftForm) (s : State) : Host.Outcome State Fault Refusal := plain (shiftForm kindRcl f) s
/-- RCR (R517). -/
def execRcr (f : ShiftForm) (s : State) : Host.Outcome State Fault Refusal := plain (shiftForm kindRcr f) s
/-- SHL, SAL (R511). -/
def execShl (f : ShiftForm) (s : State) : Host.Outcome State Fault Refusal := plain (shiftForm kindShl f) s
/-- SHR (R512). -/
def execShr (f : ShiftForm) (s : State) : Host.Outcome State Fault Refusal := plain (shiftForm kindShr f) s
/-- SAR (R513). -/
def execSar (f : ShiftForm) (s : State) : Host.Outcome State Fault Refusal := plain (shiftForm kindSar f) s

/-- The operands and the masked count of a double shift (R518). DESIGN CHOICE: with a count of 0 a memory operand is accessed as
with any other count, its write checks included, as R510 says of the other shifts; R518 calls it no operation (log 56). -/
def dshiftForm (g : {n : Nat} → Nat → BitVec n → BitVec n → M (BitVec n)) : DShiftForm → M Unit
  | .imm w rm r n => do
    let y ← readReg w r
    updateRm w rm fun x => g (maskCount n) x y
  | .cl w rm r => do
    let y ← readReg w r
    let n := maskCount ((← get).reg .b8 .ecx)
    updateRm w rm fun x => g n x y

/-- SHLD (R518). -/
def execShld (f : DShiftForm) (s : State) : Host.Outcome State Fault Refusal :=
  plain (dshiftForm (fun {n} k x y => dshiftF k x (shldVal k x y) (x.getLsbD (n - k))) f) s

/-- SHRD (R519). -/
def execShrd (f : DShiftForm) (s : State) : Host.Outcome State Fault Refusal :=
  plain (dshiftForm (fun k x y => dshiftF k x (shrdVal k x y) (x.getLsbD (k - 1))) f) s

/-! ### Bits -/

/-- The offset of the unit that holds the bit, from the operand's address and a signed register offset (R540). -/
def bitUnit (w : Width) (m : MemRef) (ea : Dword) (off : BitVec w.bits) : Dword :=
  cut (addr32 m.addr) (ea + BitVec.ofInt 32 (w.bytes * (off.toInt / w.bits)))

/-- The number of the bit in its unit (R540). -/
def bitNumber (w : Width) (off : Nat) : Nat := off % w.bits

/-- The unit that holds the bit of a register offset, read (R540). -/
def bitUnitRead (w : Width) (rm : Rm) (off : BitVec w.bits) : M (BitVec w.bits) :=
  match rm with
  | .reg b => readReg w b
  | .mem m => do memRead (segOf m) (bitUnit w m ((← get).memEa m) off) w

/-- BT: the selected bit of a unit that is only read (R540, R541). -/
def bitRead : BtForm → M Bool
  | .imm w rm n => do
    let v ← readRm w rm
    pure (v.getLsbD (bitNumber w n.toNat))
  | .reg w rm r => do
    let off ← readReg w r
    let v ← bitUnitRead w rm off
    pure (v.getLsbD (bitNumber w off.toNat))

/-- BTS, BTR and BTC: the selected bit goes to CF and `g` rewrites the unit (R540, R542 to R544). -/
def bitUpdate (g : {n : Nat} → BitVec n → Nat → BitVec n) : BtForm → M Unit
  | .imm w rm n =>
    let k := bitNumber w n.toNat
    updateRm w rm fun v => do
      bitFlags (v.getLsbD k)
      pure (g v k)
  | .reg w rm r => do
    let off ← readReg w r
    let k := bitNumber w off.toNat
    let f : BitVec w.bits → M (BitVec w.bits) := fun v => do
      bitFlags (v.getLsbD k)
      pure (g v k)
    match rm with
    | .reg b => updateRm w (.reg b) f
    | .mem m => do memUpdate (segOf m) (bitUnit w m ((← get).memEa m) off) w f

/-- A value with only bit `k` set. -/
def oneBit (n k : Nat) : BitVec n := BitVec.ofNat n 1 <<< k

/-- BT (R541). -/
def execBt (f : BtForm) (s : State) : Host.Outcome State Fault Refusal :=
  plain (do
    let b ← bitRead f
    bitFlags b) s

/-- BTS (R542). -/
def execBts (f : BtForm) (s : State) : Host.Outcome State Fault Refusal :=
  plain (bitUpdate (fun v k => v ||| oneBit _ k) f) s

/-- BTR (R543). -/
def execBtr (f : BtForm) (s : State) : Host.Outcome State Fault Refusal :=
  plain (bitUpdate (fun v k => v &&& ~~~oneBit _ k) f) s

/-- BTC (R544). -/
def execBtc (f : BtForm) (s : State) : Host.Outcome State Fault Refusal :=
  plain (bitUpdate (fun v k => v ^^^ oneBit _ k) f) s

/-- The least set bit among those from `k` on, `fuel` of them. -/
def lowestBit {n : Nat} (v : BitVec n) : Nat → Nat → Nat
  | 0, k => k
  | fuel + 1, k => if v.getLsbD k then k else lowestBit v fuel (k + 1)

/-- The greatest set bit below `k`. -/
def highestBit {n : Nat} (v : BitVec n) : Nat → Nat
  | 0 => 0
  | k + 1 => if v.getLsbD k then k else highestBit v k

/-- The index `find` gives of a bit of a nonzero value; a free value for zero (R545, R546). -/
def bitIndex (find : {n : Nat} → BitVec n → Nat) {n : Nat} (v : BitVec n) : M (BitVec n) :=
  if v == 0 then do pure ((← draw).setWidth n) else pure (BitVec.ofNat n (find v))

/-- BSF and BSR: `find` gives the bit index; for a zero source the destination is free (R545, R546). -/
def bitScan (find : {n : Nat} → BitVec n → Nat) (w : Width) (r : Reg) (rm : Rm) : M Unit := do
  let v ← readRm w rm
  putFlag .zf (v == 0)
  let x ← bitIndex find v
  writeReg w r x
  freeFlags [.of, .sf, .af, .pf, .cf]

/-- BSF (R545). -/
def execBsf (w : Width) (r : Reg) (rm : Rm) (s : State) : Host.Outcome State Fault Refusal :=
  plain (bitScan (fun {n} v => lowestBit v n 0) w r rm) s

/-- BSR (R546). -/
def execBsr (w : Width) (r : Reg) (rm : Rm) (s : State) : Host.Outcome State Fault Refusal :=
  plain (bitScan (fun {n} v => highestBit v n) w r rm) s

/-! ### Conditions and SETcc (R550, R570) -/

/-- The conditions of the even subcodes of R570; the odd ones are their complements. -/
inductive Cond where
  | o | b | e | be | s | p | l | le
deriving DecidableEq, Repr, Inhabited

/-- A condition on the flags (R570). -/
def State.cond (s : State) : Cond → Bool
  | .o => s.flag .of
  | .b => s.flag .cf
  | .e => s.flag .zf
  | .be => s.flag .cf || s.flag .zf
  | .s => s.flag .sf
  | .p => s.flag .pf
  | .l => s.flag .sf != s.flag .of
  | .le => s.flag .zf || (s.flag .sf != s.flag .of)

/-- SETcc: a byte 1 or 0 is stored (R550). -/
def setByte (rm : Rm) (b : Bool) : M Unit := writeRm .b8 rm (if b then 1 else 0)

/-- SETO (R550). -/
def execSeto (rm : Rm) (s : State) : Host.Outcome State Fault Refusal :=
  plain (setByte rm (s.cond .o)) s
/-- SETNO (R550). -/
def execSetno (rm : Rm) (s : State) : Host.Outcome State Fault Refusal :=
  plain (setByte rm (!s.cond .o)) s
/-- SETB (R550). -/
def execSetb (rm : Rm) (s : State) : Host.Outcome State Fault Refusal :=
  plain (setByte rm (s.cond .b)) s
/-- SETAE (R550). -/
def execSetae (rm : Rm) (s : State) : Host.Outcome State Fault Refusal :=
  plain (setByte rm (!s.cond .b)) s
/-- SETE (R550). -/
def execSete (rm : Rm) (s : State) : Host.Outcome State Fault Refusal :=
  plain (setByte rm (s.cond .e)) s
/-- SETNE (R550). -/
def execSetne (rm : Rm) (s : State) : Host.Outcome State Fault Refusal :=
  plain (setByte rm (!s.cond .e)) s
/-- SETBE (R550). -/
def execSetbe (rm : Rm) (s : State) : Host.Outcome State Fault Refusal :=
  plain (setByte rm (s.cond .be)) s
/-- SETA (R550). -/
def execSeta (rm : Rm) (s : State) : Host.Outcome State Fault Refusal :=
  plain (setByte rm (!s.cond .be)) s
/-- SETS (R550). -/
def execSets (rm : Rm) (s : State) : Host.Outcome State Fault Refusal :=
  plain (setByte rm (s.cond .s)) s
/-- SETNS (R550). -/
def execSetns (rm : Rm) (s : State) : Host.Outcome State Fault Refusal :=
  plain (setByte rm (!s.cond .s)) s
/-- SETP (R550). -/
def execSetp (rm : Rm) (s : State) : Host.Outcome State Fault Refusal :=
  plain (setByte rm (s.cond .p)) s
/-- SETNP (R550). -/
def execSetnp (rm : Rm) (s : State) : Host.Outcome State Fault Refusal :=
  plain (setByte rm (!s.cond .p)) s
/-- SETL (R550). -/
def execSetl (rm : Rm) (s : State) : Host.Outcome State Fault Refusal :=
  plain (setByte rm (s.cond .l)) s
/-- SETGE (R550). -/
def execSetge (rm : Rm) (s : State) : Host.Outcome State Fault Refusal :=
  plain (setByte rm (!s.cond .l)) s
/-- SETLE (R550). -/
def execSetle (rm : Rm) (s : State) : Host.Outcome State Fault Refusal :=
  plain (setByte rm (s.cond .le)) s
/-- SETG (R550). -/
def execSetg (rm : Rm) (s : State) : Host.Outcome State Fault Refusal :=
  plain (setByte rm (!s.cond .le)) s

end Sys2Proof.Machine
end

