-- ==== Sys2Proof/Machine/Near.lean ====
section
/-! DEFINITION. Near control transfers, stack frames and BOUND (spec/43_control_near.md). -/

namespace Sys2Proof.Machine

/-- The target cut to 16 bits with a 16-bit operand size, and its limit check (R560). -/
def nearTarget (w : Width) (t : Dword) : M Dword := do
  let t := cut (w = .d32) t
  when (!inLimit (← get).cs t 1) raiseGP0
  pure t

/-- `NearJump(t)` (R560). -/
def nearJump (w : Width) (t : Dword) : M Unit := do
  let t ← nearTarget w t
  modify fun s => { s with eip := t }

/-- A displacement added to EIP_next (R561). -/
def State.relTarget (s : State) (d : Dword) : Dword := s.nextEip + d

/-- The operand size and the displacement, sign-extended, of a conditional jump (R561, R572). -/
def relForm : RelForm → Width × Dword
  | .rel8 w d => (w, d.signExtend 32)
  | .rel w d => (w, BitVec.signExtend 32 (immOf w d))

/-- A conditional jump (R571, R572). -/
def jumpIf (b : Bool) (t : RelForm) : M Done := do
  if b then
    let (w, d) := relForm t
    nearJump w ((← get).relTarget d)
    pure .went
  else pure .next

/-- JO (R570 to R572). -/
def execJo (t : RelForm) (s : State) : Host.Outcome State Fault Refusal :=
  instr (jumpIf (s.cond .o) t) s
/-- JNO (R570 to R572). -/
def execJno (t : RelForm) (s : State) : Host.Outcome State Fault Refusal :=
  instr (jumpIf (!s.cond .o) t) s
/-- JB (R570 to R572). -/
def execJb (t : RelForm) (s : State) : Host.Outcome State Fault Refusal :=
  instr (jumpIf (s.cond .b) t) s
/-- JAE (R570 to R572). -/
def execJae (t : RelForm) (s : State) : Host.Outcome State Fault Refusal :=
  instr (jumpIf (!s.cond .b) t) s
/-- JE (R570 to R572). -/
def execJe (t : RelForm) (s : State) : Host.Outcome State Fault Refusal :=
  instr (jumpIf (s.cond .e) t) s
/-- JNE (R570 to R572). -/
def execJne (t : RelForm) (s : State) : Host.Outcome State Fault Refusal :=
  instr (jumpIf (!s.cond .e) t) s
/-- JBE (R570 to R572). -/
def execJbe (t : RelForm) (s : State) : Host.Outcome State Fault Refusal :=
  instr (jumpIf (s.cond .be) t) s
/-- JA (R570 to R572). -/
def execJa (t : RelForm) (s : State) : Host.Outcome State Fault Refusal :=
  instr (jumpIf (!s.cond .be) t) s
/-- JS (R570 to R572). -/
def execJs (t : RelForm) (s : State) : Host.Outcome State Fault Refusal :=
  instr (jumpIf (s.cond .s) t) s
/-- JNS (R570 to R572). -/
def execJns (t : RelForm) (s : State) : Host.Outcome State Fault Refusal :=
  instr (jumpIf (!s.cond .s) t) s
/-- JP (R570 to R572). -/
def execJp (t : RelForm) (s : State) : Host.Outcome State Fault Refusal :=
  instr (jumpIf (s.cond .p) t) s
/-- JNP (R570 to R572). -/
def execJnp (t : RelForm) (s : State) : Host.Outcome State Fault Refusal :=
  instr (jumpIf (!s.cond .p) t) s
/-- JL (R570 to R572). -/
def execJl (t : RelForm) (s : State) : Host.Outcome State Fault Refusal :=
  instr (jumpIf (s.cond .l) t) s
/-- JGE (R570 to R572). -/
def execJge (t : RelForm) (s : State) : Host.Outcome State Fault Refusal :=
  instr (jumpIf (!s.cond .l) t) s
/-- JLE (R570 to R572). -/
def execJle (t : RelForm) (s : State) : Host.Outcome State Fault Refusal :=
  instr (jumpIf (s.cond .le) t) s
/-- JG (R570 to R572). -/
def execJg (t : RelForm) (s : State) : Host.Outcome State Fault Refusal :=
  instr (jumpIf (!s.cond .le) t) s

/-- JCXZ, JECXZ (R573): the register is chosen by the address size. -/
def execJcxz (w : Width) (asz : Width) (d : Byte) (s : State) : Host.Outcome State Fault Refusal :=
  instr (jumpIf (s.idx asz .ecx == 0) (.rel8 w d)) s

/-- The loop instructions: the count register is decremented, then tested with `b` (R574 to R576). -/
def loopIf (b : Bool) (w : Width) (asz : Width) (d : Byte) : M Done := do
  modify fun s => s.setIdx asz .ecx (s.idx asz .ecx - 1)
  let s ← get
  jumpIf (b && s.idx asz .ecx != 0) (.rel8 w d)

/-- LOOP (R574). -/
def execLoop (w : Width) (asz : Width) (d : Byte) (s : State) : Host.Outcome State Fault Refusal :=
  instr (loopIf true w asz d) s
/-- LOOPE, LOOPZ (R575). -/
def execLoope (w : Width) (asz : Width) (d : Byte) (s : State) : Host.Outcome State Fault Refusal :=
  instr (loopIf (s.flag .zf) w asz d) s
/-- LOOPNE, LOOPNZ (R576). -/
def execLoopne (w : Width) (asz : Width) (d : Byte) (s : State) : Host.Outcome State Fault Refusal :=
  instr (loopIf (!s.flag .zf) w asz d) s

/-- The operand size and the target offset of a near JMP or CALL (R562 to R565). -/
def nearForm : NearForm → M (Width × Dword)
  | .rel8 w d => do pure (w, (← get).relTarget (d.signExtend 32))
  | .rel w d => do pure (w, (← get).relTarget (BitVec.signExtend 32 (immOf w d)))
  | .rm w rm => do pure (w, BitVec.setWidth 32 (← readRm w rm))

/-- JMP near (R562, R563). -/
def execJmp (t : NearForm) (s : State) : Host.Outcome State Fault Refusal :=
  instr (do
    let (w, off) ← nearForm t
    nearJump w off
    pure .went) s

/-- CALL near (R564, R565): stack room, target, push. -/
def execCall (t : NearForm) (s : State) : Host.Outcome State Fault Refusal :=
  instr (do
    let (w, off) ← nearForm t
    stackRoom w.bytes
    let off ← nearTarget w off
    push w (BitVec.setWidth w.bits s.nextEip)
    modify fun s => { s with eip := off }
    pure .went) s

/-- The immediate of RET, zero-extended (R566, R612). -/
def retCount (n : Option Word) : Dword := match n with
  | none => 0
  | some v => v.setWidth 32

/-- RET near (R566); an item beyond the SS limit is exception 12 in every mode (R934; log 41). -/
def execRet (w : Width) (n : Option Word) (s : State) : Host.Outcome State Fault Refusal :=
  instr (do
    let t ← pop w
    modify fun s => s.setEsp (s.esp + retCount n)
    nearJump w (BitVec.setWidth 32 t)
    pure .went) s

/-! ### Stack frames (R580, R581) -/

/-- The frame pointers of the outer levels copied by ENTER (R580). -/
def enterCopy (w : Width) : Nat → M Unit
  | 0 => pure ()
  | k + 1 => do
    modify fun s => s.setReg w .ebp (s.reg w .ebp - BitVec.ofNat w.bits w.bytes)
    let v ← memRead .ss (BitVec.setWidth 32 ((← get).reg w .ebp)) w
    push w v
    enterCopy w k

/-- The display of an ENTER with a level above 0: `k` outer frame pointers, then the new one (R580). -/
def enterFrames (w : Width) (k : Nat) (frame : BitVec w.bits) : M Unit := do
  enterCopy w k
  push w frame

/-- ENTER (R580, D55): the final stack pointer must lie within the stack limit. -/
def execEnter (w : Width) (size : Word) (level : Byte) (s : State) : Host.Outcome State Fault Refusal :=
  plain (do
    let level := (level &&& 0x1F).toNat
    push w (s.reg w .ebp)
    let frame := (← get).esp
    when (0 < level) (enterFrames w (level - 1) (BitVec.setWidth w.bits frame))
    writeReg w .ebp (BitVec.setWidth w.bits frame)
    let s ← get
    let sp := cut s.stack32 (s.esp - size.setWidth 32)
    when (!inLimit s.ss sp 1) raiseSS0
    modify fun s => s.setEsp sp) s

/-- LEAVE (R581). -/
def execLeave (w : Width) (s : State) : Host.Outcome State Fault Refusal :=
  plain (do
    modify fun s => s.setEsp s.regs.ebp
    writeReg w .ebp (← pop w)) s

/-- BOUND (R582): #BR is a fault. -/
def execBound (w : Width) (r : Reg) (m : MemRef) (s : State) : Host.Outcome State Fault Refusal :=
  plain (do
    let ea := s.memEa m
    let lower ← memRead (segOf m) ea w
    let upper ← memRead (segOf m) (nextOff m ea w.bytes) w
    let v := s.reg w r
    when (v.slt lower || upper.slt v) (raise 5 none)) s

end Sys2Proof.Machine
end

