-- ==== Sys2Proof/Machine/Strings.lean ====
section
/-! DEFINITION. The string instructions with their repeat prefixes, and the I/O instructions (spec/45_string.md,
spec/24_io.md). -/

namespace Sys2Proof.Machine

/-! ### The I/O permission map (R307) -/

/-- The bits of the map for the ports from `port` on, `n` of them: are they all 0 and within the TSS? (R307) -/
def ioMapAllows (base : Nat) : Nat → Word → M Bool
  | 0, _ => pure true
  | n + 1, port => do
    let t := (← get).tr
    let off := base + port.toNat / 8
    if t.limit.toNat < off then pure false
    else
      let b ← sysRead8 (t.base + BitVec.ofNat 32 off)
      if b.getLsbD (port.toNat % 8) then pure false else ioMapAllows base n (port + 1)

/-- `IOPermission(port, n)` (R307). -/
def ioPermission (port : Word) (n : Nat) : M Bool := do
  let t := (← get).tr
  if !t.is386 then pure false
  else
    let base ← sysRead16 (t.base + 0x66)
    if t.limit.toNat ≤ base.toNat then pure false else ioMapAllows base.toNat n port

/-- Is the permission map consulted? (R309) -/
def State.ioMapped (s : State) : Bool := s.pe && (s.flag .vm || decide (s.iopl < s.cpl))

/-- The I/O access decision: #GP(0) when the access is denied (R309). -/
def checkIo (port : Word) (w : Width) : M Unit := do
  if (← get).ioMapped then do
    let ok ← ioPermission port w.bytes
    when (!ok) raiseGP0
  else pure ()

/-- Width and port of IN and OUT (R302). -/
def State.ioForm (s : State) : IoForm → Width × Word
  | .imm w p => (w, p.setWidth 16)
  | .dx w => (w, s.reg .w16 .edx)

/-- IN (R670). -/
def execInp (f : IoForm) (s : State) : Host.Outcome State Fault Refusal :=
  plain (do
    let (w, port) := s.ioForm f
    checkIo port w
    writeReg w .eax (← ioRead port w)) s

/-- OUT (R671). -/
def execOut (f : IoForm) (s : State) : Host.Outcome State Fault Refusal :=
  plain (do
    let (w, port) := s.ioForm f
    checkIo port w
    ioWrite port w (s.reg w .eax)) s

/-! ### One element of each primitive (R662 to R666, R672, R673) -/

/-- The segment of the source element: DS unless overridden (R661). -/
def srcSeg (a : StrAttr) : SReg := a.seg.getD .ds

/-- The checks of an element of `n` bytes (R170); one that runs past offset FFFFH with a 16-bit address size fails the limit
check, whatever the limit (R660, R109; log 58). -/
def checkElement (a : StrAttr) (sr : SReg) (off : Dword) (n : Nat) (w : Bool) : M Unit := do
  checkSeg sr off n w
  when (!blockFits (a.asz = .d32) off n) (raiseLimit sr)

/-- One element read at the source index (R661). -/
def readSrc (a : StrAttr) (w : Width) : M (BitVec w.bits) := do
  let off := (← get).idx a.asz .esi
  checkElement a (srcSeg a) off w.bytes false
  memRead (srcSeg a) off w

/-- One element read at the destination index, always in ES (R661). -/
def readDst (a : StrAttr) (w : Width) : M (BitVec w.bits) := do
  let off := (← get).idx a.asz .edi
  checkElement a .es off w.bytes false
  memRead .es off w

/-- One element written at the destination index, always in ES (R661). -/
def writeDst (a : StrAttr) (w : Width) (v : BitVec w.bits) : M Unit := do
  let off := (← get).idx a.asz .edi
  checkElement a .es off w.bytes true
  memWrite .es off w v

/-- The source index moved on (R660). -/
def stepSrc (a : StrAttr) (w : Width) : M Unit := modify fun s => s.stepIdx a.asz .esi w.bytes

/-- The destination index moved on (R660). -/
def stepDst (a : StrAttr) (w : Width) : M Unit := modify fun s => s.stepIdx a.asz .edi w.bytes

/-- MOVS once (R662). -/
def movsOnce (w : Width) (a : StrAttr) : M Unit := do
  writeDst a w (← readSrc a w)
  stepSrc a w
  stepDst a w

/-- CMPS once: source minus destination (R663). -/
def cmpsOnce (w : Width) (a : StrAttr) : M Unit := do
  let x ← readSrc a w
  let y ← readDst a w
  let _ ← subF x y false
  stepSrc a w
  stepDst a w

/-- SCAS once: accumulator minus destination (R664). -/
def scasOnce (w : Width) (a : StrAttr) : M Unit := do
  let y ← readDst a w
  let _ ← subF (← readReg w .eax) y false
  stepDst a w

/-- LODS once (R665). -/
def lodsOnce (w : Width) (a : StrAttr) : M Unit := do
  writeReg w .eax (← readSrc a w)
  stepSrc a w

/-- STOS once (R666). -/
def stosOnce (w : Width) (a : StrAttr) : M Unit := do
  writeDst a w (← readReg w .eax)
  stepDst a w

/-- INS once: permission, then the destination's checks, then the port (R672, D73). -/
def insOnce (w : Width) (a : StrAttr) : M Unit := do
  let s ← get
  let port := s.reg .w16 .edx
  checkIo port w
  checkElement a .es (s.idx a.asz .edi) w.bytes true
  memWriteCheck s.user .es (s.idx a.asz .edi) w.bytes
  writeDst a w (← ioRead port w)
  stepDst a w

/-- OUTS once: permission, then the source, then the port (R673). -/
def outsOnce (w : Width) (a : StrAttr) : M Unit := do
  let port := (← get).reg .w16 .edx
  checkIo port w
  ioWrite port w (← readSrc a w)
  stepSrc a w

/-! ### Repetition (R690) -/

/-- Has the comparison just made ended the repetition? (R690 step 6) -/
def State.repEnds (s : State) : Rep → Bool
  | .none => false
  | .rep => !s.flag .zf
  | .repne => s.flag .zf

/-- A string primitive, once without a repeat prefix; with one, an iteration: nothing when the count is 0, else the
primitive and the count less one (R690). `compares` for CMPS and SCAS. -/
def strStep (a : StrAttr) (compares : Bool) (m : M Unit) : M Done := do
  if a.rep = .none then
    m
    pure .next
  else if (← get).idx a.asz .ecx = 0 then pure .next
  else
    m
    modify fun s => s.setIdx a.asz .ecx (s.idx a.asz .ecx - 1)
    let s ← get
    if s.idx a.asz .ecx = 0 || (compares && s.repEnds a.rep) then pure .next else pure .again

/-- MOVSB (R662, R690). -/
def execMovsb (a : StrAttr) (s : State) : Host.Outcome State Fault Refusal :=
  instr (strStep a false (movsOnce .b8 a)) s
/-- MOVSW (R662, R690). -/
def execMovsw (a : StrAttr) (s : State) : Host.Outcome State Fault Refusal :=
  instr (strStep a false (movsOnce .w16 a)) s
/-- MOVSD (R662, R690). -/
def execMovsd (a : StrAttr) (s : State) : Host.Outcome State Fault Refusal :=
  instr (strStep a false (movsOnce .d32 a)) s
/-- CMPSB (R663, R690). -/
def execCmpsb (a : StrAttr) (s : State) : Host.Outcome State Fault Refusal :=
  instr (strStep a true (cmpsOnce .b8 a)) s
/-- CMPSW (R663, R690). -/
def execCmpsw (a : StrAttr) (s : State) : Host.Outcome State Fault Refusal :=
  instr (strStep a true (cmpsOnce .w16 a)) s
/-- CMPSD (R663, R690). -/
def execCmpsd (a : StrAttr) (s : State) : Host.Outcome State Fault Refusal :=
  instr (strStep a true (cmpsOnce .d32 a)) s
/-- STOSB (R666, R690). -/
def execStosb (a : StrAttr) (s : State) : Host.Outcome State Fault Refusal :=
  instr (strStep a false (stosOnce .b8 a)) s
/-- STOSW (R666, R690). -/
def execStosw (a : StrAttr) (s : State) : Host.Outcome State Fault Refusal :=
  instr (strStep a false (stosOnce .w16 a)) s
/-- STOSD (R666, R690). -/
def execStosd (a : StrAttr) (s : State) : Host.Outcome State Fault Refusal :=
  instr (strStep a false (stosOnce .d32 a)) s
/-- LODSB (R665, R690). -/
def execLodsb (a : StrAttr) (s : State) : Host.Outcome State Fault Refusal :=
  instr (strStep a false (lodsOnce .b8 a)) s
/-- LODSW (R665, R690). -/
def execLodsw (a : StrAttr) (s : State) : Host.Outcome State Fault Refusal :=
  instr (strStep a false (lodsOnce .w16 a)) s
/-- LODSD (R665, R690). -/
def execLodsd (a : StrAttr) (s : State) : Host.Outcome State Fault Refusal :=
  instr (strStep a false (lodsOnce .d32 a)) s
/-- SCASB (R664, R690). -/
def execScasb (a : StrAttr) (s : State) : Host.Outcome State Fault Refusal :=
  instr (strStep a true (scasOnce .b8 a)) s
/-- SCASW (R664, R690). -/
def execScasw (a : StrAttr) (s : State) : Host.Outcome State Fault Refusal :=
  instr (strStep a true (scasOnce .w16 a)) s
/-- SCASD (R664, R690). -/
def execScasd (a : StrAttr) (s : State) : Host.Outcome State Fault Refusal :=
  instr (strStep a true (scasOnce .d32 a)) s
/-- INSB (R672, R690). -/
def execInsb (a : StrAttr) (s : State) : Host.Outcome State Fault Refusal :=
  instr (strStep a false (insOnce .b8 a)) s
/-- INSW (R672, R690). -/
def execInsw (a : StrAttr) (s : State) : Host.Outcome State Fault Refusal :=
  instr (strStep a false (insOnce .w16 a)) s
/-- INSD (R672, R690). -/
def execInsd (a : StrAttr) (s : State) : Host.Outcome State Fault Refusal :=
  instr (strStep a false (insOnce .d32 a)) s
/-- OUTSB (R673, R690). -/
def execOutsb (a : StrAttr) (s : State) : Host.Outcome State Fault Refusal :=
  instr (strStep a false (outsOnce .b8 a)) s
/-- OUTSW (R673, R690). -/
def execOutsw (a : StrAttr) (s : State) : Host.Outcome State Fault Refusal :=
  instr (strStep a false (outsOnce .w16 a)) s
/-- OUTSD (R673, R690). -/
def execOutsd (a : StrAttr) (s : State) : Host.Outcome State Fault Refusal :=
  instr (strStep a false (outsOnce .d32 a)) s

end Sys2Proof.Machine
end

