-- ==== Sys2Proof/Machine/Move.lean ====
section
/-! DEFINITION. Data movement (spec/40_data_movement.md): MOV, XCHG, the stack instructions, type conversion, LEA and the
pointer loads. -/

namespace Sys2Proof.Machine

/-! ### MOV -/

/-- The forms of MOV between general registers, memory and immediates (R401 to R403). -/
def movForm : MovForm → M Unit
  | .rmReg w rm r => do writeRm w rm (← readReg w r)
  | .regRm w r rm => do writeReg w r (← readRm w rm)
  | .accMoffs w m => do writeReg w .eax (← readMem w m)
  | .moffsAcc w m => do writeMem w m (← readReg w .eax)
  | .regImm w r imm => writeReg w r (immOf w imm)
  | .rmImm w rm imm => writeRm w rm (immOf w imm)

/-- MOV (R401 to R403). -/
def execMov (f : MovForm) (s : State) : Host.Outcome State Fault Refusal := plain (movForm f) s

/-- MOV r/m16,Sreg (R404): always a word; a register destination keeps its upper half. -/
def execMovFromSreg (rm : Rm) (sr : SReg) (s : State) : Host.Outcome State Fault Refusal :=
  plain (writeRm .w16 rm (s.sreg sr).sel) s

/-- After SS is loaded by MOV or POP, events wait for one instruction (R813). -/
def inhibitFor (sr : SReg) : M Unit :=
  if sr = .ss then modify fun s => { s with inhibit := true } else pure ()

/-- MOV Sreg,r/m16 (R405). -/
def execMovToSreg (sr : SReg) (rm : Rm) (s : State) : Host.Outcome State Fault Refusal :=
  plain (do
    let sel ← readRm .w16 rm
    loadSreg sr sel
    inhibitFor sr) s

/-- The forms of XCHG (R406). -/
def xchgForm : XchgForm → M Unit
  | .acc w r => do
    let a ← readReg w .eax
    let b ← readReg w r
    writeReg w .eax b
    writeReg w r a
  | .rmReg w (.reg b) r => do
    let x ← readReg w r
    let y ← readReg w b
    writeReg w r y
    writeReg w b x
  | .rmReg w (.mem m) r => do
    let x ← readReg w r
    updateRm w (.mem m) fun y => do
      writeReg w r y
      pure x

/-- XCHG (R406). -/
def execXchg (f : XchgForm) (s : State) : Host.Outcome State Fault Refusal := plain (xchgForm f) s

/-! ### The stack -/

/-- The forms of PUSH (R408, R410): the value is read before eSP changes. -/
def pushForm : PushForm → M Unit
  | .sreg w sr => do push w (← selItem w ((← get).sreg sr).sel)
  | .reg w r => do push w (← readReg w r)
  | .imm w v => push w (immOf w v)
  | .imm8 w v => push w (immSx w v)
  | .rm w rm => do push w (← readRm w rm)

/-- PUSH (R408, R410). -/
def execPush (f : PushForm) (s : State) : Host.Outcome State Fault Refusal := plain (pushForm f) s

/-- The forms of POP (R411 to R413): the destination is written after the increment. -/
def popForm : PopForm → M Unit
  | .sreg w sr => do
    let v ← pop w
    loadSreg sr (BitVec.setWidth 16 v)
    inhibitFor sr
  | .reg w r => do writeReg w r (← pop w)
  | .rm w rm => do writeRm w rm (← pop w)

/-- POP (R411 to R413). -/
def execPop (f : PopForm) (s : State) : Host.Outcome State Fault Refusal := plain (popForm f) s

/-- The limit check of one item of PUSHA: in real-address and V86 mode a violation is exception 13 (R414, C61). -/
def pushaCheck (off : Dword) (n : Nat) : M Unit := do
  let s ← get
  when (s.paragraphs && !inLimit s.ss off n) raiseGP0
  memWriteCheck s.user .ss off n

/-- The checks of the eight items of PUSHA, `k` of them left, before any store (R414, D21). DESIGN CHOICE: each item is an access
of its own (R96), so that where a later one raises #PF the accessed and dirty bits and the TLB entry of an earlier one stay,
although nothing is stored (log 30). -/
def pushaChecks (n : Nat) : Nat → Dword → M Unit
  | 0, _ => pure ()
  | k + 1, sp => do
    let sp := cut (← get).stack32 (sp - BitVec.ofNat 32 n)
    pushaCheck sp n
    pushaChecks n k sp

/-- PUSHA and PUSHAD (R414). -/
def pushAll (w : Width) : M Unit := do
  let s ← get
  pushaChecks w.bytes 8 s.esp
  push w (s.reg w .eax)
  push w (s.reg w .ecx)
  push w (s.reg w .edx)
  push w (s.reg w .ebx)
  push w (s.reg w .esp)
  push w (s.reg w .ebp)
  push w (s.reg w .esi)
  push w (s.reg w .edi)

/-- PUSHA (R414). -/
def execPusha (s : State) : Host.Outcome State Fault Refusal := plain (pushAll .w16) s
/-- PUSHAD (R414). -/
def execPushad (s : State) : Host.Outcome State Fault Refusal := plain (pushAll .d32) s

/-- POPA and POPAD (R415): the item for eSP is dropped; one beyond the SS limit is exception 12 in every mode (R934; log 41). -/
def popAll (w : Width) : M Unit := do
  let di ← pop w
  let si ← pop w
  let bp ← pop w
  let _ ← pop w
  let bx ← pop w
  let dx ← pop w
  let cx ← pop w
  let ax ← pop w
  writeReg w .edi di
  writeReg w .esi si
  writeReg w .ebp bp
  writeReg w .ebx bx
  writeReg w .edx dx
  writeReg w .ecx cx
  writeReg w .eax ax

/-- POPA (R415). -/
def execPopa (s : State) : Host.Outcome State Fault Refusal := plain (popAll .w16) s
/-- POPAD (R415). -/
def execPopad (s : State) : Host.Outcome State Fault Refusal := plain (popAll .d32) s

/-! ### Type conversion -/

/-- CBW (R416). -/
def execCbw (s : State) : Host.Outcome State Fault Refusal :=
  plain (writeReg .w16 .eax (BitVec.signExtend 16 (s.reg .b8 .eax))) s
/-- CWDE (R416). -/
def execCwde (s : State) : Host.Outcome State Fault Refusal :=
  plain (writeReg .d32 .eax (BitVec.signExtend 32 (s.reg .w16 .eax))) s
/-- CWD (R417). -/
def execCwd (s : State) : Host.Outcome State Fault Refusal :=
  plain (writeReg .w16 .edx (if (s.reg .w16 .eax).msb then 0xFFFF else 0)) s
/-- CDQ (R417). -/
def execCdq (s : State) : Host.Outcome State Fault Refusal :=
  plain (writeReg .d32 .edx (if (s.reg .d32 .eax).msb then 0xFFFFFFFF else 0)) s
/-- MOVSX (R418). -/
def execMovsx (w : Width) (r : Reg) (src : Width) (rm : Rm) (s : State) : Host.Outcome State Fault Refusal :=
  plain (do writeReg w r (BitVec.signExtend w.bits (← readRm src rm))) s
/-- MOVZX (R419). -/
def execMovzx (w : Width) (r : Reg) (src : Width) (rm : Rm) (s : State) : Host.Outcome State Fault Refusal :=
  plain (do writeReg w r (BitVec.setWidth w.bits (← readRm src rm))) s

/-! ### Addresses and pointers -/

/-- LEA (R420): no memory is accessed and no segment checked. -/
def execLea (w : Width) (r : Reg) (m : MemRef) (s : State) : Host.Outcome State Fault Refusal :=
  plain (writeReg w r (BitVec.setWidth w.bits (s.memEa m))) s

/-- A far pointer in memory: offset, then selector (R95, R421, R600). The selector's offset is not cut to the address size:
a pointer that runs past the end of the offset range violates the limit (R109, R934). -/
def readFar (w : Width) (m : MemRef) : M (Word × BitVec w.bits) := do
  let ea := (← get).memEa m
  let off ← memRead (segOf m) ea w
  when (2 ^ 32 ≤ ea.toNat + w.bytes) (raiseLimit (segOf m))
  let sel ← memRead (segOf m) (ea + BitVec.ofNat 32 w.bytes) .w16
  pure (sel, off)

/-- LDS, LES, LFS, LGS and LSS: the general register is written when the segment load has succeeded (R421). -/
def loadFar (sr : SReg) (w : Width) (r : Reg) (m : MemRef) : M Unit := do
  let (sel, off) ← readFar w m
  loadSreg sr sel
  writeReg w r off

/-- LES (R421). -/
def execLes (w : Width) (r : Reg) (m : MemRef) (s : State) : Host.Outcome State Fault Refusal :=
  plain (loadFar .es w r m) s
/-- LDS (R421). -/
def execLds (w : Width) (r : Reg) (m : MemRef) (s : State) : Host.Outcome State Fault Refusal :=
  plain (loadFar .ds w r m) s
/-- LSS (R421): no inhibit. -/
def execLss (w : Width) (r : Reg) (m : MemRef) (s : State) : Host.Outcome State Fault Refusal :=
  plain (loadFar .ss w r m) s
/-- LFS (R421). -/
def execLfs (w : Width) (r : Reg) (m : MemRef) (s : State) : Host.Outcome State Fault Refusal :=
  plain (loadFar .fs w r m) s
/-- LGS (R421). -/
def execLgs (w : Width) (r : Reg) (m : MemRef) (s : State) : Host.Outcome State Fault Refusal :=
  plain (loadFar .gs w r m) s

/-- XLAT (R422): the sum wraps in the address size. -/
def execXlat (a : StrAttr) (s : State) : Host.Outcome State Fault Refusal :=
  plain (do
    let off := cut (a.asz = .d32) (s.idx a.asz .ebx + BitVec.setWidth 32 (s.reg .b8 .eax))
    writeReg .b8 .eax (← memRead (a.seg.getD .ds) off .b8)) s

end Sys2Proof.Machine
end

