-- ==== Sys2Proof/Machine/Far.lean ====
section
/-! DEFINITION. Far control transfers, software interrupts and IRET (spec/44_control_far.md). -/

namespace Sys2Proof.Machine

/-- Selector and offset of a far JMP or CALL (R600). -/
def farForm : FarForm → M (Width × Word × Dword)
  | .ptr w sel off => pure (w, sel, cut (w = .d32) off)
  | .mem w m => do
    let (sel, off) ← readFar w m
    pure (w, sel, BitVec.setWidth 32 off)

/-! ### What a far JMP or CALL finds in the descriptor tables -/

/-- A call gate: type 4 or C (R138). -/
def Desc.isCallGate (d : Desc) : Bool := !d.s && (d.typ == 4 || d.typ == 12)
/-- A task gate: type 5 (R139). -/
def Desc.isTaskGate (d : Desc) : Bool := !d.s && d.typ == 5

/-- The privilege and presence checks of a code segment reached directly (R602, R605). -/
def directCode (sel : Word) (d : Desc) : M Unit := do
  let cpl := (← get).cpl
  when (d.conforming && cpl < d.dpl) (raiseSel 13 sel false)
  when (!d.conforming && cpl < selRpl sel) (raiseSel 13 sel false)
  when (!d.conforming && d.dpl != cpl) (raiseSel 13 sel false)
  when (!d.p) (raiseSel 11 sel false)

/-- The privilege checks of a call gate, task gate or TSS descriptor: its DPL is at least CPL and RPL (R603, R268). -/
def gatePrivilege (sel : Word) (g : Desc) : M Unit := do
  let cpl := (← get).cpl
  when (g.dpl < cpl || g.dpl < selRpl sel) (raiseSel 13 sel false)

/-- The checks of a call gate (R603, R606). -/
def checkGate (sel : Word) (g : Desc) : M Unit := do
  gatePrivilege sel g
  when (!g.p) (raiseSel 11 sel false)

/-- The TSS that a TSS descriptor or a task gate names, with its checks (R268). -/
def farTss (sel : Word) (d : Desc) : M (Word × Desc) :=
  if d.isTaskGate then do
    checkGate sel d
    let new ← gateTaskDesc 13 13 false d.gateSel
    pure (d.gateSel, new)
  else do
    gatePrivilege sel d
    when (selTi sel || !d.availTss) (raiseSel 13 sel false)
    when (!d.p) (raiseSel 11 sel false)
    pure (sel, d)

/-- A JMP or CALL to a TSS descriptor or through a task gate (R268, R604, R608). -/
def farTask (k : SwitchKind) (sel : Word) (d : Desc) : M Done := do
  let (tss, new) ← farTss sel d
  let s ← get
  switchTasks k false tss new s.nextEip s.eflags
  checkTaskEip
  pure .wentKeepRf

/-- Transfer to a checked code segment (R602). -/
def enterCode (sel : Word) (d : Desc) (cpl : BitVec 2) (off : Dword) : M Unit := do
  setCS sel d cpl
  modify fun s => { s with eip := off }

/-! ### JMP far (R602 to R604) -/

/-- JMP through a call gate (R603). -/
def jmpGate (sel : Word) (g : Desc) : M Unit := do
  checkGate sel g
  let cs := g.gateSel
  when (nullSel cs) raiseGP0
  let c ← fetchDescOr 13 false cs
  let cpl := (← get).cpl
  when (!c.isCode) (raiseSel 13 cs false)
  when (!c.conforming && c.dpl != cpl) (raiseSel 13 cs false)
  when (c.conforming && cpl < c.dpl) (raiseSel 13 cs false)
  when (!c.p) (raiseSel 11 cs false)
  let t := g.gateOffset (g.typ.getLsbD 3)
  checkTarget c cs t
  enterCode cs c cpl t

/-- JMP far in protected mode (R602). -/
def jmpProt (sel : Word) (off : Dword) : M Done := do
  when (nullSel sel) raiseGP0
  let d ← fetchDescOr 13 false sel
  if d.isCode then
    directCode sel d
    checkTarget d sel off
    enterCode sel d (← get).cpl off
    pure .went
  else if d.isCallGate then
    jmpGate sel d
    pure .went
  else if d.isTaskGate || d.availTss || d.busyTss then farTask .jmp sel d
  else raiseSel 13 sel false

/-- JMP far (R602). -/
def execJmpFar (t : FarForm) (s : State) : Host.Outcome State Fault Refusal :=
  instr (do
    let (_, sel, off) ← farForm t
    if s.paragraphs then
      checkTargetHere off
      realFar sel off
      pure .went
    else jmpProt sel off) s

/-! ### CALL far (R605 to R608) -/

/-- CS and the return offset pushed as items of width `w` (R605). -/
def pushReturn (u : Bool) (w : Width) (cs : Word) (ip : Dword) : M Unit := do
  pushSel u w cs
  pushAs u w (BitVec.setWidth w.bits ip)

/-- CALL to a code segment of the same privilege with items of width `w` (R605, R606). -/
def callSame (w : Width) (sel : Word) (d : Desc) (off : Dword) : M Unit := do
  let s ← get
  stackRoom (2 * w.bytes)
  checkTarget d sel off
  pushReturn s.user w s.cs.sel s.nextEip
  enterCode sel d s.cpl off

/-- The parameters on the old stack, the one at eSP first (R607). -/
def readParams (w : Width) : Nat → Nat → M (List (BitVec w.bits))
  | _, 0 => pure []
  | k, n + 1 => do
    let p ← stackRead k w
    let ps ← readParams w (k + w.bytes) n
    pure (p :: ps)

/-- Parameters pushed on the new stack, the last one first (R607). -/
def pushParams (w : Width) : List (BitVec w.bits) → M Unit
  | [] => pure ()
  | p :: ps => do
    pushParams w ps
    pushAs false w p

/-- CALL through a call gate to a more privileged segment, with a stack switch (R607). -/
def callInner (w : Width) (g : Desc) (cs : Word) (c : Desc) (t : Dword) : M Unit := do
  let s ← get
  let (ssel, sd, sp) ← innerStackSeg false c.dpl
  newStackRoom ssel sd sp ((g.gateCount + 4) * w.bytes)
  checkTarget c cs t
  let ps ← readParams w 0 g.gateCount
  switchStack ssel sd sp
  modify fun s => { s with cpl := c.dpl }
  pushSel false w s.ss.sel
  pushAs false w (BitVec.setWidth w.bits s.regs.esp)
  pushParams w ps
  pushReturn false w s.cs.sel s.nextEip
  enterCode cs c c.dpl t

/-- CALL through a call gate (R606). -/
def callGate (sel : Word) (g : Desc) : M Unit := do
  checkGate sel g
  let cs := g.gateSel
  when (nullSel cs) raiseGP0
  let c ← fetchDescOr 13 false cs
  let cpl := (← get).cpl
  when (!c.isCode) (raiseSel 13 cs false)
  when (cpl < c.dpl) (raiseSel 13 cs false)
  when (!c.p) (raiseSel 11 cs false)
  let is32 := g.typ.getLsbD 3
  let t := g.gateOffset is32
  if !c.conforming && c.dpl < cpl then callInner (sizeW is32) g cs c t
  else callSame (sizeW is32) cs c t

/-- CALL far in protected mode (R605). -/
def callProt (w : Width) (sel : Word) (off : Dword) : M Done := do
  when (nullSel sel) raiseGP0
  let d ← fetchDescOr 13 false sel
  if d.isCode then
    directCode sel d
    callSame w sel d off
    pure .went
  else if d.isCallGate then
    callGate sel d
    pure .went
  else if d.isTaskGate || d.availTss || d.busyTss then farTask .call sel d
  else raiseSel 13 sel false

/-- CALL far (R605). -/
def execCallFar (t : FarForm) (s : State) : Host.Outcome State Fault Refusal :=
  instr (do
    let (w, sel, off) ← farForm t
    if s.paragraphs then
      stackRoom (2 * w.bytes)
      checkTargetHere off
      pushReturn s.user w s.cs.sel s.nextEip
      realFar sel off
      pure .went
    else callProt w sel off) s

/-! ### RET far (R612, R613) -/

/-- RET far in real-address and V86 mode (R612). -/
def retReal (w : Width) (imm : Dword) : M Unit := do
  let off ← stackRead 0 w
  let csv ← stackRead w.bytes w
  let off : Dword := BitVec.setWidth 32 off
  checkTargetHere off
  modify fun s => s.setEsp (s.esp + BitVec.ofNat 32 (2 * w.bytes) + imm)
  realFar (BitVec.setWidth 16 csv) off

/-- RET far to the same privilege level (R612). -/
def retSame (w : Width) (imm : Dword) (rs : Word) : M Unit := do
  let s ← get
  let c ← returnCode rs s.cpl
  let off ← stackRead 0 w
  let off : Dword := BitVec.setWidth 32 off
  checkTarget c rs off
  enterCode rs c s.cpl off
  modify fun s => s.setEsp (s.esp + BitVec.ofNat 32 (2 * w.bytes) + imm)

/-- RET far to an outer privilege level (R613). -/
def retOuter (w : Width) (imm : Dword) (rs : Word) : M Unit := do
  let cpl := selRpl rs
  stackTop (4 * w.bytes + imm.toNat)
  let c ← returnCode rs cpl
  let nsp ← stackRead (2 * w.bytes + imm.toNat) w
  let nss ← stackRead (3 * w.bytes + imm.toNat) .w16
  let sd ← returnStack nss cpl
  let off ← stackRead 0 w
  let off : Dword := BitVec.setWidth 32 off
  checkTarget c rs off
  enterCode rs c cpl off
  returnSP nss sd w (BitVec.setWidth 32 nsp + imm)
  modify fun s => s.invalidateDataSegs cpl

/-- RET far in protected mode (R612, R613). -/
def retProt (w : Width) (imm : Dword) : M Unit := do
  let s ← get
  let rs ← stackRead w.bytes .w16
  when (selRpl rs < s.cpl) (raiseSel 13 rs false)
  if s.cpl < selRpl rs then retOuter w imm rs else retSame w imm rs

/-- RET far (R612). -/
def execRetFar (w : Width) (n : Option Word) (s : State) : Host.Outcome State Fault Refusal :=
  instr (do
    let imm := retCount n
    (if s.paragraphs then retReal w imm else retProt w imm)
    pure .went) s

/-! ### Software interrupts and IRET (R630 to R645) -/

/-- INT n, PUSHF, POPF and IRET in V86 mode need IOPL 3 (R957). -/
def checkV86Iopl : M Unit := do
  let s ← get
  when (s.v86 && s.iopl < 3) raiseGP0

/-- A software interrupt: the return offset is that of the next instruction (R630, R827). -/
def softInt (v : Byte) : M Done := do
  let s ← get
  deliver { vec := v, kind := .soft, code := none, isFault := false, ret := s.nextEip }
  pure .wentKeepRf

/-- INT n (R630). -/
def execIntN (n : Byte) (s : State) : Host.Outcome State Fault Refusal :=
  instr (do
    checkV86Iopl
    softInt n) s

/-- INT 3 (R631): not sensitive to IOPL. -/
def execInt3 (s : State) : Host.Outcome State Fault Refusal := instr (softInt 3) s

/-- INTO (R632). -/
def execInto (s : State) : Host.Outcome State Fault Refusal :=
  instr (if s.flag .of then softInt 4 else pure .next) s

/-- IRET (R640), 16-bit operand size. -/
def execIret (s : State) : Host.Outcome State Fault Refusal := instr (ireturn .w16) s
/-- IRETD (R640), 32-bit operand size. -/
def execIretd (s : State) : Host.Outcome State Fault Refusal := instr (ireturn .d32) s

end Sys2Proof.Machine
end

