-- ==== Sys2Proof/Machine/FlagMisc.lean ====
section
/-! DEFINITION. The flag-control and miscellaneous instructions (spec/46_flag_misc.md) but LOCK (Prefixes), WAIT and ESC
(Coproc). -/

namespace Sys2Proof.Machine

/-! ### Carry and direction flag -/

/-- STC (R700). -/
def execStc (s : State) : Host.Outcome State Fault Refusal := plain (putFlag .cf true) s
/-- CLC (R701). -/
def execClc (s : State) : Host.Outcome State Fault Refusal := plain (putFlag .cf false) s
/-- CMC (R702). -/
def execCmc (s : State) : Host.Outcome State Fault Refusal := plain (putFlag .cf (!s.flag .cf)) s
/-- STD (R703). -/
def execStd (s : State) : Host.Outcome State Fault Refusal := plain (putFlag .df true) s
/-- CLD (R704). -/
def execCld (s : State) : Host.Outcome State Fault Refusal := plain (putFlag .df false) s

/-! ### Interrupt flag -/

/-- May the interrupt flag be written? In real-address mode, or with CPL at most IOPL (R705, R706, R712). -/
def State.mayWriteIF (s : State) : Bool := !s.pe || decide (s.cpl ≤ s.iopl)

/-- CLI (R705). -/
def execCli (s : State) : Host.Outcome State Fault Refusal :=
  plain (if s.mayWriteIF then putFlag .iflag false else raiseGP0) s

/-- STI (R706): INTR waits for one instruction when IF was 0. -/
def execSti (s : State) : Host.Outcome State Fault Refusal :=
  plain (if s.mayWriteIF then modify fun t => { t.setFlag .iflag true with inhibitIntr := !s.flag .iflag }
         else raiseGP0) s

/-! ### Flags as data -/

/-- LAHF (R710, D17). -/
def execLahf (s : State) : Host.Outcome State Fault Refusal :=
  plain (writeReg .b8 .esp (s.eflags.extractLsb' 0 8)) s

/-- The bits of EFLAGS that SAHF writes (R711). -/
def sahfMask : Dword := 0xD5

/-- SAHF (R711). -/
def execSahf (s : State) : Host.Outcome State Fault Refusal :=
  plain (modify fun t => t.putFlags sahfMask ((s.reg .b8 .esp).setWidth 32)) s

/-- The bits of EFLAGS that POPF and POPFD write (R712). -/
def State.popfMask (s : State) : Dword :=
  0x4DD5
  ||| (if s.mayWriteIF then 0x200 else 0)
  ||| (if !s.pe ∨ s.cpl = 0 then 0x3000 else 0)

/-- POPF and POPFD (R712). DEDUCED: an item beyond the SS limit is exception 12 in real-address and V86 mode too, as R400, R109 and
R934 read the "Interrupt 13" of the page for an operand in SS (log 41). -/
def popFlags (w : Width) : M Done := do
  checkV86Iopl
  let mask := (← get).popfMask
  let v ← pop w
  modify fun t => t.putFlags mask (BitVec.setWidth 32 v)
  pure .nextKeepRf

/-- POPF (R712). -/
def execPopf (s : State) : Host.Outcome State Fault Refusal := instr (popFlags .w16) s
/-- POPFD (R712). -/
def execPopfd (s : State) : Host.Outcome State Fault Refusal := instr (popFlags .d32) s

/-- PUSHF and PUSHFD: VM and RF are 0 in the image (R713, C80). -/
def pushFlags (w : Width) : M Unit := do
  checkV86Iopl
  push w (BitVec.setWidth w.bits ((← get).eflags &&& 0x00FCFFFF))

/-- PUSHF (R713). -/
def execPushf (s : State) : Host.Outcome State Fault Refusal := plain (pushFlags .w16) s
/-- PUSHFD (R713). -/
def execPushfd (s : State) : Host.Outcome State Fault Refusal := plain (pushFlags .d32) s

/-! ### NOP and HLT -/

/-- NOP (R720). -/
def execNop (s : State) : Host.Outcome State Fault Refusal := plain (pure ()) s

/-- A privileged instruction: #GP(0) in protected or V86 mode unless CPL = 0 (R167, R740). -/
def checkCpl0 : M Unit := do
  let s ← get
  when (s.pe && s.cpl != 0) raiseGP0

/-- HLT (R721). -/
def execHlt (s : State) : Host.Outcome State Fault Refusal :=
  plain (do
    checkCpl0
    modify fun t => { t with run := .halted }) s

end Sys2Proof.Machine
end

