-- ==== Sys2Proof/Machine/System.lean ====
section
/-! DEFINITION. The system instructions (spec/47_system.md) and the commands of the TLB test registers
(spec/22_paging.md R255 to R257). -/

namespace Sys2Proof.Machine

/-- An instruction of protected mode only: #UD in real-address and V86 mode (R740). -/
def checkProt : M Unit := do
  when (!(← get).prot) raiseUD

/-- The six status flags become undefined (R770, R772, R774). -/
def freeStatus : M Unit := freeFlags allStatus

/-! ### Descriptor-table registers (R741 to R746) -/

/-- The base of a table as an operand size has it: 24 bits with a 16-bit one (R741, R743). -/
def tableBase (w : Width) (b : Dword) : Dword := if w = .d32 then b else b &&& 0x00FFFFFF

/-- The six-byte operand of LGDT and LIDT, checked against the limit as one operand and read as a word, the limit, and a
doubleword, the base (R96, R741). -/
def readTable (w : Width) (m : MemRef) : M TableReg := do
  let ea := (← get).memEa m
  checkSeg (segOf m) ea 6 false
  let limit ← memRead (segOf m) ea .w16
  let base ← memRead (segOf m) (ea + 2) .d32
  pure { limit := limit, base := tableBase w base }

/-- LGDT (R741). -/
def execLgdt (w : Width) (m : MemRef) (s : State) : Host.Outcome State Fault Refusal :=
  plain (do
    checkCpl0
    let t ← readTable w m
    modify fun s => { s with gdtr := t }) s

/-- LIDT (R742). -/
def execLidt (w : Width) (m : MemRef) (s : State) : Host.Outcome State Fault Refusal :=
  plain (do
    checkCpl0
    let t ← readTable w m
    modify fun s => { s with idtr := t }) s

/-- SGDT and SIDT: the six bytes are checked, then the limit is stored as a word and the base as a doubleword, of which the
last byte is 0 with a 16-bit operand size (R96, R743, C81). -/
def storeTable (w : Width) (m : MemRef) (t : TableReg) : M Unit := do
  let s ← get
  let ea := s.memEa m
  memWriteCheck s.user (segOf m) ea 6
  memWrite (segOf m) ea .w16 t.limit
  memWrite (segOf m) (ea + 2) .d32 (tableBase w t.base)

/-- SGDT (R743). -/
def execSgdt (w : Width) (m : MemRef) (s : State) : Host.Outcome State Fault Refusal := plain (storeTable w m s.gdtr) s
/-- SIDT (R744). -/
def execSidt (w : Width) (m : MemRef) (s : State) : Host.Outcome State Fault Refusal := plain (storeTable w m s.idtr) s

/-- LLDT (R745). -/
def execLldt (rm : Rm) (s : State) : Host.Outcome State Fault Refusal :=
  plain (do
    checkProt
    checkCpl0
    let sel ← readRm .w16 rm
    loadLDTR 13 11 false sel) s

/-- SLDT (R746). -/
def execSldt (rm : Rm) (s : State) : Host.Outcome State Fault Refusal :=
  plain (do
    checkProt
    writeRm .w16 rm s.ldtr.sel) s

/-- LTR (R764). -/
def execLtr (rm : Rm) (s : State) : Host.Outcome State Fault Refusal :=
  plain (do
    checkProt
    checkCpl0
    let sel ← readRm .w16 rm
    loadTR sel) s

/-- STR (R765). -/
def execStr (rm : Rm) (s : State) : Host.Outcome State Fault Refusal :=
  plain (do
    checkProt
    writeRm .w16 rm s.tr.sel) s

/-! ### Machine status word (R747 to R749) -/

/-- CR0 after LMSW of `v`: PE is never cleared (R747, R48). -/
def mswLoaded (cr0 : Dword) (v : Word) : Dword :=
  (cr0 &&& ~~~(0x1E : Dword)) ||| (v.setWidth 32 &&& 0x1F)

/-- LMSW (R747). -/
def execLmsw (rm : Rm) (s : State) : Host.Outcome State Fault Refusal :=
  plain (do
    checkCpl0
    let v ← readRm .w16 rm
    modify fun s => { s with cr0 := mswLoaded s.cr0 v, mswFresh := false }) s

/-- The MSW as SMSW stores it: bits 15:5 are undefined, but 0 as long as nothing has written it since RESET (R47, R748). -/
def mswImage : M Word := do
  let s ← get
  let low : Word := s.cr0.extractLsb' 0 16
  if s.mswFresh then pure low
  else do pure (low ||| ((← draw).extractLsb' 0 16 &&& 0xFFE0))

/-- SMSW (R748). -/
def execSmsw (rm : Rm) (s : State) : Host.Outcome State Fault Refusal :=
  plain (do
    let v ← mswImage
    writeRm .w16 rm v) s

/-- CLTS (R749). -/
def execClts (s : State) : Host.Outcome State Fault Refusal :=
  plain (do
    checkCpl0
    modify fun s => { s with cr0 := setBit s.cr0 3 false }) s

/-! ### Access rights (R750 to R754) -/

/-- The descriptor types LAR accepts (R750). -/
def Desc.larType (d : Desc) : Bool := d.s || ([1, 2, 3, 4, 5, 6, 7, 9, 11, 12, 14, 15] : List (BitVec 4)).contains d.typ
/-- The descriptor types LSL accepts (R751). -/
def Desc.lslType (d : Desc) : Bool := d.s || ([1, 2, 3, 9, 11] : List (BitVec 4)).contains d.typ

/-- Privilege as LAR, LSL, VERR and VERW test it; conforming code passes where `conf` (R750, R752). -/
def Desc.visible (d : Desc) (cpl : BitVec 2) (sel : Word) (conf : Bool) : Bool :=
  (conf && d.conforming) || (decide (cpl ≤ d.dpl) && decide (selRpl sel ≤ d.dpl))

/-- The descriptor of a selector, when it names one that passes `ok` (R750). -/
def probe (sel : Word) (ok : Desc → Bool) : M (Option Desc) := do
  if nullSel sel then pure none
  else
    match (← fetchDesc sel) with
    | none => pure none
    | some d => pure (if ok d then some d else none)

/-- `limit` or access rights of a visible descriptor into a register; ZF says whether there was one (R750, R751). -/
def probeInto (w : Width) (r : Reg) (sel : Word) (types : Desc → Bool) (value : Desc → M Dword) : M Unit := do
  let cpl := (← get).cpl
  match (← probe sel fun d => types d && d.visible cpl sel true) with
  | none => putFlag .zf false
  | some d =>
    let v ← value d
    writeReg w r (BitVec.setWidth w.bits v)
    putFlag .zf true

/-- What LAR gives: bits 19:16 are undefined (R750). -/
def larValue (d : Desc) : M Dword := do pure ((d.d1 &&& 0x00F0FF00) ||| ((← draw) &&& 0x000F0000))

/-- LAR (R750). -/
def execLar (w : Width) (r : Reg) (rm : Rm) (s : State) : Host.Outcome State Fault Refusal :=
  plain (do
    checkProt
    let sel := BitVec.setWidth 16 (← readRm w rm)
    probeInto w r sel Desc.larType larValue) s

/-- LSL (R751). -/
def execLsl (w : Width) (r : Reg) (rm : Rm) (s : State) : Host.Outcome State Fault Refusal :=
  plain (do
    checkProt
    let sel := BitVec.setWidth 16 (← readRm w rm)
    probeInto w r sel Desc.lslType fun d => pure d.limit) s

/-- VERR (R752). -/
def execVerr (rm : Rm) (s : State) : Host.Outcome State Fault Refusal :=
  plain (do
    checkProt
    let sel ← readRm .w16 rm
    let d ← probe sel fun d => d.s && d.readable && d.visible s.cpl sel true
    putFlag .zf d.isSome) s

/-- VERW (R753). -/
def execVerw (rm : Rm) (s : State) : Host.Outcome State Fault Refusal :=
  plain (do
    checkProt
    let sel ← readRm .w16 rm
    let d ← probe sel fun d => d.writableData && d.visible s.cpl sel false
    putFlag .zf d.isSome) s

/-- The RPL of `a` raised to that of `b` (R754). -/
def arplVal (a b : Word) : Word := if selRpl a < selRpl b then (a &&& 0xFFFC) ||| (b &&& 3) else a

/-- ARPL on a memory operand: it is written only where the RPL rises (R754). DESIGN CHOICE: where it does not rise the access
counts for data breakpoints as a read alone, since no write is made, although R106 and R906 count the operand of a
read-modify-write instruction as both; but the check of its write sets the dirty bit of the page (R106, R226; log 55). -/
def arplMem (m : MemRef) (b : Word) : M Unit := do
  let s ← get
  memWriteCheck s.user (segOf m) (s.memEa m) 2
  let a ← readMem .w16 m
  if selRpl a < selRpl b then
    writeMem .w16 m (arplVal a b)
    putFlag .zf true
  else putFlag .zf false

/-- ARPL on a register (R754). -/
def arplReg (r : Reg) (b : Word) : M Unit := do
  let a ← readReg .w16 r
  writeReg .w16 r (arplVal a b)
  putFlag .zf (selRpl a < selRpl b)

/-- ARPL (R754). -/
def execArpl (rm : Rm) (r : Reg) (s : State) : Host.Outcome State Fault Refusal :=
  plain (do
    checkProt
    let b ← readReg .w16 r
    match rm with
    | .reg d => arplReg d b
    | .mem m => arplMem m b) s

/-! ### Control registers (R770) -/

/-- A register as it is read: the bits outside `mask` are reserved and undefined (R47, R51, R54, R55). -/
def reserved (mask v : Dword) : M Dword := do pure ((v &&& mask) ||| ((← draw) &&& ~~~mask))

/-- A control register read (R770). -/
def readCr (n : BitVec 3) : M Dword := do
  let s ← get
  match n.toNat with
  | 0 => reserved cr0Mask s.cr0
  | 2 => pure s.cr2
  | 3 => reserved cr3Mask s.cr3
  | _ => raiseUD

/-- MOV r32, CRn (R770). -/
def execMovFromCr (n : BitVec 3) (r : Reg) (s : State) : Host.Outcome State Fault Refusal :=
  plain (do
    checkCpl0
    let v ← readCr n
    writeReg .d32 r v
    freeStatus) s

/-- A control register written (R770, R252). -/
def writeCr (n : BitVec 3) (v : Dword) : M Unit :=
  match n.toNat with
  | 0 => do
    when (bitOf v 31 && !bitOf v 0) raiseGP0
    modify fun s => { s with cr0 := v &&& cr0Mask, mswFresh := false }
  | 2 => modify fun s => { s with cr2 := v }
  | 3 => modify fun s => ({ s with cr3 := v &&& cr3Mask }).flushTlb
  | _ => raiseUD

/-- MOV CRn, r32 (R770). -/
def execMovToCr (n : BitVec 3) (r : Reg) (s : State) : Host.Outcome State Fault Refusal :=
  plain (do
    checkCpl0
    writeCr n (s.reg .d32 r)
    freeStatus) s

/-! ### Debug registers (R772) -/

/-- A debug register read (R772). -/
def readDr (n : BitVec 3) : M Dword := do
  let s ← get
  match n.toNat with
  | 4 | 5 => raiseUD
  | 6 => reserved dr6Mask s.dr6
  | 7 => reserved dr7Mask s.dr7
  | k => pure (s.dr k)

/-- MOV r32, DRn (R772). -/
def execMovFromDr (n : BitVec 3) (r : Reg) (s : State) : Host.Outcome State Fault Refusal :=
  plain (do
    checkCpl0
    let v ← readDr n
    writeReg .d32 r v
    freeStatus) s

/-- A debug register written (R772). -/
def writeDr (n : BitVec 3) (v : Dword) : M Unit :=
  match n.toNat with
  | 0 => modify fun s => { s with dr0 := v }
  | 1 => modify fun s => { s with dr1 := v }
  | 2 => modify fun s => { s with dr2 := v }
  | 3 => modify fun s => { s with dr3 := v }
  | 6 => modify fun s => { s with dr6 := v &&& dr6Mask }
  | 7 => modify fun s => { s with dr7 := v &&& dr7Mask }
  | _ => raiseUD

/-- MOV DRn, r32 (R772). -/
def execMovToDr (n : BitVec 3) (r : Reg) (s : State) : Host.Outcome State Fault Refusal :=
  plain (do
    checkCpl0
    writeDr n (s.reg .d32 r)
    freeStatus) s

/-! ### Test registers (R774, R255, R256) -/

/-- A pair X, X# of TR6 at bit `k` and bit `k - 1`: none when the combination is undefined (R56). -/
def testPair (v : Dword) (k : Nat) : Option Bool :=
  if bitOf v k = bitOf v (k - 1) then none else some (bitOf v k)

/-- The attribute a pair sets: a free bit where it is undefined (R255). -/
def pairBit (v : Dword) (k : Nat) : M Bool :=
  match testPair v k with
  | some b => pure b
  | none => drawBit

/-- A TLB entry of free contents (R255). -/
def freeEntry : M TlbEntry := do
  let a ← draw
  let p ← draw
  pure { lin := a.extractLsb' 12 20, v := bitOf a 11, d := bitOf a 10, u := bitOf a 8, w := bitOf a 6,
         phys := p.extractLsb' 12 20 }

/-- The TLB write command: TR6 holds `v` (R255). With HT = 0 the entry's contents are free. -/
def tlbWrite (v : Dword) : M Unit := do
  let t7 := (← get).tr7
  let d ← pairBit v 10
  let u ← pairBit v 8
  let w ← pairBit v 6
  let e : TlbEntry := { lin := v.extractLsb' 12 20, v := bitOf v 11, d := d, u := u, w := w, phys := t7.extractLsb' 12 20 }
  let e ← (if bitOf t7 4 then pure e else freeEntry)
  modify fun s => { s with tlb := s.tlb.set (tlbIndex v (t7.extractLsb' 2 2).toNat) e }

/-- Does a pair match an attribute? An undefined pair matches or not by `free` (R56). -/
def pairMatches (v : Dword) (k : Nat) (x free : Bool) : Bool :=
  match testPair v k with
  | some b => b == x
  | none => free

/-- The blocks whose entry matches TR6 = `v`; `free` decides where a pair is undefined (R256). -/
def State.tlbMatches (s : State) (v free : Dword) : List Nat :=
  [0, 1, 2, 3].filter fun b =>
    let e := s.tlbEntry (tlbIndex v b)
    e.lin == v.extractLsb' 12 20 && e.v == bitOf v 11 && pairMatches v 10 e.d (bitOf free b)
      && pairMatches v 8 e.u (bitOf free (b + 4)) && pairMatches v 6 e.w (bitOf free (b + 8))

/-- Is every pair of TR6 = `v` defined? -/
def pairsDefined (v : Dword) : Bool := (testPair v 10).isSome && (testPair v 8).isSome && (testPair v 6).isSome

/-- A pair of TR6 written from an attribute: X and its complement (R256). -/
def setPair (v : Dword) (k : Nat) (x : Bool) : Dword := setBit (setBit v k x) (k - 1) (!x)

/-- TR7 after a lookup: HT, REP and the frame; the reserved bits stay (R57, R256). -/
def tr7Result (old : Dword) (hit : Bool) (rep : BitVec 2) (phys : BitVec 20) : Dword :=
  setBit ((old &&& 0x00000FF3) ||| (rep.setWidth 32 <<< 2) ||| (phys.setWidth 32 <<< 12)) 4 hit

/-- The result of a lookup that matched entry `e` of block `b` (R256). -/
def State.tlbHit (s : State) (v : Dword) (b : Nat) (e : TlbEntry) : State :=
  { s with tr6 := setPair (setPair (setPair v 10 e.d) 8 e.u) 6 e.w, tr7 := tr7Result s.tr7 true (BitVec.ofNat 2 b) e.phys }

/-- A lookup that misses: REP and the frame are free (R256). -/
def lookupMiss : M Unit := do
  let r ← draw
  modify fun s => { s with tr7 := tr7Result s.tr7 false (r.extractLsb' 2 2) (r.extractLsb' 12 20) }

/-- A lookup with a free result, hit or miss (R256). -/
def freeLookup (v : Dword) : M Unit := do
  let r ← draw
  let a ← draw
  modify fun s =>
    if bitOf r 4 then
      s.tlbHit v (r.extractLsb' 2 2).toNat
        { lin := 0, v := false, d := bitOf a 10, u := bitOf a 8, w := bitOf a 6, phys := r.extractLsb' 12 20 }
    else { s with tr7 := tr7Result s.tr7 false (r.extractLsb' 2 2) (r.extractLsb' 12 20) }

/-- The result of a lookup that the blocks `hits` match (R256). -/
def lookupResult (v : Dword) : List Nat → M Unit
  | [b] => modify fun s => s.tlbHit v b (s.tlbEntry (tlbIndex v b))
  | _ => lookupMiss

/-- The TLB lookup command: TR6 holds `v` (R256). On a miss REP and the frame are free; a lookup with V = 0 while a tag
has never been written has a free result. -/
def tlbLookup (v : Dword) : M Unit := do
  let s ← get
  if !bitOf v 11 && s.tlb.contains TlbEntry.reset then freeLookup v
  else
    let free ← (if pairsDefined v then pure 0 else draw)
    lookupResult v (s.tlbMatches v free)

/-- A test register read (R774). -/
def readTr (n : BitVec 3) : M Dword := do
  let s ← get
  match n.toNat with
  | 6 => pure s.tr6
  | 7 => pure s.tr7
  | _ => raiseUD

/-- MOV r32, TRn (R774). -/
def execMovFromTr (n : BitVec 3) (r : Reg) (s : State) : Host.Outcome State Fault Refusal :=
  plain (do
    checkCpl0
    let v ← readTr n
    writeReg .d32 r v
    freeStatus) s

/-- A test register written; TR6 performs its command (R774). -/
def writeTr (n : BitVec 3) (v : Dword) : M Unit :=
  match n.toNat with
  | 6 => do
    modify fun s => { s with tr6 := v }
    if bitOf v 0 then tlbLookup v else tlbWrite v
  | 7 => modify fun s => { s with tr7 := v }
  | _ => raiseUD

/-- MOV TRn, r32 (R774). -/
def execMovToTr (n : BitVec 3) (r : Reg) (s : State) : Host.Outcome State Fault Refusal :=
  plain (do
    checkCpl0
    writeTr n (s.reg .d32 r)
    freeStatus) s

end Sys2Proof.Machine
end

