-- ==== Sys2Proof/Machine/Prefixes.lean ====
section
/-! DEFINITION. The lead bytes as instructions (spec/30_encoding.md R320 to R323; spec/46_flag_misc.md R725). The operands
of the instruction behind them already carry sizes, segment and repeat kind; what is left is which instructions admit LOCK
and the repeat prefixes, and the undefined opcodes (R347). -/

namespace Sys2Proof.Machine

/-- An undefined opcode: #UD (R347). -/
def execUndef (_ : Undef) (s : State) : Host.Outcome State Fault Refusal := undefined s

/-- The instruction behind the lead bytes. -/
def coreOf : Instr → Instr
  | .rep i => coreOf i
  | .repne i => coreOf i
  | .lock i => coreOf i
  | .segES i => coreOf i
  | .segCS i => coreOf i
  | .segSS i => coreOf i
  | .segDS i => coreOf i
  | .segFS i => coreOf i
  | .segGS i => coreOf i
  | .opsize i => coreOf i
  | .addrsize i => coreOf i
  | i => i

/-- May a repeat prefix stand before it? The string instructions, LODS included (R322, C57, D39). -/
def repeatable : Instr → Bool
  | .movsb _ | .movsw _ | .movsd _ | .cmpsb _ | .cmpsw _ | .cmpsd _
  | .stosb _ | .stosw _ | .stosd _ | .lodsb _ | .lodsw _ | .lodsd _
  | .scasb _ | .scasw _ | .scasd _ | .insb _ | .insw _ | .insd _
  | .outsb _ | .outsw _ | .outsd _ => true
  | _ => false

/-- An r/m operand in memory. -/
def isMem : Rm → Bool
  | .mem _ => true
  | .reg _ => false

/-- A two-operand form with a memory destination (R725). -/
def aluLockable : AluForm → Bool
  | .rmReg _ rm _ | .rmImm _ rm _ | .rmImm8 _ rm _ => isMem rm
  | .regRm _ _ _ | .accImm _ _ => false

/-- INC or DEC of memory (R725). -/
def incLockable : IncForm → Bool
  | .rm _ rm => isMem rm
  | .reg _ _ => false

/-- XCHG with memory (R725, C40). -/
def xchgLockable : XchgForm → Bool
  | .rmReg _ rm _ => isMem rm
  | .acc _ _ => false

/-- BT, BTS, BTR or BTC on memory (R725). -/
def btLockable : BtForm → Bool
  | .reg _ rm _ | .imm _ rm _ => isMem rm

/-- The lockable instructions, all with a memory destination (R110, R725). -/
def lockable : Instr → Bool
  | .add f | .or f | .adc f | .sbb f | .and f | .sub f | .xor f => aluLockable f
  | .not _ rm | .neg _ rm => isMem rm
  | .inc f | .dec f => incLockable f
  | .xchg f => xchgLockable f
  | .bt f | .bts f | .btr f | .btc f => btLockable f
  | _ => false

/-- LOCK in V86 mode, were it sensitive to IOPL (R975, D80). -/
def State.lockTraps (s : State) : Bool := Config.v86LockIoplSensitive && s.v86 && decide (s.iopl < 3)

/-- An instruction behind a lead byte: the same meaning as alone, and further lead bytes with their own rules. -/
def runUnder (i : Instr) (s : State) : Host.Outcome State Fault Refusal :=
  match i with
  | .add f => execAdd f s
  | .or f => execOr f s
  | .adc f => execAdc f s
  | .sbb f => execSbb f s
  | .and f => execAnd f s
  | .sub f => execSub f s
  | .xor f => execXor f s
  | .cmp f => execCmp f s
  | .inc f => execInc f s
  | .dec f => execDec f s
  | .not w rm => execNot w rm s
  | .neg w rm => execNeg w rm s
  | .mul w rm => execMul w rm s
  | .imul f => execImul f s
  | .div w rm => execDiv w rm s
  | .idiv w rm => execIdiv w rm s
  | .daa => execDaa s
  | .das => execDas s
  | .aaa => execAaa s
  | .aas => execAas s
  | .aam base => execAam base s
  | .aad base => execAad base s
  | .test f => execTest f s
  | .rol f => execRol f s
  | .ror f => execRor f s
  | .rcl f => execRcl f s
  | .rcr f => execRcr f s
  | .shl f => execShl f s
  | .shr f => execShr f s
  | .sar f => execSar f s
  | .shld f => execShld f s
  | .shrd f => execShrd f s
  | .bt f => execBt f s
  | .bts f => execBts f s
  | .btr f => execBtr f s
  | .btc f => execBtc f s
  | .bsf w r rm => execBsf w r rm s
  | .bsr w r rm => execBsr w r rm s
  | .seto rm => execSeto rm s
  | .setno rm => execSetno rm s
  | .setb rm => execSetb rm s
  | .setae rm => execSetae rm s
  | .sete rm => execSete rm s
  | .setne rm => execSetne rm s
  | .setbe rm => execSetbe rm s
  | .seta rm => execSeta rm s
  | .sets rm => execSets rm s
  | .setns rm => execSetns rm s
  | .setp rm => execSetp rm s
  | .setnp rm => execSetnp rm s
  | .setl rm => execSetl rm s
  | .setge rm => execSetge rm s
  | .setle rm => execSetle rm s
  | .setg rm => execSetg rm s
  | .mov f => execMov f s
  | .movFromSreg rm sr => execMovFromSreg rm sr s
  | .movToSreg sr rm => execMovToSreg sr rm s
  | .movFromCr n r => execMovFromCr n r s
  | .movToCr n r => execMovToCr n r s
  | .movFromDr n r => execMovFromDr n r s
  | .movToDr n r => execMovToDr n r s
  | .movFromTr n r => execMovFromTr n r s
  | .movToTr n r => execMovToTr n r s
  | .xchg f => execXchg f s
  | .push f => execPush f s
  | .pop f => execPop f s
  | .pusha => execPusha s
  | .pushad => execPushad s
  | .popa => execPopa s
  | .popad => execPopad s
  | .cbw => execCbw s
  | .cwde => execCwde s
  | .cwd => execCwd s
  | .cdq => execCdq s
  | .movsx w r src rm => execMovsx w r src rm s
  | .movzx w r src rm => execMovzx w r src rm s
  | .lea w r m => execLea w r m s
  | .les w r m => execLes w r m s
  | .lds w r m => execLds w r m s
  | .lss w r m => execLss w r m s
  | .lfs w r m => execLfs w r m s
  | .lgs w r m => execLgs w r m s
  | .xlat a => execXlat a s
  | .jo t => execJo t s
  | .jno t => execJno t s
  | .jb t => execJb t s
  | .jae t => execJae t s
  | .je t => execJe t s
  | .jne t => execJne t s
  | .jbe t => execJbe t s
  | .ja t => execJa t s
  | .js t => execJs t s
  | .jns t => execJns t s
  | .jp t => execJp t s
  | .jnp t => execJnp t s
  | .jl t => execJl t s
  | .jge t => execJge t s
  | .jle t => execJle t s
  | .jg t => execJg t s
  | .jcxz w asz d => execJcxz w asz d s
  | .loop w asz d => execLoop w asz d s
  | .loope w asz d => execLoope w asz d s
  | .loopne w asz d => execLoopne w asz d s
  | .jmp t => execJmp t s
  | .jmpFar t => execJmpFar t s
  | .call t => execCall t s
  | .callFar t => execCallFar t s
  | .ret w n => execRet w n s
  | .retFar w n => execRetFar w n s
  | .enter w size level => execEnter w size level s
  | .leave w => execLeave w s
  | .bound w r m => execBound w r m s
  | .intN n => execIntN n s
  | .int3 => execInt3 s
  | .into => execInto s
  | .iret => execIret s
  | .iretd => execIretd s
  | .movsb a => execMovsb a s
  | .movsw a => execMovsw a s
  | .movsd a => execMovsd a s
  | .cmpsb a => execCmpsb a s
  | .cmpsw a => execCmpsw a s
  | .cmpsd a => execCmpsd a s
  | .stosb a => execStosb a s
  | .stosw a => execStosw a s
  | .stosd a => execStosd a s
  | .lodsb a => execLodsb a s
  | .lodsw a => execLodsw a s
  | .lodsd a => execLodsd a s
  | .scasb a => execScasb a s
  | .scasw a => execScasw a s
  | .scasd a => execScasd a s
  | .insb a => execInsb a s
  | .insw a => execInsw a s
  | .insd a => execInsd a s
  | .outsb a => execOutsb a s
  | .outsw a => execOutsw a s
  | .outsd a => execOutsd a s
  | .inp f => execInp f s
  | .out f => execOut f s
  | .stc => execStc s
  | .clc => execClc s
  | .cmc => execCmc s
  | .std => execStd s
  | .cld => execCld s
  | .cli => execCli s
  | .sti => execSti s
  | .lahf => execLahf s
  | .sahf => execSahf s
  | .popf => execPopf s
  | .popfd => execPopfd s
  | .pushf => execPushf s
  | .pushfd => execPushfd s
  | .nop => execNop s
  | .hlt => execHlt s
  | .wait => execWait s
  | .esc w asz op reg rm => execEsc w asz op reg rm s
  | .lgdt w m => execLgdt w m s
  | .lidt w m => execLidt w m s
  | .sgdt w m => execSgdt w m s
  | .sidt w m => execSidt w m s
  | .lldt rm => execLldt rm s
  | .sldt rm => execSldt rm s
  | .ltr rm => execLtr rm s
  | .str rm => execStr rm s
  | .lmsw rm => execLmsw rm s
  | .smsw rm => execSmsw rm s
  | .clts => execClts s
  | .lar w r rm => execLar w r rm s
  | .lsl w r rm => execLsl w r rm s
  | .verr rm => execVerr rm s
  | .verw rm => execVerw rm s
  | .arpl rm r => execArpl rm r s
  | .undef b => execUndef b s
  | .rep i | .repne i => if repeatable (coreOf i) then runUnder i s else undefined s
  | .lock i => if s.lockTraps then instr raiseGP0 s else if lockable (coreOf i) then runUnder i s else undefined s
  | .segES i | .segCS i | .segSS i | .segDS i | .segFS i | .segGS i | .opsize i | .addrsize i => runUnder i s

/-- REP, REPE, REPZ: #UD before an instruction that cannot be repeated (R322, R690). -/
def execRep (i : Instr) (s : State) : Host.Outcome State Fault Refusal :=
  if repeatable (coreOf i) then runUnder i s else undefined s

/-- REPNE, REPNZ: #UD before an instruction that cannot be repeated (R322, R690, D39). -/
def execRepne (i : Instr) (s : State) : Host.Outcome State Fault Refusal :=
  if repeatable (coreOf i) then runUnder i s else undefined s

/-- LOCK: #UD unless the destination is memory and the instruction lockable; no other effect on one processor (R110,
R725). -/
def execLock (i : Instr) (s : State) : Host.Outcome State Fault Refusal :=
  if s.lockTraps then instr raiseGP0 s else if lockable (coreOf i) then runUnder i s else undefined s

/-- Segment override ES: the operand behind it carries it (R321, R339). -/
def execSegES (i : Instr) (s : State) : Host.Outcome State Fault Refusal := runUnder i s
/-- Segment override CS: the operand behind it carries it (R321, R339). -/
def execSegCS (i : Instr) (s : State) : Host.Outcome State Fault Refusal := runUnder i s
/-- Segment override SS: the operand behind it carries it (R321, R339). -/
def execSegSS (i : Instr) (s : State) : Host.Outcome State Fault Refusal := runUnder i s
/-- Segment override DS: the operand behind it carries it (R321, R339). -/
def execSegDS (i : Instr) (s : State) : Host.Outcome State Fault Refusal := runUnder i s
/-- Segment override FS: the operand behind it carries it (R321, R339). -/
def execSegFS (i : Instr) (s : State) : Host.Outcome State Fault Refusal := runUnder i s
/-- Segment override GS: the operand behind it carries it (R321, R339). -/
def execSegGS (i : Instr) (s : State) : Host.Outcome State Fault Refusal := runUnder i s
/-- Operand-size prefix: the operands behind it carry the size (R321, R323). -/
def execOpsize (i : Instr) (s : State) : Host.Outcome State Fault Refusal := runUnder i s
/-- Address-size prefix: the operands behind it carry the size (R321, R323). -/
def execAddrsize (i : Instr) (s : State) : Host.Outcome State Fault Refusal := runUnder i s

end Sys2Proof.Machine
end

