-- ==== Sys2Proof/Machine/Dispatch.lean ====
section
/-! DEFINITION. One arm per instruction: its meaning. -/

namespace Sys2Proof.Machine

def exec (i : Instr) (s : State) : Host.Outcome State Fault Refusal :=
  match i with
  | .add f => Sys2Proof.Machine.execAdd f s
  | .or f => Sys2Proof.Machine.execOr f s
  | .adc f => Sys2Proof.Machine.execAdc f s
  | .sbb f => Sys2Proof.Machine.execSbb f s
  | .and f => Sys2Proof.Machine.execAnd f s
  | .sub f => Sys2Proof.Machine.execSub f s
  | .xor f => Sys2Proof.Machine.execXor f s
  | .cmp f => Sys2Proof.Machine.execCmp f s
  | .inc f => Sys2Proof.Machine.execInc f s
  | .dec f => Sys2Proof.Machine.execDec f s
  | .not w rm => Sys2Proof.Machine.execNot w rm s
  | .neg w rm => Sys2Proof.Machine.execNeg w rm s
  | .mul w rm => Sys2Proof.Machine.execMul w rm s
  | .imul f => Sys2Proof.Machine.execImul f s
  | .div w rm => Sys2Proof.Machine.execDiv w rm s
  | .idiv w rm => Sys2Proof.Machine.execIdiv w rm s
  | .daa => Sys2Proof.Machine.execDaa s
  | .das => Sys2Proof.Machine.execDas s
  | .aaa => Sys2Proof.Machine.execAaa s
  | .aas => Sys2Proof.Machine.execAas s
  | .aam base => Sys2Proof.Machine.execAam base s
  | .aad base => Sys2Proof.Machine.execAad base s
  | .test f => Sys2Proof.Machine.execTest f s
  | .rol f => Sys2Proof.Machine.execRol f s
  | .ror f => Sys2Proof.Machine.execRor f s
  | .rcl f => Sys2Proof.Machine.execRcl f s
  | .rcr f => Sys2Proof.Machine.execRcr f s
  | .shl f => Sys2Proof.Machine.execShl f s
  | .shr f => Sys2Proof.Machine.execShr f s
  | .sar f => Sys2Proof.Machine.execSar f s
  | .shld f => Sys2Proof.Machine.execShld f s
  | .shrd f => Sys2Proof.Machine.execShrd f s
  | .bt f => Sys2Proof.Machine.execBt f s
  | .bts f => Sys2Proof.Machine.execBts f s
  | .btr f => Sys2Proof.Machine.execBtr f s
  | .btc f => Sys2Proof.Machine.execBtc f s
  | .bsf w r rm => Sys2Proof.Machine.execBsf w r rm s
  | .bsr w r rm => Sys2Proof.Machine.execBsr w r rm s
  | .seto rm => Sys2Proof.Machine.execSeto rm s
  | .setno rm => Sys2Proof.Machine.execSetno rm s
  | .setb rm => Sys2Proof.Machine.execSetb rm s
  | .setae rm => Sys2Proof.Machine.execSetae rm s
  | .sete rm => Sys2Proof.Machine.execSete rm s
  | .setne rm => Sys2Proof.Machine.execSetne rm s
  | .setbe rm => Sys2Proof.Machine.execSetbe rm s
  | .seta rm => Sys2Proof.Machine.execSeta rm s
  | .sets rm => Sys2Proof.Machine.execSets rm s
  | .setns rm => Sys2Proof.Machine.execSetns rm s
  | .setp rm => Sys2Proof.Machine.execSetp rm s
  | .setnp rm => Sys2Proof.Machine.execSetnp rm s
  | .setl rm => Sys2Proof.Machine.execSetl rm s
  | .setge rm => Sys2Proof.Machine.execSetge rm s
  | .setle rm => Sys2Proof.Machine.execSetle rm s
  | .setg rm => Sys2Proof.Machine.execSetg rm s
  | .mov f => Sys2Proof.Machine.execMov f s
  | .movFromSreg rm sr => Sys2Proof.Machine.execMovFromSreg rm sr s
  | .movToSreg sr rm => Sys2Proof.Machine.execMovToSreg sr rm s
  | .movFromCr n r => Sys2Proof.Machine.execMovFromCr n r s
  | .movToCr n r => Sys2Proof.Machine.execMovToCr n r s
  | .movFromDr n r => Sys2Proof.Machine.execMovFromDr n r s
  | .movToDr n r => Sys2Proof.Machine.execMovToDr n r s
  | .movFromTr n r => Sys2Proof.Machine.execMovFromTr n r s
  | .movToTr n r => Sys2Proof.Machine.execMovToTr n r s
  | .xchg f => Sys2Proof.Machine.execXchg f s
  | .push f => Sys2Proof.Machine.execPush f s
  | .pop f => Sys2Proof.Machine.execPop f s
  | .pusha => Sys2Proof.Machine.execPusha s
  | .pushad => Sys2Proof.Machine.execPushad s
  | .popa => Sys2Proof.Machine.execPopa s
  | .popad => Sys2Proof.Machine.execPopad s
  | .cbw => Sys2Proof.Machine.execCbw s
  | .cwde => Sys2Proof.Machine.execCwde s
  | .cwd => Sys2Proof.Machine.execCwd s
  | .cdq => Sys2Proof.Machine.execCdq s
  | .movsx w r src rm => Sys2Proof.Machine.execMovsx w r src rm s
  | .movzx w r src rm => Sys2Proof.Machine.execMovzx w r src rm s
  | .lea w r m => Sys2Proof.Machine.execLea w r m s
  | .les w r m => Sys2Proof.Machine.execLes w r m s
  | .lds w r m => Sys2Proof.Machine.execLds w r m s
  | .lss w r m => Sys2Proof.Machine.execLss w r m s
  | .lfs w r m => Sys2Proof.Machine.execLfs w r m s
  | .lgs w r m => Sys2Proof.Machine.execLgs w r m s
  | .xlat a => Sys2Proof.Machine.execXlat a s
  | .jo t => Sys2Proof.Machine.execJo t s
  | .jno t => Sys2Proof.Machine.execJno t s
  | .jb t => Sys2Proof.Machine.execJb t s
  | .jae t => Sys2Proof.Machine.execJae t s
  | .je t => Sys2Proof.Machine.execJe t s
  | .jne t => Sys2Proof.Machine.execJne t s
  | .jbe t => Sys2Proof.Machine.execJbe t s
  | .ja t => Sys2Proof.Machine.execJa t s
  | .js t => Sys2Proof.Machine.execJs t s
  | .jns t => Sys2Proof.Machine.execJns t s
  | .jp t => Sys2Proof.Machine.execJp t s
  | .jnp t => Sys2Proof.Machine.execJnp t s
  | .jl t => Sys2Proof.Machine.execJl t s
  | .jge t => Sys2Proof.Machine.execJge t s
  | .jle t => Sys2Proof.Machine.execJle t s
  | .jg t => Sys2Proof.Machine.execJg t s
  | .jcxz w asz d => Sys2Proof.Machine.execJcxz w asz d s
  | .loop w asz d => Sys2Proof.Machine.execLoop w asz d s
  | .loope w asz d => Sys2Proof.Machine.execLoope w asz d s
  | .loopne w asz d => Sys2Proof.Machine.execLoopne w asz d s
  | .jmp t => Sys2Proof.Machine.execJmp t s
  | .jmpFar t => Sys2Proof.Machine.execJmpFar t s
  | .call t => Sys2Proof.Machine.execCall t s
  | .callFar t => Sys2Proof.Machine.execCallFar t s
  | .ret w n => Sys2Proof.Machine.execRet w n s
  | .retFar w n => Sys2Proof.Machine.execRetFar w n s
  | .enter w size level => Sys2Proof.Machine.execEnter w size level s
  | .leave w => Sys2Proof.Machine.execLeave w s
  | .bound w r m => Sys2Proof.Machine.execBound w r m s
  | .intN n => Sys2Proof.Machine.execIntN n s
  | .int3 => Sys2Proof.Machine.execInt3 s
  | .into => Sys2Proof.Machine.execInto s
  | .iret => Sys2Proof.Machine.execIret s
  | .iretd => Sys2Proof.Machine.execIretd s
  | .movsb a => Sys2Proof.Machine.execMovsb a s
  | .movsw a => Sys2Proof.Machine.execMovsw a s
  | .movsd a => Sys2Proof.Machine.execMovsd a s
  | .cmpsb a => Sys2Proof.Machine.execCmpsb a s
  | .cmpsw a => Sys2Proof.Machine.execCmpsw a s
  | .cmpsd a => Sys2Proof.Machine.execCmpsd a s
  | .stosb a => Sys2Proof.Machine.execStosb a s
  | .stosw a => Sys2Proof.Machine.execStosw a s
  | .stosd a => Sys2Proof.Machine.execStosd a s
  | .lodsb a => Sys2Proof.Machine.execLodsb a s
  | .lodsw a => Sys2Proof.Machine.execLodsw a s
  | .lodsd a => Sys2Proof.Machine.execLodsd a s
  | .scasb a => Sys2Proof.Machine.execScasb a s
  | .scasw a => Sys2Proof.Machine.execScasw a s
  | .scasd a => Sys2Proof.Machine.execScasd a s
  | .insb a => Sys2Proof.Machine.execInsb a s
  | .insw a => Sys2Proof.Machine.execInsw a s
  | .insd a => Sys2Proof.Machine.execInsd a s
  | .outsb a => Sys2Proof.Machine.execOutsb a s
  | .outsw a => Sys2Proof.Machine.execOutsw a s
  | .outsd a => Sys2Proof.Machine.execOutsd a s
  | .inp f => Sys2Proof.Machine.execInp f s
  | .out f => Sys2Proof.Machine.execOut f s
  | .stc => Sys2Proof.Machine.execStc s
  | .clc => Sys2Proof.Machine.execClc s
  | .cmc => Sys2Proof.Machine.execCmc s
  | .std => Sys2Proof.Machine.execStd s
  | .cld => Sys2Proof.Machine.execCld s
  | .cli => Sys2Proof.Machine.execCli s
  | .sti => Sys2Proof.Machine.execSti s
  | .lahf => Sys2Proof.Machine.execLahf s
  | .sahf => Sys2Proof.Machine.execSahf s
  | .popf => Sys2Proof.Machine.execPopf s
  | .popfd => Sys2Proof.Machine.execPopfd s
  | .pushf => Sys2Proof.Machine.execPushf s
  | .pushfd => Sys2Proof.Machine.execPushfd s
  | .nop => Sys2Proof.Machine.execNop s
  | .hlt => Sys2Proof.Machine.execHlt s
  | .wait => Sys2Proof.Machine.execWait s
  | .esc w asz op reg rm => Sys2Proof.Machine.execEsc w asz op reg rm s
  | .lgdt w m => Sys2Proof.Machine.execLgdt w m s
  | .lidt w m => Sys2Proof.Machine.execLidt w m s
  | .sgdt w m => Sys2Proof.Machine.execSgdt w m s
  | .sidt w m => Sys2Proof.Machine.execSidt w m s
  | .lldt rm => Sys2Proof.Machine.execLldt rm s
  | .sldt rm => Sys2Proof.Machine.execSldt rm s
  | .ltr rm => Sys2Proof.Machine.execLtr rm s
  | .str rm => Sys2Proof.Machine.execStr rm s
  | .lmsw rm => Sys2Proof.Machine.execLmsw rm s
  | .smsw rm => Sys2Proof.Machine.execSmsw rm s
  | .clts => Sys2Proof.Machine.execClts s
  | .lar w r rm => Sys2Proof.Machine.execLar w r rm s
  | .lsl w r rm => Sys2Proof.Machine.execLsl w r rm s
  | .verr rm => Sys2Proof.Machine.execVerr rm s
  | .verw rm => Sys2Proof.Machine.execVerw rm s
  | .arpl rm r => Sys2Proof.Machine.execArpl rm r s
  | .undef b => Sys2Proof.Machine.execUndef b s
  | .rep j => Sys2Proof.Machine.execRep j s
  | .repne j => Sys2Proof.Machine.execRepne j s
  | .lock j => Sys2Proof.Machine.execLock j s
  | .segES j => Sys2Proof.Machine.execSegES j s
  | .segCS j => Sys2Proof.Machine.execSegCS j s
  | .segSS j => Sys2Proof.Machine.execSegSS j s
  | .segDS j => Sys2Proof.Machine.execSegDS j s
  | .segFS j => Sys2Proof.Machine.execSegFS j s
  | .segGS j => Sys2Proof.Machine.execSegGS j s
  | .opsize j => Sys2Proof.Machine.execOpsize j s
  | .addrsize j => Sys2Proof.Machine.execAddrsize j s

end Sys2Proof.Machine
end

