-- ==== Sys2Proof/Machine/Fetch.lean ====
section
/-! DEFINITION. What happens at an instruction boundary (spec/60_exceptions.md R880, R803, R811 to R814;
spec/61_debug.md R905, R908) and the fetch of an instruction (spec/20_memory.md R118, R119). -/

namespace Sys2Proof.Machine

/-! ### Events between instructions -/

/-- The NMI input is sampled: lost while an NMI is in service, else held until it is delivered (R811, D59). -/
def State.sampleNmi (s : State) : State :=
  if s.pinNmi then { s with pinNmi := false, nmiPending := s.nmiPending || !s.nmiMask } else s

/-- An NMI is to be delivered, the inhibit apart (R811). -/
def State.nmiDue (s : State) : Bool := s.nmiPending && !s.nmiMask

/-- NMI taken: vector 2, no error code, further NMIs masked until IRET (R811). -/
def takeNmi (s : State) : State :=
  takeEvent { vec := 2, kind := .hw, code := none, isFault := false, ret := s.eip }
    { s with nmiPending := false, nmiMask := true }

/-- INTR is to be taken: asserted, IF = 1, neither inhibit (R803, R813, R814). -/
def State.intrDue (s : State) : Bool := !s.intrQueue.isEmpty && s.flag .iflag && !s.inhibit && !s.inhibitIntr

/-- INTR taken: `ack()` gives the vector (R803). -/
def takeIntr (s : State) : State :=
  takeEvent { vec := s.intrQueue.headD 0, kind := .hw, code := none, isFault := false, ret := s.eip }
    { s with intrQueue := s.intrQueue.tail }

/-- The debug trap after an instruction: its bits join DR6, BT those of a task switch (R908, R917). -/
def takeDebugTrap (s : State) : State :=
  takeEvent
    { vec := 1, kind := .exc, code := none, isFault := false, ret := s.eip, taskTrap := bitOf s.pend 15 }
    { s with dr6 := s.dr6 ||| s.pend }

/-- The instruction breakpoints that match the next instruction's first byte, at CS.base + EIP (R905). -/
def State.instrHits (s : State) : List Nat :=
  [0, 1, 2, 3].filter fun n => s.drRw n == 0 && s.drLen n == 0 && s.dr n == s.cs.base + s.eip

/-- An instruction-breakpoint fault is due (R905): not in the middle of a repeated string instruction (R691). -/
def State.instrBreak (s : State) : Bool :=
  s.instrHits.any (fun n => s.drEnabled n) && !s.flag .rf && !s.inhibit && !s.repActive

/-- The instruction-breakpoint fault (R905): every matching breakpoint's bit joins DR6. -/
def takeInstrBreak (s : State) : State :=
  takeEvent { vec := 1, kind := .exc, code := none, isFault := true, ret := s.eip }
    { s with dr6 := s.instrHits.foldl (fun acc n => setBit acc n true) (s.dr6 ||| s.pend) }

/-- The event taken at the boundary at which `s` stands, if any, in the order of R880. -/
def State.boundary (s : State) : Option State :=
  if s.due && !s.inhibit then some (takeDebugTrap s)
  else if s.run == .running && s.instrBreak then some (takeInstrBreak s)
  else if s.nmiDue && !s.inhibit then some (takeNmi s)
  else if s.intrDue then some (takeIntr s)
  else none

/-! ### The fetch -/

/-- One more than the last offset of a code segment: 2^16 where it is a 16-bit one (D16). -/
def codeEnd (is32 : Bool) : Nat := if is32 then 2 ^ 32 else 2 ^ 16

/-- Execution has run past FFFFH and meets the segment limit: 10000H lies beyond it (R15 c, R934, V70-3). Where it does not,
execution goes on at offset 0 (R118, D16; log 24). -/
def State.overrun (s : State) : Bool := s.ranPast && !inLimit s.cs 0x10000 1

/-- Instruction byte `i` lies within the CS limit. An instruction that would straddle the end of the offset space, FFFFH in a
16-bit code segment, does not, whatever the limit (R15 g, R118, D16). -/
def State.codeByteOk (s : State) (i : Nat) : Bool :=
  let off := s.fetchOff.toNat + i
  s.cs.valid && !s.overrun && decide (off < codeEnd s.code32) && inLimit s.cs (BitVec.ofNat 32 off) 1

/-- Instruction byte `i`, at `trunc(EIP + i)`: the CS limit is checked, and the page as for a read (R15, R118). -/
def fetchByte (i : Nat) : M Byte := do
  let s ← get
  when (!s.codeByteOk i) raiseGP0
  pure (BitVec.ofNat 8 (← linRead (s.cs.base + BitVec.ofNat 32 (s.fetchOff.toNat + i)) 1 s.user))

/-- `n` instruction bytes from byte `i` on. -/
def fetchBytes : Nat → Nat → M (List Byte)
  | 0, _ => pure []
  | n + 1, i => do
    let b ← fetchByte i
    let bs ← fetchBytes n (i + 1)
    pure (b :: bs)

/-- The instruction bytes that can be fetched, up to `n` from byte `i` on; a byte that cannot ends the list. -/
def peekBytes : Nat → Nat → State → List Byte
  | 0, _, _ => []
  | n + 1, i, s =>
    match fetchByte i s with
    | .ok b t => b :: peekBytes n (i + 1) t
    | .error _ _ => []

/-- The window of instruction bytes at CS:EIP. -/
def State.window (s : State) : List Byte := peekBytes maxInstrBytes 0 s

/-- How many of the bytes the decoder looks at before it refuses them: the fewest that it does not call truncated. -/
def refusedAt (d : Bool) (bs : List Byte) : Nat :=
  ((List.range (bs.length + 1)).find? fun k =>
    match decode d (bs.take k) with
    | .error .truncated => false
    | _ => true).getD bs.length

/-- What a fetch comes to: an instruction in the state in which it runs (bytes fetched, `nextStart` set), or the state after
the fault that stops it (R325, R119, R347). -/
inductive Fetched where
  | run (i : Instr) (s : State)
  | stop (s : State)
deriving DecidableEq, Repr, Inhabited

/-- The fault of a fetch whose first `n` bytes are read. -/
def fetchFault (n : Nat) (last : M Done) (s : State) : Fetched :=
  match (do let _ ← fetchBytes n 0; last : M Done) s with
  | .ok _ t => .stop t
  | .error x t => .stop (abandon s x t)

/-- A byte that stands before an opcode (R321). -/
def isLead (b : Byte) : Bool :=
  ([0x26, 0x2E, 0x36, 0x3E, 0x64, 0x65, 0x66, 0x67, 0xF0, 0xF2, 0xF3] : List Byte).contains b

/-- The number of bytes, `n` of them lead bytes gone by, after which the bytes are known to begin an instruction of protected
mode only: with its opcode, and the reg digit of 0F 00 (R931). -/
def protOnlyAt (n : Nat) : List Byte → Option Nat
  | [] => none
  | b :: bs =>
    if isLead b then protOnlyAt (n + 1) bs
    else if b = 0x63 then some (n + 1)
    else if b = 0x0F then
      match bs with
      | 0x02 :: _ | 0x03 :: _ => some (n + 2)
      | 0x00 :: m :: _ => if (m.extractLsb' 3 3).toNat ≤ 5 then some (n + 3) else none
      | _ => none
    else none

/-- The fault of bytes at CS:EIP that make no whole instruction: #UD where they are known to be undefined, in real-address and
V86 mode those of an instruction of protected mode only too (R931, D78), else the fault of the byte that cannot be fetched, or
#GP(0) after the fifteenth. DESIGN CHOICE: an instruction of protected mode only that would run past fifteen bytes is #UD in those
two modes where its opcode, and the digit of 0F 00, lie within them: D78 raises #UD at that byte, while D40 has the #GP(0) of the
length come before validity is judged (R325; log 46). -/
def fetchBad (s : State) (e : DecErr) : Fetched :=
  let bs := s.window
  match (if s.paragraphs then protOnlyAt 0 bs else none) with
  | some n => fetchFault n raiseUD s
  | none =>
    match e with
    | .truncated => fetchFault (bs.length + 1) raiseGP0 s
    | .tooLong => fetchFault maxInstrBytes raiseGP0 s
    | _ => fetchFault (refusedAt s.code32 bs) raiseUD s

/-- Fetch and decode at CS:EIP: only the bytes of the instruction are read. -/
def fetch (s : State) : Fetched :=
  match decode s.code32 s.window with
  | .ok (i, len) =>
    match fetchBytes len 0 s with
    | .ok _ t => .run i { t with nextStart := s.fetchOff + BitVec.ofNat 32 len }
    | .error x t => .stop (abandon s x t)
  | .error e => fetchBad s e

end Sys2Proof.Machine
end

