-- ==== Sys2Proof/Machine/Step.lean ====
section
/-! DEFINITION. One step of the machine: RESET, an event at the boundary, or one instruction (one iteration of a repeated
string instruction). -/

namespace Sys2Proof.Machine

/-- A running processor with no event to take: one instruction. DESIGN CHOICE: between two iterations of a repeated string
instruction its bytes are fetched and decoded anew, so that one that overwrites itself goes on as the new bytes (log 12). -/
def runOne (s : State) : Host.Outcome State Fault Refusal :=
  match fetch s with
  | .run i t => exec i t
  | .stop t => .next t

/-- One step (R66, R114, R880). RESET wins; a shut-down processor answers NMI only (R870); a halted one waits for an event
(R721). -/
def step (s : State) : Host.Outcome State Fault Refusal :=
  if s.pinReset then .next s.resetKeeping
  else
    let s := s.sampleNmi
    match s.run with
    | .shutdown => if s.nmiDue then .next (takeNmi s) else .next s
    | .halted =>
      match s.boundary with
      | some t => .next t
      | none => .next s
    | .running =>
      match s.boundary with
      | some t => .next t
      | none => runOne s

/-- Where instruction byte `i` lies in physical memory. -/
def State.codeAddr (s : State) (i : Nat) : Nat :=
  let lin := s.cs.base + s.fetchOff + BitVec.ofNat 32 i
  match translate lin false s.user s with
  | .ok pa _ => pa.toNat
  | .error _ _ => lin.toNat

/-- The platform with memory at the addresses `as`: ROM where a device or nothing answered. -/
def Platform.withMemoryAt (p : Platform) (as : List Nat) : Platform :=
  let dead := as.filter fun a => kindIn p.physMem a == .device || kindIn p.physMem a == .nothing
  { p with physMem := dead.map (fun a => { base := a, size := 1, kind := .rom }) ++ p.physMem }

/-- The instruction of an opcode-table word placed at CS:EIP (log 33): the 15 bytes that `decodeTableWord` reads. -/
def State.withFetchWord (s : State) (nbits w : Nat) : State :=
  let as := (List.range maxInstrBytes).map s.codeAddr
  { s with mem := s.mem.writeAll as (tableBytes nbits w), platform := s.platform.withMemoryAt as }

end Sys2Proof.Machine
end

