-- ==== Sys2Proof/Safety.lean ====
section
/-! DEFINITION. What the claims call a legal state, an operand that can be reached, and a run. -/

namespace Sys2Proof.Machine

/-- Bits that hold no state are at their constants: EFLAGS by R30; CR0, CR3, DR6 and DR7 (R40, R51, R54, R55), as the model
keeps them 0; the pending debug-trap bits are bits of DR6 (R67). -/
structure State.Reserved (s : State) : Prop where
  eflags : fixFlags s.eflags = s.eflags
  cr0 : s.cr0 &&& ~~~cr0Mask = 0
  cr3 : s.cr3 &&& ~~~cr3Mask = 0
  dr6 : s.dr6 &&& ~~~dr6Mask = 0
  dr7 : s.dr7 &&& ~~~dr7Mask = 0
  pend : s.pend &&& ~~~dr6Mask = 0
  pendLate : s.pendLate &&& ~~~dr6Mask = 0

/-- The mode is one of the three of R2: VM = 1 is V86 mode, of protected mode, at CPL 3 (R950); real-address mode runs at
CPL 0 (R60); paging needs protected mode (R46, R770). -/
structure State.LegalMode (s : State) : Prop where
  v86 : s.flag .vm = true → s.pe = true ∧ s.cpl = 3
  real : s.pe = false → s.cpl = 0
  paging : s.pg = true → s.pe = true

/-- Memory is in canonical form (log 8) and the TLB has its 32 entries (R250). -/
structure State.Shaped (s : State) : Prop where
  mem : s.mem.wf = true
  tlb : s.tlb.length = 32

/-- In a 16-bit code segment, and in real-address mode, EIP is kept in 0 to FFFFH (R118, D16; log 24). -/
def State.EipFits (s : State) : Prop := s.code32 = false → s.eip.toNat ≤ 0xFFFF

/-- A legal state. -/
structure State.Inv (s : State) : Prop where
  reserved : s.Reserved
  mode : s.LegalMode
  shaped : s.Shaped
  eip : s.EipFits

/-- Fault `vec` with an error code or none, as an instruction raises it (R820). -/
def faultOf (vec : Byte) (code : Option Word) : Exc :=
  { vec := vec, code := code, isFault := true, ret := none, committed := false }

/-! ### Free values -/

/-- The flags `fs`, undefined after an instruction, each take their own free bit (log 7). -/
def State.freed (s : State) : List Flag → State
  | [] => s
  | f :: fs => State.freed ({ s with free := s.free + 1 }.setFlag f (bitOf (Config.freeBits s.free) 0)) fs

/-- The low eight bits hold an even number of ones (R18). -/
def evenOnes {n : Nat} (r : BitVec n) : Prop :=
  ((r.getLsbD 0).toNat + (r.getLsbD 1).toNat + (r.getLsbD 2).toNat + (r.getLsbD 3).toNat + (r.getLsbD 4).toNat +
    (r.getLsbD 5).toNat + (r.getLsbD 6).toNat + (r.getLsbD 7).toNat) % 2 = 0

/-! ### Operands that can be reached -/

/-- The segment checks of R170 for `n` bytes at `off` of segment `sr`, for a write (`w`) or a read. -/
def State.segOk (s : State) (sr : SReg) (off : Dword) (n : Nat) (w : Bool) : Bool :=
  (s.sreg sr).valid && (if w then s.mayWrite sr else (s.sreg sr).readable) && inLimit (s.sreg sr) off n

/-- `t` is `s` but for memory (accessed and dirty bits, R226), the TLB (R251), the count of free values drawn and what passed
to and from devices (R116): what an access may change. -/
def State.Walked (s t : State) : Prop := ∃ mem tlb free devInput devLog,
  t = { s with mem := mem, tlb := tlb, free := free, devInput := devInput, devLog := devLog }

/-- The block of `n` bytes below eSP lies within the SS limit and does not wrap (`StackRoom` of R601). -/
def State.roomOk (s : State) (n : Nat) : Bool :=
  let off := cut s.stack32 (s.esp - BitVec.ofNat 32 n)
  s.segOk .ss off n true && blockFits s.stack32 off n

/-- The first `n` bytes of the stack can be read within the SS limit and do not wrap (R109, R613, R642). -/
def State.topOk (s : State) (n : Nat) : Bool := s.segOk .ss s.esp n false && blockFits s.stack32 s.esp n

/-- The `n` bytes at `off` of segment `sr` can be read, or written (`w`), with page checks as user (`u`) or supervisor:
their physical addresses are `pas`, and `t` is the state after the checks (R100, R101, R225). -/
structure Reach (s : State) (u : Bool) (sr : SReg) (off : Dword) (n : Nat) (w : Bool) (pas : List Nat) (t : State) :
    Prop where
  seg : s.segOk sr off n w = true
  page : translateAll w u (span (s.linOf sr off) n) (s.noted sr off n w) = .ok pas t

/-- Reading operand `rm` gives the value and leaves the state (R400): that of a memory operand after the read. -/
inductive RmIs (s : State) (w : Width) : Rm → BitVec w.bits → State → Prop where
  | reg (r : Reg) : RmIs s w (.reg r) (s.reg w r) s
  | mem (m : MemRef) (pas : List Nat) (t : State) (h : Reach s s.user (segOf m) (s.memEa m) w.bytes false pas t) :
    RmIs s w (.mem m) (t.valueAt w pas) (t.afterRead pas)

/-- Operand `rm` can be written: the function says the state after a value is written (R400). -/
inductive RmPut (s : State) (w : Width) : Rm → (BitVec w.bits → State) → Prop where
  | reg (r : Reg) : RmPut s w (.reg r) fun v => s.setReg w r v
  | mem (m : MemRef) (pas : List Nat) (t : State) (h : Reach s s.user (segOf m) (s.memEa m) w.bytes true pas t) :
    RmPut s w (.mem m) fun v => t.storeAt w pas v

/-- Operand `rm` can be read and written back (R106): its value, the state after the checks and the read, and what writing a
value does to a state. A segment that can be written must be readable too. -/
inductive RmAt (s : State) (w : Width) : Rm → BitVec w.bits → State → (BitVec w.bits → State → State) → Prop where
  | reg (r : Reg) : RmAt s w (.reg r) (s.reg w r) s fun v u => u.setReg w r v
  | mem (m : MemRef) (pas : List Nat) (t : State) (h : Reach s s.user (segOf m) (s.memEa m) w.bytes true pas t)
      (hr : (s.sreg (segOf m)).readable = true) :
    RmAt s w (.mem m) (t.valueAt w pas) (t.afterRead pas) fun v u => u.storeAt w pas v

/-- The operands of a two-operand form that can be read and written: destination `a`, source `b`, the state `t` after the
checks, and what writing the destination does (R451). -/
inductive AluAt (s : State) : AluForm → (w : Width) → BitVec w.bits → BitVec w.bits → State →
    (BitVec w.bits → State → State) → Prop where
  | rmReg {w rm a t put} (r : Reg) (h : RmAt s w rm a t put) : AluAt s (.rmReg w rm r) w a (s.reg w r) t put
  | regRm {w rm b t} (r : Reg) (h : RmIs s w rm b t) :
    AluAt s (.regRm w r rm) w (t.reg w r) b t fun v u => u.setReg w r v
  | accImm (w : Width) (imm : Dword) :
    AluAt s (.accImm w imm) w (s.reg w .eax) (immOf w imm) s fun v u => u.setReg w .eax v
  | rmImm {w rm a t put} (imm : Dword) (h : RmAt s w rm a t put) : AluAt s (.rmImm w rm imm) w a (immOf w imm) t put
  | rmImm8 {w rm a t put} (imm : Byte) (h : RmAt s w rm a t put) : AluAt s (.rmImm8 w rm imm) w a (immSx w imm) t put

/-- The same for a form whose destination is only read: CMP (R456). -/
inductive AluIs (s : State) : AluForm → (w : Width) → BitVec w.bits → BitVec w.bits → State → Prop where
  | rmReg {w rm a t} (r : Reg) (h : RmIs s w rm a t) : AluIs s (.rmReg w rm r) w a (t.reg w r) t
  | regRm {w rm b t} (r : Reg) (h : RmIs s w rm b t) : AluIs s (.regRm w r rm) w (t.reg w r) b t
  | accImm (w : Width) (imm : Dword) : AluIs s (.accImm w imm) w (s.reg w .eax) (immOf w imm) s
  | rmImm {w rm a t} (imm : Dword) (h : RmIs s w rm a t) : AluIs s (.rmImm w rm imm) w a (immOf w imm) t
  | rmImm8 {w rm a t} (imm : Byte) (h : RmIs s w rm a t) : AluIs s (.rmImm8 w rm imm) w a (immSx w imm) t

/-- The operands of TEST (R505). -/
inductive TestIs (s : State) : TestForm → (w : Width) → BitVec w.bits → BitVec w.bits → State → Prop where
  | rmReg {w rm a t} (r : Reg) (h : RmIs s w rm a t) : TestIs s (.rmReg w rm r) w a (t.reg w r) t
  | accImm (w : Width) (imm : Dword) : TestIs s (.accImm w imm) w (s.reg w .eax) (immOf w imm) s
  | rmImm {w rm a t} (imm : Dword) (h : RmIs s w rm a t) : TestIs s (.rmImm w rm imm) w a (immOf w imm) t

/-- The operand of INC and DEC (R457). -/
inductive IncAt (s : State) : IncForm → (w : Width) → BitVec w.bits → State → (BitVec w.bits → State → State) → Prop where
  | reg (w : Width) (r : Reg) : IncAt s (.reg w r) w (s.reg w r) s fun v u => u.setReg w r v
  | rm {w rm a t put} (h : RmAt s w rm a t put) : IncAt s (.rm w rm) w a t put

/-- The operand and the masked count of a shift or rotate (R510). -/
inductive ShiftAt (s : State) : ShiftForm → (w : Width) → BitVec w.bits → Nat → State →
    (BitVec w.bits → State → State) → Prop where
  | imm {w rm a t put} (n : Byte) (h : RmAt s w rm a t put) : ShiftAt s (.imm w rm n) w a (maskCount n) t put
  | one {w rm a t put} (h : RmAt s w rm a t put) : ShiftAt s (.one w rm) w a 1 t put
  | cl {w rm a t put} (h : RmAt s w rm a t put) : ShiftAt s (.cl w rm) w a (maskCount (s.reg .b8 .ecx)) t put

/-- The operands and the masked count of SHLD and SHRD (R518). -/
inductive DShiftAt (s : State) : DShiftForm → (w : Width) → BitVec w.bits → BitVec w.bits → Nat → State →
    (BitVec w.bits → State → State) → Prop where
  | imm {w rm a t put} (r : Reg) (n : Byte) (h : RmAt s w rm a t put) :
    DShiftAt s (.imm w rm r n) w a (s.reg w r) (maskCount n) t put
  | cl {w rm a t put} (r : Reg) (h : RmAt s w rm a t put) :
    DShiftAt s (.cl w rm r) w a (s.reg w r) (maskCount (s.reg .b8 .ecx)) t put

/-- The unit that holds the bit of BT, read (R540, R541): its value and the number of the bit. -/
inductive BitIs (s : State) : BtForm → (w : Width) → BitVec w.bits → Nat → State → Prop where
  | imm {w rm v t} (n : Byte) (h : RmIs s w rm v t) : BitIs s (.imm w rm n) w v (bitNumber w n.toNat) t
  | reg (w : Width) (b r : Reg) : BitIs s (.reg w (.reg b) r) w (s.reg w b) (bitNumber w (s.reg w r).toNat) s
  | mem (w : Width) (m : MemRef) (r : Reg) (pas : List Nat) (t : State)
      (h : Reach s s.user (segOf m) (bitUnit w m (s.memEa m) (s.reg w r)) w.bytes false pas t) :
    BitIs s (.reg w (.mem m) r) w (t.valueAt w pas) (bitNumber w (s.reg w r).toNat) (t.afterRead pas)

/-- The same unit read and written back, for BTS, BTR and BTC (R540, R542 to R544). -/
inductive BitAt (s : State) : BtForm → (w : Width) → BitVec w.bits → Nat → State →
    (BitVec w.bits → State → State) → Prop where
  | imm {w rm v t put} (n : Byte) (h : RmAt s w rm v t put) : BitAt s (.imm w rm n) w v (bitNumber w n.toNat) t put
  | reg (w : Width) (b r : Reg) :
    BitAt s (.reg w (.reg b) r) w (s.reg w b) (bitNumber w (s.reg w r).toNat) s fun v u => u.setReg w b v
  | mem (w : Width) (m : MemRef) (r : Reg) (pas : List Nat) (t : State)
      (h : Reach s s.user (segOf m) (bitUnit w m (s.memEa m) (s.reg w r)) w.bytes true pas t)
      (hr : (s.sreg (segOf m)).readable = true) :
    BitAt s (.reg w (.mem m) r) w (t.valueAt w pas) (bitNumber w (s.reg w r).toNat) (t.afterRead pas) fun v u =>
      u.storeAt w pas v

/-- A value of width `w` can be pushed: the function says the state after it (R107). -/
inductive PushTo (s : State) (w : Width) : (BitVec w.bits → State) → Prop where
  | mk (pas : List Nat) (t : State) (h : Reach s s.user .ss (s.pushOff w) w.bytes true pas t) :
    PushTo s w fun v => (t.storeAt w pas v).setEsp (s.pushOff w)

/-- The top of the stack of width `w` can be popped: the value, and the state after it (R108). -/
inductive PopFrom (s : State) (w : Width) : BitVec w.bits → State → Prop where
  | mk (pas : List Nat) (t : State) (h : Reach s s.user .ss s.esp w.bytes false pas t) :
    PopFrom s w (t.valueAt w pas) ((t.afterRead pas).setEsp (s.esp + BitVec.ofNat 32 w.bytes))

/-- Values pushed one after the other (R107). -/
inductive Pushes (w : Width) : State → List (BitVec w.bits) → State → Prop where
  | nil (s : State) : Pushes w s [] s
  | cons {s : State} {v : BitVec w.bits} {vs : List (BitVec w.bits)} {t : State} {put : BitVec w.bits → State}
      (h : PushTo s w put) (hs : Pushes w (put v) vs t) : Pushes w s (v :: vs) t

/-- Values popped one after the other (R108). -/
inductive Pops (w : Width) : State → List (BitVec w.bits) → State → Prop where
  | nil (s : State) : Pops w s [] s
  | cons {s u : State} {v : BitVec w.bits} {vs : List (BitVec w.bits)} {t : State} (h : PopFrom s w v u)
      (hs : Pops w u vs t) : Pops w s (v :: vs) t

/-- A far pointer in memory can be read: its offset, then its selector, which lies behind it without wrapping (R95, R421,
R600). -/
inductive FarMem (s : State) (w : Width) (m : MemRef) : Word → BitVec w.bits → State → Prop where
  | mk (pas pas' : List Nat) (u t : State) (h : Reach s s.user (segOf m) (s.memEa m) w.bytes false pas u)
      (hf : (s.memEa m).toNat + w.bytes < 2 ^ 32)
      (h' : Reach (u.afterRead pas) s.user (segOf m) (s.memEa m + BitVec.ofNat 32 w.bytes) 2 false pas' t) :
    FarMem s w m (t.valueAt .w16 pas') (u.valueAt w pas) (t.afterRead pas')

/-! ### Segment registers that can be loaded -/

/-- `sel` can be loaded into segment register `sr` (not CS), which gives `t`: by paragraph number in real-address and V86
mode (R932, R952); in protected mode a null selector (R180), or one whose descriptor `d` passes the checks of R180, or of
R181 for SS, its accessed bit being set (R144). -/
inductive SregLoad (s : State) (sr : SReg) (sel : Word) : State → Prop where
  | real (h : s.pe = false) : SregLoad s sr sel (s.setSreg sr ((s.sreg sr).loadReal sel))
  | v86 (h : s.v86 = true) (hc : sr ≠ .cs) : SregLoad s sr sel (s.setSreg sr (SegReg.loadV86 sel false))
  | null (h : s.prot = true) (hr : sr ≠ .ss) (hn : nullSel sel = true) :
    SregLoad s sr sel (s.setSreg sr ((s.sreg sr).null sel))
  | data (h : s.prot = true) (hr : sr ≠ .ss) (hn : nullSel sel = false) (d : Desc) (u t : State)
      (hd : fetchDesc sel s = .ok (some d) u) (hp : d.p = true) (hk : d.readable = true)
      (hv : d.conforming = true ∨ (selRpl sel ≤ d.dpl ∧ s.cpl ≤ d.dpl)) (ha : setAccessed sel d u = .ok () t) :
    SregLoad s sr sel (t.setSreg sr (d.toSeg sel))
  | stack (h : s.prot = true) (hr : sr = .ss) (hn : nullSel sel = false) (d : Desc) (u t : State)
      (hd : fetchDesc sel s = .ok (some d) u) (hp : d.p = true) (hk : d.writableData = true)
      (hv : selRpl sel = s.cpl ∧ d.dpl = s.cpl) (ha : setAccessed sel d u = .ok () t) :
    SregLoad s sr sel (t.setSreg sr (d.toSeg sel))

/-! ### Descriptors that are refused -/

/-- The vector of the first check that fails: each fault condition of a list stands with the vector it raises. -/
def firstFault : List (Bool × Byte) → Option Byte
  | [] => none
  | (fails, vec) :: rest => if fails then some vec else firstFault rest

/-- The error code about selector `sel`: bits 1:0 are 0 and EXT (R822). -/
def selCode (ext : Bool) (sel : Word) : Word := (sel &&& 0xFFFC) ||| (if ext then 1 else 0)

/-- The descriptor of `sel` is looked for and refused with exception `x`: with vector `vec` where `sel` names no descriptor
(R143), else with that of the first fault of `faults`. The error code is that of `sel`. -/
inductive Refused (s : State) (sel : Word) (vec : Byte) (ext : Bool) (faults : Desc → List (Bool × Byte)) :
    Exc → State → Prop where
  | outside (t : State) (h : fetchDesc sel s = .ok none t) :
    Refused s sel vec ext faults (faultOf vec (some (selCode ext sel))) t
  | fault (d : Desc) (v : Byte) (t : State) (h : fetchDesc sel s = .ok (some d) t) (hv : firstFault (faults d) = some v) :
    Refused s sel vec ext faults (faultOf v (some (selCode ext sel))) t

/-- The checks of a data segment register (R180); `vt` is the vector of a bad type: #GP, or #TS in a task switch (R273). -/
def Desc.dataFaults (d : Desc) (vt : Byte) (cpl : BitVec 2) (sel : Word) : List (Bool × Byte) :=
  [(!d.readable, vt), (!d.conforming && (decide (d.dpl < selRpl sel) || decide (d.dpl < cpl)), 13), (!d.p, 11)]

/-- The checks of a stack segment for privilege `cpl` (R181, R607, R613, R824); `vec` is #GP or #TS. -/
def Desc.stackFaults (d : Desc) (vec : Byte) (cpl : BitVec 2) (sel : Word) : List (Bool × Byte) :=
  [(selRpl sel != cpl, vec), (!d.writableData, vec), (d.dpl != cpl, vec), (!d.p, 12)]

/-- The checks of an LDT descriptor (R183, tests 4 and 5 of R273). -/
def Desc.ldtFaults (d : Desc) (vec vnp : Byte) : List (Bool × Byte) := [(!d.isLdt, vec), (!d.p, vnp)]

/-- The checks of LTR (R184). -/
def Desc.trFaults (d : Desc) : List (Bool × Byte) := [(!d.availTss, 13), (!d.p, 11)]

/-- The checks of the descriptor that a far JMP or CALL names (R602 to R606, R268): its type; for code its privilege, for a
gate or a TSS its DPL; a TSS must be available and of the GDT; presence comes last. -/
def Desc.farFaults (d : Desc) (cpl : BitVec 2) (sel : Word) : List (Bool × Byte) :=
  let gate := !d.s && (d.typ == 4 || d.typ == 5 || d.typ == 12)
  let tss := d.availTss || d.busyTss
  [(!d.isCode && !gate && !tss, 13), (d.isCode && d.conforming && decide (cpl < d.dpl), 13),
   (d.isCode && !d.conforming && (decide (cpl < selRpl sel) || d.dpl != cpl), 13),
   (!d.isCode && (decide (d.dpl < cpl) || decide (d.dpl < selRpl sel)), 13),
   (tss && (selTi sel || d.busyTss), 13), (!d.p, 11)]

/-- The checks of the code segment of a call gate: for JMP (R603), and for CALL (R606). -/
def Desc.throughFaults (c : Desc) (isCall : Bool) (cpl : BitVec 2) : List (Bool × Byte) :=
  [(!c.isCode, 13), (decide (cpl < c.dpl), 13), (!isCall && !c.conforming && c.dpl != cpl, 13), (!c.p, 11)]

/-- The checks of the code segment that a far return with new privilege `cpl` goes to (R612, R613, R642, R643), and of that of
an incoming task (tests 6 to 8 of R273); `vec` is #GP or #TS. -/
def Desc.codeFaults (c : Desc) (vec : Byte) (cpl : BitVec 2) : List (Bool × Byte) :=
  [(!c.isCode, vec), (!c.conforming && c.dpl != cpl, vec), (c.conforming && decide (cpl < c.dpl), vec), (!c.p, 11)]

/-- The checks of an IDT entry (R821): type, privilege of a software interrupt (`soft`), presence. -/
def Desc.idtFaults (g : Desc) (soft : Bool) (cpl : BitVec 2) : List (Bool × Byte) :=
  [(g.s || !(g.typ == 5 || g.typ == 6 || g.typ == 7 || g.typ == 14 || g.typ == 15), 13),
   (soft && decide (g.dpl < cpl), 13), (!g.p, 11)]

/-- The checks of the code segment of an interrupt or trap gate (R823). -/
def Desc.gateFaults (c : Desc) (cpl : BitVec 2) : List (Bool × Byte) :=
  [(!c.isCode, 13), (!c.p, 11), (!c.conforming && decide (cpl < c.dpl), 13)]

/-- Loading `sel` into segment register `sr` in protected mode raises `x` (R180, R181). -/
inductive SregRefused (s : State) (sr : SReg) (sel : Word) : Exc → State → Prop where
  | null (hr : sr = .ss) (hn : nullSel sel = true) : SregRefused s sr sel (faultOf 13 (some 0)) s
  | stack {x : Exc} {t : State} (hr : sr = .ss) (hn : nullSel sel = false)
      (h : Refused s sel 13 false (fun d => d.stackFaults 13 s.cpl sel) x t) : SregRefused s sr sel x t
  | data {x : Exc} {t : State} (hr : sr ≠ .ss) (hn : nullSel sel = false)
      (h : Refused s sel 13 false (fun d => d.dataFaults 13 s.cpl sel) x t) : SregRefused s sr sel x t

/-! ### Control transfers -/

/-- An item that a control transfer pushes: a value, or a selector, whose padding to a doubleword is free (R107). -/
inductive Item where
  | val (v : Dword)
  | sel (v : Word)
deriving DecidableEq, Repr, Inhabited

/-- What an item of width `w` is as a value, and the state after a free value it may take (log 29). -/
def State.item (s : State) (w : Width) : Item → BitVec w.bits × State
  | .val v => (v.setWidth w.bits, s)
  | .sel v =>
    match w with
    | .d32 => ((Config.freeBits s.free).extractLsb' 16 16 ++ v, { s with free := s.free + 1 })
    | .b8 => (v.setWidth 8, s)
    | .w16 => (v, s)

/-- Items of width `w` pushed one after the other, with page checks as user (`u`) or supervisor (R107). -/
inductive Items (u : Bool) (w : Width) : State → List Item → State → Prop where
  | nil (s : State) : Items u w s [] s
  | cons {s s' t z : State} {i : Item} {is : List Item} {v : BitVec w.bits} {pas : List Nat} (hi : s.item w i = (v, s'))
      (h : Reach s' u .ss (s'.pushOff w) w.bytes true pas t)
      (hs : Items u w ((t.storeAt w pas v).setEsp (s'.pushOff w)) is z) : Items u w s (i :: is) z

/-- The stack item of width `w` that lies `k` bytes above eSP, read (R601). -/
inductive StackItem (s : State) (k : Nat) (w : Width) : BitVec w.bits → State → Prop where
  | mk (pas : List Nat) (t : State)
      (h : Reach s s.user .ss (cut s.stack32 (s.esp + BitVec.ofNat 32 k)) w.bytes false pas t) :
    StackItem s k w (t.valueAt w pas) (t.afterRead pas)

/-- The stack items of width `w` that lie at the given distances above eSP, read in turn (R601). -/
inductive StackItems (w : Width) : State → List Nat → List (BitVec w.bits) → State → Prop where
  | nil (s : State) : StackItems w s [] [] s
  | cons {s t u : State} {k : Nat} {ks : List Nat} {v : BitVec w.bits} {vs : List (BitVec w.bits)}
      (h : StackItem s k w v t) (hs : StackItems w t ks vs u) : StackItems w s (k :: ks) (v :: vs) u

/-- The frame pointers of `k` outer levels are copied: each time eBP goes down by one item, and the item it then points to is
read and pushed (R580). -/
inductive FrameCopies (w : Width) : Nat → State → State → Prop where
  | zero (s : State) : FrameCopies w 0 s s
  | succ {s s' t z : State} {k : Nat} {pas : List Nat} {put : BitVec w.bits → State}
      (hs' : s' = s.setReg w .ebp (s.reg w .ebp - BitVec.ofNat w.bits w.bytes))
      (h : Reach s' s'.user .ss ((s'.reg w .ebp).setWidth 32) w.bytes false pas t) (hp : PushTo (t.afterRead pas) w put)
      (hs : FrameCopies w k (put (t.valueAt w pas)) z) : FrameCopies w (k + 1) s z

/-- The operand size and the target offset of a near JMP or CALL, before it is cut (R561 to R565). -/
inductive NearIs (s : State) : NearForm → Width → Dword → State → Prop where
  | rel8 (w : Width) (d : Byte) : NearIs s (.rel8 w d) w (s.nextEip + d.signExtend 32) s
  | rel (w : Width) (d : Dword) : NearIs s (.rel w d) w (s.nextEip + (immOf w d).signExtend 32) s
  | rm {w rm v t} (h : RmIs s w rm v t) : NearIs s (.rm w rm) w (v.setWidth 32) t

/-- The operand size, selector and offset of a far JMP or CALL (R600). -/
inductive FarIs (s : State) : FarForm → Width → Word → Dword → State → Prop where
  | ptr (w : Width) (sel : Word) (off : Dword) : FarIs s (.ptr w sel off) w sel (cut (w = .d32) off) s
  | mem {w m sel off t} (h : FarMem s w m sel off t) : FarIs s (.mem w m) w sel (off.setWidth 32) t

/-- A far transfer may enter code segment `d` directly at privilege `cpl`: R602, R605. -/
def Desc.directOk (d : Desc) (sel : Word) (cpl : BitVec 2) : Prop :=
  d.isCode = true ∧ d.p = true ∧
    ((d.conforming = true ∧ d.dpl ≤ cpl) ∨ (d.conforming = false ∧ selRpl sel ≤ cpl ∧ d.dpl = cpl))

/-- A far return may enter code segment `d` at privilege `cpl` (R612, R642). -/
def Desc.returnOk (d : Desc) (cpl : BitVec 2) : Prop :=
  d.isCode = true ∧ d.p = true ∧ (d.conforming = true ∧ d.dpl ≤ cpl ∨ d.conforming = false ∧ d.dpl = cpl)

/-- CS holds code segment `d` at privilege `cpl` (R601): the new CPL is in the selector's RPL field. -/
def State.inCode (s : State) (sel : Word) (d : Desc) (cpl : BitVec 2) (off : Dword) : State :=
  { s with cs := d.toSeg ((sel &&& 0xFFFC) ||| cpl.setWidth 16), cpl := cpl, eip := off }

/-! ### Accesses on the processor's own account, task switches -/

/-- The number `v` of `n` bytes is read at linear address `lin` on the processor's own account (R102). -/
inductive SysGet (s : State) (lin : Dword) (n : Nat) : Nat → State → Prop where
  | mk (pas : List Nat) (t : State) (h : translateAll false false (span lin n) s = .ok pas t) :
    SysGet s lin n (t.numAt pas) (t.afterRead pas)

/-- The low `n` bytes of `v` are written at linear address `lin` on the processor's own account (R102). -/
inductive SysPut (s : State) (lin : Dword) (n v : Nat) : State → Prop where
  | mk (pas : List Nat) (t : State) (h : translateAll true false (span lin n) s = .ok pas t) :
    SysPut s lin n v (t.storeBytes pas (bytesOf n v))

/-- Numbers of `n` bytes read in turn, at the given offsets from `base`. -/
inductive SysGets (base : Dword) (n : Nat) : State → List Dword → List Nat → State → Prop where
  | nil (s : State) : SysGets base n s [] [] s
  | cons {s t u : State} {k : Dword} {ks : List Dword} {v : Nat} {vs : List Nat} (h : SysGet s (base + k) n v t)
      (hs : SysGets base n t ks vs u) : SysGets base n s (k :: ks) (v :: vs) u

/-- Values written in turn, `n` bytes of each, at the given offsets from `base`. -/
inductive SysPuts (base : Dword) (n : Nat) : State → List (Dword × Dword) → State → Prop where
  | nil (s : State) : SysPuts base n s [] s
  | cons {s t u : State} {k v : Dword} {ks : List (Dword × Dword)} (h : SysPut s (base + k) n v.toNat t)
      (hs : SysPuts base n t ks u) : SysPuts base n s ((k, v) :: ks) u

/-- The busy bit of the old task's TSS descriptor is cleared (R270 step 3); nothing is written where the descriptor lies beyond
GDTR.limit (log 53). -/
inductive BusyCleared (s : State) (sel : Word) : State → Prop where
  | gone (h : s.descAddr sel = none) : BusyCleared s sel s
  | mk (addr : Dword) (b : Nat) (t u : State) (ha : s.descAddr sel = some addr) (hg : SysGet s (addr + 5) 1 b t)
      (hp : SysPut t (addr + 5) 1 (BitVec.ofNat 8 b &&& 0xFD).toNat u) : BusyCleared s sel u

/-- The outgoing state is stored in the current TSS with EIP `eip` and EFLAGS `fl`, each field at its offset (R261, R263,
R271). -/
inductive TaskSaved (s : State) (eip fl : Dword) : State → Prop where
  | tss386 (t : State) (hk : s.tr.is386 = true) (h : SysPuts s.tr.base 4 s
      [(0x20, eip), (0x24, fl), (0x28, s.regs.eax), (0x2C, s.regs.ecx), (0x30, s.regs.edx), (0x34, s.regs.ebx),
       (0x38, s.regs.esp), (0x3C, s.regs.ebp), (0x40, s.regs.esi), (0x44, s.regs.edi), (0x48, s.es.sel.setWidth 32),
       (0x4C, s.cs.sel.setWidth 32), (0x50, s.ss.sel.setWidth 32), (0x54, s.ds.sel.setWidth 32),
       (0x58, s.fs.sel.setWidth 32), (0x5C, s.gs.sel.setWidth 32)] t) : TaskSaved s eip fl t
  | tss286 (t : State) (hk : s.tr.is386 = false) (h : SysPuts s.tr.base 2 s
      [(0x0E, eip), (0x10, fl), (0x12, s.regs.eax), (0x14, s.regs.ecx), (0x16, s.regs.edx), (0x18, s.regs.ebx),
       (0x1A, s.regs.esp), (0x1C, s.regs.ebp), (0x1E, s.regs.esi), (0x20, s.regs.edi), (0x22, s.es.sel.setWidth 32),
       (0x24, s.cs.sel.setWidth 32), (0x26, s.ss.sel.setWidth 32), (0x28, s.ds.sel.setWidth 32)] t) : TaskSaved s eip fl t

/-- The incoming state in the TSS of descriptor `new`, each field at its offset (R261, R263, R272): an 80286 TSS has words, and
neither FS nor GS nor the T bit. -/
inductive TssIs (s : State) (new : Desc) : TssImage → State → Prop where
  | tss386 (ip fl ax cx dx bx sp bp si di es cs ss ds fs gs ldt trap : Nat) (t u : State) (hk : new.tss32 = true)
      (h : SysGets new.base 4 s [0x20, 0x24, 0x28, 0x2C, 0x30, 0x34, 0x38, 0x3C, 0x40, 0x44]
        [ip, fl, ax, cx, dx, bx, sp, bp, si, di] t)
      (h' : SysGets new.base 2 t [0x48, 0x4C, 0x50, 0x54, 0x58, 0x5C, 0x60, 0x64] [es, cs, ss, ds, fs, gs, ldt, trap] u) :
    TssIs s new
      { eip := BitVec.ofNat 32 ip, eflags := BitVec.ofNat 32 fl,
        regs := { eax := BitVec.ofNat 32 ax, ecx := BitVec.ofNat 32 cx, edx := BitVec.ofNat 32 dx, ebx := BitVec.ofNat 32 bx,
                  esp := BitVec.ofNat 32 sp, ebp := BitVec.ofNat 32 bp, esi := BitVec.ofNat 32 si, edi := BitVec.ofNat 32 di },
        es := BitVec.ofNat 16 es, cs := BitVec.ofNat 16 cs, ss := BitVec.ofNat 16 ss, ds := BitVec.ofNat 16 ds,
        fs := BitVec.ofNat 16 fs, gs := BitVec.ofNat 16 gs, ldt := BitVec.ofNat 16 ldt, trap := trap.testBit 0 } u
  | tss286 (ip fl ax cx dx bx sp bp si di es cs ss ds ldt : Nat) (t : State) (hk : new.tss32 = false)
      (h : SysGets new.base 2 s [0x0E, 0x10, 0x12, 0x14, 0x16, 0x18, 0x1A, 0x1C, 0x1E, 0x20, 0x22, 0x24, 0x26, 0x28, 0x2A]
        [ip, fl, ax, cx, dx, bx, sp, bp, si, di, es, cs, ss, ds, ldt] t) :
    TssIs s new
      { eip := (BitVec.ofNat 16 ip).setWidth 32, eflags := (BitVec.ofNat 16 fl).setWidth 32,
        regs := { eax := (BitVec.ofNat 16 ax).setWidth 32, ecx := (BitVec.ofNat 16 cx).setWidth 32,
                  edx := (BitVec.ofNat 16 dx).setWidth 32, ebx := (BitVec.ofNat 16 bx).setWidth 32,
                  esp := (BitVec.ofNat 16 sp).setWidth 32, ebp := (BitVec.ofNat 16 bp).setWidth 32,
                  esi := (BitVec.ofNat 16 si).setWidth 32, edi := (BitVec.ofNat 16 di).setWidth 32 },
        es := BitVec.ofNat 16 es, cs := BitVec.ofNat 16 cs, ss := BitVec.ofNat 16 ss, ds := BitVec.ofNat 16 ds, fs := 0,
        gs := 0, ldt := BitVec.ofNat 16 ldt, trap := false } t

/-- `sel` can be loaded into LDTR: null, or an LDT of the GDT that is present (R183, tests 4 and 5 of R273). -/
inductive LdtLoad (s : State) (sel : Word) : State → Prop where
  | null (hn : nullSel sel = true) : LdtLoad s sel { s with ldtr := { s.ldtr with sel := sel, valid := false } }
  | mk (d : Desc) (t : State) (hn : nullSel sel = false) (hi : selTi sel = false) (hd : fetchDesc sel s = .ok (some d) t)
      (hk : d.isLdt = true) (hp : d.p = true) :
    LdtLoad s sel { t with ldtr := { sel := sel, base := d.base, limit := d.limit, valid := true } }

/-- CS of an incoming task can be loaded (tests 6 to 8 of R273). -/
inductive TaskCode (s : State) (i : TssImage) : State → Prop where
  | mk (d : Desc) (t u : State) (hn : nullSel i.cs = false) (hd : fetchDesc i.cs s = .ok (some d) t) (hk : d.isCode = true)
      (hv : d.conforming = true ∧ d.dpl ≤ selRpl i.cs ∨ d.conforming = false ∧ d.dpl = selRpl i.cs) (hp : d.p = true)
      (ha : setAccessed i.cs d t = .ok () u) : TaskCode s i { u with cs := d.toSeg i.cs }

/-- The segment registers of an incoming task can be loaded: without checks in V86 mode; else CS (tests 6 to 8 of R273), then
SS, DS, ES, FS and GS. -/
inductive TaskSegs (s : State) (i : TssImage) : State → Prop where
  | v86 (h : s.flag .vm = true) : TaskSegs s i
      { s with es := SegReg.loadV86 i.es false, cs := SegReg.loadV86 i.cs true, ss := SegReg.loadV86 i.ss false,
               ds := SegReg.loadV86 i.ds false, fs := SegReg.loadV86 i.fs false, gs := SegReg.loadV86 i.gs false }
  | prot (h : s.flag .vm = false) (u v x y z w : State) (hc : TaskCode s i u) (hss : SregLoad u .ss i.ss v)
      (hds : SregLoad v .ds i.ds x) (hes : SregLoad x .es i.es y) (hfs : SregLoad y .fs i.fs z)
      (hgs : SregLoad z .gs i.gs w) : TaskSegs s i w

/-- Of some data segment registers of an incoming task, loaded in turn, one is refused (R273). -/
inductive DataRefused (ext : Bool) : State → List (SReg × Word) → Exc → State → Prop where
  | here {s t : State} {sr : SReg} {sel : Word} {rest : List (SReg × Word)} {x : Exc} (hn : nullSel sel = false)
      (h : Refused s sel 10 ext (fun d => d.dataFaults 10 s.cpl sel) x t) : DataRefused ext s ((sr, sel) :: rest) x t
  | later {s t u : State} {sr : SReg} {sel : Word} {rest : List (SReg × Word)} {x : Exc} (h : SregLoad s sr sel t)
      (hs : DataRefused ext t rest x u) : DataRefused ext s ((sr, sel) :: rest) x u

/-- LDTR or a segment register of an incoming task is refused (R273). -/
inductive TaskRefused (s : State) (ext : Bool) (i : TssImage) : Exc → State → Prop where
  | ldtTi (hn : nullSel i.ldt = false) (h : selTi i.ldt = true) :
    TaskRefused s ext i (faultOf 10 (some (selCode ext i.ldt))) s
  | ldt {x : Exc} {t : State} (hn : nullSel i.ldt = false) (hi : selTi i.ldt = false)
      (h : Refused s i.ldt 10 ext (fun d => d.ldtFaults 10 10) x t) : TaskRefused s ext i x t
  | csNull {t : State} (hl : LdtLoad s i.ldt t) (hv : t.flag .vm = false) (hn : nullSel i.cs = true) :
    TaskRefused s ext i (faultOf 10 (some (selCode ext i.cs))) t
  | cs {x : Exc} {t u : State} (hl : LdtLoad s i.ldt t) (hv : t.flag .vm = false) (hn : nullSel i.cs = false)
      (h : Refused t i.cs 10 ext (fun c => c.codeFaults 10 (selRpl i.cs)) x u) : TaskRefused s ext i x u
  | ssNull {t u : State} (hl : LdtLoad s i.ldt t) (hv : t.flag .vm = false) (h : TaskCode t i u) (hn : nullSel i.ss = true) :
    TaskRefused s ext i (faultOf 10 (some (selCode ext i.ss))) u
  | ss {x : Exc} {t u v : State} (hl : LdtLoad s i.ldt t) (hv : t.flag .vm = false) (hc : TaskCode t i u)
      (hn : nullSel i.ss = false) (h : Refused u i.ss 10 ext (fun d => d.stackFaults 10 u.cpl i.ss) x v) :
    TaskRefused s ext i x v
  | data {x : Exc} {t u v w : State} (hl : LdtLoad s i.ldt t) (hv : t.flag .vm = false) (hc : TaskCode t i u)
      (hss : SregLoad u .ss i.ss v) (h : DataRefused ext v [(.ds, i.ds), (.es, i.es), (.fs, i.fs), (.gs, i.gs)] x w) :
    TaskRefused s ext i x w

/-! ### Coprocessor operands (R996) -/

/-- The bytes at the given offsets pass the checks of limit, type and page in turn. -/
inductive EscChecks (sr : SReg) (w : Bool) : State → List Dword → State → Prop where
  | nil (s : State) : EscChecks sr w s [] s
  | cons {s t u : State} {off pa : Dword} {offs : List Dword} (h : s.segOk sr off 1 w = true)
      (ht : translate (s.linOf sr off) w s.user s = .ok pa t) (hs : EscChecks sr w t offs u) : EscChecks sr w s (off :: offs) u

/-- The first and the last byte of the operand pass their checks. -/
inductive EscEnds (sr : SReg) (w : Bool) : State → List Dword → State → Prop where
  | nil (s : State) : EscEnds sr w s [] s
  | cons {s t : State} {off : Dword} {offs : List Dword} (h : EscChecks sr w s [off, (off :: offs).getLastD off] t) :
    EscEnds sr w s (off :: offs) t

/-- The bytes of the operand are read in turn. -/
inductive EscLoads (sr : SReg) : State → List Dword → List Byte → State → Prop where
  | nil (s : State) : EscLoads sr s [] [] s
  | cons {s t u : State} {off : Dword} {offs : List Dword} {pas : List Nat} {bs : List Byte}
      (h : Reach s s.user sr off 1 false pas t) (hs : EscLoads sr (t.afterRead pas) offs bs u) :
    EscLoads sr s (off :: offs) (t.valueAt .b8 pas :: bs) u

/-- The bytes of the operand are written in turn. -/
inductive EscStores (sr : SReg) : State → List (Dword × Byte) → State → Prop where
  | nil (s : State) : EscStores sr s [] s
  | cons {s t u : State} {off : Dword} {b : Byte} {items : List (Dword × Byte)} {pas : List Nat}
      (h : Reach s s.user sr off 1 true pas t) (hs : EscStores sr (t.storeAt .b8 pas b) items u) :
    EscStores sr s ((off, b) :: items) u

/-- The bytes a coprocessor asks for, and whether it stores them (R990). -/
def CoprocTransfer.size : CoprocTransfer → Nat × Bool
  | .none => (0, false)
  | .load n => (n, false)
  | .store bytes => (bytes.length, true)

/-- The transfer a coprocessor asks for at `off` of segment `sr` is made: the bytes read for it, and the state after. -/
inductive EscMoves (asz : Width) (sr : SReg) (off : Dword) (s : State) : CoprocTransfer → List Byte → State → Prop where
  | none : EscMoves asz sr off s .none [] s
  | load (n : Nat) (bs : List Byte) (t : State) (h : EscLoads sr s (escOffsets asz off n) bs t) :
    EscMoves asz sr off s (.load n) bs t
  | store (bytes : List Byte) (t u : State) (h : EscChecks sr true s (escOffsets asz off bytes.length) t)
      (hs : EscStores sr t ((escOffsets asz off bytes.length).zip bytes) u) : EscMoves asz sr off s (.store bytes) [] u

/-! ### Strings and ports -/

/-- The element at index register `r` does not run past the end of 16-bit offsets, where those are in force (R660). -/
def State.elementFits (s : State) (a : StrAttr) (r : Reg) (n : Nat) : Bool := blockFits (a.asz = .d32) (s.idx a.asz r) n

/-- The source element of a string instruction, read (R660, R661). -/
inductive StrSrc (s : State) (w : Width) (a : StrAttr) : BitVec w.bits → State → Prop where
  | mk (pas : List Nat) (t : State) (hf : s.elementFits a .esi w.bytes = true)
      (h : Reach s s.user (srcSeg a) (s.idx a.asz .esi) w.bytes false pas t) :
    StrSrc s w a (t.valueAt w pas) (t.afterRead pas)

/-- The destination element, read (R660, R661). -/
inductive StrDst (s : State) (w : Width) (a : StrAttr) : BitVec w.bits → State → Prop where
  | mk (pas : List Nat) (t : State) (hf : s.elementFits a .edi w.bytes = true)
      (h : Reach s s.user .es (s.idx a.asz .edi) w.bytes false pas t) :
    StrDst s w a (t.valueAt w pas) (t.afterRead pas)

/-- The destination element can be written: the state after a value is (R660, R661). -/
inductive StrPut (s : State) (w : Width) (a : StrAttr) : (BitVec w.bits → State) → Prop where
  | mk (pas : List Nat) (t : State) (hf : s.elementFits a .edi w.bytes = true)
      (h : Reach s s.user .es (s.idx a.asz .edi) w.bytes true pas t) :
    StrPut s w a fun v => t.storeAt w pas v

/-- Access to the port is allowed (R309): `t` is the state after the permission map has been read, if it was. -/
inductive PortOk (s : State) (port : Word) (w : Width) : State → Prop where
  | free (h : s.ioMapped = false) : PortOk s port w s
  | mapped (t : State) (h : s.ioMapped = true) (hp : ioPermission port w.bytes s = .ok true t) : PortOk s port w t

/-- The bits of the permission map at `base` of the TSS for some byte ports, looked at in turn: `r` says that all lie within
the TSS and are 0 (R307). -/
inductive PortBits (base : Nat) : State → List Word → Bool → State → Prop where
  | nil (s : State) : PortBits base s [] true s
  | beyond {s : State} {p : Word} {ps : List Word} (h : s.tr.limit.toNat < base + p.toNat / 8) :
    PortBits base s (p :: ps) false s
  | denied {s t : State} {p : Word} {ps : List Word} {b : Byte} (h : base + p.toNat / 8 ≤ s.tr.limit.toNat)
      (hg : SysGet s (s.tr.base + BitVec.ofNat 32 (base + p.toNat / 8)) 1 b.toNat t) (hb : b.getLsbD (p.toNat % 8) = true) :
    PortBits base s (p :: ps) false t
  | allowed {s t u : State} {p : Word} {ps : List Word} {b : Byte} {r : Bool} (h : base + p.toNat / 8 ≤ s.tr.limit.toNat)
      (hg : SysGet s (s.tr.base + BitVec.ofNat 32 (base + p.toNat / 8)) 1 b.toNat t) (hb : b.getLsbD (p.toNat % 8) = false)
      (hs : PortBits base t ps r u) : PortBits base s (p :: ps) r u

/-- The end of a string instruction begun in `s` whose primitive gave `t` (R690): without a repeat prefix the next
instruction; with one the count is less one, and the same instruction again while it is not 0 and, for CMPS and SCAS
(`compares`), the condition on ZF holds. -/
def strDone (a : StrAttr) (compares : Bool) (s t : State) : State :=
  if a.rep = .none then finish s .next t
  else
    let u := t.setIdx a.asz .ecx (t.idx a.asz .ecx - 1)
    if u.idx a.asz .ecx = 0 || (compares && u.repEnds a.rep) then finish s .next u else finish s .again u

/-! ### Runs -/

/-- A run of `n` steps from `s` that neither faults nor is refused ends in `t`. -/
def Reaches : Nat → State → State → Prop
  | 0, s, t => s = t
  | n + 1, s, t => ∃ u, step s = .next u ∧ Reaches n u t

end Sys2Proof.Machine
end

