-- ==== Sys2Proof/Certificates/Slice0/Obligations.lean ====
section
/-! DEFINITION. The statements for the provers. An instruction's result is stated as one equation: what `exec` answers is
the end of an instruction (`finish`: EIP, RF and the debug traps, see `EndOfInstruction`) applied to a state that is
written out from the state `s.begun` in which its meaning runs, so that the equation is at once result, frame and
completion. The operand predicates of Sys2Proof/Safety.lean (`RmIs`, `RmAt`, `AluAt`, …) say that the operands can be
reached and name their values; they hold for a register always, and for memory where segment and page allow it. -/

open Sys2Proof Sys2Proof.Machine

/-! ### Two-operand arithmetic and logic -/

/-- R452 to R455: ADD, ADC, SUB and SBB of every operand form write the sum or the difference to the destination and the
six status flags of R450; ADC and SBB take CF in. Nothing else changes but what the end of an instruction does. -/
def Obligations.AddSubResult : Prop :=
  ∀ (s : State) (f : AluForm) (w : Width) (a b : BitVec w.bits) (t : State) (put : BitVec w.bits → State → State),
    AluAt s.begun f w a b t put →
      exec (.add f) s = .next (finish s .next (put (addVal a b false) (t.addFlags a b false))) ∧
      exec (.adc f) s = .next (finish s .next (put (addVal a b (s.flag .cf)) (t.addFlags a b (s.flag .cf)))) ∧
      exec (.sub f) s = .next (finish s .next (put (subVal a b false) (t.subFlags a b false))) ∧
      exec (.sbb f) s = .next (finish s .next (put (subVal a b (s.flag .cf)) (t.subFlags a b (s.flag .cf))))

/-- R18, R450, R500 `ADDF`, `SUBF`, `LogicFlags`: the result is that of the integers cut to the width; CF is the carry or the
borrow of the unsigned operation, OF says that the signed one does not fit, AF is the carry or borrow of bit 3, ZF and SF describe
the result, PF is 1 for an even number of ones in its low byte; a logical result clears CF and OF, and its AF is undefined: a free
value (`logicF`; log 7). No other bit of EFLAGS and nothing else of the state changes but, for that AF, the count of free values.
-/
def Obligations.ArithmeticFlags : Prop :=
  (∀ (s : State) (w : Width) (a b : BitVec w.bits) (c : Bool),
     addVal a b c = a + b + BitVec.ofNat w.bits c.toNat ∧
     ((s.addFlags a b c).flag .cf = true ↔ 2 ^ w.bits ≤ a.toNat + b.toNat + c.toNat) ∧
     ((s.addFlags a b c).flag .of = true ↔
       a.toInt + b.toInt + c.toNat < -2 ^ (w.bits - 1) ∨ 2 ^ (w.bits - 1) ≤ a.toInt + b.toInt + c.toNat) ∧
     ((s.addFlags a b c).flag .af = true ↔ 16 ≤ a.toNat % 16 + b.toNat % 16 + c.toNat) ∧
     ((s.addFlags a b c).flag .zf = true ↔ addVal a b c = 0) ∧
     ((s.addFlags a b c).flag .sf = true ↔ (addVal a b c).toInt < 0) ∧
     ((s.addFlags a b c).flag .pf = true ↔ evenOnes (addVal a b c)) ∧
     (s.addFlags a b c).eflags &&& ~~~0x8D5 = s.eflags &&& ~~~0x8D5 ∧
     s.addFlags a b c = { s with eflags := (s.addFlags a b c).eflags }) ∧
  (∀ (s : State) (w : Width) (a b : BitVec w.bits) (c : Bool),
     subVal a b c = a - b - BitVec.ofNat w.bits c.toNat ∧
     ((s.subFlags a b c).flag .cf = true ↔ a.toNat < b.toNat + c.toNat) ∧
     ((s.subFlags a b c).flag .of = true ↔
       a.toInt - b.toInt - c.toNat < -2 ^ (w.bits - 1) ∨ 2 ^ (w.bits - 1) ≤ a.toInt - b.toInt - c.toNat) ∧
     ((s.subFlags a b c).flag .af = true ↔ a.toNat % 16 < b.toNat % 16 + c.toNat) ∧
     ((s.subFlags a b c).flag .zf = true ↔ subVal a b c = 0) ∧
     ((s.subFlags a b c).flag .sf = true ↔ (subVal a b c).toInt < 0) ∧
     ((s.subFlags a b c).flag .pf = true ↔ evenOnes (subVal a b c)) ∧
     (s.subFlags a b c).eflags &&& ~~~0x8D5 = s.eflags &&& ~~~0x8D5 ∧
     s.subFlags a b c = { s with eflags := (s.subFlags a b c).eflags }) ∧
  ∀ (s : State) (w : Width) (r : BitVec w.bits),
    (s.logicFlags r).flag .cf = false ∧ (s.logicFlags r).flag .of = false ∧
    ((s.logicFlags r).flag .zf = true ↔ r = 0) ∧ ((s.logicFlags r).flag .sf = true ↔ r.toInt < 0) ∧
    ((s.logicFlags r).flag .pf = true ↔ evenOnes r) ∧
    (s.logicFlags r).eflags &&& ~~~0x8C5 = s.eflags &&& ~~~0x8C5 ∧
    s.logicFlags r = { s with eflags := (s.logicFlags r).eflags } ∧
    logicF r s = .ok r ((s.logicFlags r).freed [.af])

/-- R456, R501 to R503, R505: AND, OR and XOR write the result and the flags of R500; CMP and TEST write the flags of a
subtraction and of an AND, and no operand; AF after an AND, OR, XOR or TEST is a free bit (log 7). -/
def Obligations.LogicResult : Prop :=
  (∀ (s : State) (f : AluForm) (w : Width) (a b : BitVec w.bits) (t : State) (put : BitVec w.bits → State → State),
     AluAt s.begun f w a b t put →
       exec (.and f) s = .next (finish s .next (put (a &&& b) ((t.logicFlags (a &&& b)).freed [.af]))) ∧
       exec (.or f) s = .next (finish s .next (put (a ||| b) ((t.logicFlags (a ||| b)).freed [.af]))) ∧
       exec (.xor f) s = .next (finish s .next (put (a ^^^ b) ((t.logicFlags (a ^^^ b)).freed [.af])))) ∧
  (∀ (s : State) (f : AluForm) (w : Width) (a b : BitVec w.bits) (t : State), AluIs s.begun f w a b t →
    exec (.cmp f) s = .next (finish s .next (t.subFlags a b false))) ∧
  ∀ (s : State) (f : TestForm) (w : Width) (a b : BitVec w.bits) (t : State), TestIs s.begun f w a b t →
    exec (.test f) s = .next (finish s .next ((t.logicFlags (a &&& b)).freed [.af]))

/-- R457 to R459, R504: INC and DEC keep CF; NEG is a subtraction from 0; NOT changes no flag. -/
def Obligations.OneOperandResult : Prop :=
  (∀ (s : State) (f : IncForm) (w : Width) (a : BitVec w.bits) (t : State) (put : BitVec w.bits → State → State),
    IncAt s.begun f w a t put →
      exec (.inc f) s = .next (finish s .next (put (addVal a (BitVec.ofNat w.bits 1) false)
        ((t.addFlags a (BitVec.ofNat w.bits 1) false).setFlag .cf (t.flag .cf)))) ∧
      exec (.dec f) s = .next (finish s .next (put (subVal a (BitVec.ofNat w.bits 1) false)
        ((t.subFlags a (BitVec.ofNat w.bits 1) false).setFlag .cf (t.flag .cf))))) ∧
  ∀ (s : State) (w : Width) (rm : Rm) (a : BitVec w.bits) (t : State) (put : BitVec w.bits → State → State),
    RmAt s.begun w rm a t put →
      exec (.neg w rm) s = .next (finish s .next (put (subVal (BitVec.ofNat w.bits 0) a false)
        (t.subFlags (BitVec.ofNat w.bits 0) a false))) ∧
      exec (.not w rm) s = .next (finish s .next (put (~~~a) t))

/-! ### Multiplication, division, decimal adjustment -/

/-- R460 to R463: MUL and the one-operand IMUL put the double-length product in AX, DX:AX or EDX:EAX, CF = OF saying whether the
upper half is significant; IMUL with two and three operands writes the signed product cut to the width, CF = OF saying whether
it was cut. SF, ZF, AF and PF are free bits (log 7). -/
def Obligations.MultiplyResult : Prop :=
  (∀ (s : State) (w : Width) (rm : Rm) (b : BitVec w.bits) (t : State), RmIs s.begun w rm b t →
     (let p := (s.reg w .eax).toNat * b.toNat
      let c := decide (2 ^ w.bits ≤ p)
      exec (.mul w rm) s =
        .next (finish s .next ((((t.setProduct w p).setFlag .cf c).setFlag .of c).freed [.sf, .zf, .af, .pf]))) ∧
     (let p := (t.reg w .eax).toInt * b.toInt
      let c := misfits w.bits p
      exec (.imul (.acc w rm)) s =
        .next (finish s .next ((((t.setProduct w (BitVec.ofInt (2 * w.bits) p).toNat).setFlag .cf c).setFlag .of c).freed
          [.sf, .zf, .af, .pf])))) ∧
  ∀ (s : State) (w : Width) (r : Reg) (rm : Rm) (b : BitVec w.bits) (t : State), RmIs s.begun w rm b t →
    (let out := fun p : Int =>
       finish s .next ((((t.setReg w r (BitVec.ofInt w.bits p)).setFlag .cf (misfits w.bits p)).setFlag .of
         (misfits w.bits p)).freed [.sf, .zf, .af, .pf])
     exec (.imul (.reg w r rm)) s = .next (out ((t.reg w r).toInt * b.toInt)) ∧
     (∀ v : Dword, exec (.imul (.imm w r rm v)) s = .next (out (b.toInt * (immOf w v).toInt))) ∧
     ∀ v : Byte, exec (.imul (.imm8 w r rm v)) s = .next (out (b.toInt * (immSx w v).toInt)))

/-- R464, R465, R470, R830: where the divisor is not 0 and the quotient fits, DIV and IDIV write quotient and remainder, the six
status flags being free bits (log 7); a divisor of 0, a quotient that does not fit and AAM with base 0 raise fault #DE. -/
def Obligations.DivideResult : Prop :=
  (∀ (s : State) (w : Width) (rm : Rm) (d : BitVec w.bits) (t : State), RmIs s.begun w rm d t → d ≠ 0 →
     (let n := (s.dividend w).toNat
      n / d.toNat < 2 ^ w.bits →
        exec (.div w rm) s = .next (finish s .next ((t.setQuotient w (BitVec.ofNat w.bits (n / d.toNat))
          (BitVec.ofNat w.bits (n % d.toNat))).freed allStatus))) ∧
     (let n := (s.dividend w).toInt
      misfits w.bits (n.tdiv d.toInt) = false →
        exec (.idiv w rm) s = .next (finish s .next ((t.setQuotient w (BitVec.ofInt w.bits (n.tdiv d.toInt))
          (BitVec.ofInt w.bits (n.tmod d.toInt))).freed allStatus)))) ∧
  ∀ (s : State) (w : Width) (rm : Rm) (d : BitVec w.bits) (t : State), RmIs s.begun w rm d t →
    (d = 0 ∨ 2 ^ w.bits ≤ (s.dividend w).toNat / d.toNat → exec (.div w rm) s = .next (abandon s (faultOf 0 none) t)) ∧
    (d = 0 ∨ misfits w.bits ((s.dividend w).toInt.tdiv d.toInt) = true → exec (.idiv w rm) s = .next (abandon s (faultOf 0 none) t)) ∧
    exec (.aam 0) s = .next (abandon s (faultOf 0 none) s.begun)

/-- R466 to R471. DAA and DAS correct AL by 6 when its low digit is above 9 or AF is set, then by 60H when AL is above 9FH or CF
is set; AAA and AAS correct AL by 6 and AH by 1 and leave the low digit in AL; AAM splits AL by a base other than 0 into AH and
AL; AAD joins them in AL and clears AH. The flags the rules leave undefined are free bits (log 7). -/
def Obligations.DecimalAdjust : Prop :=
  (∀ (s : State) (i : Instr) (g : Byte → Byte → Byte),
     (i = .daa ∧ g = (fun a k => a + k)) ∨ (i = .das ∧ g = (fun a k => a - k)) →
     ∀ al₁ al₂ : Byte, al₁ = (if s.lowAdjust then g (s.reg .b8 .eax) 6 else s.reg .b8 .eax) →
       al₂ = (if 0x9F < al₁.toNat ∨ s.flag .cf = true then g al₁ 0x60 else al₁) →
       exec i s = .next (finish s .next (((((s.begun.setReg .b8 .eax al₂).setFlag .af s.lowAdjust).setFlag .cf
         (decide (0x9F < al₁.toNat) || s.flag .cf)).szp al₂).freed [.of]))) ∧
  (∀ (s : State) (i : Instr) (g : Byte → Byte → Byte),
     (i = .aaa ∧ g = (fun a k => a + k)) ∨ (i = .aas ∧ g = (fun a k => a - k)) →
     ∀ al ah : Byte, al = (if s.lowAdjust then g (s.reg .b8 .eax) 6 else s.reg .b8 .eax) →
       ah = (if s.lowAdjust then g (s.reg .b8 .esp) 1 else s.reg .b8 .esp) →
       exec i s = .next (finish s .next (((((s.begun.setReg .b8 .eax (al &&& 0x0F)).setReg .b8 .esp ah).setFlag .af
         s.lowAdjust).setFlag .cf s.lowAdjust).freed [.of, .sf, .zf, .pf]))) ∧
  ∀ (s : State) (base : Byte),
    (let al := s.reg .b8 .eax
     base ≠ 0 → exec (.aam base) s = .next (finish s .next ((((s.begun.setReg .b8 .esp (al / base)).setReg .b8 .eax
       (al % base)).szp (al % base)).freed [.of, .af, .cf]))) ∧
    (let al := s.reg .b8 .esp * base + s.reg .b8 .eax
     exec (.aad base) s = .next (finish s .next ((((s.begun.setReg .b8 .eax al).setReg .b8 .esp 0).szp al).freed
       [.of, .af, .cf])))

/-! ### Shifts, rotates and bits -/

/-- R510 to R517: the seven shifts and rotates. A masked count of 0 changes neither operand nor flags. For another count the
operand and CF go through that many single-bit steps; a shift writes SF, ZF and PF and leaves AF free; OF is defined for a
count of 1 and free otherwise (log 7). -/
def Obligations.ShiftResult : Prop :=
  ∀ (s : State) (f : ShiftForm) (w : Width) (x : BitVec w.bits) (n : Nat) (t : State)
    (put : BitVec w.bits → State → State), ShiftAt s.begun f w x n t put →
    ∀ p ∈ ([(.rol, kindRol), (.ror, kindRor), (.rcl, kindRcl), (.rcr, kindRcr), (.shl, kindShl), (.shr, kindShr),
        (.sar, kindSar)] : List ((ShiftForm → Instr) × ShiftKind)),
      (n = 0 → exec (p.1 f) s = .next (finish s .next (put x t))) ∧
      (n ≠ 0 → ∀ (r : BitVec w.bits) (c : Bool) (t₁ t₂ : State), p.2.steps n x (t.flag .cf) = (r, c) →
        t₁ = (if p.2.rotates then t.setFlag .cf c else ((t.setFlag .cf c).szp r).freed [.af]) →
        t₂ = (if n = 1 then t₁.setFlag .of (p.2.overflow x r c) else t₁.freed [.of]) →
        exec (p.1 f) s = .next (finish s .next (put r t₂)))

/-- R511 to R517: what `k` single-bit steps come to. SHL, SHR and SAR shift by `k`, CF being the last bit shifted out; ROL and
ROR rotate the operand, RCL and RCR the operand with CF above it. -/
def Obligations.ShiftMeaning : Prop :=
  ∀ (w : Width) (x : BitVec w.bits) (c : Bool) (k : Nat), 0 < k → k < 32 →
    kindShl.steps k x c = (x <<< k, decide (k ≤ w.bits) && x.getLsbD (w.bits - k)) ∧
    kindShr.steps k x c = (x >>> k, x.getLsbD (k - 1)) ∧
    kindSar.steps k x c = (x.sshiftRight k, (x.sshiftRight (k - 1)).getLsbD 0) ∧
    kindRol.steps k x c = (x.rotateLeft k, (x.rotateLeft k).getLsbD 0) ∧
    kindRor.steps k x c = (x.rotateRight k, (x.rotateRight k).msb) ∧
    (∀ p, kindRcl.steps k x c = p → BitVec.cons p.2 p.1 = (BitVec.cons c x).rotateLeft k) ∧
    ∀ p, kindRcr.steps k x c = p → BitVec.cons p.2 p.1 = (BitVec.cons c x).rotateRight k

/-- R518, R519: SHLD and SHRD. A masked count of 0 changes nothing; up to the width less one the operand is shifted, bits of
the register coming in, CF is the last bit shifted out, SF, ZF and PF describe the result, OF and AF are free; for a count of
the width and more the result and the six flags are free (log 7). That a memory operand is read and written back for a count of
0 is the model's choice (log 56). -/
def Obligations.DoubleShiftResult : Prop :=
  ∀ (s : State) (f : DShiftForm) (w : Width) (x y : BitVec w.bits) (k : Nat) (t : State)
    (put : BitVec w.bits → State → State), DShiftAt s.begun f w x y k t put →
    (k = 0 → exec (.shld f) s = .next (finish s .next (put x t)) ∧ exec (.shrd f) s = .next (finish s .next (put x t))) ∧
    (0 < k → k < w.bits →
      exec (.shld f) s = .next (finish s .next (put (x <<< k ||| y >>> (w.bits - k))
        (((t.setFlag .cf (x.getLsbD (w.bits - k))).szp (x <<< k ||| y >>> (w.bits - k))).freed [.of, .af]))) ∧
      exec (.shrd f) s = .next (finish s .next (put (x >>> k ||| y <<< (w.bits - k))
        (((t.setFlag .cf (x.getLsbD (k - 1))).szp (x >>> k ||| y <<< (w.bits - k))).freed [.of, .af])))) ∧
    (w.bits ≤ k →
      let v : BitVec w.bits := (Config.freeBits t.free).setWidth w.bits
      let u := ({ t with free := t.free + 1 } : State).freed allStatus
      exec (.shld f) s = .next (finish s .next (put v u)) ∧ exec (.shrd f) s = .next (finish s .next (put v u)))

/-- R540 to R546: BT, BTS, BTR and BTC put the selected bit in CF; BTS sets it, BTR clears it, BTC complements it in the operand.
BSF and BSR write the number of the lowest and the highest set bit and clear ZF; for an operand of 0 they set ZF and write a
free value. The other status flags are free bits (log 7). -/
def Obligations.BitTestResult : Prop :=
  ((∀ (s : State) (f : BtForm) (w : Width) (v : BitVec w.bits) (k : Nat) (t : State), BitIs s.begun f w v k t →
     exec (.bt f) s = .next (finish s .next ((t.setFlag .cf (v.getLsbD k)).freed [.of, .sf, .zf, .af, .pf]))) ∧
   ∀ (s : State) (f : BtForm) (w : Width) (v : BitVec w.bits) (k : Nat) (t : State)
     (put : BitVec w.bits → State → State), BitAt s.begun f w v k t put →
     ∀ u, u = (t.setFlag .cf (v.getLsbD k)).freed [.of, .sf, .zf, .af, .pf] →
       exec (.bts f) s = .next (finish s .next (put (v ||| oneBit w.bits k) u)) ∧
       exec (.btr f) s = .next (finish s .next (put (v &&& ~~~oneBit w.bits k) u)) ∧
       exec (.btc f) s = .next (finish s .next (put (v ^^^ oneBit w.bits k) u))) ∧
  ∀ (s : State) (w : Width) (r : Reg) (rm : Rm) (v : BitVec w.bits) (t : State), RmIs s.begun w rm v t →
    (v = 0 →
      let u := finish s .next ((({ t.setFlag .zf true with free := t.free + 1 } : State).setReg w r
        ((Config.freeBits t.free).setWidth w.bits)).freed [.of, .sf, .af, .pf, .cf])
      exec (.bsf w r rm) s = .next u ∧ exec (.bsr w r rm) s = .next u) ∧
    ∀ k, v.getLsbD k = true →
      ((∀ j, j < k → v.getLsbD j = false) → exec (.bsf w r rm) s =
        .next (finish s .next (((t.setFlag .zf false).setReg w r (BitVec.ofNat w.bits k)).freed
          [.of, .sf, .af, .pf, .cf]))) ∧
      ((∀ j, k < j → v.getLsbD j = false) → exec (.bsr w r rm) s =
        .next (finish s .next (((t.setFlag .zf false).setReg w r (BitVec.ofNat w.bits k)).freed
          [.of, .sf, .af, .pf, .cf])))

/-- R550: the sixteen SETcc, `0F 90` to `0F 9F`, write 1 where their condition on the flags (R570) holds, else 0; the operand is
only written, and no flag changes. Their encoding, `0F 90+cc /r`, with the reg field of ModR/M ignored: the register forms, that
two ModR/M bytes that differ in the reg field only are read alike, and that nothing but that SETcc is ever read. Their exceptions:
#GP(0) for a result in a nonwritable segment, and those of every write to memory (`memWrite`): an illegal address is #GP(0), or
#SS(0) in the segment SS, and a page fault is raised as it is. -/
def Obligations.SetccResult : Prop :=
  ∀ s : State,
    let cf := s.flag .cf
    let zf := s.flag .zf
    let lt := s.flag .sf != s.flag .of
    ∀ p ∈ ([(0, .seto, s.flag .of), (1, .setno, !s.flag .of), (2, .setb, cf), (3, .setae, !cf), (4, .sete, zf), (5, .setne, !zf),
        (6, .setbe, cf || zf), (7, .seta, !(cf || zf)), (8, .sets, s.flag .sf), (9, .setns, !s.flag .sf), (10, .setp, s.flag .pf),
        (11, .setnp, !s.flag .pf), (12, .setl, lt), (13, .setge, !lt), (14, .setle, zf || lt), (15, .setg, !(zf || lt))] :
        List (BitVec 4 × (Rm → Instr) × Bool)),
      let op : Byte := (9 : BitVec 4) ++ p.1
      let setcc := p.2.1
      let result : Byte := if p.2.2 then 1 else 0
      (∀ rm put, RmPut s.begun .b8 rm put → exec (setcc rm) s = .next (finish s .next (put result))) ∧
      (∀ m : MemRef,
        let r := s.sreg (segOf m)
        let faults := fun vec : Byte => exec (setcc (.mem m)) s = .next (abandon s (faultOf vec (some 0)) s.begun)
        (r.valid = false → segOf m ≠ .ss → faults 13) ∧
        (r.valid = true → s.prot = true → r.writable = false → faults 13) ∧
        (r.valid = true → r.writable = true → inLimit r (s.memEa m) 1 = false → faults (if segOf m = .ss then 12 else 13)) ∧
        ∀ x t, memWrite (segOf m) (s.memEa m) .b8 result s.begun = .error x t → exec (setcc (.mem m)) s = .next (abandon s x t)) ∧
      ∀ (d : Bool) (mod : BitVec 2) (reg reg' rm : BitVec 3) (bs : List Byte),
        decode d (0x0F :: op :: ((3 : BitVec 2) ++ reg ++ rm) :: bs) = .ok (setcc (.reg (Reg.ofCode rm)), 3) ∧
        decode d (0x0F :: op :: (mod ++ reg ++ rm) :: bs) = decode d (0x0F :: op :: (mod ++ reg' ++ rm) :: bs) ∧
        ∀ i n, decode d (0x0F :: op :: bs) = .ok (i, n) → ∃ operand, i = setcc operand

/-! ### Data movement -/

/-- R401 to R403, R406: every form of MOV between general registers, memory and immediates copies the value, and XCHG exchanges
two registers, or a register and a memory operand; no flag changes. -/
def Obligations.MovResult : Prop :=
  (∀ (s : State) (w : Width),
     (∀ (rm : Rm) (put : BitVec w.bits → State), RmPut s.begun w rm put →
       (∀ r, exec (.mov (.rmReg w rm r)) s = .next (finish s .next (put (s.reg w r)))) ∧
       ∀ imm, exec (.mov (.rmImm w rm imm)) s = .next (finish s .next (put (immOf w imm)))) ∧
     (∀ (rm : Rm) (v : BitVec w.bits) (t : State) (r : Reg), RmIs s.begun w rm v t →
       exec (.mov (.regRm w r rm)) s = .next (finish s .next (t.setReg w r v))) ∧
     (∀ (m : MemRef) (v : BitVec w.bits) (t : State), RmIs s.begun w (.mem m) v t →
       exec (.mov (.accMoffs w m)) s = .next (finish s .next (t.setReg w .eax v))) ∧
     (∀ (m : MemRef) (put : BitVec w.bits → State), RmPut s.begun w (.mem m) put →
       exec (.mov (.moffsAcc w m)) s = .next (finish s .next (put (s.reg w .eax)))) ∧
     ∀ (r : Reg) (imm : Dword),
       exec (.mov (.regImm w r imm)) s = .next (finish s .next (s.begun.setReg w r (immOf w imm)))) ∧
  ∀ (s : State) (w : Width) (r : Reg),
    exec (.xchg (.acc w r)) s =
      .next (finish s .next ((s.begun.setReg w .eax (s.reg w r)).setReg w r (s.reg w .eax))) ∧
    (∀ b, exec (.xchg (.rmReg w (.reg b) r)) s =
      .next (finish s .next ((s.begun.setReg w r (s.reg w b)).setReg w b (s.reg w r)))) ∧
    ∀ (m : MemRef) (y : BitVec w.bits) (t : State) (put : BitVec w.bits → State → State),
      RmAt s.begun w (.mem m) y t put →
      exec (.xchg (.rmReg w (.mem m) r)) s = .next (finish s .next (put (s.reg w r) (t.setReg w r y)))

/-- R333 to R339, R416 to R420, R422: MOVSX and MOVZX extend; CBW, CWDE, CWD and CDQ extend the accumulator's sign; LEA writes
the effective address and reads no memory; XLAT reads the byte at eBX + AL. No flag changes. The effective address of every
form, for all instructions: base, scaled index and displacement added modulo 2^16 or 2^32; its segment: the override, else SS
where BP, EBP or ESP is the base, else DS. -/
def Obligations.ExtendResult : Prop :=
  (∀ (s : State) (w src : Width) (r : Reg) (rm : Rm) (v : BitVec src.bits) (t : State), RmIs s.begun src rm v t →
    exec (.movsx w r src rm) s = .next (finish s .next (t.setReg w r (v.signExtend w.bits))) ∧
    exec (.movzx w r src rm) s = .next (finish s .next (t.setReg w r (v.setWidth w.bits)))) ∧
  (∀ s : State,
    exec .cbw s = .next (finish s .next (s.begun.setReg .w16 .eax (BitVec.signExtend 16 (s.reg .b8 .eax)))) ∧
    exec .cwde s = .next (finish s .next (s.begun.setReg .d32 .eax (BitVec.signExtend 32 (s.reg .w16 .eax)))) ∧
    exec .cwd s = .next (finish s .next (s.begun.setReg .w16 .edx
      ((BitVec.signExtend 32 (s.reg .w16 .eax)).extractLsb' 16 16))) ∧
    exec .cdq s = .next (finish s .next (s.begun.setReg .d32 .edx
      ((BitVec.signExtend 64 (s.reg .d32 .eax)).extractLsb' 32 32)))) ∧
  [Instr.cbw, .cwde, .cwd, .cdq].map encode = [[0x98], [0x98], [0x99], [0x99]] ∧
  (∀ (s : State) (seg : Option SReg) (d : Disp) (v : Word) (x : Dword) (r : Reg) (base index : Option Reg) (scale : BitVec 2),
    let q := fun r : Reg => s.reg .w16 r
    let disp : Dword := match d with
      | .none => 0 | .d8 v => v.signExtend 32 | .d16 v => v.signExtend 32 | .d32 v => v
    (∀ p ∈ ([(.bxsi, q .ebx + q .esi, .ds), (.bxdi, q .ebx + q .edi, .ds), (.bpsi, q .ebp + q .esi, .ss),
        (.bpdi, q .ebp + q .edi, .ss), (.si, q .esi, .ds), (.di, q .edi, .ds), (.bp, q .ebp, .ss), (.bx, q .ebx, .ds)] :
        List (Base16 × Word × SReg)),
      s.memEa ⟨seg, .based16 p.1 d⟩ = (p.2.1 + disp.setWidth 16).setWidth 32 ∧
      segOf ⟨seg, .based16 p.1 d⟩ = seg.getD p.2.2) ∧
    s.memEa ⟨seg, .direct16 v⟩ = v.setWidth 32 ∧ segOf ⟨seg, .direct16 v⟩ = seg.getD .ds ∧
    s.memEa ⟨seg, .direct32 x⟩ = x ∧ segOf ⟨seg, .direct32 x⟩ = seg.getD .ds ∧
    s.memEa ⟨seg, .based32 r d⟩ = s.reg .d32 r + disp ∧
    segOf ⟨seg, .based32 r d⟩ = seg.getD (if r = .esp ∨ r = .ebp then .ss else .ds) ∧
    s.memEa ⟨seg, .sib base index scale d⟩ = (match base with | none => 0 | some r => s.reg .d32 r) +
      (match index with | none => 0 | some r => s.reg .d32 r * BitVec.ofNat 32 (2 ^ scale.toNat)) + disp ∧
    segOf ⟨seg, .sib base index scale d⟩ = seg.getD (if base = some .esp ∨ base = some .ebp then .ss else .ds)) ∧
  (∀ (s : State) (w : Width) (r : Reg) (m : MemRef),
    exec (.lea w r m) s = .next (finish s .next (s.begun.setReg w r ((s.memEa m).setWidth w.bits)))) ∧
  ∀ (s : State) (a : StrAttr) (pas : List Nat) (t : State),
    Reach s.begun s.user (a.seg.getD .ds) (cut (a.asz = .d32) (s.idx a.asz .ebx + (s.reg .b8 .eax).setWidth 32)) 1 false
      pas t → exec (.xlat a) s = .next (finish s .next ((t.afterRead pas).setReg .b8 .eax (t.valueAt .b8 pas)))

/-- R404, R405, R421, R813: MOV from a segment register stores its selector as a word; MOV to one loads it, and into SS makes
events wait for one instruction; LES, LDS, LSS, LFS and LGS load the segment register and then the general register. In protected
mode a selector that R180 or R181 refuses (`SregRefused`) raises #GP, #NP or #SS with the selector as error code, and #GP(0) a
null selector for SS. What a descriptor is, for all instructions: where it lies (R131, R132, R143), that it is read as two
doublewords, how its access byte is rewritten (R144; that it is not read a second time for this is the model's choice, log 60),
and its fields (R133 to R139). -/
def Obligations.SegmentRegisterMoves : Prop :=
  (∀ (s : State) (rm : Rm) (sr : SReg) (put : Word → State), RmPut s.begun .w16 rm put →
    exec (.movFromSreg rm sr) s = .next (finish s .next (put (s.sreg sr).sel))) ∧
  (∀ (s : State) (rm : Rm) (sr : SReg) (sel : Word) (t u : State), RmIs s.begun .w16 rm sel t → SregLoad t sr sel u →
    exec (.movToSreg sr rm) s = .next (finish s .next (if sr = .ss then { u with inhibit := true } else u))) ∧
  (∀ (s : State) (w : Width) (r : Reg) (m : MemRef) (sel : Word) (off : BitVec w.bits) (t u : State),
    FarMem s.begun w m sel off t →
    ∀ p ∈ ([(.les, .es), (.lds, .ds), (.lss, .ss), (.lfs, .fs), (.lgs, .gs)] :
        List ((Width → Reg → MemRef → Instr) × SReg)),
      (SregLoad t p.2 sel u → exec (p.1 w r m) s = .next (finish s .next (u.setReg w r off))) ∧
      ∀ x, s.prot = true → SregRefused t p.2 sel x u → exec (p.1 w r m) s = .next (abandon s x u)) ∧
  (∀ (s : State) (rm : Rm) (sr : SReg) (sel : Word) (t u : State) (x : Exc), s.prot = true → RmIs s.begun .w16 rm sel t →
    SregRefused t sr sel x u → exec (.movToSreg sr rm) s = .next (abandon s x u)) ∧
  (∀ (s : State) (sel : Word) (d : Desc) (typ : BitVec 4) (a : Dword) (x y : Dword) (t u : State),
    let i := sel.toNat / 8 * 8
    (nullSel sel = true ↔ sel.toNat < 4) ∧ (selTi sel = sel.getLsbD 2) ∧ (selRpl sel).toNat = sel.toNat % 4 ∧
    (s.descAddr sel = some a ↔
      (sel.getLsbD 2 = false ∧ i + 7 ≤ s.gdtr.limit.toNat ∧ a = s.gdtr.base + BitVec.ofNat 32 i) ∨
      (sel.getLsbD 2 = true ∧ s.ldtr.valid = true ∧ i + 7 ≤ s.ldtr.limit.toNat ∧ a = s.ldtr.base + BitVec.ofNat 32 i)) ∧
    (s.descAddr sel = none → fetchDesc sel s = .ok none s) ∧
    (SysGet s a 4 x.toNat t → SysGet t (a + 4) 4 y.toNat u → readDesc a s = .ok ⟨x, y⟩ u ∧
      (s.descAddr sel = some a → fetchDesc sel s = .ok (some ⟨x, y⟩) u)) ∧
    (d.d1.getLsbD 8 = true → setAccessed sel d s = .ok () s) ∧
    (s.descAddr sel = some a →
      (d.d1.getLsbD 8 = false → SysPut s (a + 5) 1 (d.d1.extractLsb' 8 8 ||| 1).toNat t → setAccessed sel d s = .ok () t) ∧
      (SysPut s (a + 5) 1 (d.d1.toNat / 4096 % 16 * 16 + typ.toNat) t → setDescType sel d typ s = .ok () t))) ∧
  ∀ (d : Desc) (sel : Word),
    let b := fun k => d.d1.getLsbD k
    let low := d.d0.toNat % 65536
    let raw := low + 65536 * (d.d1.toNat / 65536 % 16)
    d.base.toNat = d.d0.toNat / 65536 + 65536 * (d.d1.toNat % 256) + 16777216 * (d.d1.toNat / 16777216) ∧
    d.limit.toNat = (if b 23 then 4096 * raw + 4095 else raw) ∧
    d.p = b 15 ∧ d.dpl.toNat = d.d1.toNat / 8192 % 4 ∧ d.s = b 12 ∧ d.typ.toNat = d.d1.toNat / 256 % 16 ∧ d.db = b 22 ∧
    d.isCode = (b 12 && b 11) ∧ d.conforming = (b 12 && b 11 && b 10) ∧ d.readable = (b 12 && (!b 11 || b 9)) ∧
    d.writableData = (b 12 && !b 11 && b 9) ∧ d.isLdt = (!b 12 && d.typ == 2) ∧
    d.availTss = (!b 12 && (d.typ == 1 || d.typ == 9)) ∧ d.busyTss = (!b 12 && (d.typ == 3 || d.typ == 11)) ∧
    d.tss32 = b 11 ∧ d.isCallGate = (!b 12 && (d.typ == 4 || d.typ == 12)) ∧ d.isTaskGate = (!b 12 && d.typ == 5) ∧
    d.gateSel.toNat = d.d0.toNat / 65536 ∧ (d.gateOffset false).toNat = low ∧
    (d.gateOffset true).toNat = low + 65536 * (d.d1.toNat / 65536) ∧ d.gateCount = d.d1.toNat % 32 ∧
    d.toSeg sel = { sel := sel, base := d.base, limit := d.limit, typ := d.typ ||| 1, s := d.s, dpl := d.dpl, p := d.p,
                    db := d.db, g := b 23, valid := true }

/-- R408, R410: every form of PUSH stores its operand, read before eSP changes, at the new top of the stack; the upper half of a
segment register pushed as a doubleword is a free value (log 29). -/
def Obligations.PushResult : Prop :=
  (∀ (s : State) (w : Width) (put : BitVec w.bits → State), PushTo s.begun w put →
     (∀ r, exec (.push (.reg w r)) s = .next (finish s .next (put (s.reg w r)))) ∧
     (∀ v, exec (.push (.imm w v)) s = .next (finish s .next (put (immOf w v)))) ∧
     (∀ v, exec (.push (.imm8 w v)) s = .next (finish s .next (put (immSx w v))))) ∧
  (∀ (s : State) (w : Width) (rm : Rm) (v : BitVec w.bits) (t : State) (put : BitVec w.bits → State),
    RmIs s.begun w rm v t → PushTo t w put → exec (.push (.rm w rm)) s = .next (finish s .next (put v))) ∧
  (∀ (s : State) (sr : SReg) (put : Word → State), PushTo s.begun .w16 put →
    exec (.push (.sreg .w16 sr)) s = .next (finish s .next (put (s.sreg sr).sel))) ∧
  ∀ (s : State) (sr : SReg) (put : Dword → State), PushTo { s.begun with free := s.free + 1 } .d32 put →
    exec (.push (.sreg .d32 sr)) s =
      .next (finish s .next (put ((Config.freeBits s.free).extractLsb' 16 16 ++ (s.sreg sr).sel)))

/-- R411 to R413, R813: POP moves the top of the stack to its destination after eSP has been incremented; POP SS makes events
wait for one instruction; a selector that is refused (R180, R181) raises its exception. That the r/m form 8F C4 leaves the
popped value in eSP, as POP eSP does, is the model's choice (log 39; R412 read to the letter writes eSP + n after it). -/
def Obligations.PopResult : Prop :=
  ∀ (s : State) (w : Width) (v : BitVec w.bits) (t : State), PopFrom s.begun w v t →
    (∀ r, exec (.pop (.reg w r)) s = .next (finish s .next (t.setReg w r v))) ∧
    (∀ rm put, RmPut t w rm put → exec (.pop (.rm w rm)) s = .next (finish s .next (put v))) ∧
    (∀ sr u, SregLoad t sr (v.setWidth 16) u → exec (.pop (.sreg w sr)) s =
      .next (finish s .next (if sr = .ss then { u with inhibit := true } else u))) ∧
    ∀ sr x u, s.prot = true → SregRefused t sr (v.setWidth 16) x u → exec (.pop (.sreg w sr)) s = .next (abandon s x u)

/-- R414, R415: PUSHA and PUSHAD push the eight general registers, eSP as it was before; POPA and POPAD pop them and drop the
item for eSP. -/
def Obligations.PushAllPopAll : Prop :=
  ∀ (s : State) (w : Width) (i j : Instr), (w = .w16 ∧ i = .pusha ∧ j = .popa) ∨ (w = .d32 ∧ i = .pushad ∧ j = .popad) →
    (∀ u t, pushaChecks w.bytes 8 s.begun.esp s.begun = .ok () u →
      Pushes w u [s.reg w .eax, s.reg w .ecx, s.reg w .edx, s.reg w .ebx, s.reg w .esp, s.reg w .ebp, s.reg w .esi,
        s.reg w .edi] t → exec i s = .next (finish s .next t)) ∧
    ∀ di si bp sp bx dx cx ax t, Pops w s.begun [di, si, bp, sp, bx, dx, cx, ax] t →
      exec j s = .next (finish s .next (((((((t.setReg w .edi di).setReg w .esi si).setReg w .ebp bp).setReg w .ebx
        bx).setReg w .edx dx).setReg w .ecx cx).setReg w .eax ax))

/-- R710 to R713, R957: LAHF copies the low byte of EFLAGS to AH and SAHF sets SF, ZF, AF, PF and CF from it; PUSHF and PUSHFD
push EFLAGS with VM and RF as 0; POPF and POPFD write the status flags, TF, DF and NT, IF where CPL is at most IOPL or in
real-address mode, IOPL at CPL 0 or in real-address mode, and neither VM nor RF. In V86 mode with IOPL below 3 all four raise
#GP(0). -/
def Obligations.FlagTransfer : Prop :=
  (∀ s : State,
    exec .lahf s = .next (finish s .next (s.begun.setReg .b8 .esp (s.eflags.extractLsb' 0 8))) ∧
    exec .sahf s = .next (finish s .next (s.begun.putFlags 0xD5 ((s.reg .b8 .esp).setWidth 32)))) ∧
  (∀ (s : State) (mask image : Dword), ∃ fl, s.putFlags mask image = { s with eflags := fl } ∧
    ∀ k, fl.getLsbD k = if mask.getLsbD k then image.getLsbD k else s.eflags.getLsbD k) ∧
  (∀ (s : State) (k : Nat), s.popfMask.getLsbD k = true ↔
    k ∈ [0, 2, 4, 6, 7, 8, 10, 11, 14] ∨ (k = 9 ∧ (s.pe = false ∨ s.cpl ≤ s.iopl)) ∨
      ((k = 12 ∨ k = 13) ∧ (s.pe = false ∨ s.cpl = 0))) ∧
  ∀ (s : State) (w : Width) (i j : Instr), (w = .w16 ∧ i = .pushf ∧ j = .popf) ∨ (w = .d32 ∧ i = .pushfd ∧ j = .popfd) →
    (s.v86 = true → s.iopl < 3 → exec i s = .next (abandon s (faultOf 13 (some 0)) s.begun) ∧
      exec j s = .next (abandon s (faultOf 13 (some 0)) s.begun)) ∧
    (¬(s.v86 = true ∧ s.iopl < 3) →
      (∀ put, PushTo s.begun w put →
        exec i s = .next (finish s .next (put ((s.eflags &&& 0x00FCFFFF).setWidth w.bits)))) ∧
      ∀ v t, PopFrom s.begun w v t → exec j s = .next (finish s .nextKeepRf (t.putFlags s.popfMask (v.setWidth 32))))

/-! ### Near control transfers and frames -/

/-- R560, R561, R570 to R576: the sixteen conditional jumps; JCXZ, which jumps where the count register is 0; LOOP, LOOPE and
LOOPNE, which decrement it and jump while it is not 0 and, for the last two, ZF is 1 or 0. Where the condition holds EIP takes the
target, cut to 16 bits with a 16-bit operand size, if it lies within the CS limit, and #GP(0) is raised if not; else the next
instruction follows. Of an EIP above FFFFH in a 16-bit code segment `finish` leaves the low 16 bits (`EndOfInstruction`; log 24).
-/
def Obligations.ConditionalJump : Prop :=
  (∀ (s : State) (f : RelForm) (w : Width) (d : Dword), relForm f = (w, d) →
     let cf := s.flag .cf
     let zf := s.flag .zf
     let lt := s.flag .sf != s.flag .of
     let dest := cut (w = .d32) (s.nextEip + d)
     ∀ p ∈ ([(.jo, s.flag .of), (.jno, !s.flag .of), (.jb, cf), (.jae, !cf), (.je, zf), (.jne, !zf), (.jbe, cf || zf),
         (.ja, !(cf || zf)), (.js, s.flag .sf), (.jns, !s.flag .sf), (.jp, s.flag .pf), (.jnp, !s.flag .pf), (.jl, lt),
         (.jge, !lt), (.jle, zf || lt), (.jg, !(zf || lt))] : List ((RelForm → Instr) × Bool)),
       (p.2 = false → exec (p.1 f) s = .next (finish s .next s.begun)) ∧
       (p.2 = true → inLimit s.cs dest 1 = true → exec (p.1 f) s = .next (finish s .went { s.begun with eip := dest })) ∧
       (p.2 = true → inLimit s.cs dest 1 = false → exec (p.1 f) s = .next (abandon s (faultOf 13 (some 0)) s.begun))) ∧
  ∀ (s : State) (w asz : Width) (d : Byte),
    let dest := cut (w = .d32) (s.nextEip + d.signExtend 32)
    let u := s.begun.setIdx asz .ecx (s.idx asz .ecx - 1)
    let more := u.idx asz .ecx != 0
    ∀ p ∈ ([(.jcxz, s.begun, s.idx asz .ecx == 0), (.loop, u, more), (.loope, u, s.flag .zf && more),
        (.loopne, u, !s.flag .zf && more)] : List ((Width → Width → Byte → Instr) × State × Bool)),
      (p.2.2 = false → exec (p.1 w asz d) s = .next (finish s .next p.2.1)) ∧
      (p.2.2 = true → inLimit s.cs dest 1 = true → exec (p.1 w asz d) s = .next (finish s .went { p.2.1 with eip := dest })) ∧
      (p.2.2 = true → inLimit s.cs dest 1 = false → exec (p.1 w asz d) s = .next (abandon s (faultOf 13 (some 0)) p.2.1))

/-- R560 to R566, R601: near JMP goes to its target; near CALL, where the stack has room, pushes EIP_next first; near RET pops the
target and adds its immediate to eSP. A target beyond the CS limit raises #GP(0), a stack without room #SS(0), and nothing is
stored. Of an EIP above FFFFH in a 16-bit code segment `finish` leaves the low 16 bits (`EndOfInstruction`; log 24). -/
def Obligations.NearTransfer : Prop :=
  (∀ (s : State) (f : NearForm) (w : Width) (off : Dword) (t : State), NearIs s.begun f w off t →
    let dest := cut (w = .d32) off
    (inLimit t.cs dest 1 = true →
      exec (.jmp f) s = .next (finish s .went { t with eip := dest }) ∧
      ∀ put, t.roomOk w.bytes = true → PushTo t w put → exec (.call f) s =
        .next (finish s .went { put (t.nextEip.setWidth w.bits) with eip := dest })) ∧
    (inLimit t.cs dest 1 = false →
      exec (.jmp f) s = .next (abandon s (faultOf 13 (some 0)) t) ∧
      (t.roomOk w.bytes = true → exec (.call f) s = .next (abandon s (faultOf 13 (some 0)) t))) ∧
    (t.roomOk w.bytes = false → (t.ss.valid = true → t.mayWrite .ss = true) →
      exec (.call f) s = .next (abandon s (faultOf 12 (some 0)) t))) ∧
  ∀ (s : State) (w : Width) (n : Option Word) (v : BitVec w.bits) (t u : State), PopFrom s.begun w v t →
    u = t.setEsp (t.esp + retCount n) →
    (inLimit u.cs (cut (w = .d32) (v.setWidth 32)) 1 = true →
      exec (.ret w n) s = .next (finish s .went { u with eip := cut (w = .d32) (v.setWidth 32) })) ∧
    (inLimit u.cs (cut (w = .d32) (v.setWidth 32)) 1 = false →
      exec (.ret w n) s = .next (abandon s (faultOf 13 (some 0)) u))

/-- R580, R581: ENTER at level 0 pushes eBP, makes eBP the frame pointer and reserves the storage; at a level above 0 it also
copies the frame pointers of the outer levels (one fewer than its level, each read below eBP and pushed) and pushes its own.
LEAVE undoes it. -/
def Obligations.FrameInstructions : Prop :=
  (∀ (s : State) (w : Width) (size : Word) (level : Byte) (put : BitVec w.bits → State) (u : State),
    PushTo s.begun w put →
    let t := put (s.reg w .ebp)
    let frame : BitVec w.bits := t.esp.setWidth w.bits
    (level &&& 0x1F = 0 → u = t) →
    (level &&& 0x1F ≠ 0 → ∃ x put', FrameCopies w ((level &&& 0x1F).toNat - 1) t x ∧ PushTo x w put' ∧ u = put' frame) →
    let z := u.setReg w .ebp frame
    let sp := cut z.stack32 (z.esp - size.setWidth 32)
    inLimit z.ss sp 1 = true → exec (.enter w size level) s = .next (finish s .next (z.setEsp sp))) ∧
  ∀ (s : State) (w : Width) (v : BitVec w.bits) (t : State), PopFrom (s.begun.setEsp s.regs.ebp) w v t →
    exec (.leave w) s = .next (finish s .next (t.setReg w .ebp v))

/-- R582: BOUND reads two signed bounds; an index between them does nothing, any other raises fault #BR. -/
def Obligations.BoundResult : Prop :=
  ∀ (s : State) (w : Width) (r : Reg) (m : MemRef) (pas pas' : List Nat) (t u : State),
    Reach s.begun s.user (segOf m) (s.memEa m) w.bytes false pas t →
    Reach (t.afterRead pas) s.user (segOf m) (nextOff m (s.memEa m) w.bytes) w.bytes false pas' u →
    let lower := (t.valueAt w pas).toInt
    let upper := (u.valueAt w pas').toInt
    let x := u.afterRead pas'
    (lower ≤ (s.reg w r).toInt ∧ (s.reg w r).toInt ≤ upper → exec (.bound w r m) s = .next (finish s .next x)) ∧
    ((s.reg w r).toInt < lower ∨ upper < (s.reg w r).toInt → exec (.bound w r m) s =
      .next (abandon s (faultOf 5 none) x))

/-! ### Far control transfers -/

/-- R601, R602, R605, D53: in real-address and V86 mode far JMP and CALL load CS with the paragraph number and EIP with the
offset, which must lie within the CS limit, else #GP(0); CALL first pushes CS and EIP_next, where the stack has room, else #SS(0).
Of an EIP above FFFFH in a 16-bit code segment `finish` leaves the low 16 bits (`EndOfInstruction`; log 24). -/
def Obligations.FarTransferByParagraph : Prop :=
  ∀ (s : State) (f : FarForm) (w : Width) (sel : Word) (off : Dword) (t : State), s.paragraphs = true →
    FarIs s.begun f w sel off t →
    (inLimit t.cs off 1 = true →
      exec (.jmpFar f) s = .next (finish s .went { t.paragraphCS sel with eip := off }) ∧
      ∀ u, t.roomOk (2 * w.bytes) = true → Items s.user w t [.sel s.cs.sel, .val s.nextEip] u →
        exec (.callFar f) s = .next (finish s .went { u.paragraphCS sel with eip := off })) ∧
    (inLimit t.cs off 1 = false →
      exec (.jmpFar f) s = .next (abandon s (faultOf 13 (some 0)) t) ∧
      (t.roomOk (2 * w.bytes) = true → exec (.callFar f) s = .next (abandon s (faultOf 13 (some 0)) t))) ∧
    (t.roomOk (2 * w.bytes) = false → (t.ss.valid = true → t.mayWrite .ss = true) →
      exec (.callFar f) s = .next (abandon s (faultOf 12 (some 0)) t))

/-- R602, R603, R605, R606: in protected mode far JMP and CALL, to a code segment of the same privilege directly or through a call
gate, check its descriptor and the offset, set its accessed bit and load CS and EIP; the CPL stays. CALL first pushes CS and
EIP_next; through a gate the offset and the size of the pushed items are the gate's. An offset beyond the limit of the new code
segment raises #GP(0) and nothing is stored. A null selector raises #GP(0); a descriptor, or the code segment of a gate, that
fails a check raises #GP, or #NP where it is not present, with its selector as error code. That a TSS descriptor found through a
selector with TI = 1 raises #GP with that selector is the model's reading (DEDUCED, log 44): R262 says that it results in an
exception and names none. Of an EIP above FFFFH in a 16-bit code segment `finish` leaves the low 16 bits (`EndOfInstruction`; log
24). -/
def Obligations.FarTransferSame : Prop :=
  (∀ (s : State) (f : FarForm) (w : Width) (sel : Word) (off : Dword) (t u : State) (d : Desc), s.prot = true →
     FarIs s.begun f w sel off t → nullSel sel = false → fetchDesc sel t = .ok (some d) u → d.directOk sel s.cpl →
     (inLimit (d.toSeg sel) off 1 = true →
       (∀ v, setAccessed sel d u = .ok () v →
         exec (.jmpFar f) s = .next (finish s .went (v.inCode sel d s.cpl off))) ∧
       ∀ z v, u.roomOk (2 * w.bytes) = true → Items s.user w u [.sel s.cs.sel, .val s.nextEip] z →
         setAccessed sel d z = .ok () v → exec (.callFar f) s = .next (finish s .went (v.inCode sel d s.cpl off))) ∧
     (inLimit (d.toSeg sel) off 1 = false →
       exec (.jmpFar f) s = .next (abandon s (faultOf 13 (some 0)) u) ∧
       (u.roomOk (2 * w.bytes) = true → exec (.callFar f) s = .next (abandon s (faultOf 13 (some 0)) u)))) ∧
  (∀ (s : State) (f : FarForm) (w : Width) (sel : Word) (off : Dword) (t : State), s.prot = true →
     FarIs s.begun f w sel off t →
     (nullSel sel = true → exec (.jmpFar f) s = .next (abandon s (faultOf 13 (some 0)) t) ∧
       exec (.callFar f) s = .next (abandon s (faultOf 13 (some 0)) t)) ∧
     (∀ x u, nullSel sel = false → Refused t sel 13 false (fun d => d.farFaults s.cpl sel) x u →
       exec (.jmpFar f) s = .next (abandon s x u) ∧ exec (.callFar f) s = .next (abandon s x u)) ∧
     ∀ g u, nullSel sel = false → fetchDesc sel t = .ok (some g) u → g.isCallGate = true → s.cpl ≤ g.dpl →
       selRpl sel ≤ g.dpl → g.p = true →
       (nullSel g.gateSel = true → exec (.jmpFar f) s = .next (abandon s (faultOf 13 (some 0)) u) ∧
         exec (.callFar f) s = .next (abandon s (faultOf 13 (some 0)) u)) ∧
       ∀ x v, nullSel g.gateSel = false →
         (Refused u g.gateSel 13 false (fun c => c.throughFaults false s.cpl) x v →
           exec (.jmpFar f) s = .next (abandon s x v)) ∧
         (Refused u g.gateSel 13 false (fun c => c.throughFaults true s.cpl) x v →
           exec (.callFar f) s = .next (abandon s x v))) ∧
  ∀ (s : State) (f : FarForm) (w : Width) (sel : Word) (off : Dword) (t u u' : State) (g c : Desc), s.prot = true →
    FarIs s.begun f w sel off t → nullSel sel = false → fetchDesc sel t = .ok (some g) u → g.isCallGate = true →
    s.cpl ≤ g.dpl → selRpl sel ≤ g.dpl → g.p = true →
    nullSel g.gateSel = false → fetchDesc g.gateSel u = .ok (some c) u' → c.isCode = true → c.p = true →
    (c.conforming = true ∧ c.dpl ≤ s.cpl ∨ c.conforming = false ∧ c.dpl = s.cpl) →
    let is32 := g.typ.getLsbD 3
    (inLimit (c.toSeg g.gateSel) (g.gateOffset is32) 1 = true →
      (∀ v, setAccessed g.gateSel c u' = .ok () v →
        exec (.jmpFar f) s = .next (finish s .went (v.inCode g.gateSel c s.cpl (g.gateOffset is32)))) ∧
      ∀ z v, u'.roomOk (2 * (sizeW is32).bytes) = true →
        Items s.user (sizeW is32) u' [.sel s.cs.sel, .val s.nextEip] z → setAccessed g.gateSel c z = .ok () v →
        exec (.callFar f) s = .next (finish s .went (v.inCode g.gateSel c s.cpl (g.gateOffset is32)))) ∧
    (inLimit (c.toSeg g.gateSel) (g.gateOffset is32) 1 = false →
      exec (.jmpFar f) s = .next (abandon s (faultOf 13 (some 0)) u') ∧
      (u'.roomOk (2 * (sizeW is32).bytes) = true → exec (.callFar f) s = .next (abandon s (faultOf 13 (some 0)) u')))

/-- R612: far RET takes offset and selector from the stack and adds the immediate to eSP: in real-address and V86 mode the
selector is a paragraph number; in protected mode its code segment, of the same privilege here, is checked and loaded. A selector
of an inner level raises #GP, a null one #GP(0), and a code segment that is refused #GP or #NP with its selector. Of an EIP above
FFFFH in a 16-bit code segment `finish` leaves the low 16 bits (`EndOfInstruction`; log 24). -/
def Obligations.FarReturn : Prop :=
  (∀ (s : State) (w : Width) (n : Option Word) (off csv : BitVec w.bits) (t u : State), s.paragraphs = true →
     StackItem s.begun 0 w off t → StackItem t w.bytes w csv u → inLimit u.cs (off.setWidth 32) 1 = true →
     exec (.retFar w n) s = .next (finish s .went
       { (u.setEsp (u.esp + BitVec.ofNat 32 (2 * w.bytes) + retCount n)).paragraphCS (csv.setWidth 16) with
         eip := off.setWidth 32 })) ∧
  (∀ (s : State) (w : Width) (n : Option Word) (rs : Word) (t : State), s.prot = true →
    StackItem s.begun w.bytes .w16 rs t →
    (selRpl rs < s.cpl → exec (.retFar w n) s = .next (abandon s (faultOf 13 (some (selCode false rs))) t)) ∧
    (selRpl rs = s.cpl → nullSel rs = true → exec (.retFar w n) s = .next (abandon s (faultOf 13 (some 0)) t)) ∧
    ∀ x u, selRpl rs = s.cpl → nullSel rs = false → Refused t rs 13 false (fun c => c.codeFaults 13 s.cpl) x u →
      exec (.retFar w n) s = .next (abandon s x u)) ∧
  ∀ (s : State) (w : Width) (n : Option Word) (rs : Word) (off : BitVec w.bits) (t u v z : State) (d : Desc),
    s.prot = true → StackItem s.begun w.bytes .w16 rs t → selRpl rs = s.cpl → nullSel rs = false →
    fetchDesc rs t = .ok (some d) u → d.returnOk s.cpl → StackItem u 0 w off v →
    inLimit (d.toSeg rs) (off.setWidth 32) 1 = true → setAccessed rs d v = .ok () z →
    exec (.retFar w n) s = .next (finish s .went
      (let y := z.inCode rs d s.cpl (off.setWidth 32)
       y.setEsp (y.esp + BitVec.ofNat 32 (2 * w.bytes) + retCount n)))

/-! ### Interrupts and the return from them -/

/-- R870, R936: in real-address mode an interrupt or exception pushes FLAGS, CS and IP as words, takes IP and CS from the four
bytes of IDT entry `4 * v`, and clears IF, TF and RF. An IDT limit too small for the vector raises exception 8, which is
delivered in its place with the same return offset where the limit holds it; a second failure, that of vector 8 itself, shuts
the processor down. -/
def Obligations.DeliveryReal : Prop :=
  (∀ (s : State) (e : Event) (off seg : Word) (t u z : State), s.pe = false → 4 * e.vec.toNat + 3 ≤ s.idtr.limit.toNat →
     Items s.user .w16 s [.val s.eflags, .sel s.cs.sel, .val e.ret] t →
     sysRead16 (s.idtr.base + BitVec.ofNat 32 (4 * e.vec.toNat)) t = .ok off u →
     sysRead16 (s.idtr.base + BitVec.ofNat 32 (4 * e.vec.toNat + 2)) u = .ok seg z →
     deliver e s = .ok () { ((z.setFlag .iflag false).setFlag .tf false).setFlag .rf false with
       cs := z.cs.loadReal seg, eip := off.setWidth 32 }) ∧
  ∀ (s : State) (n : Nat) (e : Event), s.pe = false → s.idtr.limit.toNat < 4 * e.vec.toNat + 3 →
    deliver e s = .error { vec := 8, code := none, isFault := false, ret := none, committed := false } s ∧
    (¬(e.kind = .exc ∧ e.vec = 8) → deliverAll (n + 1) e s =
      deliverAll n { vec := 8, kind := .exc, code := none, isFault := false, ret := e.ret } s) ∧
    (s.idtr.limit.toNat < 4 * 8 + 3 → (deliverAll (n + 2) e s).run = .shutdown ∧
      (deliverAll (n + 2) e s).regs = s.regs ∧ (deliverAll (n + 2) e s).mem = s.mem)

/-- R821, R823, R828: in protected mode (VM = 0) an interrupt or trap gate whose code segment does not lead to an inner level
pushes EFLAGS (with RF = 1 for a fault), CS, the return offset and the error code, if any, on the current stack, and loads CS
and EIP; TF, NT and RF are cleared, IF too by an interrupt gate; the CPL stays. The padding of a selector or an error code pushed
as a doubleword is a free value (log 29). Refused, in protected and V86 mode: an entry beyond the IDT limit, of another type or,
for a software interrupt, of a DPL below CPL raises #GP, one that is not present #NP, with the error code 8 * vector + 2 + EXT;
a null code selector raises #GP(EXT); a code segment that fails a check #GP or #NP with its selector and EXT. EXT is 0 for a
software interrupt and 1 for an external one; for an exception it is a parameter of the model (log 13). -/
def Obligations.DeliverySame : Prop :=
  (∀ (s : State) (e : Event), s.pe = true →
    let code := BitVec.ofNat 16 (8 * e.vec.toNat + 2 + e.kind.ext.toNat)
    (e.kind = .soft → e.kind.ext = false) ∧ (e.kind = .hw → e.kind.ext = true) ∧
    (s.idtr.limit.toNat < e.vec.toNat * 8 + 7 → deliver e s = .error (faultOf 13 (some code)) s) ∧
    ∀ g t, e.vec.toNat * 8 + 7 ≤ s.idtr.limit.toNat →
      readDesc (s.idtr.base + (e.vec.setWidth 32 <<< 3)) s = .ok g t →
      (∀ v, firstFault (g.idtFaults (e.kind == .soft) s.cpl) = some v →
        deliver e s = .error (faultOf v (some code)) t) ∧
      (firstFault (g.idtFaults (e.kind == .soft) s.cpl) = none → g.typ ≠ 5 →
        (nullSel g.gateSel = true → deliver e s = .error (faultOf 13 (some (if e.kind.ext then 1 else 0))) t) ∧
        ∀ x u, nullSel g.gateSel = false → Refused t g.gateSel 13 e.kind.ext (fun c => c.gateFaults s.cpl) x u →
          deliver e s = .error x u)) ∧
  ∀ (s : State) (e : Event) (g c : Desc) (t u z v : State), s.prot = true →
    e.vec.toNat * 8 + 7 ≤ s.idtr.limit.toNat →
    readDesc (s.idtr.base + (e.vec.setWidth 32 <<< 3)) s = .ok g t →
    g.s = false → (g.typ = 6 ∨ g.typ = 7 ∨ g.typ = 14 ∨ g.typ = 15) → (e.kind = .soft → s.cpl ≤ g.dpl) → g.p = true →
    nullSel g.gateSel = false → fetchDesc g.gateSel t = .ok (some c) u → c.isCode = true → c.p = true →
    (c.conforming = true ∧ c.dpl ≤ s.cpl ∨ c.conforming = false ∧ c.dpl = s.cpl) →
    let is32 := g.typ.getLsbD 3
    let w := sizeW is32
    let off := g.gateOffset is32
    u.roomOk (e.frame w 3) = true →
    inLimit (c.toSeg g.gateSel) off 1 = true →
    Items s.user w u ([.val (e.image s), .sel s.cs.sel, .val e.ret] ++ (e.code.map Item.sel).toList) z →
    setAccessed g.gateSel c z = .ok () v →
    deliver e s = .ok () ((v.inCode g.gateSel c s.cpl off).afterGate (!g.typ.getLsbD 0))

/-- R630 to R632, R827, R957: INT n, INT 3 and INTO with OF = 1 deliver their vector, with the offset of the next instruction
as return offset and no error code; INTO with OF = 0 does nothing; INT n in V86 mode needs IOPL 3. -/
def Obligations.SoftwareInterrupt : Prop :=
  ∀ (s : State),
    (∀ v i, (i = .intN v ∧ ¬(s.v86 = true ∧ s.iopl < 3)) ∨ (i = .int3 ∧ v = 3) ∨
        (i = .into ∧ v = 4 ∧ s.flag .of = true) →
      ∀ t, deliver { vec := v, kind := .soft, code := none, isFault := false, ret := s.nextEip } s.begun = .ok () t →
        exec i s = .next (finish s .wentKeepRf t)) ∧
    (s.flag .of = false → exec .into s = .next (finish s .next s.begun)) ∧
    (s.v86 = true → s.iopl < 3 → ∀ v, exec (.intN v) s = .next (abandon s (faultOf 13 (some 0)) s.begun))

/-- R640 to R642, R644, R811, R957: IRET takes offset, selector and flags from the stack: in real-address mode, and in V86 mode
with IOPL 3, as a paragraph number; in protected mode with NT = 0 here to the same privilege level (to an outer one:
`FarTransferAcrossLevels`; NT = 1: `TaskSwitch`), or, with IRETD at CPL 0 and an image with VM = 1, to V86 mode. The flag bits
written (`iretMask`; `stayMask` where V86 mode is not entered) are the status flags, TF, DF and NT, IF where CPL is at most IOPL,
IOPL at CPL 0, RF by IRETD only, and VM by IRETD at CPL 0 of protected mode only; NMI is no longer masked. In V86 mode with IOPL
below 3 it raises #GP(0), and so does a null selector; a selector of an inner level raises #GP, a stack whose frame runs beyond
the limit or wraps #SS(0), a code segment that is refused #GP or #NP, each with the selector. Of an EIP above FFFFH in a 16-bit
code segment `finish` leaves the low 16 bits (`EndOfInstruction`; log 24). -/
def Obligations.InterruptReturn : Prop :=
  (∀ (s : State) (w : Width) (k : Nat),
    (s.iretMask w).getLsbD k = decide (k ∈ [0, 2, 4, 6, 7, 8, 10, 11, 14] ∨ (k = 9 ∧ s.cpl ≤ s.iopl) ∨
      ((k = 12 ∨ k = 13) ∧ s.cpl = 0) ∨ (k = 16 ∧ w = .d32) ∨ (k = 17 ∧ w = .d32 ∧ s.pe = true ∧ s.cpl = 0)) ∧
    (s.stayMask w).getLsbD k = (decide (k ≠ 17) && (s.iretMask w).getLsbD k)) ∧
  (∀ (s : State) (i : Instr), i = .iret ∨ i = .iretd → s.v86 = true → s.iopl < 3 →
     exec i s = .next (abandon s (faultOf 13 (some 0)) { s.begun with nmiMask := false })) ∧
  (∀ (s : State) (fl' : Dword) (t₀ t : State) (off csv fl nsp nss es ds fs gs : Dword), s.prot = true → s.flag .nt = false →
     s.cpl = 0 → StackItem { s.begun with nmiMask := false } 8 .d32 fl' t₀ → fl'.getLsbD 17 = true →
     t₀.topOk 36 = true →
     StackItems .d32 t₀ [0, 4, 8, 12, 16, 20, 24, 28, 32] [off, csv, fl, nsp, nss, es, ds, fs, gs] t →
     off.toNat ≤ 0xFFFF →
     exec .iretd s = .next (finish s .wentKeepRf { t with
       eflags := (t.eflags &&& ~~~0x37FD5) ||| (fl &&& 0x37FD5)
       cpl := 3
       cs := SegReg.loadV86 (csv.setWidth 16) true
       ss := SegReg.loadV86 (nss.setWidth 16) false
       es := SegReg.loadV86 (es.setWidth 16) false
       ds := SegReg.loadV86 (ds.setWidth 16) false
       fs := SegReg.loadV86 (fs.setWidth 16) false
       gs := SegReg.loadV86 (gs.setWidth 16) false
       eip := off
       regs := { t.regs with esp := nsp } })) ∧
  (∀ (s : State) (i : Instr) (w : Width), (i = .iret ∧ w = .w16) ∨ (i = .iretd ∧ w = .d32) →
     s.pe = false ∨ (s.v86 = true ∧ s.iopl = 3) →
     ∀ (off csv fl : BitVec w.bits) (t u v : State), StackItem { s.begun with nmiMask := false } 0 w off t →
       StackItem t w.bytes w csv u → StackItem u (2 * w.bytes) w fl v → inLimit v.cs (off.setWidth 32) 1 = true →
       exec i s = .next (finish s .wentKeepRf
         (({ (v.setEsp (v.esp + BitVec.ofNat 32 (3 * w.bytes))).paragraphCS (csv.setWidth 16) with
             eip := off.setWidth 32 } : State).putFlags (s.iretMask w) (fl.setWidth 32)))) ∧
  (∀ (s : State) (i : Instr) (w : Width), (i = .iret ∧ w = .w16) ∨ (i = .iretd ∧ w = .d32) →
    s.prot = true → s.flag .nt = false →
    ∀ (fl' : Dword) (rs : Word) (t₀ t : State),
      (if w = .d32 ∧ s.cpl = 0 then StackItem { s.begun with nmiMask := false } 8 .d32 fl' t₀ ∧ fl'.getLsbD 17 = false
       else t₀ = { s.begun with nmiMask := false }) →
      StackItem t₀ w.bytes .w16 rs t →
      (selRpl rs < s.cpl → exec i s = .next (abandon s (faultOf 13 (some (selCode false rs))) t)) ∧
      (selRpl rs = s.cpl →
        (t.topOk (3 * w.bytes) = false → (t.ss.valid = true → t.ss.readable = true) →
          exec i s = .next (abandon s (faultOf 12 (some 0)) t)) ∧
        (t.topOk (3 * w.bytes) = true →
          (nullSel rs = true → exec i s = .next (abandon s (faultOf 13 (some 0)) t)) ∧
          ∀ x u, nullSel rs = false → Refused t rs 13 false (fun c => c.codeFaults 13 s.cpl) x u →
            exec i s = .next (abandon s x u)))) ∧
  ∀ (s : State) (i : Instr) (w : Width), (i = .iret ∧ w = .w16) ∨ (i = .iretd ∧ w = .d32) →
    s.prot = true → s.flag .nt = false →
    ∀ (fl' : Dword) (rs : Word) (off fl : BitVec w.bits) (t₀ t t₁ u v z : State) (d : Desc),
      (if w = .d32 ∧ s.cpl = 0 then StackItem { s.begun with nmiMask := false } 8 .d32 fl' t₀ ∧ fl'.getLsbD 17 = false
       else t₀ = { s.begun with nmiMask := false }) →
      StackItem t₀ w.bytes .w16 rs t → selRpl rs = s.cpl → nullSel rs = false →
      t.topOk (3 * w.bytes) = true →
      fetchDesc rs t = .ok (some d) t₁ → d.returnOk s.cpl → StackItem t₁ 0 w off u →
      inLimit (d.toSeg rs) (off.setWidth 32) 1 = true → StackItem u (2 * w.bytes) w fl v →
      setAccessed rs d v = .ok () z →
      exec i s = .next (finish s .wentKeepRf
        (let y := ({ z.inCode rs d s.cpl (off.setWidth 32) with
            eflags := (z.eflags &&& ~~~s.stayMask w) ||| (fl.setWidth 32 &&& s.stayMask w) } : State)
         y.setEsp (y.esp + BitVec.ofNat 32 (3 * w.bytes))))

/-! ### Strings and ports -/

/-- R660 to R662, R665, R666, R690: MOVS, LODS and STOS of every width move one element and step their index registers, up
where DF is 0 and down where it is 1; with a repeat prefix and a count other than 0 that is one iteration (`strDone`): the count
is less one, and the instruction goes on while it is not 0; with a count of 0 no string instruction does anything. Addresses and
counts are of the address size; the source is in DS unless it is overridden. That one step is one iteration is the model's
(log 19). -/
def Obligations.StringMoves : Prop :=
  (∀ (s t : State) (a : StrAttr) (r : Reg) (n : Nat),
     let q := fun r : Reg => if a.asz = .d32 then t.reg .d32 r else (t.reg .w16 r).setWidth 32
     let put := fun (r : Reg) (v : Dword) => if a.asz = .d32 then t.setReg .d32 r v else t.setReg .w16 r (v.setWidth 16)
     t.idx a.asz r = q r ∧ srcSeg a = a.seg.getD .ds ∧
     t.stepIdx a.asz r n = put r (if t.flag .df then q r - BitVec.ofNat 32 n else q r + BitVec.ofNat 32 n) ∧
     (a.rep = .none → strDone a false s t = finish s .next t) ∧
     (a.rep ≠ .none → strDone a false s t = finish s (if q .ecx = 1 then .next else .again) (put .ecx (q .ecx - 1)))) ∧
  (∀ (s : State) (w : Width) (a : StrAttr), a.rep = .none ∨ s.idx a.asz .ecx ≠ 0 →
     (∀ v t put, StrSrc s.begun w a v t → StrPut t w a put →
       ∀ p ∈ ([(.b8, .movsb), (.w16, .movsw), (.d32, .movsd)] : List (Width × (StrAttr → Instr))), p.1 = w →
         exec (p.2 a) s =
           .next (strDone a false s (((put v).stepIdx a.asz .esi w.bytes).stepIdx a.asz .edi w.bytes))) ∧
     (∀ v t, StrSrc s.begun w a v t →
       ∀ p ∈ ([(.b8, .lodsb), (.w16, .lodsw), (.d32, .lodsd)] : List (Width × (StrAttr → Instr))), p.1 = w →
         exec (p.2 a) s = .next (strDone a false s ((t.setReg w .eax v).stepIdx a.asz .esi w.bytes))) ∧
     ∀ put, StrPut s.begun w a put →
       ∀ p ∈ ([(.b8, .stosb), (.w16, .stosw), (.d32, .stosd)] : List (Width × (StrAttr → Instr))), p.1 = w →
         exec (p.2 a) s = .next (strDone a false s ((put (s.reg w .eax)).stepIdx a.asz .edi w.bytes))) ∧
  ∀ (s : State) (a : StrAttr), a.rep ≠ .none → s.idx a.asz .ecx = 0 →
    ∀ i ∈ ([.movsb, .movsw, .movsd, .cmpsb, .cmpsw, .cmpsd, .stosb, .stosw, .stosd, .lodsb, .lodsw, .lodsd, .scasb, .scasw,
        .scasd, .insb, .insw, .insd, .outsb, .outsw, .outsd] : List (StrAttr → Instr)),
      exec (i a) s = .next (finish s .next s.begun)

/-- R663, R664, R690: CMPS subtracts the destination element from the source element and SCAS from the accumulator, for the
flags only. With REPE they go on while the count, less one, is not 0 and ZF is 1, with REPNE while it is not 0 and ZF is 0. -/
def Obligations.StringCompares : Prop :=
  (∀ (s t : State) (a : StrAttr),
     let count := t.idx a.asz .ecx
     let u := t.setIdx a.asz .ecx (count - 1)
     (a.rep = .none → strDone a true s t = finish s .next t) ∧
     (a.rep = .rep → strDone a true s t = finish s (if count ≠ 1 ∧ t.flag .zf = true then .again else .next) u) ∧
     (a.rep = .repne → strDone a true s t = finish s (if count ≠ 1 ∧ t.flag .zf = false then .again else .next) u)) ∧
  ∀ (s : State) (w : Width) (a : StrAttr), a.rep = .none ∨ s.idx a.asz .ecx ≠ 0 →
    (∀ x y t u, StrSrc s.begun w a x t → StrDst t w a y u →
      ∀ p ∈ ([(.b8, .cmpsb), (.w16, .cmpsw), (.d32, .cmpsd)] : List (Width × (StrAttr → Instr))), p.1 = w →
        exec (p.2 a) s = .next (strDone a true s
          (((u.subFlags x y false).stepIdx a.asz .esi w.bytes).stepIdx a.asz .edi w.bytes))) ∧
    ∀ y t, StrDst s.begun w a y t →
      ∀ p ∈ ([(.b8, .scasb), (.w16, .scasw), (.d32, .scasd)] : List (Width × (StrAttr → Instr))), p.1 = w →
        exec (p.2 a) s = .next (strDone a true s
          ((t.subFlags (t.reg w .eax) y false).stepIdx a.asz .edi w.bytes))

/-- R300, R302, R304, R307, R309, R670 to R673, R690: IN reads a port into AL, AX or EAX and OUT writes it, where access is
allowed; else #GP(0). INS and OUTS move one element between memory and the port in DX, and are denied in the same way. In V86
mode, and where CPL is above IOPL, the permission map of the TSS decides: its base is the word at offset 66H of an 80386 TSS, an
80286 TSS and a base at or beyond the limit deny, and so does a bit that is 1 or lies beyond the limit, for any byte port of the
operand. The bytes of an operand belong to the byte ports from its port on, the lowest to the least significant byte; where the
port is not aligned each byte port is accessed by itself, the lowest first. R300 and D36 make that access several byte-port
accesses, the low one first; that a doubleword at an even port too is four of them, and not two of words, is the model's choice,
and so is that IN answers the bytes that `ioInput` holds, the way to let devices speak (log 9). -/
def Obligations.PortTransfer : Prop :=
  (∀ (s : State) (port : Word) (w : Width),
     (∀ v, ∃ ts, s.ioGave port w v = { s with ioLog := { write := true, transfers := ts } :: s.ioLog } ∧
       ts.flatten = (List.range w.bytes).map (fun i => (port + BitVec.ofNat 16 i, v.extractLsb' (8 * i) 8)) ∧
       (port.toNat % w.bytes = 0 → ts.length = 1) ∧ (port.toNat % w.bytes ≠ 0 → ∀ x ∈ ts, x.length = 1)) ∧
     (∃ ts, s.ioTook port w = { s with ioInput := s.ioInput.drop w.bytes
                                       ioLog := { write := false, transfers := ts } :: s.ioLog } ∧
       ts.flatten = (List.range w.bytes).map (fun i => (port + BitVec.ofNat 16 i, (s.ioValue port w).extractLsb' (8 * i) 8)) ∧
       (port.toNat % w.bytes = 0 → ts.length = 1) ∧ (port.toNat % w.bytes ≠ 0 → ∀ x ∈ ts, x.length = 1)) ∧
     ∀ i, i < w.bytes → (s.ioValue port w).extractLsb' (8 * i) 8 =
       (s.ioInput[i]?).getD (Config.ioNothing s.ioLog.length (port + BitVec.ofNat 16 i))) ∧
  (∀ (s : State) (port : Word) (n : Nat),
     (s.ioMapped = true ↔ s.pe = true ∧ (s.flag .vm = true ∨ s.iopl < s.cpl)) ∧
     (s.tr.is386 = false → ioPermission port n s = .ok false s) ∧
     ∀ (base : Word) (t : State), s.tr.is386 = true → SysGet s (s.tr.base + 0x66) 2 base.toNat t →
       (t.tr.limit.toNat ≤ base.toNat → ioPermission port n s = .ok false t) ∧
       ∀ r u, base.toNat < t.tr.limit.toNat →
         PortBits base.toNat t ((List.range n).map fun i => port + BitVec.ofNat 16 i) r u → ioPermission port n s = .ok r u) ∧
  (∀ (s : State) (f : IoForm) (w : Width) (port : Word), s.ioForm f = (w, port) →
     (∀ t, PortOk s.begun port w t →
       exec (.inp f) s = .next (finish s .next ((t.ioTook port w).setReg w .eax (t.ioValue port w))) ∧
       exec (.out f) s = .next (finish s .next (t.ioGave port w (s.reg w .eax)))) ∧
     ∀ t, s.ioMapped = true → ioPermission port w.bytes s.begun = .ok false t →
       exec (.inp f) s = .next (abandon s (faultOf 13 (some 0)) t) ∧
       exec (.out f) s = .next (abandon s (faultOf 13 (some 0)) t)) ∧
  ∀ (s : State) (w : Width) (a : StrAttr), a.rep = .none ∨ s.idx a.asz .ecx ≠ 0 →
    let port := s.reg .w16 .edx
    (∀ t, PortOk s.begun port w t →
      (∀ u put, memWriteCheck s.user .es (s.idx a.asz .edi) w.bytes t = .ok () u → StrPut (u.ioTook port w) w a put →
        ∀ p ∈ ([(.b8, .insb), (.w16, .insw), (.d32, .insd)] : List (Width × (StrAttr → Instr))), p.1 = w →
          exec (p.2 a) s = .next (strDone a false s ((put (u.ioValue port w)).stepIdx a.asz .edi w.bytes))) ∧
      ∀ x u, StrSrc t w a x u →
        ∀ p ∈ ([(.b8, .outsb), (.w16, .outsw), (.d32, .outsd)] : List (Width × (StrAttr → Instr))), p.1 = w →
          exec (p.2 a) s = .next (strDone a false s ((u.ioGave port w x).stepIdx a.asz .esi w.bytes))) ∧
    ∀ t, s.ioMapped = true → ioPermission port w.bytes s.begun = .ok false t →
      ∀ p ∈ ([(.b8, .insb), (.w16, .insw), (.d32, .insd), (.b8, .outsb), (.w16, .outsw), (.d32, .outsd)] :
          List (Width × (StrAttr → Instr))), p.1 = w →
        exec (p.2 a) s = .next (abandon s (faultOf 13 (some 0)) t)

/-! ### Flag control and miscellaneous instructions -/

/-- R700 to R706, R720, with their one-byte encodings: STC, CLC, CMC, STD and CLD write their flag; NOP does nothing; CLI and STI
write IF in real-address mode and where CPL is at most IOPL, and raise #GP(0) otherwise; after an STI that sets IF, INTR waits for
one instruction (`inhibitIntr`: see `EventsBetweenInstructions`). -/
def Obligations.FlagControl : Prop :=
  (∀ s : State,
     exec .stc s = .next (finish s .next (s.begun.setFlag .cf true)) ∧
     exec .clc s = .next (finish s .next (s.begun.setFlag .cf false)) ∧
     exec .cmc s = .next (finish s .next (s.begun.setFlag .cf (!s.flag .cf))) ∧
     exec .std s = .next (finish s .next (s.begun.setFlag .df true)) ∧
     exec .cld s = .next (finish s .next (s.begun.setFlag .df false)) ∧
     exec .nop s = .next (finish s .next s.begun)) ∧
  [Instr.stc, .clc, .cmc, .std, .cld, .nop, .cli, .sti].map encode =
    [[0xF9], [0xF8], [0xF5], [0xFD], [0xFC], [0x90], [0xFA], [0xFB]] ∧
  ∀ s : State,
    (s.pe = false ∨ s.cpl ≤ s.iopl →
      exec .cli s = .next (finish s .next (s.begun.setFlag .iflag false)) ∧
      exec .sti s = .next (finish s .next { s.begun.setFlag .iflag true with inhibitIntr := !s.flag .iflag })) ∧
    (s.pe = true ∧ s.iopl < s.cpl →
      exec .cli s = .next (abandon s (faultOf 13 (some 0)) s.begun) ∧
      exec .sti s = .next (abandon s (faultOf 13 (some 0)) s.begun))

/-- R721, R726, R727, R990, R993, R995, R996: HLT halts the processor at CPL 0. WAIT goes on when BUSY# and ERROR# are inactive,
waits on BUSY#, raises #NM when MP and TS are set and #MF on ERROR#. ESC raises #NM when EM or TS is set, #MF on ERROR# where its
opcode tests it, and waits on BUSY#; without a coprocessor it does nothing; with one the opcode is handed over, with the selector
and the offset of a memory operand, the ends of that operand are checked, the bytes the coprocessor asks for are read or stored
(one access for each, the model's choice: log 26), and the pins and AX take what the coprocessor answers (`coprocReplies`: log
11). That an ESC waits on BUSY# is the spec's own decision and not the manual's (R997, D86), and that a WAIT or ESC that waits
ends its step and tests everything again in the next is the model's choice (log 19). -/
def Obligations.HaltWaitEscape : Prop :=
  (∀ s : State,
     (s.pe = false ∨ s.cpl = 0 → exec .hlt s = .next (finish s .next { s.begun with run := .halted })) ∧
     (s.mp = true → s.tsw = true → exec .wait s = .next (abandon s (faultOf 7 none) s.begun)) ∧
     (¬(s.mp = true ∧ s.tsw = true) →
       (s.busy = true → exec .wait s = .next (finish s .waiting s.begun)) ∧
       (s.busy = false → s.coprocError = true → exec .wait s = .next (abandon s (faultOf 16 none) s.begun)) ∧
       (s.busy = false → s.coprocError = false → exec .wait s = .next (finish s .next s.begun)))) ∧
  ∀ (s : State) (w asz : Width) (op reg : BitVec 3) (rm : Rm),
    (s.em = true ∨ s.tsw = true → exec (.esc w asz op reg rm) s = .next (abandon s (faultOf 7 none) s.begun)) ∧
    (s.em = false → s.tsw = false → s.coprocError = true → Config.escTestsError (escOpcode op reg rm) = true →
      exec (.esc w asz op reg rm) s = .next (abandon s (faultOf 16 none) s.begun)) ∧
    (s.em = false → s.tsw = false → s.coprocError = false ∨ Config.escTestsError (escOpcode op reg rm) = false →
      (s.busy = true → exec (.esc w asz op reg rm) s = .next (finish s .waiting s.begun)) ∧
      (s.coproc = .none → exec (.esc w asz op reg rm) s = .next (finish s .next s.begun)) ∧
      (s.busy = false → s.coproc ≠ .none →
        let answered := fun (x : State) (operand : Option (Word × Dword)) (bytes : List Byte) =>
          let y : State := { x with coprocSent := x.coprocSent ++
            [{ opcode := escOpcode op reg rm, operand := operand, opsize := w.bits, addrsize := asz.bits, loaded := bytes }] }
          finish s .next (match s.nextReply.ax with
            | none => y
            | some v => y.setReg .w16 .eax v)
        let replied := fun x : State => { x with
          coprocReplies := s.coprocReplies.tail, pinBusy := s.nextReply.busy, pinError := s.nextReply.error }
        (∀ r, rm = .reg r → exec (.esc w asz op reg rm) s = .next (answered (replied s.begun) none [])) ∧
        ∀ m t u bytes, rm = .mem m →
          EscEnds (segOf m) s.nextReply.transfer.size.2 s.begun (escOffsets asz (s.memEa m) s.nextReply.transfer.size.1) t →
          EscMoves asz (segOf m) (s.memEa m) (replied t) s.nextReply.transfer bytes u →
          exec (.esc w asz op reg rm) s = .next (answered u (some ((s.sreg (segOf m)).sel, s.memEa m)) bytes)))

/-- R320 to R323, R347, R690, R725: an instruction behind a lead byte runs as it does alone, its operands already carrying the
prefix; REP and REPNE are undefined before an instruction that is not a string instruction, LOCK before one that is not an
ADD, OR, ADC, SBB, AND, SUB, XOR, NOT, NEG, INC, DEC, XCHG, BT, BTS, BTR or BTC with a memory destination (R110); an undefined
opcode raises #UD. Instructions behind lead bytes complete. That LOCK needs no IOPL in V86 mode is the
model's choice (log 18, decision D80 of R975), and so is that a lead byte is an instruction of its own (log 31). -/
def Obligations.LeadBytes : Prop :=
  (∀ i : Instr,
     (∀ lead ∈ ([.segES, .segCS, .segSS, .segDS, .segFS, .segGS, .opsize, .addrsize, .rep, .repne, .lock] :
        List (Instr → Instr)), coreOf (lead i) = coreOf i ∧ repeatable (lead i) = false ∧ lockable (lead i) = false) ∧
     (repeatable i = true ∨ lockable i = true → coreOf i = i) ∧
     (repeatable i = true ↔ ∃ a : StrAttr, i ∈ [.movsb a, .movsw a, .movsd a, .cmpsb a, .cmpsw a, .cmpsd a, .stosb a, .stosw a,
       .stosd a, .lodsb a, .lodsw a, .lodsd a, .scasb a, .scasw a, .scasd a, .insb a, .insw a, .insd a, .outsb a, .outsw a,
       .outsd a]) ∧
     (lockable i = true ↔ ∃ (w : Width) (m : MemRef) (r : Reg) (imm : Dword) (n : Byte),
       (∃ f ∈ ([.rmReg w (.mem m) r, .rmImm w (.mem m) imm, .rmImm8 w (.mem m) n] : List AluForm),
         i ∈ [.add f, .or f, .adc f, .sbb f, .and f, .sub f, .xor f]) ∨
       i ∈ [.not w (.mem m), .neg w (.mem m), .inc (.rm w (.mem m)), .dec (.rm w (.mem m)), .xchg (.rmReg w (.mem m) r)] ∨
       ∃ f ∈ ([.reg w (.mem m) r, .imm w (.mem m) n] : List BtForm), i ∈ [.bt f, .bts f, .btr f, .btc f])) ∧
  (∀ (s : State) (i : Instr),
     exec (.segES i) s = exec i s ∧ exec (.segCS i) s = exec i s ∧ exec (.segSS i) s = exec i s ∧
     exec (.segDS i) s = exec i s ∧ exec (.segFS i) s = exec i s ∧ exec (.segGS i) s = exec i s ∧
     exec (.opsize i) s = exec i s ∧ exec (.addrsize i) s = exec i s ∧
     (repeatable (coreOf i) = true → exec (.rep i) s = exec i s ∧ exec (.repne i) s = exec i s) ∧
     (lockable (coreOf i) = true → exec (.lock i) s = exec i s) ∧
     (repeatable (coreOf i) = false → exec (.rep i) s = .next (abandon s (faultOf 6 none) s.begun) ∧
       exec (.repne i) s = .next (abandon s (faultOf 6 none) s.begun)) ∧
     (lockable (coreOf i) = false → exec (.lock i) s = .next (abandon s (faultOf 6 none) s.begun)) ∧
     ∀ b, exec (.undef b) s = .next (abandon s (faultOf 6 none) s.begun)) ∧
  (∀ s : State, ∀ lead ∈ ([.segES, .segCS, .segSS, .segDS, .segFS, .segGS, .opsize, .addrsize] : List (Instr → Instr)),
    exec (lead .nop) s = .next (finish s .next s.begun)) ∧
  (∀ (s : State) (a : StrAttr) (put : Byte → State), a.rep ≠ .none → s.idx a.asz .ecx ≠ 0 → StrPut s.begun .b8 a put →
    ∀ lead ∈ ([.rep, .repne] : List (Instr → Instr)),
      exec (lead (.stosb a)) s = .next (strDone a false s ((put (s.reg .b8 .eax)).stepIdx a.asz .edi 1))) ∧
  ∀ (s : State) (w : Width) (m : MemRef) (x : BitVec w.bits) (t : State) (put : BitVec w.bits → State → State),
    RmAt s.begun w (.mem m) x t put → exec (.lock (.not w (.mem m))) s = .next (finish s .next (put (~~~x) t))

/-! ### System instructions -/

/-- R96, R741 to R744: LGDT and LIDT load limit and base from six bytes, checked against the segment as one operand and read as
a word and a doubleword, of the base 24 bits with a 16-bit operand size; SGDT and SIDT store them in the same two parts at any
privilege, the sixth byte 0 with a 16-bit operand size. -/
def Obligations.TableRegisterMoves : Prop :=
  ∀ (s : State) (w : Width) (m : MemRef) (pas pas' : List Nat) (t u : State),
    let ea := s.memEa m
    ((s.pe = false ∨ s.cpl = 0) → s.segOk (segOf m) ea 6 false = true →
      Reach s.begun s.user (segOf m) ea 2 false pas t →
      Reach (t.afterRead pas) s.user (segOf m) (ea + 2) 4 false pas' u →
      ∀ r : TableReg, r = { limit := t.valueAt .w16 pas,
                            base := if w = .d32 then u.valueAt .d32 pas' else u.valueAt .d32 pas' &&& 0x00FFFFFF } →
        exec (.lgdt w m) s = .next (finish s .next { u.afterRead pas' with gdtr := r }) ∧
        exec (.lidt w m) s = .next (finish s .next { u.afterRead pas' with idtr := r })) ∧
    ∀ x, memWriteCheck s.user (segOf m) ea 6 s.begun = .ok () x → Reach x s.user (segOf m) ea 2 true pas t →
      ∀ p ∈ ([(.sgdt w m, s.gdtr), (.sidt w m, s.idtr)] : List (Instr × TableReg)),
        Reach (t.storeAt .w16 pas p.2.limit) s.user (segOf m) (ea + 2) 4 true pas' u →
        exec p.1 s = .next (finish s .next
          (u.storeAt .d32 pas' (if w = .d32 then p.2.base else p.2.base &&& 0x00FFFFFF)))

/-- R745, R746, R764, R765: LLDT and LTR at CPL 0 load LDTR and TR from a descriptor of the GDT of the right type; LTR marks the
TSS busy (without a second read of its access byte, the model's choice: log 60); LLDT of a null selector makes LDTR invalid, LTR
of one raises #GP(0); a selector of the LDT, one beyond the limit and a descriptor of another type raise #GP, one that is not
present #NP, with the selector (R183, R184). SLDT and STR store the two selectors, at any privilege. -/
def Obligations.TaskRegisterMoves : Prop :=
  (∀ (s : State) (rm : Rm) (sel : Word) (t : State), s.prot = true → s.cpl = 0 → RmIs s.begun .w16 rm sel t →
     (nullSel sel = true → exec (.lldt rm) s = .next (finish s .next
       { t with ldtr := { t.ldtr with sel := sel, valid := false } }) ∧
       exec (.ltr rm) s = .next (abandon s (faultOf 13 (some 0)) t)) ∧
     (nullSel sel = false → selTi sel = true →
       exec (.lldt rm) s = .next (abandon s (faultOf 13 (some (selCode false sel))) t) ∧
       exec (.ltr rm) s = .next (abandon s (faultOf 13 (some (selCode false sel))) t)) ∧
     (∀ x u, nullSel sel = false → selTi sel = false →
       (Refused t sel 13 false (fun d => d.ldtFaults 13 11) x u → exec (.lldt rm) s = .next (abandon s x u)) ∧
       (Refused t sel 13 false (fun d => d.trFaults) x u → exec (.ltr rm) s = .next (abandon s x u))) ∧
     ∀ d u, nullSel sel = false → selTi sel = false → fetchDesc sel t = .ok (some d) u → d.p = true →
       (d.isLdt = true → exec (.lldt rm) s = .next (finish s .next
         { u with ldtr := { sel := sel, base := d.base, limit := d.limit, valid := true } })) ∧
       (d.availTss = true → ∀ v, setDescType sel d (d.typ ||| 2) u = .ok () v →
         exec (.ltr rm) s = .next (finish s .next
           { v with tr := { sel := sel, base := d.base, limit := d.limit, is386 := d.tss32 } }))) ∧
  ∀ (s : State) (rm : Rm) (put : Word → State), s.prot = true → RmPut s.begun .w16 rm put →
    exec (.sldt rm) s = .next (finish s .next (put s.ldtr.sel)) ∧
    exec (.str rm) s = .next (finish s .next (put s.tr.sel))

/-- R747 to R749: LMSW writes CR0 bits 4:0 but cannot clear PE; SMSW stores CR0 bits 4:0, bits 15:5 being 0 until the MSW has
been written and free values after; CLTS, 0F 06, clears TS at CPL 0 and raises #GP(0) at another. That bits 15:5 read as 0 until
the MSW is written, and not only immediately after RESET (R47), is the model's choice (log 48), as are the free bits (log 7). -/
def Obligations.MachineStatusWord : Prop :=
  (∀ (s : State) (rm : Rm) (v : Word) (t : State), s.pe = false ∨ s.cpl = 0 → RmIs s.begun .w16 rm v t →
    exec (.lmsw rm) s = .next (finish s .next
      { t with cr0 := (t.cr0 &&& 0xFFFFFFE1) ||| (v.setWidth 32 &&& 0x1F), mswFresh := false })) ∧
  (∀ (s : State) (rm : Rm) (put : Word → State), s.mswFresh = true → RmPut s.begun .w16 rm put →
    exec (.smsw rm) s = .next (finish s .next (put (s.cr0.extractLsb' 0 16)))) ∧
  (∀ (s : State) (rm : Rm) (put : Word → State), s.mswFresh = false →
    RmPut { s.begun with free := s.free + 1 } .w16 rm put →
    exec (.smsw rm) s = .next (finish s .next
      (put (s.cr0.extractLsb' 0 16 ||| ((Config.freeBits s.free).extractLsb' 0 16 &&& 0xFFE0))))) ∧
  (∀ s : State,
    (s.pe = false ∨ s.cpl = 0 → exec .clts s = .next (finish s .next { s.begun with cr0 := s.cr0 &&& 0xFFFFFFF7 })) ∧
    (s.pe = true → s.cpl ≠ 0 → exec .clts s = .next (abandon s (faultOf 13 (some 0)) s.begun))) ∧
  encode .clts = [0x0F, 0x06]

/-- R750 to R753: LAR and LSL of a selector whose descriptor is of an accepted type and visible write its access rights (bits
19:16 a free value, log 7) or its limit and set ZF, and else clear ZF and write nothing; VERR and VERW set ZF where the segment
may be read, or written, at the current privilege, and clear it otherwise. ARPL (R754) raises the RPL of its destination to that
of the register and sets ZF, or clears ZF and changes nothing. That an ARPL on memory whose RPL does not rise makes its write
check, with the dirty bit that this sets, and no write, and counts for data breakpoints as a read only, is the model's choice
(log 55). -/
def Obligations.AccessRights : Prop :=
  ((∀ (s : State) (w : Width) (r : Reg) (rm : Rm) (v : BitVec w.bits) (t : State), s.prot = true → RmIs s.begun w rm v t →
      let sel : Word := v.setWidth 16
      (nullSel sel = true → exec (.lar w r rm) s = .next (finish s .next (t.setFlag .zf false)) ∧
        exec (.lsl w r rm) s = .next (finish s .next (t.setFlag .zf false))) ∧
      (∀ u, nullSel sel = false → fetchDesc sel t = .ok none u →
        exec (.lar w r rm) s = .next (finish s .next (u.setFlag .zf false)) ∧
        exec (.lsl w r rm) s = .next (finish s .next (u.setFlag .zf false))) ∧
      ∀ d u, nullSel sel = false → fetchDesc sel t = .ok (some d) u →
        let seen := d.conforming = true ∨ (s.cpl ≤ d.dpl ∧ selRpl sel ≤ d.dpl)
        (d.larType = true → seen → exec (.lar w r rm) s = .next (finish s .next
          ((({ u with free := u.free + 1 } : State).setReg w r
            (((d.d1 &&& 0x00F0FF00) ||| (Config.freeBits u.free &&& 0x000F0000)).setWidth w.bits)).setFlag .zf true))) ∧
        (d.lslType = true → seen →
          exec (.lsl w r rm) s = .next (finish s .next ((u.setReg w r (d.limit.setWidth w.bits)).setFlag .zf true))) ∧
        (d.larType = false ∨ ¬seen → exec (.lar w r rm) s = .next (finish s .next (u.setFlag .zf false))) ∧
        (d.lslType = false ∨ ¬seen → exec (.lsl w r rm) s = .next (finish s .next (u.setFlag .zf false)))) ∧
   ∀ (s : State) (rm : Rm) (sel : Word) (t : State), s.prot = true → RmIs s.begun .w16 rm sel t →
     (nullSel sel = true → exec (.verr rm) s = .next (finish s .next (t.setFlag .zf false)) ∧
       exec (.verw rm) s = .next (finish s .next (t.setFlag .zf false))) ∧
     (∀ u, nullSel sel = false → fetchDesc sel t = .ok none u →
       exec (.verr rm) s = .next (finish s .next (u.setFlag .zf false)) ∧
       exec (.verw rm) s = .next (finish s .next (u.setFlag .zf false))) ∧
     ∀ d u, nullSel sel = false → fetchDesc sel t = .ok (some d) u →
       exec (.verr rm) s = .next (finish s .next (u.setFlag .zf
         (d.readable && (d.conforming || (decide (s.cpl ≤ d.dpl) && decide (selRpl sel ≤ d.dpl)))))) ∧
       exec (.verw rm) s = .next (finish s .next (u.setFlag .zf
         (d.writableData && decide (s.cpl ≤ d.dpl) && decide (selRpl sel ≤ d.dpl))))) ∧
  ∀ (s : State) (r : Reg), s.prot = true →
    let b := s.reg .w16 r
    (∀ d, let a := s.reg .w16 d
      (a.extractLsb' 0 2 < b.extractLsb' 0 2 → exec (.arpl (.reg d) r) s = .next (finish s .next
        ((s.begun.setReg .w16 d ((a &&& 0xFFFC) ||| (b &&& 3))).setFlag .zf true))) ∧
      (b.extractLsb' 0 2 ≤ a.extractLsb' 0 2 → exec (.arpl (.reg d) r) s =
        .next (finish s .next ((s.begun.setReg .w16 d a).setFlag .zf false)))) ∧
    ∀ m u a t, memWriteCheck s.user (segOf m) (s.memEa m) 2 s.begun = .ok () u → RmIs u .w16 (.mem m) a t →
      (a.extractLsb' 0 2 < b.extractLsb' 0 2 → ∀ put, RmPut t .w16 (.mem m) put →
        exec (.arpl (.mem m) r) s = .next (finish s .next ((put ((a &&& 0xFFFC) ||| (b &&& 3))).setFlag .zf true))) ∧
      (b.extractLsb' 0 2 ≤ a.extractLsb' 0 2 → exec (.arpl (.mem m) r) s =
        .next (finish s .next (t.setFlag .zf false)))

/-- R252, R770: MOV to and from CR0, CR2 and CR3 at CPL 0: reserved bits are not written and read as free values, a write of CR3
empties the TLB, the six status flags are free (log 7). PG without PE is #GP(0). The other numbers are #UD. -/
def Obligations.ControlRegisterMoves : Prop :=
  (∀ (s : State) (r : Reg), s.pe = false ∨ s.cpl = 0 →
     (let v := s.reg .d32 r
      (¬(v.getLsbD 31 = true ∧ v.getLsbD 0 = false) → exec (.movToCr 0 r) s = .next (finish s .next
        (({ s.begun with cr0 := v &&& 0x8000001F, mswFresh := false } : State).freed allStatus))) ∧
      (v.getLsbD 31 = true → v.getLsbD 0 = false →
        exec (.movToCr 0 r) s = .next (abandon s (faultOf 13 (some 0)) s.begun)) ∧
      exec (.movToCr 2 r) s = .next (finish s .next (({ s.begun with cr2 := v } : State).freed allStatus)) ∧
      exec (.movToCr 3 r) s = .next (finish s .next
        (({ s.begun with cr3 := v &&& 0xFFFFF000 } : State).flushTlb.freed allStatus))) ∧
     (let u := ({ s.begun with free := s.free + 1 } : State)
      let x := Config.freeBits s.free
      exec (.movFromCr 0 r) s = .next (finish s .next
        ((u.setReg .d32 r ((s.cr0 &&& 0x8000001F) ||| (x &&& 0x7FFFFFE0))).freed allStatus)) ∧
      exec (.movFromCr 2 r) s = .next (finish s .next ((s.begun.setReg .d32 r s.cr2).freed allStatus)) ∧
      exec (.movFromCr 3 r) s = .next (finish s .next
        ((u.setReg .d32 r ((s.cr3 &&& 0xFFFFF000) ||| (x &&& 0x00000FFF))).freed allStatus)))) ∧
  ∀ (s : State) (r : Reg) (n : BitVec 3), s.pe = false ∨ s.cpl = 0 → n ≠ 0 → n ≠ 2 → n ≠ 3 →
    exec (.movToCr n r) s = .next (abandon s (faultOf 6 none) s.begun) ∧
    exec (.movFromCr n r) s = .next (abandon s (faultOf 6 none) s.begun)

/-- R772, R902, R903, R906, R908: MOV to and from the debug registers at CPL 0; the reserved bits of DR6 and DR7 are not written
and read as free values; DR4 and DR5 are #UD; the six status flags are free (log 7). An access of `n` bytes gathers the bit of
each breakpoint whose R/W field is 11, or 01 where it writes, and whose watched field of 1, 2 or 4 bytes, aligned to its length,
has a byte in common with it; a debug trap is due for a gathered bit whose breakpoint is enabled, and for BS and BT. That
LEN = 10 and R/W = 10, which the spec leaves undefined, never match is the model's choice (log 16, decision D68 of R903). -/
def Obligations.DebugRegisters : Prop :=
  (∀ (s : State) (sr : SReg) (off : Dword) (n : Nat) (w : Bool),
    let hit := fun k : Nat =>
      let rw := s.dr7.extractLsb' (16 + 4 * k) 2
      let len := match (s.dr7.extractLsb' (18 + 4 * k) 2).toNat with
        | 0 => 1 | 1 => 2 | 3 => 4 | _ => 0
      (rw = 3 ∨ (rw = 1 ∧ w = true)) ∧ len ≠ 0 ∧
        ∃ i < n, ((s.sreg sr).base + off + BitVec.ofNat 32 i).toNat / len = (s.dr k).toNat / len
    s.noted sr off n w = { s with pend := (s.noted sr off n w).pend } ∧
    (∀ k < 32, (s.noted sr off n w).pend.getLsbD k = true ↔ s.pend.getLsbD k = true ∨ (k < 4 ∧ hit k)) ∧
    (s.due = true ↔ s.pend.getLsbD 14 = true ∨ s.pend.getLsbD 15 = true ∨
      ∃ k < 4, s.pend.getLsbD k = true ∧ (s.dr7.getLsbD (2 * k) = true ∨ s.dr7.getLsbD (2 * k + 1) = true))) ∧
  ∀ (s : State) (r : Reg), s.pe = false ∨ s.cpl = 0 →
    (let v := s.reg .d32 r
     exec (.movToDr 0 r) s = .next (finish s .next (({ s.begun with dr0 := v } : State).freed allStatus)) ∧
     exec (.movToDr 1 r) s = .next (finish s .next (({ s.begun with dr1 := v } : State).freed allStatus)) ∧
     exec (.movToDr 2 r) s = .next (finish s .next (({ s.begun with dr2 := v } : State).freed allStatus)) ∧
     exec (.movToDr 3 r) s = .next (finish s .next (({ s.begun with dr3 := v } : State).freed allStatus)) ∧
     exec (.movToDr 6 r) s = .next (finish s .next (({ s.begun with dr6 := v &&& dr6Mask } : State).freed allStatus)) ∧
     exec (.movToDr 7 r) s = .next (finish s .next (({ s.begun with dr7 := v &&& dr7Mask } : State).freed allStatus))) ∧
    ∀ n : BitVec 3, (n.toNat < 4 → exec (.movFromDr n r) s =
        .next (finish s .next ((s.begun.setReg .d32 r (s.dr n.toNat)).freed allStatus))) ∧
      (n = 6 ∨ n = 7 → exec (.movFromDr n r) s = .next (finish s .next
        ((({ s.begun with free := s.free + 1 } : State).setReg .d32 r
          (if n = 6 then (s.dr6 &&& dr6Mask) ||| (Config.freeBits s.free &&& ~~~dr6Mask)
           else (s.dr7 &&& dr7Mask) ||| (Config.freeBits s.free &&& ~~~dr7Mask))).freed allStatus))) ∧
      (n = 4 ∨ n = 5 → exec (.movToDr n r) s = .next (abandon s (faultOf 6 none) s.begun) ∧
        exec (.movFromDr n r) s = .next (abandon s (faultOf 6 none) s.begun))

/-- R255, R256, R774: MOV to and from TR6 and TR7 at CPL 0. TR7 is stored. TR6 is stored; with C = 0 and HT = 1 in TR7 it
writes the TLB entry that its fields, its pairs and REP name; with C = 1 it looks the page up, and a hit sets HT, REP and the
frame in TR7. The other numbers are #UD; the six status flags are free (log 7). That the undefined bits of TR6 and TR7 are
stored and read back as they were written is the model's choice (log 48). -/
def Obligations.TestRegisterMoves : Prop :=
  ∀ (s : State) (r : Reg), s.pe = false ∨ s.cpl = 0 →
    exec (.movFromTr 6 r) s = .next (finish s .next ((s.begun.setReg .d32 r s.tr6).freed allStatus)) ∧
    exec (.movFromTr 7 r) s = .next (finish s .next ((s.begun.setReg .d32 r s.tr7).freed allStatus)) ∧
    (let v := s.reg .d32 r
     exec (.movToTr 7 r) s = .next (finish s .next (({ s.begun with tr7 := v } : State).freed allStatus)) ∧
     (v.getLsbD 0 = false → s.tr7.getLsbD 4 = true → v.getLsbD 10 ≠ v.getLsbD 9 → v.getLsbD 8 ≠ v.getLsbD 7 →
       v.getLsbD 6 ≠ v.getLsbD 5 →
       ∀ e : TlbEntry, e = { lin := v.extractLsb' 12 20, v := v.getLsbD 11, d := v.getLsbD 10, u := v.getLsbD 8,
                             w := v.getLsbD 6, phys := s.tr7.extractLsb' 12 20 } →
       exec (.movToTr 6 r) s = .next (finish s .next
         (({ s.begun with tr6 := v, tlb := s.tlb.set (tlbIndex v (s.tr7.extractLsb' 2 2).toNat) e } : State).freed
           allStatus))) ∧
     (v.getLsbD 0 = true → v.getLsbD 11 = true → v.getLsbD 10 ≠ v.getLsbD 9 → v.getLsbD 8 ≠ v.getLsbD 7 →
       v.getLsbD 6 ≠ v.getLsbD 5 → ∀ b < 4,
       (∀ k < 4, (let e := s.tlbEntry (tlbIndex v k)
         e.lin = v.extractLsb' 12 20 ∧ e.v = true ∧ e.d = v.getLsbD 10 ∧ e.u = v.getLsbD 8 ∧ e.w = v.getLsbD 6) ↔ k = b) →
       exec (.movToTr 6 r) s = .next (finish s .next (({ s.begun with
         tr6 := v
         tr7 := (s.tr7 &&& 0x00000FE3) ||| 0x10 ||| (BitVec.ofNat 32 b <<< 2) |||
           ((s.tlbEntry (tlbIndex v b)).phys.setWidth 32 <<< 12) } : State).freed allStatus))) ∧
     (∀ t, (if v.getLsbD 0 then tlbLookup v else tlbWrite v) { s.begun with tr6 := v } = .ok () t →
       exec (.movToTr 6 r) s = .next (finish s .next (t.freed allStatus)))) ∧
    ∀ n : BitVec 3, n ≠ 6 → n ≠ 7 → exec (.movToTr n r) s = .next (abandon s (faultOf 6 none) s.begun) ∧
      exec (.movFromTr n r) s = .next (abandon s (faultOf 6 none) s.begun)

/-- R167, R740, R745, R764: at a CPL other than 0, in protected or V86 mode, the privileged instructions raise #GP(0) and do
nothing; the instructions of protected mode only raise #UD in real-address and V86 mode. -/
def Obligations.PrivilegedInstructions : Prop :=
  (∀ (s : State), s.pe = true → s.cpl ≠ 0 → ∀ (w : Width) (m : MemRef) (rm : Rm) (n : BitVec 3) (r : Reg),
     ∀ i ∈ ([.hlt, .clts, .lgdt w m, .lidt w m, .lmsw rm, .movToCr n r, .movFromCr n r, .movToDr n r, .movFromDr n r,
         .movToTr n r, .movFromTr n r] : List Instr),
       exec i s = .next (abandon s (faultOf 13 (some 0)) s.begun)) ∧
  ∀ (s : State) (w : Width) (r : Reg) (rm : Rm),
    (s.prot = true → s.cpl ≠ 0 → exec (.lldt rm) s = .next (abandon s (faultOf 13 (some 0)) s.begun) ∧
      exec (.ltr rm) s = .next (abandon s (faultOf 13 (some 0)) s.begun)) ∧
    (s.prot = false → ∀ i ∈ ([.lldt rm, .sldt rm, .ltr rm, .str rm, .lar w r rm, .lsl w r rm, .verr rm, .verw rm,
        .arpl rm r] : List Instr), exec i s = .next (abandon s (faultOf 6 none) s.begun))

/-! ### Changes of privilege level -/

/-- R821, R822, R824, R826, R828: an interrupt or trap gate to a nonconforming code segment of an inner level switches to the
stack that the current TSS names for that level, pushes SS, ESP, EFLAGS, CS, the return offset and the error code, if any, there
at supervisor privilege, and loads CS, EIP and the CPL. From V86 mode, where an inner stack in an 80286 TSS is the model's choice
(log 25), the gate must have 32 bits and lead to level 0: VM is cleared, GS, FS, DS and ES are pushed first, and made null. The
padding of a selector or an error code pushed as a doubleword is a free value (log 29). The inner stack, for CALL too (R607): eSP
and SS of level `n` are at 4 + 8n and 8 + 8n of an 80386 TSS and at 2 + 4n and 4 + 4n of an 80286 TSS (the layout is general
knowledge: PRESUMED, log 25); #TS with the TSS selector where they lie beyond its limit; a null SS is #TS(EXT), one that is
refused #TS, or #SS where it is not present, with its selector and EXT; a stack without room for the frame is #SS(0). That the
pages of the whole frame are checked as a write before the other checks and the first push (`newStackRoom`) is the model's choice
(log 30). From V86 mode a gate of 16 bits, or one to conforming code or to another level than 0, is #GP with the code selector and
EXT. -/
def Obligations.DeliveryInner : Prop :=
  (∀ (s : State) (ext : Bool) (n : BitVec 2),
    let last := if s.tr.is386 then 9 + 8 * n.toNat else 5 + 4 * n.toNat
    (s.tr.limit.toNat < last →
      innerStackSeg ext n s = .error (faultOf 10 (some (selCode ext s.tr.sel))) s) ∧
    ∀ (sp : Dword) (sel : Word) (t u : State), last ≤ s.tr.limit.toNat →
      (if s.tr.is386 then SysGet s (s.tr.base + BitVec.ofNat 32 (4 + 8 * n.toNat)) 4 sp.toNat t ∧
          SysGet t (s.tr.base + BitVec.ofNat 32 (8 + 8 * n.toNat)) 2 sel.toNat u
        else SysGet s (s.tr.base + BitVec.ofNat 32 (2 + 4 * n.toNat)) 2 sp.toNat t ∧
          SysGet t (s.tr.base + BitVec.ofNat 32 (4 + 4 * n.toNat)) 2 sel.toNat u ∧ sp.toNat < 65536) →
      (nullSel sel = true → innerStackSeg ext n s = .error (faultOf 10 (some (if ext then 1 else 0))) u) ∧
      (∀ x v, nullSel sel = false → Refused u sel 10 ext (fun d => d.stackFaults 10 n sel) x v →
        innerStackSeg ext n s = .error x v) ∧
      ∀ d v, nullSel sel = false → fetchDesc sel u = .ok (some d) v → firstFault (d.stackFaults 10 n sel) = none →
        innerStackSeg ext n s = .ok (sel, d, sp) v) ∧
  (∀ (s : State) (sel : Word) (d : Desc) (sp : Dword) (need : Nat),
    let off := cut d.db (cut d.db sp - BitVec.ofNat 32 need)
    let ok := inLimit (d.toSeg sel) off need = true ∧ (d.db = true ∨ off.toNat + need ≤ 65536)
    (¬ok → newStackRoom sel d sp need s = .error (faultOf 12 (some 0)) s) ∧
    (∀ pas t, ok → translateAll true false (span (d.base + off) need) s = .ok pas t →
      newStackRoom sel d sp need s = .ok () t) ∧
    ∀ t, setAccessed sel d s = .ok () t →
      let u : State := { t with ss := d.toSeg sel }
      switchStack sel d sp s = .ok ()
        (if t.tr.is386 = true ∨ d.db = true then u.setReg .d32 .esp sp else u.setReg .w16 .esp (sp.setWidth 16))) ∧
  (∀ (s : State) (e : Event) (g c : Desc) (t u : State), s.pe = true →
    e.vec.toNat * 8 + 7 ≤ s.idtr.limit.toNat →
    readDesc (s.idtr.base + (e.vec.setWidth 32 <<< 3)) s = .ok g t →
    firstFault (g.idtFaults (e.kind == .soft) s.cpl) = none → g.typ ≠ 5 →
    nullSel g.gateSel = false → fetchDesc g.gateSel t = .ok (some c) u → firstFault (c.gateFaults s.cpl) = none →
    let is32 := g.typ.getLsbD 3
    let code := faultOf 13 (some (selCode e.kind.ext g.gateSel))
    (s.flag .vm = true →
      (c.conforming = true ∨ c.dpl ≠ 0 ∨ is32 = false → deliver e s = .error code u) ∧
      (c.conforming = false → c.dpl = 0 → is32 = true → ∀ x v, innerStackSeg e.kind.ext 0 u = .error x v →
        deliver e s = .error x v)) ∧
    (s.flag .vm = false → c.conforming = false → c.dpl < s.cpl →
      (∀ x v, innerStackSeg e.kind.ext c.dpl u = .error x v → deliver e s = .error x v) ∧
      ∀ ssel sd sp v x y, innerStackSeg e.kind.ext c.dpl u = .ok (ssel, sd, sp) v →
        newStackRoom ssel sd sp (e.frame (sizeW is32) 5) v = .error x y → deliver e s = .error x y)) ∧
  (∀ (s : State) (e : Event) (g c sd : Desc) (ssel : Word) (sp : Dword) (t u x₁ x₂ x₃ z v : State), s.v86 = true →
    e.vec.toNat * 8 + 7 ≤ s.idtr.limit.toNat →
    readDesc (s.idtr.base + (e.vec.setWidth 32 <<< 3)) s = .ok g t →
    g.s = false → (g.typ = 14 ∨ g.typ = 15) → (e.kind = .soft → s.cpl ≤ g.dpl) → g.p = true →
    nullSel g.gateSel = false → fetchDesc g.gateSel t = .ok (some c) u → c.isCode = true → c.p = true →
    c.conforming = false → c.dpl = 0 →
    let off := g.gateOffset true
    innerStackSeg e.kind.ext 0 u = .ok (ssel, sd, sp) x₁ →
    newStackRoom ssel sd sp (e.frame .d32 9) x₁ = .ok () x₂ → inLimit (c.toSeg g.gateSel) off 1 = true →
    switchStack ssel sd sp { x₂.setFlag .vm false with cpl := 0 } = .ok () x₃ →
    Items false .d32 x₃ ([.sel s.gs.sel, .sel s.fs.sel, .sel s.ds.sel, .sel s.es.sel, .sel s.ss.sel, .val s.regs.esp] ++
      ([.val (e.image s), .sel s.cs.sel, .val e.ret] ++ (e.code.map Item.sel).toList)) z →
    setAccessed g.gateSel c { z with ds := z.ds.null 0, es := z.es.null 0, fs := z.fs.null 0, gs := z.gs.null 0 } = .ok () v →
    deliver e s = .ok () ((v.inCode g.gateSel c 0 off).afterGate (!g.typ.getLsbD 0))) ∧
  ∀ (s : State) (e : Event) (g c sd : Desc) (ssel : Word) (sp : Dword) (t u x₁ x₂ x₃ z v : State), s.prot = true →
    e.vec.toNat * 8 + 7 ≤ s.idtr.limit.toNat →
    readDesc (s.idtr.base + (e.vec.setWidth 32 <<< 3)) s = .ok g t →
    g.s = false → (g.typ = 6 ∨ g.typ = 7 ∨ g.typ = 14 ∨ g.typ = 15) → (e.kind = .soft → s.cpl ≤ g.dpl) → g.p = true →
    nullSel g.gateSel = false → fetchDesc g.gateSel t = .ok (some c) u → c.isCode = true → c.p = true →
    c.conforming = false → c.dpl < s.cpl →
    let is32 := g.typ.getLsbD 3
    let w := sizeW is32
    let off := g.gateOffset is32
    innerStackSeg e.kind.ext c.dpl u = .ok (ssel, sd, sp) x₁ →
    newStackRoom ssel sd sp (e.frame w 5) x₁ = .ok () x₂ → inLimit (c.toSeg g.gateSel) off 1 = true →
    switchStack ssel sd sp x₂ = .ok () x₃ →
    Items false w { x₃ with cpl := c.dpl } ([.sel s.ss.sel, .val s.regs.esp] ++
      ([.val (e.image s), .sel s.cs.sel, .val e.ret] ++ (e.code.map Item.sel).toList)) z →
    setAccessed g.gateSel c z = .ok () v →
    deliver e s = .ok () ((v.inCode g.gateSel c c.dpl off).afterGate (!g.typ.getLsbD 0))

/-- R607, R613, R643: CALL through a call gate to a nonconforming code segment of an inner level switches to the stack that the
current TSS names for that level and pushes SS, ESP, the parameters copied from the old stack, CS and EIP_next there (the padding
of a selector pushed as a doubleword is a free value, log 29); far RET and IRET to an outer level load CS, EIP, SS, eSP and the
CPL from the stack, IRET EFLAGS too (`stayMask`: see `InterruptReturn`), and empty the data segment registers that the outer level
may not use. The parameters are the items that lie from eSP of the old stack on, the one at eSP pushed last. What the inner stack
is, and its faults: see `DeliveryInner`, also for what of it is the model's (logs 25, 30). A frame that runs beyond the limit or
wraps raises #SS(0), a null code or stack selector #GP(0), a code or stack segment that is refused #GP, #NP or #SS with its
selector. Of an EIP above FFFFH in a 16-bit code segment `finish` leaves the low 16 bits (`EndOfInstruction`; log 24). -/
def Obligations.FarTransferAcrossLevels : Prop :=
  (∀ (s t : State) (w : Width) (n : Nat) (ps : List (BitVec w.bits)),
    StackItems w s ((List.range n).map fun k => k * w.bytes) ps t → readParams w 0 n s = .ok ps t) ∧
  (∀ (s : State) (f : FarForm) (w : Width) (sel : Word) (off : Dword) (t u v : State) (g c : Desc), s.prot = true →
    FarIs s.begun f w sel off t → nullSel sel = false → fetchDesc sel t = .ok (some g) u → g.isCallGate = true →
    s.cpl ≤ g.dpl → selRpl sel ≤ g.dpl → g.p = true →
    nullSel g.gateSel = false → fetchDesc g.gateSel u = .ok (some c) v → c.isCode = true → c.p = true →
    c.conforming = false → c.dpl < s.cpl →
    (∀ x y, innerStackSeg false c.dpl v = .error x y → exec (.callFar f) s = .next (abandon s x y)) ∧
    ∀ ssel sd sp x y z, innerStackSeg false c.dpl v = .ok (ssel, sd, sp) z →
      newStackRoom ssel sd sp ((g.gateCount + 4) * (sizeW (g.typ.getLsbD 3)).bytes) z = .error x y →
      exec (.callFar f) s = .next (abandon s x y)) ∧
  (∀ (s : State) (i : Instr) (w : Width) (fl' : Dword) (rs : Word) (t₀ t : State) (frame sp : Nat), s.prot = true →
    ((i = .iret ∧ w = .w16 ∨ i = .iretd ∧ w = .d32) ∧ s.flag .nt = false ∧ frame = 5 * w.bytes ∧ sp = 3 * w.bytes ∧
      (if w = .d32 ∧ s.cpl = 0 then StackItem { s.begun with nmiMask := false } 8 .d32 fl' t₀ ∧ fl'.getLsbD 17 = false
       else t₀ = { s.begun with nmiMask := false }) ∨
     (∃ n, i = .retFar w n ∧ frame = 4 * w.bytes + (retCount n).toNat ∧ sp = 2 * w.bytes + (retCount n).toNat) ∧
      t₀ = s.begun) →
    StackItem t₀ w.bytes .w16 rs t →
    let cpl := selRpl rs
    s.cpl < cpl →
    (t.topOk frame = false → (t.ss.valid = true → t.ss.readable = true) →
      exec i s = .next (abandon s (faultOf 12 (some 0)) t)) ∧
    (t.topOk frame = true →
      (nullSel rs = true → exec i s = .next (abandon s (faultOf 13 (some 0)) t)) ∧
      (∀ x u, nullSel rs = false → Refused t rs 13 false (fun c => c.codeFaults 13 cpl) x u →
        exec i s = .next (abandon s x u)) ∧
      ∀ (d : Desc) (nsp : BitVec w.bits) (nss : Word) (t₁ t₂ t₃ : State), nullSel rs = false →
        fetchDesc rs t = .ok (some d) t₁ → d.returnOk cpl → StackItem t₁ sp w nsp t₂ →
        StackItem t₂ (sp + w.bytes) .w16 nss t₃ →
        (nullSel nss = true → exec i s = .next (abandon s (faultOf 13 (some 0)) t₃)) ∧
        ∀ x u, nullSel nss = false → Refused t₃ nss 13 false (fun d => d.stackFaults 13 cpl nss) x u →
          exec i s = .next (abandon s x u))) ∧
  (∀ (s : State) (i : Instr) (w : Width) (fl' : Dword) (rs nss : Word) (off fl nsp : BitVec w.bits) (d sd : Desc)
    (t₀ t t₁ t₂ t₃ t₄ t₅ t₆ t₇ t₈ : State), (i = .iret ∧ w = .w16) ∨ (i = .iretd ∧ w = .d32) →
    s.prot = true → s.flag .nt = false →
    (if w = .d32 ∧ s.cpl = 0 then StackItem { s.begun with nmiMask := false } 8 .d32 fl' t₀ ∧ fl'.getLsbD 17 = false
     else t₀ = { s.begun with nmiMask := false }) →
    StackItem t₀ w.bytes .w16 rs t →
    let cpl := selRpl rs
    s.cpl < cpl → nullSel rs = false → t.topOk (5 * w.bytes) = true →
    fetchDesc rs t = .ok (some d) t₁ → d.returnOk cpl →
    StackItem t₁ (3 * w.bytes) w nsp t₂ → StackItem t₂ (4 * w.bytes) .w16 nss t₃ →
    nullSel nss = false → fetchDesc nss t₃ = .ok (some sd) t₄ → selRpl nss = cpl → sd.writableData = true → sd.dpl = cpl →
    sd.p = true → StackItem t₄ 0 w off t₅ → inLimit (d.toSeg rs) (off.setWidth 32) 1 = true →
    StackItem t₅ (2 * w.bytes) w fl t₆ → setAccessed rs d t₆ = .ok () t₇ →
    setAccessed nss sd { t₇.inCode rs d cpl (off.setWidth 32) with
      eflags := (t₇.eflags &&& ~~~s.stayMask w) ||| (fl.setWidth 32 &&& s.stayMask w) } = .ok () t₈ →
    exec i s = .next (finish s .wentKeepRf
      (let y : State := { t₈ with ss := sd.toSeg nss }
       (if w = .d32 then y.setReg .d32 .esp (nsp.setWidth 32) else y.setReg .w16 .esp (nsp.setWidth 16)).invalidateDataSegs
         cpl))) ∧
  (∀ (s : State) (f : FarForm) (w₀ : Width) (sel : Word) (off₀ : Dword) (t u u' : State) (g c sd : Desc) (ssel : Word)
    (sp : Dword), s.prot = true →
    FarIs s.begun f w₀ sel off₀ t → nullSel sel = false → fetchDesc sel t = .ok (some g) u → g.isCallGate = true →
    s.cpl ≤ g.dpl → selRpl sel ≤ g.dpl → g.p = true →
    nullSel g.gateSel = false → fetchDesc g.gateSel u = .ok (some c) u' → c.isCode = true → c.p = true →
    c.conforming = false → c.dpl < s.cpl →
    let is32 := g.typ.getLsbD 3
    let w := sizeW is32
    let off := g.gateOffset is32
    inLimit (c.toSeg g.gateSel) off 1 = true →
    ∀ (ps : List (BitVec w.bits)) (x₁ x₂ x₃ x₄ z v : State),
      innerStackSeg false c.dpl u' = .ok (ssel, sd, sp) x₁ →
      newStackRoom ssel sd sp ((g.gateCount + 4) * w.bytes) x₁ = .ok () x₂ →
      readParams w 0 g.gateCount x₂ = .ok ps x₃ → switchStack ssel sd sp x₃ = .ok () x₄ →
      Items false w { x₄ with cpl := c.dpl } ([.sel s.ss.sel, .val s.regs.esp] ++
        (ps.reverse.map fun p => .val (p.setWidth 32)) ++ [.sel s.cs.sel, .val s.nextEip]) z →
      setAccessed g.gateSel c z = .ok () v →
      exec (.callFar f) s = .next (finish s .went (v.inCode g.gateSel c c.dpl off))) ∧
  ∀ (s : State) (w : Width) (n : Option Word) (rs nss : Word) (off nsp : BitVec w.bits) (d sd : Desc)
    (t t₁ t₂ t₃ t₄ t₅ t₆ t₇ : State), s.prot = true →
    let imm := retCount n
    let cpl := selRpl rs
    StackItem s.begun w.bytes .w16 rs t → s.cpl < cpl → nullSel rs = false →
    t.topOk (4 * w.bytes + imm.toNat) = true →
    fetchDesc rs t = .ok (some d) t₁ → d.returnOk cpl →
    StackItem t₁ (2 * w.bytes + imm.toNat) w nsp t₂ → StackItem t₂ (3 * w.bytes + imm.toNat) .w16 nss t₃ →
    nullSel nss = false → fetchDesc nss t₃ = .ok (some sd) t₄ → selRpl nss = cpl → sd.writableData = true → sd.dpl = cpl →
    sd.p = true → StackItem t₄ 0 w off t₅ → inLimit (d.toSeg rs) (off.setWidth 32) 1 = true →
    setAccessed rs d t₅ = .ok () t₆ → setAccessed nss sd (t₆.inCode rs d cpl (off.setWidth 32)) = .ok () t₇ →
    exec (.retFar w n) s = .next (finish s .went
      (let y : State := { t₇ with ss := sd.toSeg nss }
       let newSp := nsp.setWidth 32 + imm
       (if w = .d32 then y.setReg .d32 .esp newSp else y.setReg .w16 .esp (newSp.setWidth 16)).invalidateDataSegs cpl))

/-- R268, R270 to R273, R276, R281, R604, R608, R645, R825: the task switch. It goes out of a task: EIP, EFLAGS (with NT = 0 for
an IRET), the general registers and the selectors are stored in the current TSS; a JMP or IRET clears the busy bit of its
descriptor, and all but IRET set that of the new one; TR takes the new TSS, TS is set, and a CALL or an interrupt writes the old
selector into the back link, with a zero high word in an 80386 TSS (R261; log 59). It goes into the other: CR3 (under paging, from
an 80386 TSS, with the TLB emptied), then EIP, EFLAGS (NT = 0 for a JMP, 1 for a CALL or an interrupt), the general registers and
the selectors come from the new TSS, CPL from its CS or as 3 in V86 mode; LDTR and segment registers are checked and loaded in
turn; the local breakpoint enables are cleared and the T bit makes a debug trap due. The model's choices: that all is translated
before the first store (`precheckTask`, log 35), the order of stores and reads (log 28), that the busy bit is set without reading
its byte again (log 60), that one beyond GDTR.limit is left and the switch goes on (log 53), the 80286 TSS's layout (log 25), the
page checks of an error code at the new CPL (log 43). Such a switch is made by JMP and CALL to a TSS descriptor of the GDT or
through a task gate, by an interrupt or exception through a task gate, whose error code is pushed on the new stack, and by IRET
with NT = 1 along the back link; the new EIP must lie within the new CS limit. Refused: a TSS selector that is null, of the LDT,
beyond the limit, of another type or busy (for IRET: not busy) raises #GP from JMP and CALL and #TS from interrupts and IRET, #NP
where it is not present, a limit below 67H (80286: 2BH) #TS, in the old task; but the T-bit trap whose handler's TSS is the
current one, so busy, is #GP (R917, D71; log 57), and the error code of a null one is 0 (log 38). LDTR, CS, SS and the data
segments of the new task raise #TS, #NP or #SS in the new task (`TaskRefused`). -/
def Obligations.TaskSwitch : Prop :=
  (∀ (s : State) (k : SwitchKind) (ext : Bool) (tss : Word) (new : Desc) (eip image : Dword) (x₀ x₁ x₂ x₃ x₄ t : State),
    (if new.tss32 then 103 else 43) ≤ new.limit.toNat → precheckTask k tss new s = .ok () x₀ →
    TaskSaved x₀ eip (if k = .iret then image &&& 0xFFFFBFFF else image) x₁ →
    (if k = .jmp ∨ k = .iret then BusyCleared x₁ s.tr.sel x₂ else x₂ = x₁) →
    (if k = .iret then x₃ = x₂
     else ∃ addr, x₂.descAddr tss = some addr ∧ SysPut x₂ (addr + 5) 1 (new.d1.extractLsb' 8 8 ||| 2).toNat x₃) →
    x₄ = { x₃ with tr := { sel := tss, base := new.base, limit := new.limit, is386 := new.tss32 }, cr0 := x₃.cr0 ||| 8 } →
    (if k = .call ∨ k = .int then SysPut x₄ new.base (if new.tss32 then 4 else 2) s.tr.sel.toNat t else t = x₄) →
    switchOut k ext tss new eip image s = .ok () t) ∧
  (∀ (s : State) (k : SwitchKind) (ext : Bool) (new : Desc) (i : TssImage) (x₀ x₁ x₂ x₃ x₄ : State), s.pe = true →
    (if new.tss32 = true ∧ s.pg = true then ∃ v x, SysGet s (new.base + 0x1C) 4 v x ∧
        x₀ = { x with cr3 := BitVec.ofNat 32 v &&& 0xFFFFF000, tlb := x.tlb.map fun e => { e with v := false } }
     else x₀ = s) →
    TssIs x₀ new i x₁ →
    (let fl := (i.eflags &&& 0x00037FD5) ||| 2
     x₂ = { x₁ with
      eip := i.eip
      eflags := (match k with
        | .jmp => fl &&& 0xFFFFBFFF
        | .call | .int => fl ||| 0x00004000
        | .iret => fl)
      regs := i.regs
      ldtr := { x₁.ldtr with sel := i.ldt, valid := false }
      es := { x₁.es with sel := i.es, valid := false }
      cs := { x₁.cs with sel := i.cs, valid := false }
      ss := { x₁.ss with sel := i.ss, valid := false }
      ds := { x₁.ds with sel := i.ds, valid := false }
      fs := { x₁.fs with sel := i.fs, valid := false }
      gs := { x₁.gs with sel := i.gs, valid := false }
      cpl := if i.eflags.getLsbD 17 then 3 else selRpl i.cs }) →
    LdtLoad x₂ i.ldt x₃ → TaskSegs x₃ i x₄ →
    switchIn k ext new s = .ok ()
      { x₄ with dr7 := x₄.dr7 &&& 0xFFFFFEAA, pend := if i.trap then x₄.pend ||| 0x00008000 else x₄.pend }) ∧
  (∀ (s t u : State) (k : SwitchKind) (ext : Bool) (tss : Word) (new : Desc) (eip image : Dword),
    switchOut k ext tss new eip image s = .ok () t → switchIn k ext new t = .ok () u →
    switchTasks k ext tss new eip image s = .ok () u) ∧
  (∀ (s : State) (k : SwitchKind) (ext : Bool) (tss : Word) (new : Desc) (eip image : Dword),
    new.limit.toNat < (if new.tss32 then 103 else 43) →
    switchTasks k ext tss new eip image s = .error (faultOf 10 (some (selCode ext tss))) s) ∧
  (∀ (s : State) (k : SwitchKind) (ext : Bool) (tss : Word) (new : Desc) (eip image : Dword) (i : TssImage)
    (x₀ x₁ x₂ u : State) (x : Exc), x₀.pe = true → switchOut k ext tss new eip image s = .ok () x₀ →
    loadTables new x₀ = .ok () x₁ → TssIs x₁ new i x₂ → TaskRefused (x₂.loadImage k i) ext i x u →
    switchTasks k ext tss new eip image s = .error { x with committed := true } u) ∧
  (∀ (s : State) (vec busy : Byte) (ext : Bool) (tss : Word),
    (nullSel tss = true → gateTaskDesc vec busy ext tss s = .error (faultOf vec (some 0)) s) ∧
    (nullSel tss = false → selTi tss = true →
      gateTaskDesc vec busy ext tss s = .error (faultOf vec (some (selCode ext tss))) s) ∧
    ∀ x t, nullSel tss = false → selTi tss = false →
      Refused s tss vec ext (fun d => [(d.busyTss, busy), (!d.availTss, vec), (!d.p, 11)]) x t →
      gateTaskDesc vec busy ext tss s = .error x t) ∧
  (∀ (s : State) (f : FarForm) (w : Width) (sel : Word) (off : Dword) (d : Desc) (t u v : State) (x : Exc), s.prot = true →
    FarIs s.begun f w sel off t → nullSel sel = false → fetchDesc sel t = .ok (some d) u →
    s.cpl ≤ d.dpl → selRpl sel ≤ d.dpl → d.p = true → d.isTaskGate = true →
    gateTaskDesc 13 13 false d.gateSel u = .error x v →
    exec (.jmpFar f) s = .next (abandon s x v) ∧ exec (.callFar f) s = .next (abandon s x v)) ∧
  (∀ (s : State) (e : Event) (g : Desc) (t u : State) (x : Exc), s.pe = true → e.vec.toNat * 8 + 7 ≤ s.idtr.limit.toNat →
    readDesc (s.idtr.base + (e.vec.setWidth 32 <<< 3)) s = .ok g t →
    firstFault (g.idtFaults (e.kind == .soft) s.cpl) = none → g.typ = 5 →
    gateTaskDesc 10 (if e.taskTrap = true ∧ g.gateSel.toNat / 4 = t.tr.sel.toNat / 4 then 13 else 10) e.kind.ext
      g.gateSel t = .error x u →
    deliver e s = .error x u) ∧
  (∀ (s : State) (i : Instr) (tss : Word) (t : State), i = .iret ∨ i = .iretd → s.prot = true → s.flag .nt = true →
    SysGet { s.begun with nmiMask := false } s.tr.base 2 tss.toNat t →
    (nullSel tss = true → exec i s = .next (abandon s (faultOf 10 (some 0)) t)) ∧
    (nullSel tss = false → selTi tss = true →
      exec i s = .next (abandon s (faultOf 10 (some (selCode false tss))) t)) ∧
    ∀ x u, nullSel tss = false → selTi tss = false →
      Refused t tss 10 false (fun d => [(!d.busyTss, 10), (!d.p, 11)]) x u → exec i s = .next (abandon s x u)) ∧
  (∀ (s : State) (f : FarForm) (w : Width) (sel tss : Word) (off : Dword) (d new : Desc) (t u u' v : State), s.prot = true →
    FarIs s.begun f w sel off t → nullSel sel = false → fetchDesc sel t = .ok (some d) u →
    s.cpl ≤ d.dpl → selRpl sel ≤ d.dpl → d.p = true →
    ((selTi sel = false ∧ d.availTss = true ∧ tss = sel ∧ new = d ∧ u' = u) ∨
      (d.isTaskGate = true ∧ tss = d.gateSel ∧ nullSel tss = false ∧ selTi tss = false ∧
        fetchDesc tss u = .ok (some new) u' ∧ new.availTss = true ∧ new.p = true)) →
    inLimit v.cs v.eip 1 = true →
    (switchTasks .jmp false tss new s.nextEip s.eflags u' = .ok () v →
      exec (.jmpFar f) s = .next (finish s .wentKeepRf v)) ∧
    (switchTasks .call false tss new s.nextEip s.eflags u' = .ok () v →
      exec (.callFar f) s = .next (finish s .wentKeepRf v))) ∧
  (∀ (s : State) (e : Event) (g new : Desc) (t u v z : State), s.pe = true → e.vec.toNat * 8 + 7 ≤ s.idtr.limit.toNat →
    readDesc (s.idtr.base + (e.vec.setWidth 32 <<< 3)) s = .ok g t → g.s = false → g.typ = 5 →
    (e.kind = .soft → s.cpl ≤ g.dpl) → g.p = true → nullSel g.gateSel = false → selTi g.gateSel = false →
    fetchDesc g.gateSel t = .ok (some new) u → new.availTss = true → new.p = true →
    switchTasks .int e.kind.ext g.gateSel new e.ret (e.image s) u = .ok () v →
    Items v.user (sizeW new.tss32) v (e.code.map Item.sel).toList z → inLimit z.cs z.eip 1 = true →
    deliver e s = .ok () z) ∧
  ∀ (s : State) (i : Instr) (link : Nat) (new : Desc) (t u v : State), i = .iret ∨ i = .iretd → s.prot = true →
    s.flag .nt = true → SysGet { s.begun with nmiMask := false } s.tr.base 2 link t →
    let tss := BitVec.ofNat 16 link
    nullSel tss = false → selTi tss = false → fetchDesc tss t = .ok (some new) u → new.busyTss = true → new.p = true →
    switchTasks .iret false tss new s.nextEip s.eflags u = .ok () v → inLimit v.cs v.eip 1 = true →
    exec i s = .next (finish s .wentKeepRf v)

/-! ### Registers, memory and translation -/

/-- R10, R11, R16: a write of register `r` at width `w` changes exactly the bits that name covers, of one 32-bit register; a
read gives them; byte names 4 to 7 are the second bytes of EAX to EBX; a flag written changes that bit of EFLAGS only. -/
def Obligations.RegisterReadWrite : Prop :=
  ([.eax, .ecx, .edx, .ebx, .esp, .ebp, .esi, .edi].map fun q : Reg => (byteHome q, byteLow q)) =
    [(.eax, 0), (.ecx, 0), (.edx, 0), (.ebx, 0), (.eax, 8), (.ecx, 8), (.edx, 8), (.ebx, 8)] ∧
  ([.cf, .pf, .af, .zf, .sf, .tf, .iflag, .df, .of, .nt, .rf, .vm].map Flag.bit) = [0, 2, 4, 6, 7, 8, 9, 10, 11, 14, 16, 17] ∧
  ∀ (s : State) (w : Width) (r : Reg) (v : BitVec w.bits),
    let home := if w = .b8 then byteHome r else r
    let lo := if w = .b8 then byteLow r else 0
    (∀ j, j < w.bits → (s.reg w r).getLsbD j = (s.reg .d32 home).getLsbD (lo + j)) ∧
    (∀ (q : Reg) (j : Nat), j < 32 → ((s.setReg w r v).reg .d32 q).getLsbD j =
      if q = home ∧ lo ≤ j ∧ j < lo + w.bits then v.getLsbD (j - lo) else (s.reg .d32 q).getLsbD j) ∧
    s.setReg w r v = { s with regs := (s.setReg w r v).regs } ∧
    ∀ (f : Flag) (b : Bool),
      (∀ j, (s.setFlag f b).eflags.getLsbD j = if j = f.bit then b else s.eflags.getLsbD j) ∧
      s.setFlag f b = { s with eflags := (s.setFlag f b).eflags }

/-- R90, R91, R101 to R103, R105, R116, R226: a byte stored is read back and every other byte stays, the canonical form too
(log 8). At a physical address RAM and ROM are read without any effect, RAM takes what is written, ROM and a hole lose it, a
hole reads as a free value, and a device answers and is told (log 52). Where `n` bytes of a segment can be reached, there is
one physical address for each; reaching them changes no byte but accessed and dirty bits (bits 5 and 6), and without paging no
byte at all, the addresses being the linear ones modulo 2^32. A value stored at them in RAM is read back, and every byte
elsewhere stays. An access that raises an exception leaves memory and the TLB as they were and has written to no device. -/
def Obligations.MemoryReadWrite : Prop :=
  (∀ (s : State) (a : Nat) (v : Byte),
    (s.kindAt a = .ram ∨ s.kindAt a = .rom → s.numAt [a] = (s.mem.read a).toNat ∧ s.afterRead [a] = s) ∧
    (s.kindAt a = .ram → s.storeBytes [a] [v] = { s with mem := s.mem.write a v }) ∧
    (s.kindAt a = .rom ∨ s.kindAt a = .nothing → s.storeBytes [a] [v] = s) ∧
    (s.kindAt a = .nothing → s.numAt [a] = ((Config.freeBits s.free).setWidth 8).toNat ∧
      s.afterRead [a] = { s with free := s.free + 1 }) ∧
    (s.kindAt a = .device →
      s.storeBytes [a] [v] = { s with devLog := { write := true, transfers := [[(a, v)]] } :: s.devLog } ∧
      ∀ b : Byte, b = s.devInput.headD (Config.deviceByte s.devLog.length a) → s.numAt [a] = b.toNat ∧
        s.afterRead [a] = { s with devInput := s.devInput.tail
                                   devLog := { write := false, transfers := [[(a, b)]] } :: s.devLog })) ∧
  (∀ (s t : State) (w u : Bool) (lins : List Dword) (x : Exc), translateAll w u lins s = .error x t →
    t.mem = s.mem ∧ t.tlb = s.tlb ∧ ∃ ops, t.devLog = ops ++ s.devLog ∧ ∀ o ∈ ops, o.write = false) ∧
  (∀ (m : Memory) (a b : Nat) (v : Byte), m.wf = true →
    (m.write a v).read b = (if b = a then v else m.read b) ∧ (a < 2 ^ 32 → (m.write a v).wf = true)) ∧
  ∀ (s : State) (u : Bool) (sr : SReg) (off : Dword) (n : Nat) (wr : Bool) (pas : List Nat) (t : State),
    s.mem.wf = true → Reach s u sr off n wr pas t →
    (pas.length = n ∧ (∀ a ∈ pas, a < 2 ^ 32) ∧ t.mem.wf = true ∧
      (∀ b, t.mem.read b ||| 0x60 = s.mem.read b ||| 0x60)) ∧
    (s.pg = false → t = s.noted sr off n wr ∧
      ∀ i, i < n → pas[i]? = some ((s.sreg sr).base + off + BitVec.ofNat 32 i).toNat) ∧
    ∀ (w : Width) (v : BitVec w.bits), n = w.bytes →
      (∀ b, b ∉ pas ∨ s.kindAt b ≠ .ram → (t.storeAt w pas v).mem.read b = t.mem.read b) ∧
      (pas.Nodup → (∀ a ∈ pas, s.kindAt a = .ram) → (t.storeAt w pas v).valueAt w pas = v) ∧
      (t.storeAt w pas v).mem.wf = true

/-- R46, R102, R225 to R227, R251, R858: without paging a linear address is the physical one. With paging and one TLB entry for
the page, its frame with the offset is the address, where its U and W allow the access, else #PF is raised; the state stays. A
write to a page whose entry has D = 0 walks the tables, and so does an access without an entry (`stale` is the entry's block):
an entry of the directory or of the table that is not present raises #PF, and so does a user access to a page of the supervisor
or a user write to a page that is not writable: CR2 takes the linear address, bits 2:0 of the error code say present, write,
user, and memory stays. Else the address is the page frame of the table entry with the offset, the accessed bits of both
entries and, for a write, the dirty bit of the table entry are set, no other byte changes, and one TLB entry of the set, the
stale one if there was one, takes tag, D, U, W and frame (which one else is a free choice, log 17). Tables in RAM or ROM are
read without any effect; what devices and holes would do (log 52) is in the states after the reads. -/
def Obligations.PageTranslation : Prop :=
  ∀ (s : State) (lin : Dword) (w u : Bool),
    (s.pg = false → translate lin w u s = .ok lin s) ∧
    (∀ k, s.pg = true → s.tlbHits lin = [k] →
      let e := s.tlbEntry (tlbIndex lin k)
      let ok := u = false ∨ (e.u = true ∧ (w = false ∨ e.w = true))
      w = false ∨ e.d = true →
      (ok → translate lin w u s = .ok (e.phys ++ lin.extractLsb' 0 12) s) ∧
      (¬ok → ∃ code : Word, translate lin w u s = .error (faultOf 14 (some code)) { s with cr2 := lin, free := s.free + 1 } ∧
        code.getLsbD 0 = true ∧ code.getLsbD 1 = w ∧ code.getLsbD 2 = s.user)) ∧
    (∀ stale : Option Nat, s.pg = true → s.Shaped →
      (match stale with
        | none => s.tlbHits lin = []
        | some k => s.tlbHits lin = [k] ∧ w = true ∧ (s.tlbEntry (tlbIndex lin k)).d = false) →
      let pdeAddr := (s.cr3 &&& 0xFFFFF000) + ((lin.extractLsb' 22 10).setWidth 32 <<< 2)
      let pde := s.physDword pdeAddr
      let s₁ := s.afterRead (dwordAt pdeAddr)
      let pteAddr := (pde &&& 0xFFFFF000) + ((lin.extractLsb' 12 10).setWidth 32 <<< 2)
      let pte := s₁.physDword pteAddr
      let s₂ := if pde.getLsbD 0 then s₁.afterRead (dwordAt pteAddr) else s₁
      let present := pde.getLsbD 0 && pte.getLsbD 0
      let userPage := pde.getLsbD 2 && pte.getLsbD 2
      let writable := pde.getLsbD 1 && pte.getLsbD 1
      (present = false ∨ (u = true ∧ (userPage = false ∨ (w = true ∧ writable = false))) →
        ∃ code : Word, translate lin w u s = .error (faultOf 14 (some code)) { s₂ with cr2 := lin, free := s₂.free + 1 } ∧
          s₂.mem = s.mem ∧ code.getLsbD 0 = present ∧ code.getLsbD 1 = w ∧ code.getLsbD 2 = s.user) ∧
      (present = true → (u = false ∨ (userPage = true ∧ (w = false ∨ writable = true))) →
        ∃ t, translate lin w u s = .ok (pte.extractLsb' 12 20 ++ lin.extractLsb' 0 12) t ∧ s.Walked t ∧
          ((∀ a ∈ dwordAt pdeAddr, s.kindAt a = .ram) → (t.physDword pdeAddr).getLsbD 5 = true) ∧
          ((∀ a ∈ dwordAt pteAddr, s.kindAt a = .ram) → (t.physDword pteAddr).getLsbD 5 = true ∧
            (w = true → (t.physDword pteAddr).getLsbD 6 = true)) ∧
          (∀ b, b ≠ pdeAddr.toNat → b ≠ pteAddr.toNat → t.mem.read b = s.mem.read b) ∧
          (∃ k < 4, (∀ j, stale = some j → k = j) ∧ t.tlb = s.tlb.set (tlbIndex lin k)
            { lin := lin.extractLsb' 12 20, v := true, d := pte.getLsbD 6 || w, u := userPage, w := writable,
              phys := pte.extractLsb' 12 20 }) ∧
          ∃ k, t.tlbHits lin = [k]))

/-- R100, R101, R106, R170, R934: an operand outside its segment's limit, in an unusable segment, or in one that may not be
read, or written, is neither read nor written: #GP(0), or #SS(0) for a limit violation through SS or an unusable SS, and the
state stays. An operand that is read and written back needs both permissions. Shown for the loading, the storing and the
exchanging form of MOV and XCHG, and for the operations that the other instructions are made of. An operand lies within the
limit of an expand-up segment where its last byte is at most the limit, and of an expand-down one where its first byte is above
the limit and its last at most FFFFFFFFH, or FFFFH with B = 0 (R173); code cannot be written, but through CS in real-address and
V86 mode, and is read where its type allows (R172). That CS alone may be written there, while a code type left in another
segment register still forbids a write, is the model's reading (DEDUCED, log 37), which reconciles R101 with R934. -/
def Obligations.SegmentFault : Prop :=
  (∀ (r : SegReg) (off : Dword) (n : Nat),
    let last := off.toNat + n - 1
    r.readable = (!r.typ.getLsbD 3 || r.typ.getLsbD 1) ∧ r.writable = (!r.typ.getLsbD 3 && r.typ.getLsbD 1) ∧
    (¬(r.typ.getLsbD 3 = false ∧ r.typ.getLsbD 2 = true) → (inLimit r off n = true ↔ last ≤ r.limit.toNat)) ∧
    (r.typ.getLsbD 3 = false → r.typ.getLsbD 2 = true → (inLimit r off n = true ↔
      r.limit.toNat < off.toNat ∧ last ≤ (if r.db = true then 0xFFFFFFFF else 0xFFFF)))) ∧
  (∀ (s : State) (sr : SReg) (off : Dword) (n : Nat),
    (s.segOk sr off n false = true ↔
      (s.sreg sr).valid = true ∧ (s.sreg sr).readable = true ∧ inLimit (s.sreg sr) off n = true) ∧
    (s.segOk sr off n true = true ↔ (s.sreg sr).valid = true ∧
      ((s.sreg sr).writable = true ∨ (sr = .cs ∧ (s.pe = false ∨ s.flag .vm = true))) ∧
      inLimit (s.sreg sr) off n = true)) ∧
  ∀ (s : State) (m : MemRef) (w : Width) (r : Reg) (vec : Byte),
    (s.segOk (segOf m) (s.memEa m) w.bytes true = true → (s.sreg (segOf m)).readable = false →
      (∀ f, memUpdate (segOf m) (s.memEa m) w f s = .error (faultOf 13 (some 0)) s) ∧
      exec (.xchg (.rmReg w (.mem m) r)) s = .next (abandon s (faultOf 13 (some 0)) s.begun)) ∧
    (∀ wr : Bool, s.segOk (segOf m) (s.memEa m) w.bytes wr = false →
      vec = (if segOf m = .ss ∧ ((s.sreg .ss).valid = false ∨
        (if wr then s.mayWrite .ss else (s.sreg .ss).readable) = true) then 12 else 13) →
      (wr = false → memRead (segOf m) (s.memEa m) w s = .error (faultOf vec (some 0)) s ∧
        exec (.mov (.regRm w r (.mem m))) s = .next (abandon s (faultOf vec (some 0)) s.begun)) ∧
      (wr = true → (∀ v, memWrite (segOf m) (s.memEa m) w v s = .error (faultOf vec (some 0)) s) ∧
        (∀ f, memUpdate (segOf m) (s.memEa m) w f s = .error (faultOf vec (some 0)) s) ∧
        exec (.mov (.rmReg w (.mem m) r)) s = .next (abandon s (faultOf vec (some 0)) s.begun) ∧
        exec (.xchg (.rmReg w (.mem m) r)) s = .next (abandon s (faultOf vec (some 0)) s.begun)))

/-! ### The end of an instruction, exceptions, events -/

/-- R15, R64, R118, R325, R690, R691, R706, R813, R908, R913, R915: how an instruction ends. EIP goes to the next instruction
unless the instruction set it or repeats, RF is cleared but by POPF, IRET and task switches, the debug traps gathered are kept
when one is due, single step (BS) being gathered when TF was 1 at the beginning, and nothing else changes. In a 16-bit code
segment, which every one is in real-address mode (`State.code32`; log 36), EIP is `EIP_next` cut to 16 bits (R325), and
`State.ranPast` says that execution has run past FFFFH (R15 c); there a control transfer too leaves an EIP in 0 to FFFFH (R118,
against the uncut targets of R560 and R602: the model's reading, log 24). An instruction that waits for BUSY#, or repeats, leaves
the one-instruction inhibits as they were. That a waiting instruction ends its step is the model's (log 19). So is that the
data-breakpoint bits reported late (`pendLate`) join here, LE and GE being those of DR7 after the instruction (R907; log 15). -/
def Obligations.EndOfInstruction : Prop :=
  ∀ (s t : State) (d : Done),
    (∃ p l f, finish s d t = { (d.place s t).trimEip with pend := p, pendLate := l, free := f }) ∧
    (∀ u : State, u.trimEip = { u with eip := if u.code32 = true then u.eip else u.eip &&& 0x0000FFFF }) ∧
    Done.next.place s t =
      { t with eflags := setBit t.eflags 16 false, eip := s.nextEip, ranPast := s.nextPast } ∧
    Done.nextKeepRf.place s t = { t with eip := s.nextEip, ranPast := s.nextPast } ∧
    s.nextEip = (if s.code32 = true then s.nextStart else s.nextStart &&& 0x0000FFFF) ∧
    (s.nextPast = true ↔ s.code32 = false ∧ 0xFFFF < s.nextStart.toNat) ∧
    Done.went.place s t = { t with eflags := setBit t.eflags 16 false } ∧
    Done.wentKeepRf.place s t = t ∧
    Done.waiting.place s t =
      { t with inhibit := s.inhibit, inhibitIntr := s.inhibitIntr, pendLate := s.pendLate } ∧
    Done.again.place s t =
      { t with repActive := true, inhibit := s.inhibit, inhibitIntr := s.inhibitIntr } ∧
    (s.pend = 0 → s.pendLate = 0 → t.pend = 0 → t.pendLate = 0 → s.flag .tf = false →
      finish s d t = (d.place s t).trimEip) ∧
    (s.flag .tf = true → d ≠ .waiting → (finish s d t).pend.getLsbD 14 = true ∧ (finish s d t).due = true) ∧
    (s.flag .tf = false → d ≠ .waiting → t.dr7.getLsbD 8 = true ∨ t.dr7.getLsbD 9 = true → t.dataDue t.pend = true →
      (finish s d t).pend = (s.pend ||| s.pendLate ||| t.pend) ∧ (finish s d t).due = true)

/-- R806, R820, R827, R860, R885, R870: an instruction that raises a fault is abandoned: what it did is undone, but for memory,
the TLB, CR2, the free values and the outside world, which stay as it left them (log 30), and the fault is delivered with the
instruction's own offset as return offset; so is an exception that the delivery of a software interrupt raises. An exception
during the delivery of an exception is delivered in turn, or makes a double fault when both are contributory or the first is a
page fault and the second contributory or a page fault; one during the delivery of an NMI or an INTR is delivered in turn; an
exception during the delivery of a double fault shuts the processor down. One raised after a task switch has committed stays in
the new task, with its EIP as return offset and without its debug trap, but a double fault saves the return offset of the first
exception (R838, R885, against R279 and R840: log 54). After the delivery EIP is kept in 0 to FFFFH in a 16-bit code segment
(`State.trimEip`; R118, log 24). That the traps kept, the bits reported late and those that the delivery's own pushes hit are
settled right after the delivery, before the handler's first instruction, is the model's (`State.settle`; the late bits DESIGN
CHOICE, log 15, the pushes DEDUCED, log 42). -/
def Obligations.ExceptionDelivery : Prop :=
  (∀ (s t u : State) (v : Byte) (c : Option Word),
    deliver { vec := v, kind := .exc, code := c, isFault := true, ret := s.eip } (s.begun.keep t) = .ok () u →
    abandon s (faultOf v c) t = ({ u with run := .running } : State).trimEip.settle s.pend s.pendLate) ∧
  (∀ (s t : State) (v : Byte) (x : Exc), ¬(s.v86 = true ∧ s.iopl < 3) →
    deliver { vec := v, kind := .soft, code := none, isFault := false, ret := s.nextEip } s.begun = .error x t →
    x.committed = false → x.ret = none → exec (.intN v) s = .next ((deliverAll deliverFuel
      { vec := x.vec, kind := .exc, code := x.code, isFault := x.isFault, ret := s.eip } (s.begun.keep t)).trimEip.settle
        s.pend s.pendLate)) ∧
  (∀ s t : State, s.keep t =
    { s with mem := t.mem, tlb := t.tlb, cr2 := t.cr2, free := t.free, ioInput := t.ioInput, ioLog := t.ioLog,
             devInput := t.devInput, devLog := t.devLog, pinBusy := t.pinBusy, pinError := t.pinError,
             coprocReplies := t.coprocReplies, coprocSent := t.coprocSent }) ∧
  (∀ a b : Byte, doubles a b = true ↔
    ((a = 0 ∨ 9 ≤ a ∧ a ≤ 13) ∧ (b = 0 ∨ 9 ≤ b ∧ b ≤ 13)) ∨ (a = 14 ∧ (b = 0 ∨ 9 ≤ b ∧ b ≤ 14))) ∧
  (∀ (n : Nat) (e : Event) (x : Exc) (s t : State), deliver e s = .error x t → x.committed = true →
    let u : State := { t with pend := 0 }
    (e.kind = .exc → e.vec = 8 → deliverAll (n + 1) e s = { u with run := .shutdown }) ∧
    (e.kind = .exc → e.vec ≠ 8 → doubles e.vec x.vec = true → deliverAll (n + 1) e s =
      deliverAll n { vec := 8, kind := .exc, code := some 0, isFault := false, ret := e.ret } u) ∧
    (e.kind ≠ .exc ∨ (e.vec ≠ 8 ∧ doubles e.vec x.vec = false) → deliverAll (n + 1) e s =
      deliverAll n { vec := x.vec, kind := .exc, code := x.code, isFault := x.isFault, ret := t.eip } u)) ∧
  ∀ (n : Nat) (e : Event) (x : Exc) (s t : State), deliver e s = .error x t → x.committed = false →
    (e.kind = .exc → e.vec = 8 → deliverAll (n + 1) e s = { s.keep t with run := .shutdown }) ∧
    (e.kind = .exc → e.vec ≠ 8 → doubles e.vec x.vec = true → deliverAll (n + 1) e s =
      deliverAll n { vec := 8, kind := .exc, code := some 0, isFault := false, ret := e.ret } (s.keep t)) ∧
    (e.kind = .hw ∨ (e.kind = .exc ∧ e.vec ≠ 8 ∧ doubles e.vec x.vec = false) → deliverAll (n + 1) e s =
      deliverAll n { vec := x.vec, kind := .exc, code := x.code, isFault := x.isFault, ret := e.ret } (s.keep t))

/-- R66, R691, R721, R803, R811, R813, R814, R870, R880, R905, R908: what a step does before it runs an instruction. RESET wins.
In the order of R880 a debug trap, an instruction breakpoint, an NMI and an INTR are taken, each unless inhibited; a halted
processor goes on only for one of them, a shut-down one only for an NMI. Taking an event delivers its vector, with EIP as return
offset; the debug trap adds its bits to DR6, an NMI masks further ones, an INTR takes the vector from the controller. An
instruction breakpoint matches the linear address of the next instruction with R/W = 00 and LEN = 00, where it is enabled and RF =
0, but not while a repeated string instruction goes on between two of its iterations (R691; `State.repActive`, the model's mark of
that: log 19); its fault adds the bit of every one that matches to DR6, and its EFLAGS image has RF = 1. That an NMI signalled
while NMI is masked is lost is the spec's decision against one of its test vectors (D59 of R811; log 45), and that a shut-down
processor goes on for an NMI is another (D66; log 32). After a delivery EIP is kept in 0 to FFFFH in a 16-bit code segment
(`State.trimEip`; R118, log 24). That what a delivery's own pushes hit is settled before the handler's first instruction is the
model's reading (DEDUCED, log 42), and that a late bit waits on over an event its choice (log 15). -/
def Obligations.EventsBetweenInstructions : Prop :=
  ∀ s : State,
    (s.pinReset = true → step s = .next s.resetKeeping) ∧
    (s.pinReset = false →
      let u := s.sampleNmi
      (s.run = .shutdown → step s = .next (if u.nmiDue then takeNmi u else u)) ∧
      (s.run ≠ .shutdown →
        (u.due = true → u.inhibit = false → step s = .next (takeDebugTrap u)) ∧
        (u.due = false ∨ u.inhibit = true →
          (s.run = .running → u.instrBreak = true → step s = .next (takeInstrBreak u)) ∧
          (s.run = .halted ∨ u.instrBreak = false →
            (u.nmiDue = true → u.inhibit = false → step s = .next (takeNmi u)) ∧
            (u.nmiDue = false ∨ u.inhibit = true →
              (u.intrDue = true → step s = .next (takeIntr u)) ∧
              (u.intrDue = false → s.run = .halted → step s = .next u)))))) ∧
    (let hit := fun k : Nat => s.dr7.extractLsb' (16 + 4 * k) 2 = 0 ∧ s.dr7.extractLsb' (18 + 4 * k) 2 = 0 ∧
       s.dr k = s.cs.base + s.eip
     (s.instrBreak = true ↔
       (∃ k < 4, hit k ∧ (s.dr7.getLsbD (2 * k) = true ∨ s.dr7.getLsbD (2 * k + 1) = true)) ∧
         s.flag .rf = false ∧ s.inhibit = false ∧ s.repActive = false) ∧
     ∀ (d : Dword) (t : State),
       (∀ k < 32, d.getLsbD k = true ↔ s.dr6.getLsbD k = true ∨ s.pend.getLsbD k = true ∨ (k < 4 ∧ hit k)) →
       deliver { vec := 1, kind := .exc, code := none, isFault := true, ret := s.eip }
         { s with pend := 0, repActive := false, ranPast := false, dr6 := d } = .ok () t →
       takeInstrBreak s = ({ t with run := .running } : State).trimEip.settle 0 0) ∧
    (∀ e : Event, e.image s = if e.isFault then s.eflags ||| 0x00010000 else s.eflags) ∧
    (s.intrDue = true ↔ s.intrQueue ≠ [] ∧ s.flag .iflag = true ∧ s.inhibit = false ∧ s.inhibitIntr = false) ∧
    (s.pinNmi = false → s.sampleNmi = s) ∧
    (s.pinNmi = true → s.sampleNmi = { s with pinNmi := false, nmiPending := s.nmiPending || !s.nmiMask }) ∧
    ∀ t : State,
      (deliver { vec := 1, kind := .exc, code := none, isFault := false, ret := s.eip, taskTrap := s.pend.getLsbD 15 }
          { s with pend := 0, repActive := false, ranPast := false, dr6 := s.dr6 ||| s.pend } = .ok () t →
        takeDebugTrap s = ({ t with run := .running } : State).trimEip.settle 0 0) ∧
      (deliver { vec := 2, kind := .hw, code := none, isFault := false, ret := s.eip }
          { s with pend := 0, repActive := false, ranPast := false, nmiPending := false, nmiMask := true } = .ok () t →
        takeNmi s = ({ t with run := .running } : State).trimEip.settle 0 0) ∧
      ∀ v q, s.intrQueue = v :: q →
        deliver { vec := v, kind := .hw, code := none, isFault := false, ret := s.eip }
          { s with pend := 0, repActive := false, ranPast := false, intrQueue := q } = .ok () t →
        takeIntr s = ({ t with run := .running } : State).trimEip.settle 0 0

/-- R15, R118, R325: with no event to take, a running processor whose bytes at CS:EIP decode to `i`, `len` bytes long, and can be
fetched, runs `i`: the step is `exec` of it, `EIP_next` (`State.nextEip`) being the offset of the following instruction, cut to 16
bits in a 16-bit code segment. Byte `n` of an instruction is the one at offset `EIP + n` of CS, EIP taken as 16 bits in a 16-bit
segment, read with the page checks of a read; it is #GP(0) where CS is not valid, where the offset lies beyond its limit, or past
the end of the offset space (2^16 in a 16-bit segment, else 2^32; D16), and, where execution has just run past FFFFH in such a
segment, where 10000H lies beyond the limit. That execution goes on at offset 0 where it does not joins R118 and D16 to R15 (c)
and vector V70-3 (DEDUCED, log 24). The default sizes, and which code segment is a 16-bit one, come from the D bit held in CS in
protected mode, and are 16 bits in real-address mode whatever CS holds (`State.code32`; R323, R930 d; log 36); in V86 mode that
bit is 0, since every load of CS there clears it (R952). That nothing is fetched ahead is the model's choice (log 12). -/
def Obligations.StepRunsDecoded : Prop :=
  ∀ (s t : State) (i : Instr) (len : Nat) (bs : List Byte), s.pinReset = false → s.run = .running →
    s.sampleNmi.boundary = none → decode s.code32 s.sampleNmi.window = .ok (i, len) →
    fetchBytes len 0 s.sampleNmi = .ok bs t →
    let next := s.fetchOff + BitVec.ofNat 32 len
    let u : State := { t with nextStart := next }
    (∀ v : State, v.code32 = true ↔ v.pe = true ∧ v.cs.db = true) ∧
      step s = exec i u ∧ u.nextEip = (if s.code32 = true then next else next &&& 0x0000FFFF) ∧
      (s.EipFits → s.fetchOff = s.eip) ∧
      ∀ (v : State) (n : Nat),
        let off := (if v.code32 = true then v.eip else v.eip &&& 0x0000FFFF).toNat + n
        let inside := v.cs.valid = true ∧ off < (if v.code32 = true then 2 ^ 32 else 2 ^ 16) ∧
          inLimit v.cs (BitVec.ofNat 32 off) 1 = true ∧ (v.ranPast = true → inLimit v.cs 0x00010000 1 = true)
        (inside → ∀ x w, linRead (v.cs.base + BitVec.ofNat 32 off) 1 v.user v = .ok x w →
          fetchByte n v = .ok (BitVec.ofNat 8 x) w) ∧
        (inside → ∀ x w, linRead (v.cs.base + BitVec.ofNat 32 off) 1 v.user v = .error x w → fetchByte n v = .error x w) ∧
        (¬inside → fetchByte n v = .error (faultOf 13 (some 0)) v)

/-! ### Reset and the invariant -/

/-- R70, R1024: what RESET leaves, as far as the spec states a value, by the manual's words or by a decision of its own (EFLAGS
and the segment registers D9, DR7 D13, the TLB D14, the latches D15): DH the component and DL the stepping identifier of the part,
EAX the outcome of the self-test, where one was requested. The selectors, F000H of CS and 0 of the others, the spec takes from
general knowledge (PRESUMED, log 22). -/
def Obligations.ResetValues : Prop :=
  ∀ s : State, let r := s.resetKeeping
    r.reg .b8 .esi = 3 ∧ r.reg .b8 .edx = s.platform.stepping ∧ (s.platform.selfTest = .passed → r.reg .d32 .eax = 0) ∧
    (∀ v, s.platform.selfTest = .failed v → r.reg .d32 .eax = v) ∧ r.eip = 0x0000FFF0 ∧ r.eflags = 0x00000002 ∧ r.cpl = 0 ∧ r.run = .running ∧
    r.cs.sel = 0xF000 ∧ r.cs.base = 0xFFFF0000 ∧ r.cs.limit = 0xFFFF ∧ r.cs.isCode = true ∧ r.cs.readable = true ∧
    r.cs.p = true ∧ r.cs.db = false ∧
    (∀ sr, sr ≠ .cs → (r.sreg sr).sel = 0 ∧ (r.sreg sr).base = 0 ∧ (r.sreg sr).limit = 0xFFFF ∧
      (r.sreg sr).writable = true ∧ (r.sreg sr).expandDown = false ∧ (r.sreg sr).db = false) ∧
    r.pe = false ∧ r.mp = false ∧ r.em = false ∧ r.tsw = false ∧ r.pg = false ∧
    (r.cr0.getLsbD 4 = true ↔ s.coproc = .i387) ∧
    r.idtr.base = 0 ∧ r.idtr.limit = 0x03FF ∧ r.dr7 = 0 ∧ (∀ e ∈ r.tlb, e.v = false) ∧
    r.nmiMask = false ∧ r.nmiPending = false ∧ r.inhibit = false ∧ r.inhibitIntr = false ∧ r.mem = s.mem

/-- The state after reset is legal. -/
def Obligations.ResetInv : Prop := State.reset.Inv ∧ ∀ s : State, s.Inv → s.resetKeeping.Inv

/-- R2, R30, R40, R46, R51, R54, R55, R60, R118, R250, R770, R950: every step from a legal state that answers a next state gives
a legal state: reserved bits keep their constants, the mode is one of the three, V86 mode is at CPL 3 and real-address mode at
CPL 0, paging needs protected mode, memory is in canonical form, the TLB has its entries, and in a 16-bit code segment EIP is in
0 to FFFFH (that R118 holds of a 32-bit target too is the model's reading, log 24). -/
def Obligations.StepKeepsInv : Prop := ∀ s t : State, s.Inv → step s = .next t → t.Inv

/-! ### Encoding -/

/-- R320 to R346: decoding the bytes of a well-formed instruction of at most 15 bytes (R119) gives it back with its length,
whatever bytes follow, in a code segment of either default size. -/
def Obligations.DecodeEncode : Prop :=
  ∀ (d : Bool) (i : Instr) (rest : List Byte), wf d i = true → (encode i).length ≤ maxInstrBytes →
    decode d (encode i ++ rest) = .ok (i, (encode i).length)

/-- R325, R331 to R345: words of the opcode maps, each written out from its encoding, and what they stand for; and encodings that
stand for no instruction. -/
def Obligations.DecodedWords : Prop :=
  decode false [0x90] = .ok (.nop, 1) ∧
  decode false [0x01, 0xD8] = .ok (.add (.rmReg .w16 (.reg .eax) .ebx), 2) ∧
  decode true [0x8B, 0x44, 0x8D, 0x10] =
    .ok (.mov (.regRm .d32 .eax (.mem ⟨none, .sib (some .ebp) (some .ecx) 2 (.d8 0x10)⟩)), 4) ∧
  decode false [0x26, 0x8A, 0x47, 0xFE] = .ok (.segES (.mov (.regRm .b8 .eax (.mem ⟨some .es, .based16 .bx (.d8 0xFE)⟩))), 4) ∧
  decode true [0x66, 0xC1, 0xE0, 0x04] = .ok (.opsize (.shl (.imm .w16 (.reg .eax) 4)), 4) ∧
  decode false [0x74, 0x05] = .ok (.je (.rel8 .w16 5), 2) ∧
  decode true [0xE8, 0x78, 0x56, 0x34, 0x12] = .ok (.call (.rel .d32 0x12345678), 5) ∧
  decode false [0xEA, 0x00, 0x01, 0x00, 0xF0] = .ok (.jmpFar (.ptr .w16 0xF000 0x100), 5) ∧
  decode false [0xCD, 0x21] = .ok (.intN 0x21, 2) ∧
  decode true [0xF3, 0xA4] = .ok (.rep (.movsb ⟨.d32, none, .rep⟩), 2) ∧
  decode false [0xE4, 0x60] = .ok (.inp (.imm .b8 0x60), 2) ∧
  decode false [0xFB] = .ok (.sti, 1) ∧
  decode true [0x0F, 0x22, 0xC3] = .ok (.movToCr 0 .ebx, 3) ∧
  decode false [0xD8, 0xC1] = .ok (.esc .w16 .w16 0 0 (.reg .ecx), 2) ∧
  decode false [0x0F, 0x04] = .error .undefinedOpcode ∧ decode false [0xFE, 0xD0] = .error .undefinedGroup ∧
  decode false [0x8E, 0xC8] = .error .badRegister ∧ decode false [0xC5, 0xC0] = .error .memoryRequired
end

