-- ==== Sys2Proof/Laws/Run.lean ====
section
/-! SUPPORT. How a computation of the machine runs: what each step of it gives, and what an instruction made of it
answers. -/

namespace Sys2Proof.Machine

variable {α β : Type}

@[simp] theorem M_pure (a : α) (s : State) : (pure a : M α) s = .ok a s := rfl
@[simp] theorem M_get (s : State) : (get : M State) s = .ok s s := rfl
@[simp] theorem M_set (t s : State) : (set t : M PUnit) s = .ok ⟨⟩ t := rfl
@[simp] theorem M_modify (f : State → State) (s : State) : (modify f : M PUnit) s = .ok ⟨⟩ (f s) := rfl
@[simp] theorem M_throw (x : Exc) (s : State) : (throw x : M α) s = .error x s := rfl

/-- A sequence runs its first part, then the rest on its result. -/
theorem M_bind (m : M α) (f : α → M β) (s : State) :
    (m >>= f) s = match m s with | .ok a t => f a t | .error x t => .error x t := by
  cases h : m s <;> simp [Bind.bind, EStateM.bind, h]

/-- A sequence whose first part succeeds. -/
theorem M_bind_ok {m : M α} {f : α → M β} {s t : State} {a : α} (h : m s = .ok a t) : (m >>= f) s = f a t := by
  rw [M_bind, h]

/-- A sequence whose first part raises an exception. -/
theorem M_bind_error {m : M α} {f : α → M β} {s t : State} {x : Exc} (h : m s = .error x t) :
    (m >>= f) s = .error x t := by rw [M_bind, h]

/-- If a sequence succeeds, both parts do. -/
theorem M_bind_ok_inv {m : M α} {f : α → M β} {s u : State} {b : β} (h : (m >>= f) s = .ok b u) :
    ∃ a t, m s = .ok a t ∧ f a t = .ok b u := by
  rw [M_bind] at h
  split at h
  · exact ⟨_, _, ‹_›, h⟩
  · cases h

@[simp] theorem M_get_bind (f : State → M β) (s : State) : (get >>= f) s = f s s := rfl
@[simp] theorem M_pure_bind (a : α) (f : α → M β) (s : State) : (pure a >>= f) s = f a s := rfl
@[simp] theorem M_modify_bind (g : State → State) (f : PUnit → M β) (s : State) :
    (modify g >>= f) s = f ⟨⟩ (g s) := rfl
@[simp] theorem M_set_bind (t : State) (f : PUnit → M β) (s : State) : (set t >>= f) s = f ⟨⟩ t := rfl

/-! ### Exceptions and free values -/

@[simp] theorem raise_run (v : Byte) (c : Option Word) (s : State) :
    (raise v c : M α) s = .error { vec := v, code := c, isFault := true, ret := none, committed := false } s := rfl

/-- A free value is the constant of its number; the counter moves on. -/
@[simp] theorem draw_run (s : State) : draw s = .ok (Config.freeBits s.free) { s with free := s.free + 1 } := rfl

@[simp] theorem drawBit_run (s : State) :
    drawBit s = .ok (bitOf (Config.freeBits s.free) 0) { s with free := s.free + 1 } := rfl

/-! ### Instructions -/

/-- An instruction whose effect succeeds. -/
theorem instr_ok {m : M Done} {s t : State} {d : Done} (h : m s.begun = .ok d t) : instr m s = .next (finish s d t) := by
  simp [instr, runM, h]

/-- An instruction that raises an exception takes it. -/
theorem instr_error {m : M Done} {s t : State} {x : Exc} (h : m s.begun = .error x t) :
    instr m s = .next (abandon s x t) := by simp [instr, runM, h]

/-- An instruction that runs to the next one. -/
theorem plain_ok {m : M Unit} {s t : State} (h : m s.begun = .ok () t) : plain m s = .next (finish s .next t) := by
  unfold plain
  exact instr_ok (by rw [M_bind_ok h]; rfl)

/-- The same, raising an exception. -/
theorem plain_error {m : M Unit} {s t : State} {x : Exc} (h : m s.begun = .error x t) :
    plain m s = .next (abandon s x t) := by
  unfold plain
  exact instr_error (M_bind_error h)

/-- An instruction answers a next state: its effect, or the exception it raises taken. -/
theorem instr_next (m : M Done) (s : State) : ∃ t, instr m s = .next t := ⟨_, rfl⟩

/-- Everything an instruction can do: finish, or abandon its work and take an exception. -/
theorem instr_cases {m : M Done} {s t : State} (h : instr m s = .next t) :
    (∃ d u, m s.begun = .ok d u ∧ t = finish s d u) ∨ (∃ x u, m s.begun = .error x u ∧ t = abandon s x u) := by
  unfold instr runM at h
  cases hm : m s.begun with
  | ok d u => exact .inl ⟨d, u, rfl, by simpa [hm] using h.symm⟩
  | error x u => exact .inr ⟨x, u, rfl, by simpa [hm] using h.symm⟩

end Sys2Proof.Machine
end

