-- ==== Sys2Proof/Laws/Keeps.lean ====
section
/-! SUPPORT. A computation keeps to a relation between the state before and after: one lemma per way of building a
computation, so that what a long meaning can change is read off its parts. -/

namespace Sys2Proof.Machine

variable {α β : Type} {R E : State → State → Prop}

/-- `R` relates the states when `m` succeeds, `E` when it raises an exception. -/
def Keeps (R E : State → State → Prop) (m : M α) : Prop :=
  ∀ s, (∀ a t, m s = .ok a t → R s t) ∧ (∀ x t, m s = .error x t → E s t)

/-- What a pair of relations needs for sequences: both hold of doing nothing, and they compose. -/
structure Steady (R E : State → State → Prop) : Prop where
  refl : ∀ s, R s s
  refl' : ∀ s, E s s
  trans : ∀ {s t u}, R s t → R t u → R s u
  trans' : ∀ {s t u}, R s t → E t u → E s u

theorem Keeps.ok {m : M α} (h : Keeps R E m) {s t : State} {a : α} (e : m s = .ok a t) : R s t := (h s).1 a t e
theorem Keeps.error {m : M α} (h : Keeps R E m) {s t : State} {x : Exc} (e : m s = .error x t) : E s t := (h s).2 x t e

theorem keeps_pure (hs : Steady R E) (a : α) : Keeps R E (pure a : M α) := by
  intro s
  constructor
  · intro b t h
    cases h
    exact hs.refl s
  · intro x t h
    cases h

theorem keeps_get (hs : Steady R E) : Keeps R E (get : M State) := by
  intro s
  constructor
  · intro b t h
    cases h
    exact hs.refl s
  · intro x t h
    cases h

theorem keeps_raise (hs : Steady R E) (v : Byte) (c : Option Word) : Keeps R E (raise v c : M α) := by
  intro s
  constructor
  · intro b t h
    cases h
  · intro x t h
    cases h
    exact hs.refl' s

theorem keeps_throw (hs : Steady R E) (x : Exc) : Keeps R E (throw x : M α) := by
  intro s
  constructor
  · intro b t h
    cases h
  · intro x t h
    cases h
    exact hs.refl' s

theorem keeps_modify (f : State → State) (h : ∀ s, R s (f s)) : Keeps R E (modify f : M PUnit) := by
  intro s
  constructor
  · intro b t e
    cases e
    exact h s
  · intro x t e
    cases e

theorem keeps_bind (hs : Steady R E) {m : M α} {f : α → M β} (hm : Keeps R E m) (hf : ∀ a, Keeps R E (f a)) :
    Keeps R E (m >>= f) := by
  intro s
  rw [M_bind]
  cases h : m s with
  | ok a t =>
    exact ⟨fun b u e => hs.trans (hm.ok h) ((hf a).ok e), fun x u e => hs.trans' (hm.ok h) ((hf a).error e)⟩
  | error x t =>
    refine ⟨fun b u e => by simp at e, fun y u e => ?_⟩
    cases e
    exact hm.error h

/-- A computation that begins by looking at the state may be judged with that state in hand. -/
theorem keeps_get_bind {f : State → M β}
    (h : ∀ s, (∀ a t, f s s = .ok a t → R s t) ∧ (∀ x t, f s s = .error x t → E s t)) : Keeps R E (get >>= f) :=
  fun s => by simpa using h s

theorem keeps_ite {c : Prop} [Decidable c] {m n : M α} (hm : c → Keeps R E m) (hn : ¬c → Keeps R E n) :
    Keeps R E (if c then m else n) := by
  split
  · exact hm ‹_›
  · exact hn ‹_›

/-- A weaker pair of relations. -/
theorem Keeps.mono {R' E' : State → State → Prop} {m : M α} (h : Keeps R E m) (hR : ∀ s t, R s t → R' s t)
    (hE : ∀ s t, E s t → E' s t) : Keeps R' E' m :=
  fun _ => ⟨fun _ _ e => hR _ _ (h.ok e), fun _ _ e => hE _ _ (h.error e)⟩

/-- A free value moves the counter only. -/
theorem keeps_draw (h : ∀ s : State, R s { s with free := s.free + 1 }) : Keeps R E draw := by
  intro s
  constructor
  · intro a t e
    cases e
    exact h s
  · intro x t e
    cases e

theorem keeps_drawBit (h : ∀ s : State, R s { s with free := s.free + 1 }) : Keeps R E drawBit := by
  intro s
  constructor
  · intro a t e
    cases e
    exact h s
  · intro x t e
    cases e

end Sys2Proof.Machine
end

