-- ==== Sys2Proof/Laws/Memory.lean ====
section
/-! SUPPORT. Memory: what a read gives after a write, and that every write keeps the canonical form; what an access to the
physical address space changes. -/

namespace Sys2Proof.Machine

/-! ### The canonical form -/

/-- A canonical memory with a smaller lower bound. -/
theorem Memory.wfAbove_mono {lo lo' : Nat} (h : lo' ≤ lo) :
    ∀ {m : Memory}, Memory.wfAbove lo m = true → Memory.wfAbove lo' m = true
  | [], _ => rfl
  | (k, v) :: rest, hw => by
    simp only [Memory.wfAbove, Bool.and_eq_true, decide_eq_true_eq] at hw ⊢
    exact ⟨⟨⟨by omega, hw.1.1.2⟩, hw.1.2⟩, hw.2⟩

/-- A write at or above the lower bound keeps the canonical form. -/
theorem Memory.write_wfAbove {lo a : Nat} {v : Byte} (hlo : lo ≤ a) (ha : a < 2 ^ 32) :
    ∀ {m : Memory}, Memory.wfAbove lo m = true → Memory.wfAbove lo (m.write a v) = true
  | [], _ => by
    unfold Memory.write
    split
    · rfl
    · rename_i hne
      simp only [Memory.wfAbove, Bool.and_eq_true, decide_eq_true_eq, bne_iff_ne]
      exact ⟨⟨⟨hlo, ha⟩, hne⟩, trivial⟩
  | (k, w) :: rest, hw => by
    simp only [Memory.wfAbove, Bool.and_eq_true, decide_eq_true_eq, bne_iff_ne] at hw
    obtain ⟨⟨⟨hk, hk'⟩, hv⟩, hr⟩ := hw
    unfold Memory.write
    split
    · rename_i hlt
      split
      · simp only [Memory.wfAbove, Bool.and_eq_true, decide_eq_true_eq, bne_iff_ne]
        exact ⟨⟨⟨hk, hk'⟩, hv⟩, hr⟩
      · rename_i hne
        simp only [Memory.wfAbove, Bool.and_eq_true, decide_eq_true_eq, bne_iff_ne]
        exact ⟨⟨⟨hlo, ha⟩, hne⟩, ⟨⟨⟨hlt, hk'⟩, hv⟩, hr⟩⟩
    · split
      · rename_i hke
        split
        · exact Memory.wfAbove_mono (by omega) hr
        · rename_i hne
          simp only [Memory.wfAbove, Bool.and_eq_true, decide_eq_true_eq, bne_iff_ne]
          exact ⟨⟨⟨hlo, ha⟩, hne⟩, hke ▸ hr⟩
      · have := Memory.write_wfAbove (lo := k + 1) (v := v) (by omega) ha hr
        simp only [Memory.wfAbove, Bool.and_eq_true, decide_eq_true_eq, bne_iff_ne]
        exact ⟨⟨⟨hk, hk'⟩, hv⟩, this⟩

/-- A write of a byte keeps the canonical form (log 8). -/
theorem Memory.write_wf {m : Memory} {a : Nat} {v : Byte} (ha : a < 2 ^ 32) (h : m.wf = true) :
    (m.write a v).wf = true := Memory.write_wfAbove (Nat.zero_le _) ha h

/-- Writes of several bytes keep the canonical form. -/
theorem Memory.writeAll_wf : ∀ {as : List Nat} {vs : List Byte} {m : Memory}, (∀ a ∈ as, a < 2 ^ 32) → m.wf = true →
    (m.writeAll as vs).wf = true
  | [], _, m, _, h => by cases m <;> simpa [Memory.writeAll] using h
  | a :: as, [], m, _, h => by simpa [Memory.writeAll] using h
  | a :: as, v :: vs, m, ha, h => by
    unfold Memory.writeAll
    exact Memory.writeAll_wf (fun b hb => ha b (List.mem_cons_of_mem _ hb))
      (Memory.write_wf (ha a (List.mem_cons_self ..)) h)

/-- Memory right after RESET is canonical. -/
theorem Memory.reset_wf : State.reset.mem.wf = true := rfl

/-! ### What is read -/

/-- Below its lower bound a canonical memory reads as an unlisted address. -/
theorem Memory.read_below {lo a : Nat} (ha : a < lo) :
    ∀ {m : Memory}, Memory.wfAbove lo m = true → m.read a = Config.unlistedByte
  | [], _ => rfl
  | (k, v) :: rest, hw => by
    simp only [Memory.wfAbove, Bool.and_eq_true, decide_eq_true_eq] at hw
    obtain ⟨⟨⟨hk, -⟩, -⟩, hr⟩ := hw
    unfold Memory.read
    rw [if_neg (by omega)]
    exact Memory.read_below (by omega) hr

/-- A byte reads as it was written; every other byte as before. -/
theorem Memory.read_write {lo a b : Nat} {v : Byte} :
    ∀ {m : Memory}, Memory.wfAbove lo m = true → (m.write a v).read b = if b = a then v else m.read b
  | [], _ => by
    unfold Memory.write
    by_cases e : b = a
    · subst e
      split <;> simp_all [Memory.read]
    · have : a ≠ b := fun h => e h.symm
      split <;> simp [Memory.read, this]
  | (k, w) :: rest, hw => by
    simp only [Memory.wfAbove, Bool.and_eq_true, decide_eq_true_eq] at hw
    obtain ⟨⟨⟨hk, -⟩, -⟩, hr⟩ := hw
    have ih := Memory.read_write (a := a) (b := b) (v := v) hr
    unfold Memory.write
    split
    · split
      · subst_vars
        by_cases e : b = a
        · subst e
          rw [if_pos rfl, Memory.read, if_neg (by omega)]
          exact Memory.read_below (by omega) hr
        · simp [e]
      · by_cases e : b = a
        · simp [Memory.read, e]
        · have : a ≠ b := fun h => e h.symm
          simp [Memory.read, e, this]
    · split
      · subst_vars
        by_cases e : b = k
        · subst e
          split
          · subst_vars
            rw [if_pos rfl]
            exact Memory.read_below (by omega) hr
          · simp [Memory.read]
        · have : k ≠ b := fun h => e h.symm
          split <;> simp [Memory.read, this]
      · have : a ≠ k := by assumption
        unfold Memory.read
        by_cases e : k = b
        · subst e
          simp [Ne.symm this]
        · simp [e, ih]

/-- A byte reads as it was written. -/
theorem Memory.read_write_same {m : Memory} {a : Nat} {v : Byte} (h : m.wf = true) : (m.write a v).read a = v := by
  rw [Memory.read_write h, if_pos rfl]

/-- Every other byte reads as before. -/
theorem Memory.read_write_other {m : Memory} {a b : Nat} {v : Byte} (h : m.wf = true) (hne : b ≠ a) :
    (m.write a v).read b = m.read b := by rw [Memory.read_write h, if_neg hne]

/-- Bytes outside the addresses written read as before. -/
theorem Memory.read_writeAll_other {b : Nat} : ∀ {as : List Nat} {vs : List Byte} {m : Memory}, (∀ a ∈ as, a < 2 ^ 32) →
    m.wf = true → b ∉ as → (m.writeAll as vs).read b = m.read b
  | [], _, m, _, _, _ => by cases m <;> simp [Memory.writeAll]
  | a :: as, [], m, _, _, _ => by simp [Memory.writeAll]
  | a :: as, v :: vs, m, ha, h, hb => by
    unfold Memory.writeAll
    rw [Memory.read_writeAll_other (fun c hc => ha c (List.mem_cons_of_mem _ hc))
      (Memory.write_wf (ha a (List.mem_cons_self ..)) h) (fun hc => hb (List.mem_cons_of_mem _ hc))]
    exact Memory.read_write_other h (fun e => hb (e ▸ List.mem_cons_self ..))

/-- Distinct addresses read as they were written, in order. -/
theorem Memory.readAll_writeAll : ∀ {as : List Nat} {vs : List Byte} {m : Memory}, (∀ a ∈ as, a < 2 ^ 32) → m.wf = true →
    as.Nodup → as.length = vs.length → (m.writeAll as vs).readAll as = vs
  | [], [], _, _, _, _, _ => rfl
  | [], _ :: _, _, _, _, _, h => by cases h
  | _ :: _, [], _, _, _, _, h => by cases h
  | a :: as, v :: vs, m, ha, h, hn, hl => by
    obtain ⟨hna, hn⟩ := List.nodup_cons.1 hn
    have ha' : ∀ c ∈ as, c < 2 ^ 32 := fun c hc => ha c (List.mem_cons_of_mem _ hc)
    have hw := Memory.write_wf (v := v) (ha a (List.mem_cons_self ..)) h
    have hl : as.length = vs.length := by simpa using hl
    have hr := Memory.readAll_writeAll ha' hw hn hl
    unfold Memory.writeAll
    simp only [Memory.readAll, List.map_cons] at hr ⊢
    rw [hr, Memory.read_writeAll_other ha' hw hna, Memory.read_write_same h]

/-! ### Numbers and bytes -/

/-- The number of bytes asked for. -/
@[simp] theorem bytesOf_length : ∀ (n v : Nat), (bytesOf n v).length = n
  | 0, _ => rfl
  | n + 1, v => by simp [bytesOf, bytesOf_length n]

/-- A number that fits comes back from its bytes (R91). -/
theorem natOfBytes_bytesOf : ∀ (n v : Nat), v < 256 ^ n → natOfBytes (bytesOf n v) = v
  | 0, v, h => by simp at h; simp [bytesOf, natOfBytes, h]
  | n + 1, v, h => by
    have : v / 256 < 256 ^ n := by
      rw [Nat.div_lt_iff_lt_mul (by decide)]
      rwa [Nat.pow_succ] at h
    simp only [bytesOf, natOfBytes, natOfBytes_bytesOf n _ this, BitVec.toNat_ofNat]
    omega

/-- The length of a span. -/
@[simp] theorem span_length : ∀ (n : Nat) (lin : Dword), (span lin n).length = n
  | 0, _ => rfl
  | n + 1, lin => by simp [span, span_length n]

/-- Every linear address is below 2^32. -/
theorem toNat_span_lt (lin : Dword) (n : Nat) : ∀ a ∈ (span lin n).map BitVec.toNat, a < 2 ^ 32 := by
  intro a ha
  obtain ⟨x, -, rfl⟩ := List.mem_map.1 ha
  exact x.isLt

/-! ### The physical address space -/

/-- A read of one byte changes at most the count of free values and what devices have yet to answer. -/
theorem readByte_frame (s : State) (a : Nat) :
    ∃ f d, (s.readByte a).2 = { s with free := f, devInput := d } := by
  unfold State.readByte
  split <;> exact ⟨_, _, rfl⟩

theorem readBytes_frame : ∀ (as : List Nat) (s : State),
    ∃ f d, (s.readBytes as).2 = { s with free := f, devInput := d }
  | [], s => ⟨_, _, rfl⟩
  | a :: as, s => by
    obtain ⟨f, d, h⟩ := readByte_frame s a
    obtain ⟨f', d', h'⟩ := readBytes_frame as (s.readByte a).2
    refine ⟨f', d', ?_⟩
    show ((s.readByte a).2.readBytes as).2 = _
    rw [h', h]

/-- As many bytes as addresses. -/
@[simp] theorem readBytes_length : ∀ (as : List Nat) (s : State), (s.readBytes as).1.length = as.length
  | [], s => rfl
  | a :: as, s => by simp [State.readBytes, readBytes_length as]

/-- A record of device bytes changes the record only. -/
theorem deviceDid_frame (s : State) (w : Bool) (xs : List (Nat × Byte)) :
    ∃ l, s.deviceDid w xs = { s with devLog := l } := by
  unfold State.deviceDid
  split <;> exact ⟨_, rfl⟩

/-- A read changes at most the count of free values and what passed to and from devices. -/
theorem afterRead_frame (s : State) (as : List Nat) :
    ∃ f d l, s.afterRead as = { s with free := f, devInput := d, devLog := l } := by
  obtain ⟨f, d, h⟩ := readBytes_frame as s
  unfold State.afterRead
  rw [h]
  obtain ⟨l, h'⟩ := deviceDid_frame ({ s with free := f, devInput := d } : State) false (as.zip (s.readBytes as).1)
  exact ⟨f, d, l, h'⟩

/-- A write changes memory and the record of device accesses only. -/
theorem storeBytes_frame (s : State) (as : List Nat) (vs : List Byte) :
    ∃ m l, s.storeBytes as vs = { s with mem := m, devLog := l } := by
  unfold State.storeBytes
  dsimp only
  obtain ⟨l, h⟩ := deviceDid_frame ({ s with mem := _ } : State) true (as.zip vs)
  exact ⟨_, l, h⟩

/-- The memory after a write: RAM takes its bytes. -/
theorem storeBytes_mem (s : State) (as : List Nat) (vs : List Byte) :
    (s.storeBytes as vs).mem =
      s.mem.writeAll (((as.zip vs).filter fun x => s.kindAt x.1 == .ram).map (·.1))
        (((as.zip vs).filter fun x => s.kindAt x.1 == .ram).map (·.2)) := by
  have e : ∀ (m : Memory) xs, (({ s with mem := m } : State).deviceDid true xs).mem = m := by
    intro m xs
    obtain ⟨l, h⟩ := deviceDid_frame ({ s with mem := m } : State) true xs
    rw [h]
  exact e _ _

/-- Memory and ROM read as memory, and nothing else changes. -/
theorem readBytes_memory : ∀ (as : List Nat) (s : State), (∀ a ∈ as, s.kindAt a = .ram ∨ s.kindAt a = .rom) →
    s.readBytes as = (s.mem.readAll as, s)
  | [], _, _ => rfl
  | a :: as, s, h => by
    have e : s.readByte a = (s.mem.read a, s) := by
      unfold State.readByte
      rcases h a (List.mem_cons_self ..) with h | h <;> rw [h]
    unfold State.readBytes
    rw [e, readBytes_memory as s fun b hb => h b (List.mem_cons_of_mem _ hb)]
    rfl

theorem deviceDid_memory {s : State} {w : Bool} : ∀ {xs : List (Nat × Byte)},
    (∀ x ∈ xs, s.kindAt x.1 ≠ .device) → s.deviceDid w xs = s := by
  intro xs h
  have e : xs.filter (fun x => s.kindAt x.1 == .device) = [] := by
    rw [List.filter_eq_nil_iff]
    intro x hx
    simpa using h x hx
  unfold State.deviceDid
  rw [e]

/-- A read of memory or ROM changes nothing (R103). -/
theorem afterRead_memory {s : State} {as : List Nat} (h : ∀ a ∈ as, s.kindAt a = .ram ∨ s.kindAt a = .rom) :
    s.afterRead as = s := by
  unfold State.afterRead
  rw [readBytes_memory as s h]
  refine deviceDid_memory fun x hx => ?_
  rcases h x.1 (List.of_mem_zip hx).1 with h | h <;> rw [h] <;> decide

theorem numAt_memory {s : State} {as : List Nat} (h : ∀ a ∈ as, s.kindAt a = .ram ∨ s.kindAt a = .rom) :
    s.numAt as = natOfBytes (s.mem.readAll as) := by
  unfold State.numAt
  rw [readBytes_memory as s h]

theorem writeAll_zip : ∀ (as : List Nat) (vs : List Byte) (m : Memory),
    m.writeAll ((as.zip vs).map (·.1)) ((as.zip vs).map (·.2)) = m.writeAll as vs
  | [], vs, m => by cases vs <;> simp [Memory.writeAll]
  | a :: as, [], m => by simp [Memory.writeAll]
  | a :: as, v :: vs, m => by
    simp only [List.zip_cons_cons, List.map_cons, Memory.writeAll]
    exact writeAll_zip as vs _

/-- A write to RAM writes memory (R103). -/
theorem storeBytes_ram {s : State} {as : List Nat} {vs : List Byte} (h : ∀ a ∈ as, s.kindAt a = .ram) :
    s.storeBytes as vs = { s with mem := s.mem.writeAll as vs } := by
  have e : (as.zip vs).filter (fun x => s.kindAt x.1 == .ram) = as.zip vs := by
    rw [List.filter_eq_self]
    intro x hx
    simpa using h x.1 (List.of_mem_zip hx).1
  unfold State.storeBytes
  dsimp only
  rw [e, writeAll_zip]
  refine deviceDid_memory fun x hx => ?_
  show s.kindAt x.1 ≠ .device
  rw [h x.1 (List.of_mem_zip hx).1]
  decide

/-- Every write keeps the canonical form (log 8). -/
theorem storeBytes_wf {s : State} {as : List Nat} {vs : List Byte} (ha : ∀ a ∈ as, a < 2 ^ 32) (h : s.mem.wf = true) :
    (s.storeBytes as vs).mem.wf = true := by
  rw [storeBytes_mem]
  refine Memory.writeAll_wf (fun a hx => ?_) h
  obtain ⟨x, hy, rfl⟩ := List.mem_map.1 hx
  exact ha _ (List.of_mem_zip (List.mem_filter.1 hy).1).1

/-! ### What a read and a write of physical memory leave alone -/

@[simp] theorem State.afterRead_regs (s : State) (as : List Nat) : (s.afterRead as).regs = s.regs := by
  obtain ⟨_, _, _, h⟩ := afterRead_frame s as
  rw [h]
@[simp] theorem State.afterRead_eip (s : State) (as : List Nat) : (s.afterRead as).eip = s.eip := by
  obtain ⟨_, _, _, h⟩ := afterRead_frame s as
  rw [h]
@[simp] theorem State.afterRead_eflags (s : State) (as : List Nat) : (s.afterRead as).eflags = s.eflags := by
  obtain ⟨_, _, _, h⟩ := afterRead_frame s as
  rw [h]
@[simp] theorem State.afterRead_es (s : State) (as : List Nat) : (s.afterRead as).es = s.es := by
  obtain ⟨_, _, _, h⟩ := afterRead_frame s as
  rw [h]
@[simp] theorem State.afterRead_cs (s : State) (as : List Nat) : (s.afterRead as).cs = s.cs := by
  obtain ⟨_, _, _, h⟩ := afterRead_frame s as
  rw [h]
@[simp] theorem State.afterRead_ss (s : State) (as : List Nat) : (s.afterRead as).ss = s.ss := by
  obtain ⟨_, _, _, h⟩ := afterRead_frame s as
  rw [h]
@[simp] theorem State.afterRead_ds (s : State) (as : List Nat) : (s.afterRead as).ds = s.ds := by
  obtain ⟨_, _, _, h⟩ := afterRead_frame s as
  rw [h]
@[simp] theorem State.afterRead_fs (s : State) (as : List Nat) : (s.afterRead as).fs = s.fs := by
  obtain ⟨_, _, _, h⟩ := afterRead_frame s as
  rw [h]
@[simp] theorem State.afterRead_gs (s : State) (as : List Nat) : (s.afterRead as).gs = s.gs := by
  obtain ⟨_, _, _, h⟩ := afterRead_frame s as
  rw [h]
@[simp] theorem State.afterRead_gdtr (s : State) (as : List Nat) : (s.afterRead as).gdtr = s.gdtr := by
  obtain ⟨_, _, _, h⟩ := afterRead_frame s as
  rw [h]
@[simp] theorem State.afterRead_idtr (s : State) (as : List Nat) : (s.afterRead as).idtr = s.idtr := by
  obtain ⟨_, _, _, h⟩ := afterRead_frame s as
  rw [h]
@[simp] theorem State.afterRead_ldtr (s : State) (as : List Nat) : (s.afterRead as).ldtr = s.ldtr := by
  obtain ⟨_, _, _, h⟩ := afterRead_frame s as
  rw [h]
@[simp] theorem State.afterRead_tr (s : State) (as : List Nat) : (s.afterRead as).tr = s.tr := by
  obtain ⟨_, _, _, h⟩ := afterRead_frame s as
  rw [h]
@[simp] theorem State.afterRead_cr0 (s : State) (as : List Nat) : (s.afterRead as).cr0 = s.cr0 := by
  obtain ⟨_, _, _, h⟩ := afterRead_frame s as
  rw [h]
@[simp] theorem State.afterRead_mswFresh (s : State) (as : List Nat) : (s.afterRead as).mswFresh = s.mswFresh := by
  obtain ⟨_, _, _, h⟩ := afterRead_frame s as
  rw [h]
@[simp] theorem State.afterRead_cr2 (s : State) (as : List Nat) : (s.afterRead as).cr2 = s.cr2 := by
  obtain ⟨_, _, _, h⟩ := afterRead_frame s as
  rw [h]
@[simp] theorem State.afterRead_cr3 (s : State) (as : List Nat) : (s.afterRead as).cr3 = s.cr3 := by
  obtain ⟨_, _, _, h⟩ := afterRead_frame s as
  rw [h]
@[simp] theorem State.afterRead_dr0 (s : State) (as : List Nat) : (s.afterRead as).dr0 = s.dr0 := by
  obtain ⟨_, _, _, h⟩ := afterRead_frame s as
  rw [h]
@[simp] theorem State.afterRead_dr1 (s : State) (as : List Nat) : (s.afterRead as).dr1 = s.dr1 := by
  obtain ⟨_, _, _, h⟩ := afterRead_frame s as
  rw [h]
@[simp] theorem State.afterRead_dr2 (s : State) (as : List Nat) : (s.afterRead as).dr2 = s.dr2 := by
  obtain ⟨_, _, _, h⟩ := afterRead_frame s as
  rw [h]
@[simp] theorem State.afterRead_dr3 (s : State) (as : List Nat) : (s.afterRead as).dr3 = s.dr3 := by
  obtain ⟨_, _, _, h⟩ := afterRead_frame s as
  rw [h]
@[simp] theorem State.afterRead_dr6 (s : State) (as : List Nat) : (s.afterRead as).dr6 = s.dr6 := by
  obtain ⟨_, _, _, h⟩ := afterRead_frame s as
  rw [h]
@[simp] theorem State.afterRead_dr7 (s : State) (as : List Nat) : (s.afterRead as).dr7 = s.dr7 := by
  obtain ⟨_, _, _, h⟩ := afterRead_frame s as
  rw [h]
@[simp] theorem State.afterRead_tr6 (s : State) (as : List Nat) : (s.afterRead as).tr6 = s.tr6 := by
  obtain ⟨_, _, _, h⟩ := afterRead_frame s as
  rw [h]
@[simp] theorem State.afterRead_tr7 (s : State) (as : List Nat) : (s.afterRead as).tr7 = s.tr7 := by
  obtain ⟨_, _, _, h⟩ := afterRead_frame s as
  rw [h]
@[simp] theorem State.afterRead_cpl (s : State) (as : List Nat) : (s.afterRead as).cpl = s.cpl := by
  obtain ⟨_, _, _, h⟩ := afterRead_frame s as
  rw [h]
@[simp] theorem State.afterRead_tlb (s : State) (as : List Nat) : (s.afterRead as).tlb = s.tlb := by
  obtain ⟨_, _, _, h⟩ := afterRead_frame s as
  rw [h]
@[simp] theorem State.afterRead_nmiMask (s : State) (as : List Nat) : (s.afterRead as).nmiMask = s.nmiMask := by
  obtain ⟨_, _, _, h⟩ := afterRead_frame s as
  rw [h]
@[simp] theorem State.afterRead_nmiPending (s : State) (as : List Nat) : (s.afterRead as).nmiPending = s.nmiPending := by
  obtain ⟨_, _, _, h⟩ := afterRead_frame s as
  rw [h]
@[simp] theorem State.afterRead_inhibit (s : State) (as : List Nat) : (s.afterRead as).inhibit = s.inhibit := by
  obtain ⟨_, _, _, h⟩ := afterRead_frame s as
  rw [h]
@[simp] theorem State.afterRead_inhibitIntr (s : State) (as : List Nat) : (s.afterRead as).inhibitIntr = s.inhibitIntr := by
  obtain ⟨_, _, _, h⟩ := afterRead_frame s as
  rw [h]
@[simp] theorem State.afterRead_run (s : State) (as : List Nat) : (s.afterRead as).run = s.run := by
  obtain ⟨_, _, _, h⟩ := afterRead_frame s as
  rw [h]
@[simp] theorem State.afterRead_pend (s : State) (as : List Nat) : (s.afterRead as).pend = s.pend := by
  obtain ⟨_, _, _, h⟩ := afterRead_frame s as
  rw [h]
@[simp] theorem State.afterRead_pendLate (s : State) (as : List Nat) : (s.afterRead as).pendLate = s.pendLate := by
  obtain ⟨_, _, _, h⟩ := afterRead_frame s as
  rw [h]
@[simp] theorem State.afterRead_repActive (s : State) (as : List Nat) : (s.afterRead as).repActive = s.repActive := by
  obtain ⟨_, _, _, h⟩ := afterRead_frame s as
  rw [h]
@[simp] theorem State.afterRead_ranPast (s : State) (as : List Nat) : (s.afterRead as).ranPast = s.ranPast := by
  obtain ⟨_, _, _, h⟩ := afterRead_frame s as
  rw [h]
@[simp] theorem State.afterRead_nextStart (s : State) (as : List Nat) : (s.afterRead as).nextStart = s.nextStart := by
  obtain ⟨_, _, _, h⟩ := afterRead_frame s as
  rw [h]
@[simp] theorem State.afterRead_nextEip (s : State) (as : List Nat) : (s.afterRead as).nextEip = s.nextEip := by
  simp [State.nextEip, State.code32, State.pe]
@[simp] theorem State.afterRead_mem (s : State) (as : List Nat) : (s.afterRead as).mem = s.mem := by
  obtain ⟨_, _, _, h⟩ := afterRead_frame s as
  rw [h]
@[simp] theorem State.afterRead_pinReset (s : State) (as : List Nat) : (s.afterRead as).pinReset = s.pinReset := by
  obtain ⟨_, _, _, h⟩ := afterRead_frame s as
  rw [h]
@[simp] theorem State.afterRead_pinNmi (s : State) (as : List Nat) : (s.afterRead as).pinNmi = s.pinNmi := by
  obtain ⟨_, _, _, h⟩ := afterRead_frame s as
  rw [h]
@[simp] theorem State.afterRead_intrQueue (s : State) (as : List Nat) : (s.afterRead as).intrQueue = s.intrQueue := by
  obtain ⟨_, _, _, h⟩ := afterRead_frame s as
  rw [h]
@[simp] theorem State.afterRead_pinBusy (s : State) (as : List Nat) : (s.afterRead as).pinBusy = s.pinBusy := by
  obtain ⟨_, _, _, h⟩ := afterRead_frame s as
  rw [h]
@[simp] theorem State.afterRead_pinError (s : State) (as : List Nat) : (s.afterRead as).pinError = s.pinError := by
  obtain ⟨_, _, _, h⟩ := afterRead_frame s as
  rw [h]
@[simp] theorem State.afterRead_coproc (s : State) (as : List Nat) : (s.afterRead as).coproc = s.coproc := by
  obtain ⟨_, _, _, h⟩ := afterRead_frame s as
  rw [h]
@[simp] theorem State.afterRead_coprocReplies (s : State) (as : List Nat) : (s.afterRead as).coprocReplies = s.coprocReplies := by
  obtain ⟨_, _, _, h⟩ := afterRead_frame s as
  rw [h]
@[simp] theorem State.afterRead_coprocSent (s : State) (as : List Nat) : (s.afterRead as).coprocSent = s.coprocSent := by
  obtain ⟨_, _, _, h⟩ := afterRead_frame s as
  rw [h]
@[simp] theorem State.afterRead_ioInput (s : State) (as : List Nat) : (s.afterRead as).ioInput = s.ioInput := by
  obtain ⟨_, _, _, h⟩ := afterRead_frame s as
  rw [h]
@[simp] theorem State.afterRead_ioLog (s : State) (as : List Nat) : (s.afterRead as).ioLog = s.ioLog := by
  obtain ⟨_, _, _, h⟩ := afterRead_frame s as
  rw [h]
@[simp] theorem State.afterRead_platform (s : State) (as : List Nat) : (s.afterRead as).platform = s.platform := by
  obtain ⟨_, _, _, h⟩ := afterRead_frame s as
  rw [h]
@[simp] theorem State.storeBytes_regs (s : State) (as : List Nat) (vs : List Byte) :
    (s.storeBytes as vs).regs = s.regs := by
  obtain ⟨_, _, h⟩ := storeBytes_frame s as vs
  rw [h]
@[simp] theorem State.storeBytes_eip (s : State) (as : List Nat) (vs : List Byte) :
    (s.storeBytes as vs).eip = s.eip := by
  obtain ⟨_, _, h⟩ := storeBytes_frame s as vs
  rw [h]
@[simp] theorem State.storeBytes_eflags (s : State) (as : List Nat) (vs : List Byte) :
    (s.storeBytes as vs).eflags = s.eflags := by
  obtain ⟨_, _, h⟩ := storeBytes_frame s as vs
  rw [h]
@[simp] theorem State.storeBytes_es (s : State) (as : List Nat) (vs : List Byte) :
    (s.storeBytes as vs).es = s.es := by
  obtain ⟨_, _, h⟩ := storeBytes_frame s as vs
  rw [h]
@[simp] theorem State.storeBytes_cs (s : State) (as : List Nat) (vs : List Byte) :
    (s.storeBytes as vs).cs = s.cs := by
  obtain ⟨_, _, h⟩ := storeBytes_frame s as vs
  rw [h]
@[simp] theorem State.storeBytes_ss (s : State) (as : List Nat) (vs : List Byte) :
    (s.storeBytes as vs).ss = s.ss := by
  obtain ⟨_, _, h⟩ := storeBytes_frame s as vs
  rw [h]
@[simp] theorem State.storeBytes_ds (s : State) (as : List Nat) (vs : List Byte) :
    (s.storeBytes as vs).ds = s.ds := by
  obtain ⟨_, _, h⟩ := storeBytes_frame s as vs
  rw [h]
@[simp] theorem State.storeBytes_fs (s : State) (as : List Nat) (vs : List Byte) :
    (s.storeBytes as vs).fs = s.fs := by
  obtain ⟨_, _, h⟩ := storeBytes_frame s as vs
  rw [h]
@[simp] theorem State.storeBytes_gs (s : State) (as : List Nat) (vs : List Byte) :
    (s.storeBytes as vs).gs = s.gs := by
  obtain ⟨_, _, h⟩ := storeBytes_frame s as vs
  rw [h]
@[simp] theorem State.storeBytes_gdtr (s : State) (as : List Nat) (vs : List Byte) :
    (s.storeBytes as vs).gdtr = s.gdtr := by
  obtain ⟨_, _, h⟩ := storeBytes_frame s as vs
  rw [h]
@[simp] theorem State.storeBytes_idtr (s : State) (as : List Nat) (vs : List Byte) :
    (s.storeBytes as vs).idtr = s.idtr := by
  obtain ⟨_, _, h⟩ := storeBytes_frame s as vs
  rw [h]
@[simp] theorem State.storeBytes_ldtr (s : State) (as : List Nat) (vs : List Byte) :
    (s.storeBytes as vs).ldtr = s.ldtr := by
  obtain ⟨_, _, h⟩ := storeBytes_frame s as vs
  rw [h]
@[simp] theorem State.storeBytes_tr (s : State) (as : List Nat) (vs : List Byte) :
    (s.storeBytes as vs).tr = s.tr := by
  obtain ⟨_, _, h⟩ := storeBytes_frame s as vs
  rw [h]
@[simp] theorem State.storeBytes_cr0 (s : State) (as : List Nat) (vs : List Byte) :
    (s.storeBytes as vs).cr0 = s.cr0 := by
  obtain ⟨_, _, h⟩ := storeBytes_frame s as vs
  rw [h]
@[simp] theorem State.storeBytes_mswFresh (s : State) (as : List Nat) (vs : List Byte) :
    (s.storeBytes as vs).mswFresh = s.mswFresh := by
  obtain ⟨_, _, h⟩ := storeBytes_frame s as vs
  rw [h]
@[simp] theorem State.storeBytes_cr2 (s : State) (as : List Nat) (vs : List Byte) :
    (s.storeBytes as vs).cr2 = s.cr2 := by
  obtain ⟨_, _, h⟩ := storeBytes_frame s as vs
  rw [h]
@[simp] theorem State.storeBytes_cr3 (s : State) (as : List Nat) (vs : List Byte) :
    (s.storeBytes as vs).cr3 = s.cr3 := by
  obtain ⟨_, _, h⟩ := storeBytes_frame s as vs
  rw [h]
@[simp] theorem State.storeBytes_dr0 (s : State) (as : List Nat) (vs : List Byte) :
    (s.storeBytes as vs).dr0 = s.dr0 := by
  obtain ⟨_, _, h⟩ := storeBytes_frame s as vs
  rw [h]
@[simp] theorem State.storeBytes_dr1 (s : State) (as : List Nat) (vs : List Byte) :
    (s.storeBytes as vs).dr1 = s.dr1 := by
  obtain ⟨_, _, h⟩ := storeBytes_frame s as vs
  rw [h]
@[simp] theorem State.storeBytes_dr2 (s : State) (as : List Nat) (vs : List Byte) :
    (s.storeBytes as vs).dr2 = s.dr2 := by
  obtain ⟨_, _, h⟩ := storeBytes_frame s as vs
  rw [h]
@[simp] theorem State.storeBytes_dr3 (s : State) (as : List Nat) (vs : List Byte) :
    (s.storeBytes as vs).dr3 = s.dr3 := by
  obtain ⟨_, _, h⟩ := storeBytes_frame s as vs
  rw [h]
@[simp] theorem State.storeBytes_dr6 (s : State) (as : List Nat) (vs : List Byte) :
    (s.storeBytes as vs).dr6 = s.dr6 := by
  obtain ⟨_, _, h⟩ := storeBytes_frame s as vs
  rw [h]
@[simp] theorem State.storeBytes_dr7 (s : State) (as : List Nat) (vs : List Byte) :
    (s.storeBytes as vs).dr7 = s.dr7 := by
  obtain ⟨_, _, h⟩ := storeBytes_frame s as vs
  rw [h]
@[simp] theorem State.storeBytes_tr6 (s : State) (as : List Nat) (vs : List Byte) :
    (s.storeBytes as vs).tr6 = s.tr6 := by
  obtain ⟨_, _, h⟩ := storeBytes_frame s as vs
  rw [h]
@[simp] theorem State.storeBytes_tr7 (s : State) (as : List Nat) (vs : List Byte) :
    (s.storeBytes as vs).tr7 = s.tr7 := by
  obtain ⟨_, _, h⟩ := storeBytes_frame s as vs
  rw [h]
@[simp] theorem State.storeBytes_cpl (s : State) (as : List Nat) (vs : List Byte) :
    (s.storeBytes as vs).cpl = s.cpl := by
  obtain ⟨_, _, h⟩ := storeBytes_frame s as vs
  rw [h]
@[simp] theorem State.storeBytes_tlb (s : State) (as : List Nat) (vs : List Byte) :
    (s.storeBytes as vs).tlb = s.tlb := by
  obtain ⟨_, _, h⟩ := storeBytes_frame s as vs
  rw [h]
@[simp] theorem State.storeBytes_nmiMask (s : State) (as : List Nat) (vs : List Byte) :
    (s.storeBytes as vs).nmiMask = s.nmiMask := by
  obtain ⟨_, _, h⟩ := storeBytes_frame s as vs
  rw [h]
@[simp] theorem State.storeBytes_nmiPending (s : State) (as : List Nat) (vs : List Byte) :
    (s.storeBytes as vs).nmiPending = s.nmiPending := by
  obtain ⟨_, _, h⟩ := storeBytes_frame s as vs
  rw [h]
@[simp] theorem State.storeBytes_inhibit (s : State) (as : List Nat) (vs : List Byte) :
    (s.storeBytes as vs).inhibit = s.inhibit := by
  obtain ⟨_, _, h⟩ := storeBytes_frame s as vs
  rw [h]
@[simp] theorem State.storeBytes_inhibitIntr (s : State) (as : List Nat) (vs : List Byte) :
    (s.storeBytes as vs).inhibitIntr = s.inhibitIntr := by
  obtain ⟨_, _, h⟩ := storeBytes_frame s as vs
  rw [h]
@[simp] theorem State.storeBytes_run (s : State) (as : List Nat) (vs : List Byte) :
    (s.storeBytes as vs).run = s.run := by
  obtain ⟨_, _, h⟩ := storeBytes_frame s as vs
  rw [h]
@[simp] theorem State.storeBytes_pend (s : State) (as : List Nat) (vs : List Byte) :
    (s.storeBytes as vs).pend = s.pend := by
  obtain ⟨_, _, h⟩ := storeBytes_frame s as vs
  rw [h]
@[simp] theorem State.storeBytes_pendLate (s : State) (as : List Nat) (vs : List Byte) :
    (s.storeBytes as vs).pendLate = s.pendLate := by
  obtain ⟨_, _, h⟩ := storeBytes_frame s as vs
  rw [h]
@[simp] theorem State.storeBytes_repActive (s : State) (as : List Nat) (vs : List Byte) :
    (s.storeBytes as vs).repActive = s.repActive := by
  obtain ⟨_, _, h⟩ := storeBytes_frame s as vs
  rw [h]
@[simp] theorem State.storeBytes_ranPast (s : State) (as : List Nat) (vs : List Byte) :
    (s.storeBytes as vs).ranPast = s.ranPast := by
  obtain ⟨_, _, h⟩ := storeBytes_frame s as vs
  rw [h]
@[simp] theorem State.storeBytes_nextStart (s : State) (as : List Nat) (vs : List Byte) :
    (s.storeBytes as vs).nextStart = s.nextStart := by
  obtain ⟨_, _, h⟩ := storeBytes_frame s as vs
  rw [h]
@[simp] theorem State.storeBytes_nextEip (s : State) (as : List Nat) (vs : List Byte) :
    (s.storeBytes as vs).nextEip = s.nextEip := by simp [State.nextEip, State.code32, State.pe]
@[simp] theorem State.storeBytes_free (s : State) (as : List Nat) (vs : List Byte) :
    (s.storeBytes as vs).free = s.free := by
  obtain ⟨_, _, h⟩ := storeBytes_frame s as vs
  rw [h]
@[simp] theorem State.storeBytes_pinReset (s : State) (as : List Nat) (vs : List Byte) :
    (s.storeBytes as vs).pinReset = s.pinReset := by
  obtain ⟨_, _, h⟩ := storeBytes_frame s as vs
  rw [h]
@[simp] theorem State.storeBytes_pinNmi (s : State) (as : List Nat) (vs : List Byte) :
    (s.storeBytes as vs).pinNmi = s.pinNmi := by
  obtain ⟨_, _, h⟩ := storeBytes_frame s as vs
  rw [h]
@[simp] theorem State.storeBytes_intrQueue (s : State) (as : List Nat) (vs : List Byte) :
    (s.storeBytes as vs).intrQueue = s.intrQueue := by
  obtain ⟨_, _, h⟩ := storeBytes_frame s as vs
  rw [h]
@[simp] theorem State.storeBytes_pinBusy (s : State) (as : List Nat) (vs : List Byte) :
    (s.storeBytes as vs).pinBusy = s.pinBusy := by
  obtain ⟨_, _, h⟩ := storeBytes_frame s as vs
  rw [h]
@[simp] theorem State.storeBytes_pinError (s : State) (as : List Nat) (vs : List Byte) :
    (s.storeBytes as vs).pinError = s.pinError := by
  obtain ⟨_, _, h⟩ := storeBytes_frame s as vs
  rw [h]
@[simp] theorem State.storeBytes_coproc (s : State) (as : List Nat) (vs : List Byte) :
    (s.storeBytes as vs).coproc = s.coproc := by
  obtain ⟨_, _, h⟩ := storeBytes_frame s as vs
  rw [h]
@[simp] theorem State.storeBytes_coprocReplies (s : State) (as : List Nat) (vs : List Byte) :
    (s.storeBytes as vs).coprocReplies = s.coprocReplies := by
  obtain ⟨_, _, h⟩ := storeBytes_frame s as vs
  rw [h]
@[simp] theorem State.storeBytes_coprocSent (s : State) (as : List Nat) (vs : List Byte) :
    (s.storeBytes as vs).coprocSent = s.coprocSent := by
  obtain ⟨_, _, h⟩ := storeBytes_frame s as vs
  rw [h]
@[simp] theorem State.storeBytes_ioInput (s : State) (as : List Nat) (vs : List Byte) :
    (s.storeBytes as vs).ioInput = s.ioInput := by
  obtain ⟨_, _, h⟩ := storeBytes_frame s as vs
  rw [h]
@[simp] theorem State.storeBytes_ioLog (s : State) (as : List Nat) (vs : List Byte) :
    (s.storeBytes as vs).ioLog = s.ioLog := by
  obtain ⟨_, _, h⟩ := storeBytes_frame s as vs
  rw [h]
@[simp] theorem State.storeBytes_devInput (s : State) (as : List Nat) (vs : List Byte) :
    (s.storeBytes as vs).devInput = s.devInput := by
  obtain ⟨_, _, h⟩ := storeBytes_frame s as vs
  rw [h]
@[simp] theorem State.storeBytes_platform (s : State) (as : List Nat) (vs : List Byte) :
    (s.storeBytes as vs).platform = s.platform := by
  obtain ⟨_, _, h⟩ := storeBytes_frame s as vs
  rw [h]

end Sys2Proof.Machine
end

