-- ==== Sys2Proof/Laws/State.lean ====
section
/-! SUPPORT. What each update of the state leaves alone, one lemma per field; and what reading a flag or a register gives
after one is written. -/

namespace Sys2Proof.Machine

variable (s : State)

/-! ### `setFlag` -/

@[simp] theorem State.setFlag_regs (f : Flag) (b : Bool) : (s.setFlag f b).regs = s.regs := rfl
@[simp] theorem State.setFlag_eip (f : Flag) (b : Bool) : (s.setFlag f b).eip = s.eip := rfl
@[simp] theorem State.setFlag_es (f : Flag) (b : Bool) : (s.setFlag f b).es = s.es := rfl
@[simp] theorem State.setFlag_cs (f : Flag) (b : Bool) : (s.setFlag f b).cs = s.cs := rfl
@[simp] theorem State.setFlag_ss (f : Flag) (b : Bool) : (s.setFlag f b).ss = s.ss := rfl
@[simp] theorem State.setFlag_ds (f : Flag) (b : Bool) : (s.setFlag f b).ds = s.ds := rfl
@[simp] theorem State.setFlag_fs (f : Flag) (b : Bool) : (s.setFlag f b).fs = s.fs := rfl
@[simp] theorem State.setFlag_gs (f : Flag) (b : Bool) : (s.setFlag f b).gs = s.gs := rfl
@[simp] theorem State.setFlag_gdtr (f : Flag) (b : Bool) : (s.setFlag f b).gdtr = s.gdtr := rfl
@[simp] theorem State.setFlag_idtr (f : Flag) (b : Bool) : (s.setFlag f b).idtr = s.idtr := rfl
@[simp] theorem State.setFlag_ldtr (f : Flag) (b : Bool) : (s.setFlag f b).ldtr = s.ldtr := rfl
@[simp] theorem State.setFlag_tr (f : Flag) (b : Bool) : (s.setFlag f b).tr = s.tr := rfl
@[simp] theorem State.setFlag_cr0 (f : Flag) (b : Bool) : (s.setFlag f b).cr0 = s.cr0 := rfl
@[simp] theorem State.setFlag_mswFresh (f : Flag) (b : Bool) : (s.setFlag f b).mswFresh = s.mswFresh := rfl
@[simp] theorem State.setFlag_cr2 (f : Flag) (b : Bool) : (s.setFlag f b).cr2 = s.cr2 := rfl
@[simp] theorem State.setFlag_cr3 (f : Flag) (b : Bool) : (s.setFlag f b).cr3 = s.cr3 := rfl
@[simp] theorem State.setFlag_dr0 (f : Flag) (b : Bool) : (s.setFlag f b).dr0 = s.dr0 := rfl
@[simp] theorem State.setFlag_dr1 (f : Flag) (b : Bool) : (s.setFlag f b).dr1 = s.dr1 := rfl
@[simp] theorem State.setFlag_dr2 (f : Flag) (b : Bool) : (s.setFlag f b).dr2 = s.dr2 := rfl
@[simp] theorem State.setFlag_dr3 (f : Flag) (b : Bool) : (s.setFlag f b).dr3 = s.dr3 := rfl
@[simp] theorem State.setFlag_dr6 (f : Flag) (b : Bool) : (s.setFlag f b).dr6 = s.dr6 := rfl
@[simp] theorem State.setFlag_dr7 (f : Flag) (b : Bool) : (s.setFlag f b).dr7 = s.dr7 := rfl
@[simp] theorem State.setFlag_tr6 (f : Flag) (b : Bool) : (s.setFlag f b).tr6 = s.tr6 := rfl
@[simp] theorem State.setFlag_tr7 (f : Flag) (b : Bool) : (s.setFlag f b).tr7 = s.tr7 := rfl
@[simp] theorem State.setFlag_cpl (f : Flag) (b : Bool) : (s.setFlag f b).cpl = s.cpl := rfl
@[simp] theorem State.setFlag_tlb (f : Flag) (b : Bool) : (s.setFlag f b).tlb = s.tlb := rfl
@[simp] theorem State.setFlag_nmiMask (f : Flag) (b : Bool) : (s.setFlag f b).nmiMask = s.nmiMask := rfl
@[simp] theorem State.setFlag_nmiPending (f : Flag) (b : Bool) : (s.setFlag f b).nmiPending = s.nmiPending := rfl
@[simp] theorem State.setFlag_inhibit (f : Flag) (b : Bool) : (s.setFlag f b).inhibit = s.inhibit := rfl
@[simp] theorem State.setFlag_inhibitIntr (f : Flag) (b : Bool) : (s.setFlag f b).inhibitIntr = s.inhibitIntr := rfl
@[simp] theorem State.setFlag_run (f : Flag) (b : Bool) : (s.setFlag f b).run = s.run := rfl
@[simp] theorem State.setFlag_pend (f : Flag) (b : Bool) : (s.setFlag f b).pend = s.pend := rfl
@[simp] theorem State.setFlag_pendLate (f : Flag) (b : Bool) : (s.setFlag f b).pendLate = s.pendLate := rfl
@[simp] theorem State.setFlag_repActive (f : Flag) (b : Bool) : (s.setFlag f b).repActive = s.repActive := rfl
@[simp] theorem State.setFlag_ranPast (f : Flag) (b : Bool) : (s.setFlag f b).ranPast = s.ranPast := rfl
@[simp] theorem State.setFlag_nextStart (f : Flag) (b : Bool) : (s.setFlag f b).nextStart = s.nextStart := rfl
@[simp] theorem State.setFlag_code32 (f : Flag) (b : Bool) : (s.setFlag f b).code32 = s.code32 := rfl
@[simp] theorem State.setFlag_nextEip (f : Flag) (b : Bool) : (s.setFlag f b).nextEip = s.nextEip := rfl
@[simp] theorem State.setFlag_free (f : Flag) (b : Bool) : (s.setFlag f b).free = s.free := rfl
@[simp] theorem State.setFlag_mem (f : Flag) (b : Bool) : (s.setFlag f b).mem = s.mem := rfl
@[simp] theorem State.setFlag_pinReset (f : Flag) (b : Bool) : (s.setFlag f b).pinReset = s.pinReset := rfl
@[simp] theorem State.setFlag_pinNmi (f : Flag) (b : Bool) : (s.setFlag f b).pinNmi = s.pinNmi := rfl
@[simp] theorem State.setFlag_intrQueue (f : Flag) (b : Bool) : (s.setFlag f b).intrQueue = s.intrQueue := rfl
@[simp] theorem State.setFlag_pinBusy (f : Flag) (b : Bool) : (s.setFlag f b).pinBusy = s.pinBusy := rfl
@[simp] theorem State.setFlag_pinError (f : Flag) (b : Bool) : (s.setFlag f b).pinError = s.pinError := rfl
@[simp] theorem State.setFlag_coproc (f : Flag) (b : Bool) : (s.setFlag f b).coproc = s.coproc := rfl
@[simp] theorem State.setFlag_coprocReplies (f : Flag) (b : Bool) : (s.setFlag f b).coprocReplies = s.coprocReplies := rfl
@[simp] theorem State.setFlag_coprocSent (f : Flag) (b : Bool) : (s.setFlag f b).coprocSent = s.coprocSent := rfl
@[simp] theorem State.setFlag_ioInput (f : Flag) (b : Bool) : (s.setFlag f b).ioInput = s.ioInput := rfl
@[simp] theorem State.setFlag_ioLog (f : Flag) (b : Bool) : (s.setFlag f b).ioLog = s.ioLog := rfl
@[simp] theorem State.setFlag_devInput (f : Flag) (b : Bool) : (s.setFlag f b).devInput = s.devInput := rfl
@[simp] theorem State.setFlag_devLog (f : Flag) (b : Bool) : (s.setFlag f b).devLog = s.devLog := rfl
@[simp] theorem State.setFlag_platform (f : Flag) (b : Bool) : (s.setFlag f b).platform = s.platform := rfl

/-! ### `putFlags` -/

@[simp] theorem State.putFlags_regs (m v : Dword) : (s.putFlags m v).regs = s.regs := rfl
@[simp] theorem State.putFlags_eip (m v : Dword) : (s.putFlags m v).eip = s.eip := rfl
@[simp] theorem State.putFlags_es (m v : Dword) : (s.putFlags m v).es = s.es := rfl
@[simp] theorem State.putFlags_cs (m v : Dword) : (s.putFlags m v).cs = s.cs := rfl
@[simp] theorem State.putFlags_ss (m v : Dword) : (s.putFlags m v).ss = s.ss := rfl
@[simp] theorem State.putFlags_ds (m v : Dword) : (s.putFlags m v).ds = s.ds := rfl
@[simp] theorem State.putFlags_fs (m v : Dword) : (s.putFlags m v).fs = s.fs := rfl
@[simp] theorem State.putFlags_gs (m v : Dword) : (s.putFlags m v).gs = s.gs := rfl
@[simp] theorem State.putFlags_gdtr (m v : Dword) : (s.putFlags m v).gdtr = s.gdtr := rfl
@[simp] theorem State.putFlags_idtr (m v : Dword) : (s.putFlags m v).idtr = s.idtr := rfl
@[simp] theorem State.putFlags_ldtr (m v : Dword) : (s.putFlags m v).ldtr = s.ldtr := rfl
@[simp] theorem State.putFlags_tr (m v : Dword) : (s.putFlags m v).tr = s.tr := rfl
@[simp] theorem State.putFlags_cr0 (m v : Dword) : (s.putFlags m v).cr0 = s.cr0 := rfl
@[simp] theorem State.putFlags_mswFresh (m v : Dword) : (s.putFlags m v).mswFresh = s.mswFresh := rfl
@[simp] theorem State.putFlags_cr2 (m v : Dword) : (s.putFlags m v).cr2 = s.cr2 := rfl
@[simp] theorem State.putFlags_cr3 (m v : Dword) : (s.putFlags m v).cr3 = s.cr3 := rfl
@[simp] theorem State.putFlags_dr0 (m v : Dword) : (s.putFlags m v).dr0 = s.dr0 := rfl
@[simp] theorem State.putFlags_dr1 (m v : Dword) : (s.putFlags m v).dr1 = s.dr1 := rfl
@[simp] theorem State.putFlags_dr2 (m v : Dword) : (s.putFlags m v).dr2 = s.dr2 := rfl
@[simp] theorem State.putFlags_dr3 (m v : Dword) : (s.putFlags m v).dr3 = s.dr3 := rfl
@[simp] theorem State.putFlags_dr6 (m v : Dword) : (s.putFlags m v).dr6 = s.dr6 := rfl
@[simp] theorem State.putFlags_dr7 (m v : Dword) : (s.putFlags m v).dr7 = s.dr7 := rfl
@[simp] theorem State.putFlags_tr6 (m v : Dword) : (s.putFlags m v).tr6 = s.tr6 := rfl
@[simp] theorem State.putFlags_tr7 (m v : Dword) : (s.putFlags m v).tr7 = s.tr7 := rfl
@[simp] theorem State.putFlags_cpl (m v : Dword) : (s.putFlags m v).cpl = s.cpl := rfl
@[simp] theorem State.putFlags_tlb (m v : Dword) : (s.putFlags m v).tlb = s.tlb := rfl
@[simp] theorem State.putFlags_nmiMask (m v : Dword) : (s.putFlags m v).nmiMask = s.nmiMask := rfl
@[simp] theorem State.putFlags_nmiPending (m v : Dword) : (s.putFlags m v).nmiPending = s.nmiPending := rfl
@[simp] theorem State.putFlags_inhibit (m v : Dword) : (s.putFlags m v).inhibit = s.inhibit := rfl
@[simp] theorem State.putFlags_inhibitIntr (m v : Dword) : (s.putFlags m v).inhibitIntr = s.inhibitIntr := rfl
@[simp] theorem State.putFlags_run (m v : Dword) : (s.putFlags m v).run = s.run := rfl
@[simp] theorem State.putFlags_pend (m v : Dword) : (s.putFlags m v).pend = s.pend := rfl
@[simp] theorem State.putFlags_pendLate (m v : Dword) : (s.putFlags m v).pendLate = s.pendLate := rfl
@[simp] theorem State.putFlags_repActive (m v : Dword) : (s.putFlags m v).repActive = s.repActive := rfl
@[simp] theorem State.putFlags_ranPast (m v : Dword) : (s.putFlags m v).ranPast = s.ranPast := rfl
@[simp] theorem State.putFlags_nextStart (m v : Dword) : (s.putFlags m v).nextStart = s.nextStart := rfl
@[simp] theorem State.putFlags_nextEip (m v : Dword) : (s.putFlags m v).nextEip = s.nextEip := rfl
@[simp] theorem State.putFlags_free (m v : Dword) : (s.putFlags m v).free = s.free := rfl
@[simp] theorem State.putFlags_mem (m v : Dword) : (s.putFlags m v).mem = s.mem := rfl
@[simp] theorem State.putFlags_pinReset (m v : Dword) : (s.putFlags m v).pinReset = s.pinReset := rfl
@[simp] theorem State.putFlags_pinNmi (m v : Dword) : (s.putFlags m v).pinNmi = s.pinNmi := rfl
@[simp] theorem State.putFlags_intrQueue (m v : Dword) : (s.putFlags m v).intrQueue = s.intrQueue := rfl
@[simp] theorem State.putFlags_pinBusy (m v : Dword) : (s.putFlags m v).pinBusy = s.pinBusy := rfl
@[simp] theorem State.putFlags_pinError (m v : Dword) : (s.putFlags m v).pinError = s.pinError := rfl
@[simp] theorem State.putFlags_coproc (m v : Dword) : (s.putFlags m v).coproc = s.coproc := rfl
@[simp] theorem State.putFlags_coprocReplies (m v : Dword) : (s.putFlags m v).coprocReplies = s.coprocReplies := rfl
@[simp] theorem State.putFlags_coprocSent (m v : Dword) : (s.putFlags m v).coprocSent = s.coprocSent := rfl
@[simp] theorem State.putFlags_ioInput (m v : Dword) : (s.putFlags m v).ioInput = s.ioInput := rfl
@[simp] theorem State.putFlags_ioLog (m v : Dword) : (s.putFlags m v).ioLog = s.ioLog := rfl
@[simp] theorem State.putFlags_devInput (m v : Dword) : (s.putFlags m v).devInput = s.devInput := rfl
@[simp] theorem State.putFlags_devLog (m v : Dword) : (s.putFlags m v).devLog = s.devLog := rfl
@[simp] theorem State.putFlags_platform (m v : Dword) : (s.putFlags m v).platform = s.platform := rfl

/-! ### `setReg` -/

@[simp] theorem State.setReg_eip (w : Width) (r : Reg) (v : BitVec w.bits) : (s.setReg w r v).eip = s.eip := by cases w <;> rfl
@[simp] theorem State.setReg_eflags (w : Width) (r : Reg) (v : BitVec w.bits) : (s.setReg w r v).eflags = s.eflags := by cases w <;> rfl
@[simp] theorem State.setReg_es (w : Width) (r : Reg) (v : BitVec w.bits) : (s.setReg w r v).es = s.es := by cases w <;> rfl
@[simp] theorem State.setReg_cs (w : Width) (r : Reg) (v : BitVec w.bits) : (s.setReg w r v).cs = s.cs := by cases w <;> rfl
@[simp] theorem State.setReg_ss (w : Width) (r : Reg) (v : BitVec w.bits) : (s.setReg w r v).ss = s.ss := by cases w <;> rfl
@[simp] theorem State.setReg_ds (w : Width) (r : Reg) (v : BitVec w.bits) : (s.setReg w r v).ds = s.ds := by cases w <;> rfl
@[simp] theorem State.setReg_fs (w : Width) (r : Reg) (v : BitVec w.bits) : (s.setReg w r v).fs = s.fs := by cases w <;> rfl
@[simp] theorem State.setReg_gs (w : Width) (r : Reg) (v : BitVec w.bits) : (s.setReg w r v).gs = s.gs := by cases w <;> rfl
@[simp] theorem State.setReg_gdtr (w : Width) (r : Reg) (v : BitVec w.bits) : (s.setReg w r v).gdtr = s.gdtr := by cases w <;> rfl
@[simp] theorem State.setReg_idtr (w : Width) (r : Reg) (v : BitVec w.bits) : (s.setReg w r v).idtr = s.idtr := by cases w <;> rfl
@[simp] theorem State.setReg_ldtr (w : Width) (r : Reg) (v : BitVec w.bits) : (s.setReg w r v).ldtr = s.ldtr := by cases w <;> rfl
@[simp] theorem State.setReg_tr (w : Width) (r : Reg) (v : BitVec w.bits) : (s.setReg w r v).tr = s.tr := by cases w <;> rfl
@[simp] theorem State.setReg_cr0 (w : Width) (r : Reg) (v : BitVec w.bits) : (s.setReg w r v).cr0 = s.cr0 := by cases w <;> rfl
@[simp] theorem State.setReg_mswFresh (w : Width) (r : Reg) (v : BitVec w.bits) : (s.setReg w r v).mswFresh = s.mswFresh := by cases w <;> rfl
@[simp] theorem State.setReg_cr2 (w : Width) (r : Reg) (v : BitVec w.bits) : (s.setReg w r v).cr2 = s.cr2 := by cases w <;> rfl
@[simp] theorem State.setReg_cr3 (w : Width) (r : Reg) (v : BitVec w.bits) : (s.setReg w r v).cr3 = s.cr3 := by cases w <;> rfl
@[simp] theorem State.setReg_dr0 (w : Width) (r : Reg) (v : BitVec w.bits) : (s.setReg w r v).dr0 = s.dr0 := by cases w <;> rfl
@[simp] theorem State.setReg_dr1 (w : Width) (r : Reg) (v : BitVec w.bits) : (s.setReg w r v).dr1 = s.dr1 := by cases w <;> rfl
@[simp] theorem State.setReg_dr2 (w : Width) (r : Reg) (v : BitVec w.bits) : (s.setReg w r v).dr2 = s.dr2 := by cases w <;> rfl
@[simp] theorem State.setReg_dr3 (w : Width) (r : Reg) (v : BitVec w.bits) : (s.setReg w r v).dr3 = s.dr3 := by cases w <;> rfl
@[simp] theorem State.setReg_dr6 (w : Width) (r : Reg) (v : BitVec w.bits) : (s.setReg w r v).dr6 = s.dr6 := by cases w <;> rfl
@[simp] theorem State.setReg_dr7 (w : Width) (r : Reg) (v : BitVec w.bits) : (s.setReg w r v).dr7 = s.dr7 := by cases w <;> rfl
@[simp] theorem State.setReg_tr6 (w : Width) (r : Reg) (v : BitVec w.bits) : (s.setReg w r v).tr6 = s.tr6 := by cases w <;> rfl
@[simp] theorem State.setReg_tr7 (w : Width) (r : Reg) (v : BitVec w.bits) : (s.setReg w r v).tr7 = s.tr7 := by cases w <;> rfl
@[simp] theorem State.setReg_cpl (w : Width) (r : Reg) (v : BitVec w.bits) : (s.setReg w r v).cpl = s.cpl := by cases w <;> rfl
@[simp] theorem State.setReg_tlb (w : Width) (r : Reg) (v : BitVec w.bits) : (s.setReg w r v).tlb = s.tlb := by cases w <;> rfl
@[simp] theorem State.setReg_nmiMask (w : Width) (r : Reg) (v : BitVec w.bits) : (s.setReg w r v).nmiMask = s.nmiMask := by cases w <;> rfl
@[simp] theorem State.setReg_nmiPending (w : Width) (r : Reg) (v : BitVec w.bits) : (s.setReg w r v).nmiPending = s.nmiPending := by cases w <;> rfl
@[simp] theorem State.setReg_inhibit (w : Width) (r : Reg) (v : BitVec w.bits) : (s.setReg w r v).inhibit = s.inhibit := by cases w <;> rfl
@[simp] theorem State.setReg_inhibitIntr (w : Width) (r : Reg) (v : BitVec w.bits) : (s.setReg w r v).inhibitIntr = s.inhibitIntr := by cases w <;> rfl
@[simp] theorem State.setReg_run (w : Width) (r : Reg) (v : BitVec w.bits) : (s.setReg w r v).run = s.run := by cases w <;> rfl
@[simp] theorem State.setReg_pend (w : Width) (r : Reg) (v : BitVec w.bits) : (s.setReg w r v).pend = s.pend := by cases w <;> rfl
@[simp] theorem State.setReg_pendLate (w : Width) (r : Reg) (v : BitVec w.bits) : (s.setReg w r v).pendLate = s.pendLate := by cases w <;> rfl
@[simp] theorem State.setReg_repActive (w : Width) (r : Reg) (v : BitVec w.bits) : (s.setReg w r v).repActive = s.repActive := by cases w <;> rfl
@[simp] theorem State.setReg_ranPast (w : Width) (r : Reg) (v : BitVec w.bits) : (s.setReg w r v).ranPast = s.ranPast := by cases w <;> rfl
@[simp] theorem State.setReg_nextStart (w : Width) (r : Reg) (v : BitVec w.bits) : (s.setReg w r v).nextStart = s.nextStart := by cases w <;> rfl
@[simp] theorem State.setReg_nextEip (w : Width) (r : Reg) (v : BitVec w.bits) : (s.setReg w r v).nextEip = s.nextEip := by cases w <;> rfl
@[simp] theorem State.setReg_free (w : Width) (r : Reg) (v : BitVec w.bits) : (s.setReg w r v).free = s.free := by cases w <;> rfl
@[simp] theorem State.setReg_mem (w : Width) (r : Reg) (v : BitVec w.bits) : (s.setReg w r v).mem = s.mem := by cases w <;> rfl
@[simp] theorem State.setReg_pinReset (w : Width) (r : Reg) (v : BitVec w.bits) : (s.setReg w r v).pinReset = s.pinReset := by cases w <;> rfl
@[simp] theorem State.setReg_pinNmi (w : Width) (r : Reg) (v : BitVec w.bits) : (s.setReg w r v).pinNmi = s.pinNmi := by cases w <;> rfl
@[simp] theorem State.setReg_intrQueue (w : Width) (r : Reg) (v : BitVec w.bits) : (s.setReg w r v).intrQueue = s.intrQueue := by cases w <;> rfl
@[simp] theorem State.setReg_pinBusy (w : Width) (r : Reg) (v : BitVec w.bits) : (s.setReg w r v).pinBusy = s.pinBusy := by cases w <;> rfl
@[simp] theorem State.setReg_pinError (w : Width) (r : Reg) (v : BitVec w.bits) : (s.setReg w r v).pinError = s.pinError := by cases w <;> rfl
@[simp] theorem State.setReg_coproc (w : Width) (r : Reg) (v : BitVec w.bits) : (s.setReg w r v).coproc = s.coproc := by cases w <;> rfl
@[simp] theorem State.setReg_coprocReplies (w : Width) (r : Reg) (v : BitVec w.bits) : (s.setReg w r v).coprocReplies = s.coprocReplies := by cases w <;> rfl
@[simp] theorem State.setReg_coprocSent (w : Width) (r : Reg) (v : BitVec w.bits) : (s.setReg w r v).coprocSent = s.coprocSent := by cases w <;> rfl
@[simp] theorem State.setReg_ioInput (w : Width) (r : Reg) (v : BitVec w.bits) : (s.setReg w r v).ioInput = s.ioInput := by cases w <;> rfl
@[simp] theorem State.setReg_ioLog (w : Width) (r : Reg) (v : BitVec w.bits) : (s.setReg w r v).ioLog = s.ioLog := by cases w <;> rfl
@[simp] theorem State.setReg_devInput (w : Width) (r : Reg) (v : BitVec w.bits) : (s.setReg w r v).devInput = s.devInput := by cases w <;> rfl
@[simp] theorem State.setReg_devLog (w : Width) (r : Reg) (v : BitVec w.bits) : (s.setReg w r v).devLog = s.devLog := by cases w <;> rfl
@[simp] theorem State.setReg_platform (w : Width) (r : Reg) (v : BitVec w.bits) : (s.setReg w r v).platform = s.platform := by cases w <;> rfl

/-! ### `trimEip` -/

/-- EIP in 0 to FFFFH in a 16-bit code segment (R118). -/
@[simp] theorem State.trimEip_eip : s.trimEip.eip = cut s.code32 s.eip := rfl
@[simp] theorem State.trimEip_code32 : s.trimEip.code32 = s.code32 := rfl
@[simp] theorem State.trimEip_fetchOff : s.trimEip.fetchOff = s.fetchOff := by
  simp only [State.fetchOff, State.trimEip, cut]
  split <;> simp [BitVec.and_assoc]
@[simp] theorem State.trimEip_regs : s.trimEip.regs = s.regs := rfl
@[simp] theorem State.trimEip_es : s.trimEip.es = s.es := rfl
@[simp] theorem State.trimEip_cs : s.trimEip.cs = s.cs := rfl
@[simp] theorem State.trimEip_ss : s.trimEip.ss = s.ss := rfl
@[simp] theorem State.trimEip_ds : s.trimEip.ds = s.ds := rfl
@[simp] theorem State.trimEip_fs : s.trimEip.fs = s.fs := rfl
@[simp] theorem State.trimEip_gs : s.trimEip.gs = s.gs := rfl
@[simp] theorem State.trimEip_gdtr : s.trimEip.gdtr = s.gdtr := rfl
@[simp] theorem State.trimEip_idtr : s.trimEip.idtr = s.idtr := rfl
@[simp] theorem State.trimEip_ldtr : s.trimEip.ldtr = s.ldtr := rfl
@[simp] theorem State.trimEip_tr : s.trimEip.tr = s.tr := rfl
@[simp] theorem State.trimEip_cr0 : s.trimEip.cr0 = s.cr0 := rfl
@[simp] theorem State.trimEip_mswFresh : s.trimEip.mswFresh = s.mswFresh := rfl
@[simp] theorem State.trimEip_cr2 : s.trimEip.cr2 = s.cr2 := rfl
@[simp] theorem State.trimEip_cr3 : s.trimEip.cr3 = s.cr3 := rfl
@[simp] theorem State.trimEip_dr0 : s.trimEip.dr0 = s.dr0 := rfl
@[simp] theorem State.trimEip_dr1 : s.trimEip.dr1 = s.dr1 := rfl
@[simp] theorem State.trimEip_dr2 : s.trimEip.dr2 = s.dr2 := rfl
@[simp] theorem State.trimEip_dr3 : s.trimEip.dr3 = s.dr3 := rfl
@[simp] theorem State.trimEip_dr6 : s.trimEip.dr6 = s.dr6 := rfl
@[simp] theorem State.trimEip_dr7 : s.trimEip.dr7 = s.dr7 := rfl
@[simp] theorem State.trimEip_tr6 : s.trimEip.tr6 = s.tr6 := rfl
@[simp] theorem State.trimEip_tr7 : s.trimEip.tr7 = s.tr7 := rfl
@[simp] theorem State.trimEip_cpl : s.trimEip.cpl = s.cpl := rfl
@[simp] theorem State.trimEip_tlb : s.trimEip.tlb = s.tlb := rfl
@[simp] theorem State.trimEip_nmiMask : s.trimEip.nmiMask = s.nmiMask := rfl
@[simp] theorem State.trimEip_nmiPending : s.trimEip.nmiPending = s.nmiPending := rfl
@[simp] theorem State.trimEip_inhibit : s.trimEip.inhibit = s.inhibit := rfl
@[simp] theorem State.trimEip_inhibitIntr : s.trimEip.inhibitIntr = s.inhibitIntr := rfl
@[simp] theorem State.trimEip_run : s.trimEip.run = s.run := rfl
@[simp] theorem State.trimEip_pend : s.trimEip.pend = s.pend := rfl
@[simp] theorem State.trimEip_pendLate : s.trimEip.pendLate = s.pendLate := rfl
@[simp] theorem State.trimEip_repActive : s.trimEip.repActive = s.repActive := rfl
@[simp] theorem State.trimEip_ranPast : s.trimEip.ranPast = s.ranPast := rfl
@[simp] theorem State.trimEip_nextStart : s.trimEip.nextStart = s.nextStart := rfl
@[simp] theorem State.trimEip_nextEip : s.trimEip.nextEip = s.nextEip := rfl
@[simp] theorem State.trimEip_free : s.trimEip.free = s.free := rfl
@[simp] theorem State.trimEip_mem : s.trimEip.mem = s.mem := rfl
@[simp] theorem State.trimEip_pinReset : s.trimEip.pinReset = s.pinReset := rfl
@[simp] theorem State.trimEip_pinNmi : s.trimEip.pinNmi = s.pinNmi := rfl
@[simp] theorem State.trimEip_intrQueue : s.trimEip.intrQueue = s.intrQueue := rfl
@[simp] theorem State.trimEip_pinBusy : s.trimEip.pinBusy = s.pinBusy := rfl
@[simp] theorem State.trimEip_pinError : s.trimEip.pinError = s.pinError := rfl
@[simp] theorem State.trimEip_coproc : s.trimEip.coproc = s.coproc := rfl
@[simp] theorem State.trimEip_coprocReplies : s.trimEip.coprocReplies = s.coprocReplies := rfl
@[simp] theorem State.trimEip_coprocSent : s.trimEip.coprocSent = s.coprocSent := rfl
@[simp] theorem State.trimEip_ioInput : s.trimEip.ioInput = s.ioInput := rfl
@[simp] theorem State.trimEip_ioLog : s.trimEip.ioLog = s.ioLog := rfl
@[simp] theorem State.trimEip_devInput : s.trimEip.devInput = s.devInput := rfl
@[simp] theorem State.trimEip_devLog : s.trimEip.devLog = s.devLog := rfl
@[simp] theorem State.trimEip_platform : s.trimEip.platform = s.platform := rfl
@[simp] theorem State.trimEip_eflags : s.trimEip.eflags = s.eflags := rfl

/-! ### `begun` -/

@[simp] theorem State.begun_regs : s.begun.regs = s.regs := rfl
@[simp] theorem State.begun_eip : s.begun.eip = s.eip := rfl
@[simp] theorem State.begun_eflags : s.begun.eflags = s.eflags := rfl
@[simp] theorem State.begun_es : s.begun.es = s.es := rfl
@[simp] theorem State.begun_cs : s.begun.cs = s.cs := rfl
@[simp] theorem State.begun_ss : s.begun.ss = s.ss := rfl
@[simp] theorem State.begun_ds : s.begun.ds = s.ds := rfl
@[simp] theorem State.begun_fs : s.begun.fs = s.fs := rfl
@[simp] theorem State.begun_gs : s.begun.gs = s.gs := rfl
@[simp] theorem State.begun_gdtr : s.begun.gdtr = s.gdtr := rfl
@[simp] theorem State.begun_idtr : s.begun.idtr = s.idtr := rfl
@[simp] theorem State.begun_ldtr : s.begun.ldtr = s.ldtr := rfl
@[simp] theorem State.begun_tr : s.begun.tr = s.tr := rfl
@[simp] theorem State.begun_cr0 : s.begun.cr0 = s.cr0 := rfl
@[simp] theorem State.begun_mswFresh : s.begun.mswFresh = s.mswFresh := rfl
@[simp] theorem State.begun_cr2 : s.begun.cr2 = s.cr2 := rfl
@[simp] theorem State.begun_cr3 : s.begun.cr3 = s.cr3 := rfl
@[simp] theorem State.begun_dr0 : s.begun.dr0 = s.dr0 := rfl
@[simp] theorem State.begun_dr1 : s.begun.dr1 = s.dr1 := rfl
@[simp] theorem State.begun_dr2 : s.begun.dr2 = s.dr2 := rfl
@[simp] theorem State.begun_dr3 : s.begun.dr3 = s.dr3 := rfl
@[simp] theorem State.begun_dr6 : s.begun.dr6 = s.dr6 := rfl
@[simp] theorem State.begun_dr7 : s.begun.dr7 = s.dr7 := rfl
@[simp] theorem State.begun_tr6 : s.begun.tr6 = s.tr6 := rfl
@[simp] theorem State.begun_tr7 : s.begun.tr7 = s.tr7 := rfl
@[simp] theorem State.begun_cpl : s.begun.cpl = s.cpl := rfl
@[simp] theorem State.begun_tlb : s.begun.tlb = s.tlb := rfl
@[simp] theorem State.begun_nmiMask : s.begun.nmiMask = s.nmiMask := rfl
@[simp] theorem State.begun_nmiPending : s.begun.nmiPending = s.nmiPending := rfl
@[simp] theorem State.begun_run : s.begun.run = s.run := rfl
@[simp] theorem State.begun_ranPast : s.begun.ranPast = false := rfl
@[simp] theorem State.begun_nextStart : s.begun.nextStart = s.nextStart := rfl
@[simp] theorem State.begun_code32 : s.begun.code32 = s.code32 := rfl
@[simp] theorem State.begun_nextEip : s.begun.nextEip = s.nextEip := rfl
@[simp] theorem State.begun_free : s.begun.free = s.free := rfl
@[simp] theorem State.begun_mem : s.begun.mem = s.mem := rfl
@[simp] theorem State.begun_pinReset : s.begun.pinReset = s.pinReset := rfl
@[simp] theorem State.begun_pinNmi : s.begun.pinNmi = s.pinNmi := rfl
@[simp] theorem State.begun_intrQueue : s.begun.intrQueue = s.intrQueue := rfl
@[simp] theorem State.begun_pinBusy : s.begun.pinBusy = s.pinBusy := rfl
@[simp] theorem State.begun_pinError : s.begun.pinError = s.pinError := rfl
@[simp] theorem State.begun_coproc : s.begun.coproc = s.coproc := rfl
@[simp] theorem State.begun_coprocReplies : s.begun.coprocReplies = s.coprocReplies := rfl
@[simp] theorem State.begun_coprocSent : s.begun.coprocSent = s.coprocSent := rfl
@[simp] theorem State.begun_ioInput : s.begun.ioInput = s.ioInput := rfl
@[simp] theorem State.begun_ioLog : s.begun.ioLog = s.ioLog := rfl
@[simp] theorem State.begun_devInput : s.begun.devInput = s.devInput := rfl
@[simp] theorem State.begun_devLog : s.begun.devLog = s.devLog := rfl
@[simp] theorem State.begun_platform : s.begun.platform = s.platform := rfl

/-! ### `setEsp`, `setIdx` and `stepIdx` -/

@[simp] theorem State.setEsp_eip (v : Dword) : (s.setEsp v).eip = s.eip := by unfold State.setEsp; split <;> simp
@[simp] theorem State.setEsp_eflags (v : Dword) : (s.setEsp v).eflags = s.eflags := by unfold State.setEsp; split <;> simp
@[simp] theorem State.setEsp_es (v : Dword) : (s.setEsp v).es = s.es := by unfold State.setEsp; split <;> simp
@[simp] theorem State.setEsp_cs (v : Dword) : (s.setEsp v).cs = s.cs := by unfold State.setEsp; split <;> simp
@[simp] theorem State.setEsp_ss (v : Dword) : (s.setEsp v).ss = s.ss := by unfold State.setEsp; split <;> simp
@[simp] theorem State.setEsp_ds (v : Dword) : (s.setEsp v).ds = s.ds := by unfold State.setEsp; split <;> simp
@[simp] theorem State.setEsp_fs (v : Dword) : (s.setEsp v).fs = s.fs := by unfold State.setEsp; split <;> simp
@[simp] theorem State.setEsp_gs (v : Dword) : (s.setEsp v).gs = s.gs := by unfold State.setEsp; split <;> simp
@[simp] theorem State.setEsp_gdtr (v : Dword) : (s.setEsp v).gdtr = s.gdtr := by unfold State.setEsp; split <;> simp
@[simp] theorem State.setEsp_idtr (v : Dword) : (s.setEsp v).idtr = s.idtr := by unfold State.setEsp; split <;> simp
@[simp] theorem State.setEsp_ldtr (v : Dword) : (s.setEsp v).ldtr = s.ldtr := by unfold State.setEsp; split <;> simp
@[simp] theorem State.setEsp_tr (v : Dword) : (s.setEsp v).tr = s.tr := by unfold State.setEsp; split <;> simp
@[simp] theorem State.setEsp_cr0 (v : Dword) : (s.setEsp v).cr0 = s.cr0 := by unfold State.setEsp; split <;> simp
@[simp] theorem State.setEsp_mswFresh (v : Dword) : (s.setEsp v).mswFresh = s.mswFresh := by unfold State.setEsp; split <;> simp
@[simp] theorem State.setEsp_cr2 (v : Dword) : (s.setEsp v).cr2 = s.cr2 := by unfold State.setEsp; split <;> simp
@[simp] theorem State.setEsp_cr3 (v : Dword) : (s.setEsp v).cr3 = s.cr3 := by unfold State.setEsp; split <;> simp
@[simp] theorem State.setEsp_dr0 (v : Dword) : (s.setEsp v).dr0 = s.dr0 := by unfold State.setEsp; split <;> simp
@[simp] theorem State.setEsp_dr1 (v : Dword) : (s.setEsp v).dr1 = s.dr1 := by unfold State.setEsp; split <;> simp
@[simp] theorem State.setEsp_dr2 (v : Dword) : (s.setEsp v).dr2 = s.dr2 := by unfold State.setEsp; split <;> simp
@[simp] theorem State.setEsp_dr3 (v : Dword) : (s.setEsp v).dr3 = s.dr3 := by unfold State.setEsp; split <;> simp
@[simp] theorem State.setEsp_dr6 (v : Dword) : (s.setEsp v).dr6 = s.dr6 := by unfold State.setEsp; split <;> simp
@[simp] theorem State.setEsp_dr7 (v : Dword) : (s.setEsp v).dr7 = s.dr7 := by unfold State.setEsp; split <;> simp
@[simp] theorem State.setEsp_tr6 (v : Dword) : (s.setEsp v).tr6 = s.tr6 := by unfold State.setEsp; split <;> simp
@[simp] theorem State.setEsp_tr7 (v : Dword) : (s.setEsp v).tr7 = s.tr7 := by unfold State.setEsp; split <;> simp
@[simp] theorem State.setEsp_cpl (v : Dword) : (s.setEsp v).cpl = s.cpl := by unfold State.setEsp; split <;> simp
@[simp] theorem State.setEsp_tlb (v : Dword) : (s.setEsp v).tlb = s.tlb := by unfold State.setEsp; split <;> simp
@[simp] theorem State.setEsp_nmiMask (v : Dword) : (s.setEsp v).nmiMask = s.nmiMask := by unfold State.setEsp; split <;> simp
@[simp] theorem State.setEsp_nmiPending (v : Dword) : (s.setEsp v).nmiPending = s.nmiPending := by unfold State.setEsp; split <;> simp
@[simp] theorem State.setEsp_inhibit (v : Dword) : (s.setEsp v).inhibit = s.inhibit := by unfold State.setEsp; split <;> simp
@[simp] theorem State.setEsp_inhibitIntr (v : Dword) : (s.setEsp v).inhibitIntr = s.inhibitIntr := by unfold State.setEsp; split <;> simp
@[simp] theorem State.setEsp_run (v : Dword) : (s.setEsp v).run = s.run := by unfold State.setEsp; split <;> simp
@[simp] theorem State.setEsp_pend (v : Dword) : (s.setEsp v).pend = s.pend := by unfold State.setEsp; split <;> simp
@[simp] theorem State.setEsp_pendLate (v : Dword) : (s.setEsp v).pendLate = s.pendLate := by unfold State.setEsp; split <;> simp
@[simp] theorem State.setEsp_repActive (v : Dword) : (s.setEsp v).repActive = s.repActive := by unfold State.setEsp; split <;> simp
@[simp] theorem State.setEsp_ranPast (v : Dword) : (s.setEsp v).ranPast = s.ranPast := by unfold State.setEsp; split <;> simp
@[simp] theorem State.setEsp_nextStart (v : Dword) : (s.setEsp v).nextStart = s.nextStart := by unfold State.setEsp; split <;> simp
@[simp] theorem State.setEsp_nextEip (v : Dword) : (s.setEsp v).nextEip = s.nextEip := by unfold State.setEsp; split <;> simp
@[simp] theorem State.setEsp_free (v : Dword) : (s.setEsp v).free = s.free := by unfold State.setEsp; split <;> simp
@[simp] theorem State.setEsp_mem (v : Dword) : (s.setEsp v).mem = s.mem := by unfold State.setEsp; split <;> simp
@[simp] theorem State.setEsp_pinReset (v : Dword) : (s.setEsp v).pinReset = s.pinReset := by unfold State.setEsp; split <;> simp
@[simp] theorem State.setEsp_pinNmi (v : Dword) : (s.setEsp v).pinNmi = s.pinNmi := by unfold State.setEsp; split <;> simp
@[simp] theorem State.setEsp_intrQueue (v : Dword) : (s.setEsp v).intrQueue = s.intrQueue := by unfold State.setEsp; split <;> simp
@[simp] theorem State.setEsp_pinBusy (v : Dword) : (s.setEsp v).pinBusy = s.pinBusy := by unfold State.setEsp; split <;> simp
@[simp] theorem State.setEsp_pinError (v : Dword) : (s.setEsp v).pinError = s.pinError := by unfold State.setEsp; split <;> simp
@[simp] theorem State.setEsp_coproc (v : Dword) : (s.setEsp v).coproc = s.coproc := by unfold State.setEsp; split <;> simp
@[simp] theorem State.setEsp_coprocReplies (v : Dword) : (s.setEsp v).coprocReplies = s.coprocReplies := by unfold State.setEsp; split <;> simp
@[simp] theorem State.setEsp_coprocSent (v : Dword) : (s.setEsp v).coprocSent = s.coprocSent := by unfold State.setEsp; split <;> simp
@[simp] theorem State.setEsp_ioInput (v : Dword) : (s.setEsp v).ioInput = s.ioInput := by unfold State.setEsp; split <;> simp
@[simp] theorem State.setEsp_ioLog (v : Dword) : (s.setEsp v).ioLog = s.ioLog := by unfold State.setEsp; split <;> simp
@[simp] theorem State.setEsp_devInput (v : Dword) : (s.setEsp v).devInput = s.devInput := by unfold State.setEsp; split <;> simp
@[simp] theorem State.setEsp_devLog (v : Dword) : (s.setEsp v).devLog = s.devLog := by unfold State.setEsp; split <;> simp
@[simp] theorem State.setEsp_platform (v : Dword) : (s.setEsp v).platform = s.platform := by unfold State.setEsp; split <;> simp

@[simp] theorem State.setIdx_eip (w : Width) (r : Reg) (v : Dword) : (s.setIdx w r v).eip = s.eip := by unfold State.setIdx; split <;> simp
@[simp] theorem State.setIdx_eflags (w : Width) (r : Reg) (v : Dword) : (s.setIdx w r v).eflags = s.eflags := by unfold State.setIdx; split <;> simp
@[simp] theorem State.setIdx_es (w : Width) (r : Reg) (v : Dword) : (s.setIdx w r v).es = s.es := by unfold State.setIdx; split <;> simp
@[simp] theorem State.setIdx_cs (w : Width) (r : Reg) (v : Dword) : (s.setIdx w r v).cs = s.cs := by unfold State.setIdx; split <;> simp
@[simp] theorem State.setIdx_ss (w : Width) (r : Reg) (v : Dword) : (s.setIdx w r v).ss = s.ss := by unfold State.setIdx; split <;> simp
@[simp] theorem State.setIdx_ds (w : Width) (r : Reg) (v : Dword) : (s.setIdx w r v).ds = s.ds := by unfold State.setIdx; split <;> simp
@[simp] theorem State.setIdx_fs (w : Width) (r : Reg) (v : Dword) : (s.setIdx w r v).fs = s.fs := by unfold State.setIdx; split <;> simp
@[simp] theorem State.setIdx_gs (w : Width) (r : Reg) (v : Dword) : (s.setIdx w r v).gs = s.gs := by unfold State.setIdx; split <;> simp
@[simp] theorem State.setIdx_gdtr (w : Width) (r : Reg) (v : Dword) : (s.setIdx w r v).gdtr = s.gdtr := by unfold State.setIdx; split <;> simp
@[simp] theorem State.setIdx_idtr (w : Width) (r : Reg) (v : Dword) : (s.setIdx w r v).idtr = s.idtr := by unfold State.setIdx; split <;> simp
@[simp] theorem State.setIdx_ldtr (w : Width) (r : Reg) (v : Dword) : (s.setIdx w r v).ldtr = s.ldtr := by unfold State.setIdx; split <;> simp
@[simp] theorem State.setIdx_tr (w : Width) (r : Reg) (v : Dword) : (s.setIdx w r v).tr = s.tr := by unfold State.setIdx; split <;> simp
@[simp] theorem State.setIdx_cr0 (w : Width) (r : Reg) (v : Dword) : (s.setIdx w r v).cr0 = s.cr0 := by unfold State.setIdx; split <;> simp
@[simp] theorem State.setIdx_mswFresh (w : Width) (r : Reg) (v : Dword) : (s.setIdx w r v).mswFresh = s.mswFresh := by unfold State.setIdx; split <;> simp
@[simp] theorem State.setIdx_cr2 (w : Width) (r : Reg) (v : Dword) : (s.setIdx w r v).cr2 = s.cr2 := by unfold State.setIdx; split <;> simp
@[simp] theorem State.setIdx_cr3 (w : Width) (r : Reg) (v : Dword) : (s.setIdx w r v).cr3 = s.cr3 := by unfold State.setIdx; split <;> simp
@[simp] theorem State.setIdx_dr0 (w : Width) (r : Reg) (v : Dword) : (s.setIdx w r v).dr0 = s.dr0 := by unfold State.setIdx; split <;> simp
@[simp] theorem State.setIdx_dr1 (w : Width) (r : Reg) (v : Dword) : (s.setIdx w r v).dr1 = s.dr1 := by unfold State.setIdx; split <;> simp
@[simp] theorem State.setIdx_dr2 (w : Width) (r : Reg) (v : Dword) : (s.setIdx w r v).dr2 = s.dr2 := by unfold State.setIdx; split <;> simp
@[simp] theorem State.setIdx_dr3 (w : Width) (r : Reg) (v : Dword) : (s.setIdx w r v).dr3 = s.dr3 := by unfold State.setIdx; split <;> simp
@[simp] theorem State.setIdx_dr6 (w : Width) (r : Reg) (v : Dword) : (s.setIdx w r v).dr6 = s.dr6 := by unfold State.setIdx; split <;> simp
@[simp] theorem State.setIdx_dr7 (w : Width) (r : Reg) (v : Dword) : (s.setIdx w r v).dr7 = s.dr7 := by unfold State.setIdx; split <;> simp
@[simp] theorem State.setIdx_tr6 (w : Width) (r : Reg) (v : Dword) : (s.setIdx w r v).tr6 = s.tr6 := by unfold State.setIdx; split <;> simp
@[simp] theorem State.setIdx_tr7 (w : Width) (r : Reg) (v : Dword) : (s.setIdx w r v).tr7 = s.tr7 := by unfold State.setIdx; split <;> simp
@[simp] theorem State.setIdx_cpl (w : Width) (r : Reg) (v : Dword) : (s.setIdx w r v).cpl = s.cpl := by unfold State.setIdx; split <;> simp
@[simp] theorem State.setIdx_tlb (w : Width) (r : Reg) (v : Dword) : (s.setIdx w r v).tlb = s.tlb := by unfold State.setIdx; split <;> simp
@[simp] theorem State.setIdx_nmiMask (w : Width) (r : Reg) (v : Dword) : (s.setIdx w r v).nmiMask = s.nmiMask := by unfold State.setIdx; split <;> simp
@[simp] theorem State.setIdx_nmiPending (w : Width) (r : Reg) (v : Dword) : (s.setIdx w r v).nmiPending = s.nmiPending := by unfold State.setIdx; split <;> simp
@[simp] theorem State.setIdx_inhibit (w : Width) (r : Reg) (v : Dword) : (s.setIdx w r v).inhibit = s.inhibit := by unfold State.setIdx; split <;> simp
@[simp] theorem State.setIdx_inhibitIntr (w : Width) (r : Reg) (v : Dword) : (s.setIdx w r v).inhibitIntr = s.inhibitIntr := by unfold State.setIdx; split <;> simp
@[simp] theorem State.setIdx_run (w : Width) (r : Reg) (v : Dword) : (s.setIdx w r v).run = s.run := by unfold State.setIdx; split <;> simp
@[simp] theorem State.setIdx_pend (w : Width) (r : Reg) (v : Dword) : (s.setIdx w r v).pend = s.pend := by unfold State.setIdx; split <;> simp
@[simp] theorem State.setIdx_pendLate (w : Width) (r : Reg) (v : Dword) : (s.setIdx w r v).pendLate = s.pendLate := by unfold State.setIdx; split <;> simp
@[simp] theorem State.setIdx_repActive (w : Width) (r : Reg) (v : Dword) : (s.setIdx w r v).repActive = s.repActive := by unfold State.setIdx; split <;> simp
@[simp] theorem State.setIdx_ranPast (w : Width) (r : Reg) (v : Dword) : (s.setIdx w r v).ranPast = s.ranPast := by unfold State.setIdx; split <;> simp
@[simp] theorem State.setIdx_nextStart (w : Width) (r : Reg) (v : Dword) : (s.setIdx w r v).nextStart = s.nextStart := by unfold State.setIdx; split <;> simp
@[simp] theorem State.setIdx_nextEip (w : Width) (r : Reg) (v : Dword) : (s.setIdx w r v).nextEip = s.nextEip := by unfold State.setIdx; split <;> simp
@[simp] theorem State.setIdx_free (w : Width) (r : Reg) (v : Dword) : (s.setIdx w r v).free = s.free := by unfold State.setIdx; split <;> simp
@[simp] theorem State.setIdx_mem (w : Width) (r : Reg) (v : Dword) : (s.setIdx w r v).mem = s.mem := by unfold State.setIdx; split <;> simp
@[simp] theorem State.setIdx_pinReset (w : Width) (r : Reg) (v : Dword) : (s.setIdx w r v).pinReset = s.pinReset := by unfold State.setIdx; split <;> simp
@[simp] theorem State.setIdx_pinNmi (w : Width) (r : Reg) (v : Dword) : (s.setIdx w r v).pinNmi = s.pinNmi := by unfold State.setIdx; split <;> simp
@[simp] theorem State.setIdx_intrQueue (w : Width) (r : Reg) (v : Dword) : (s.setIdx w r v).intrQueue = s.intrQueue := by unfold State.setIdx; split <;> simp
@[simp] theorem State.setIdx_pinBusy (w : Width) (r : Reg) (v : Dword) : (s.setIdx w r v).pinBusy = s.pinBusy := by unfold State.setIdx; split <;> simp
@[simp] theorem State.setIdx_pinError (w : Width) (r : Reg) (v : Dword) : (s.setIdx w r v).pinError = s.pinError := by unfold State.setIdx; split <;> simp
@[simp] theorem State.setIdx_coproc (w : Width) (r : Reg) (v : Dword) : (s.setIdx w r v).coproc = s.coproc := by unfold State.setIdx; split <;> simp
@[simp] theorem State.setIdx_coprocReplies (w : Width) (r : Reg) (v : Dword) : (s.setIdx w r v).coprocReplies = s.coprocReplies := by unfold State.setIdx; split <;> simp
@[simp] theorem State.setIdx_coprocSent (w : Width) (r : Reg) (v : Dword) : (s.setIdx w r v).coprocSent = s.coprocSent := by unfold State.setIdx; split <;> simp
@[simp] theorem State.setIdx_ioInput (w : Width) (r : Reg) (v : Dword) : (s.setIdx w r v).ioInput = s.ioInput := by unfold State.setIdx; split <;> simp
@[simp] theorem State.setIdx_ioLog (w : Width) (r : Reg) (v : Dword) : (s.setIdx w r v).ioLog = s.ioLog := by unfold State.setIdx; split <;> simp
@[simp] theorem State.setIdx_devInput (w : Width) (r : Reg) (v : Dword) : (s.setIdx w r v).devInput = s.devInput := by unfold State.setIdx; split <;> simp
@[simp] theorem State.setIdx_devLog (w : Width) (r : Reg) (v : Dword) : (s.setIdx w r v).devLog = s.devLog := by unfold State.setIdx; split <;> simp
@[simp] theorem State.setIdx_platform (w : Width) (r : Reg) (v : Dword) : (s.setIdx w r v).platform = s.platform := by unfold State.setIdx; split <;> simp

@[simp] theorem State.stepIdx_eip (w : Width) (r : Reg) (n : Nat) : (s.stepIdx w r n).eip = s.eip := by simp [State.stepIdx]
@[simp] theorem State.stepIdx_eflags (w : Width) (r : Reg) (n : Nat) : (s.stepIdx w r n).eflags = s.eflags := by simp [State.stepIdx]
@[simp] theorem State.stepIdx_es (w : Width) (r : Reg) (n : Nat) : (s.stepIdx w r n).es = s.es := by simp [State.stepIdx]
@[simp] theorem State.stepIdx_cs (w : Width) (r : Reg) (n : Nat) : (s.stepIdx w r n).cs = s.cs := by simp [State.stepIdx]
@[simp] theorem State.stepIdx_ss (w : Width) (r : Reg) (n : Nat) : (s.stepIdx w r n).ss = s.ss := by simp [State.stepIdx]
@[simp] theorem State.stepIdx_ds (w : Width) (r : Reg) (n : Nat) : (s.stepIdx w r n).ds = s.ds := by simp [State.stepIdx]
@[simp] theorem State.stepIdx_fs (w : Width) (r : Reg) (n : Nat) : (s.stepIdx w r n).fs = s.fs := by simp [State.stepIdx]
@[simp] theorem State.stepIdx_gs (w : Width) (r : Reg) (n : Nat) : (s.stepIdx w r n).gs = s.gs := by simp [State.stepIdx]
@[simp] theorem State.stepIdx_gdtr (w : Width) (r : Reg) (n : Nat) : (s.stepIdx w r n).gdtr = s.gdtr := by simp [State.stepIdx]
@[simp] theorem State.stepIdx_idtr (w : Width) (r : Reg) (n : Nat) : (s.stepIdx w r n).idtr = s.idtr := by simp [State.stepIdx]
@[simp] theorem State.stepIdx_ldtr (w : Width) (r : Reg) (n : Nat) : (s.stepIdx w r n).ldtr = s.ldtr := by simp [State.stepIdx]
@[simp] theorem State.stepIdx_tr (w : Width) (r : Reg) (n : Nat) : (s.stepIdx w r n).tr = s.tr := by simp [State.stepIdx]
@[simp] theorem State.stepIdx_cr0 (w : Width) (r : Reg) (n : Nat) : (s.stepIdx w r n).cr0 = s.cr0 := by simp [State.stepIdx]
@[simp] theorem State.stepIdx_mswFresh (w : Width) (r : Reg) (n : Nat) : (s.stepIdx w r n).mswFresh = s.mswFresh := by simp [State.stepIdx]
@[simp] theorem State.stepIdx_cr2 (w : Width) (r : Reg) (n : Nat) : (s.stepIdx w r n).cr2 = s.cr2 := by simp [State.stepIdx]
@[simp] theorem State.stepIdx_cr3 (w : Width) (r : Reg) (n : Nat) : (s.stepIdx w r n).cr3 = s.cr3 := by simp [State.stepIdx]
@[simp] theorem State.stepIdx_dr0 (w : Width) (r : Reg) (n : Nat) : (s.stepIdx w r n).dr0 = s.dr0 := by simp [State.stepIdx]
@[simp] theorem State.stepIdx_dr1 (w : Width) (r : Reg) (n : Nat) : (s.stepIdx w r n).dr1 = s.dr1 := by simp [State.stepIdx]
@[simp] theorem State.stepIdx_dr2 (w : Width) (r : Reg) (n : Nat) : (s.stepIdx w r n).dr2 = s.dr2 := by simp [State.stepIdx]
@[simp] theorem State.stepIdx_dr3 (w : Width) (r : Reg) (n : Nat) : (s.stepIdx w r n).dr3 = s.dr3 := by simp [State.stepIdx]
@[simp] theorem State.stepIdx_dr6 (w : Width) (r : Reg) (n : Nat) : (s.stepIdx w r n).dr6 = s.dr6 := by simp [State.stepIdx]
@[simp] theorem State.stepIdx_dr7 (w : Width) (r : Reg) (n : Nat) : (s.stepIdx w r n).dr7 = s.dr7 := by simp [State.stepIdx]
@[simp] theorem State.stepIdx_tr6 (w : Width) (r : Reg) (n : Nat) : (s.stepIdx w r n).tr6 = s.tr6 := by simp [State.stepIdx]
@[simp] theorem State.stepIdx_tr7 (w : Width) (r : Reg) (n : Nat) : (s.stepIdx w r n).tr7 = s.tr7 := by simp [State.stepIdx]
@[simp] theorem State.stepIdx_cpl (w : Width) (r : Reg) (n : Nat) : (s.stepIdx w r n).cpl = s.cpl := by simp [State.stepIdx]
@[simp] theorem State.stepIdx_tlb (w : Width) (r : Reg) (n : Nat) : (s.stepIdx w r n).tlb = s.tlb := by simp [State.stepIdx]
@[simp] theorem State.stepIdx_nmiMask (w : Width) (r : Reg) (n : Nat) : (s.stepIdx w r n).nmiMask = s.nmiMask := by simp [State.stepIdx]
@[simp] theorem State.stepIdx_nmiPending (w : Width) (r : Reg) (n : Nat) : (s.stepIdx w r n).nmiPending = s.nmiPending := by simp [State.stepIdx]
@[simp] theorem State.stepIdx_inhibit (w : Width) (r : Reg) (n : Nat) : (s.stepIdx w r n).inhibit = s.inhibit := by simp [State.stepIdx]
@[simp] theorem State.stepIdx_inhibitIntr (w : Width) (r : Reg) (n : Nat) : (s.stepIdx w r n).inhibitIntr = s.inhibitIntr := by simp [State.stepIdx]
@[simp] theorem State.stepIdx_run (w : Width) (r : Reg) (n : Nat) : (s.stepIdx w r n).run = s.run := by simp [State.stepIdx]
@[simp] theorem State.stepIdx_pend (w : Width) (r : Reg) (n : Nat) : (s.stepIdx w r n).pend = s.pend := by simp [State.stepIdx]
@[simp] theorem State.stepIdx_pendLate (w : Width) (r : Reg) (n : Nat) : (s.stepIdx w r n).pendLate = s.pendLate := by simp [State.stepIdx]
@[simp] theorem State.stepIdx_repActive (w : Width) (r : Reg) (n : Nat) : (s.stepIdx w r n).repActive = s.repActive := by simp [State.stepIdx]
@[simp] theorem State.stepIdx_ranPast (w : Width) (r : Reg) (n : Nat) : (s.stepIdx w r n).ranPast = s.ranPast := by simp [State.stepIdx]
@[simp] theorem State.stepIdx_nextStart (w : Width) (r : Reg) (n : Nat) : (s.stepIdx w r n).nextStart = s.nextStart := by simp [State.stepIdx]
@[simp] theorem State.stepIdx_nextEip (w : Width) (r : Reg) (n : Nat) : (s.stepIdx w r n).nextEip = s.nextEip := by simp [State.stepIdx]
@[simp] theorem State.stepIdx_free (w : Width) (r : Reg) (n : Nat) : (s.stepIdx w r n).free = s.free := by simp [State.stepIdx]
@[simp] theorem State.stepIdx_mem (w : Width) (r : Reg) (n : Nat) : (s.stepIdx w r n).mem = s.mem := by simp [State.stepIdx]
@[simp] theorem State.stepIdx_pinReset (w : Width) (r : Reg) (n : Nat) : (s.stepIdx w r n).pinReset = s.pinReset := by simp [State.stepIdx]
@[simp] theorem State.stepIdx_pinNmi (w : Width) (r : Reg) (n : Nat) : (s.stepIdx w r n).pinNmi = s.pinNmi := by simp [State.stepIdx]
@[simp] theorem State.stepIdx_intrQueue (w : Width) (r : Reg) (n : Nat) : (s.stepIdx w r n).intrQueue = s.intrQueue := by simp [State.stepIdx]
@[simp] theorem State.stepIdx_pinBusy (w : Width) (r : Reg) (n : Nat) : (s.stepIdx w r n).pinBusy = s.pinBusy := by simp [State.stepIdx]
@[simp] theorem State.stepIdx_pinError (w : Width) (r : Reg) (n : Nat) : (s.stepIdx w r n).pinError = s.pinError := by simp [State.stepIdx]
@[simp] theorem State.stepIdx_coproc (w : Width) (r : Reg) (n : Nat) : (s.stepIdx w r n).coproc = s.coproc := by simp [State.stepIdx]
@[simp] theorem State.stepIdx_coprocReplies (w : Width) (r : Reg) (n : Nat) : (s.stepIdx w r n).coprocReplies = s.coprocReplies := by simp [State.stepIdx]
@[simp] theorem State.stepIdx_coprocSent (w : Width) (r : Reg) (n : Nat) : (s.stepIdx w r n).coprocSent = s.coprocSent := by simp [State.stepIdx]
@[simp] theorem State.stepIdx_ioInput (w : Width) (r : Reg) (n : Nat) : (s.stepIdx w r n).ioInput = s.ioInput := by simp [State.stepIdx]
@[simp] theorem State.stepIdx_ioLog (w : Width) (r : Reg) (n : Nat) : (s.stepIdx w r n).ioLog = s.ioLog := by simp [State.stepIdx]
@[simp] theorem State.stepIdx_devInput (w : Width) (r : Reg) (n : Nat) : (s.stepIdx w r n).devInput = s.devInput := by simp [State.stepIdx]
@[simp] theorem State.stepIdx_devLog (w : Width) (r : Reg) (n : Nat) : (s.stepIdx w r n).devLog = s.devLog := by simp [State.stepIdx]
@[simp] theorem State.stepIdx_platform (w : Width) (r : Reg) (n : Nat) : (s.stepIdx w r n).platform = s.platform := by simp [State.stepIdx]

/-! ### `szp` -/

@[simp] theorem State.szp_regs {n : Nat} (r : BitVec n) : (s.szp r).regs = s.regs := by
  simp only [State.szp, State.setFlag_regs]
@[simp] theorem State.szp_eip {n : Nat} (r : BitVec n) : (s.szp r).eip = s.eip := by
  simp only [State.szp, State.setFlag_eip]
@[simp] theorem State.szp_es {n : Nat} (r : BitVec n) : (s.szp r).es = s.es := by
  simp only [State.szp, State.setFlag_es]
@[simp] theorem State.szp_cs {n : Nat} (r : BitVec n) : (s.szp r).cs = s.cs := by
  simp only [State.szp, State.setFlag_cs]
@[simp] theorem State.szp_ss {n : Nat} (r : BitVec n) : (s.szp r).ss = s.ss := by
  simp only [State.szp, State.setFlag_ss]
@[simp] theorem State.szp_ds {n : Nat} (r : BitVec n) : (s.szp r).ds = s.ds := by
  simp only [State.szp, State.setFlag_ds]
@[simp] theorem State.szp_fs {n : Nat} (r : BitVec n) : (s.szp r).fs = s.fs := by
  simp only [State.szp, State.setFlag_fs]
@[simp] theorem State.szp_gs {n : Nat} (r : BitVec n) : (s.szp r).gs = s.gs := by
  simp only [State.szp, State.setFlag_gs]
@[simp] theorem State.szp_gdtr {n : Nat} (r : BitVec n) : (s.szp r).gdtr = s.gdtr := by
  simp only [State.szp, State.setFlag_gdtr]
@[simp] theorem State.szp_idtr {n : Nat} (r : BitVec n) : (s.szp r).idtr = s.idtr := by
  simp only [State.szp, State.setFlag_idtr]
@[simp] theorem State.szp_ldtr {n : Nat} (r : BitVec n) : (s.szp r).ldtr = s.ldtr := by
  simp only [State.szp, State.setFlag_ldtr]
@[simp] theorem State.szp_tr {n : Nat} (r : BitVec n) : (s.szp r).tr = s.tr := by
  simp only [State.szp, State.setFlag_tr]
@[simp] theorem State.szp_cr0 {n : Nat} (r : BitVec n) : (s.szp r).cr0 = s.cr0 := by
  simp only [State.szp, State.setFlag_cr0]
@[simp] theorem State.szp_mswFresh {n : Nat} (r : BitVec n) : (s.szp r).mswFresh = s.mswFresh := by
  simp only [State.szp, State.setFlag_mswFresh]
@[simp] theorem State.szp_cr2 {n : Nat} (r : BitVec n) : (s.szp r).cr2 = s.cr2 := by
  simp only [State.szp, State.setFlag_cr2]
@[simp] theorem State.szp_cr3 {n : Nat} (r : BitVec n) : (s.szp r).cr3 = s.cr3 := by
  simp only [State.szp, State.setFlag_cr3]
@[simp] theorem State.szp_dr0 {n : Nat} (r : BitVec n) : (s.szp r).dr0 = s.dr0 := by
  simp only [State.szp, State.setFlag_dr0]
@[simp] theorem State.szp_dr1 {n : Nat} (r : BitVec n) : (s.szp r).dr1 = s.dr1 := by
  simp only [State.szp, State.setFlag_dr1]
@[simp] theorem State.szp_dr2 {n : Nat} (r : BitVec n) : (s.szp r).dr2 = s.dr2 := by
  simp only [State.szp, State.setFlag_dr2]
@[simp] theorem State.szp_dr3 {n : Nat} (r : BitVec n) : (s.szp r).dr3 = s.dr3 := by
  simp only [State.szp, State.setFlag_dr3]
@[simp] theorem State.szp_dr6 {n : Nat} (r : BitVec n) : (s.szp r).dr6 = s.dr6 := by
  simp only [State.szp, State.setFlag_dr6]
@[simp] theorem State.szp_dr7 {n : Nat} (r : BitVec n) : (s.szp r).dr7 = s.dr7 := by
  simp only [State.szp, State.setFlag_dr7]
@[simp] theorem State.szp_tr6 {n : Nat} (r : BitVec n) : (s.szp r).tr6 = s.tr6 := by
  simp only [State.szp, State.setFlag_tr6]
@[simp] theorem State.szp_tr7 {n : Nat} (r : BitVec n) : (s.szp r).tr7 = s.tr7 := by
  simp only [State.szp, State.setFlag_tr7]
@[simp] theorem State.szp_cpl {n : Nat} (r : BitVec n) : (s.szp r).cpl = s.cpl := by
  simp only [State.szp, State.setFlag_cpl]
@[simp] theorem State.szp_tlb {n : Nat} (r : BitVec n) : (s.szp r).tlb = s.tlb := by
  simp only [State.szp, State.setFlag_tlb]
@[simp] theorem State.szp_nmiMask {n : Nat} (r : BitVec n) : (s.szp r).nmiMask = s.nmiMask := by
  simp only [State.szp, State.setFlag_nmiMask]
@[simp] theorem State.szp_nmiPending {n : Nat} (r : BitVec n) : (s.szp r).nmiPending = s.nmiPending := by
  simp only [State.szp, State.setFlag_nmiPending]
@[simp] theorem State.szp_inhibit {n : Nat} (r : BitVec n) : (s.szp r).inhibit = s.inhibit := by
  simp only [State.szp, State.setFlag_inhibit]
@[simp] theorem State.szp_inhibitIntr {n : Nat} (r : BitVec n) : (s.szp r).inhibitIntr = s.inhibitIntr := by
  simp only [State.szp, State.setFlag_inhibitIntr]
@[simp] theorem State.szp_run {n : Nat} (r : BitVec n) : (s.szp r).run = s.run := by
  simp only [State.szp, State.setFlag_run]
@[simp] theorem State.szp_pend {n : Nat} (r : BitVec n) : (s.szp r).pend = s.pend := by
  simp only [State.szp, State.setFlag_pend]
@[simp] theorem State.szp_pendLate {n : Nat} (r : BitVec n) : (s.szp r).pendLate = s.pendLate := by
  simp only [State.szp, State.setFlag_pendLate]
@[simp] theorem State.szp_repActive {n : Nat} (r : BitVec n) : (s.szp r).repActive = s.repActive := by
  simp only [State.szp, State.setFlag_repActive]
@[simp] theorem State.szp_ranPast {n : Nat} (r : BitVec n) : (s.szp r).ranPast = s.ranPast := by
  simp only [State.szp, State.setFlag_ranPast]
@[simp] theorem State.szp_nextStart {n : Nat} (r : BitVec n) : (s.szp r).nextStart = s.nextStart := by
  simp only [State.szp, State.setFlag_nextStart]
@[simp] theorem State.szp_nextEip {n : Nat} (r : BitVec n) : (s.szp r).nextEip = s.nextEip := by
  simp only [State.szp, State.setFlag_nextEip]
@[simp] theorem State.szp_free {n : Nat} (r : BitVec n) : (s.szp r).free = s.free := by
  simp only [State.szp, State.setFlag_free]
@[simp] theorem State.szp_mem {n : Nat} (r : BitVec n) : (s.szp r).mem = s.mem := by
  simp only [State.szp, State.setFlag_mem]
@[simp] theorem State.szp_pinReset {n : Nat} (r : BitVec n) : (s.szp r).pinReset = s.pinReset := by
  simp only [State.szp, State.setFlag_pinReset]
@[simp] theorem State.szp_pinNmi {n : Nat} (r : BitVec n) : (s.szp r).pinNmi = s.pinNmi := by
  simp only [State.szp, State.setFlag_pinNmi]
@[simp] theorem State.szp_intrQueue {n : Nat} (r : BitVec n) : (s.szp r).intrQueue = s.intrQueue := by
  simp only [State.szp, State.setFlag_intrQueue]
@[simp] theorem State.szp_pinBusy {n : Nat} (r : BitVec n) : (s.szp r).pinBusy = s.pinBusy := by
  simp only [State.szp, State.setFlag_pinBusy]
@[simp] theorem State.szp_pinError {n : Nat} (r : BitVec n) : (s.szp r).pinError = s.pinError := by
  simp only [State.szp, State.setFlag_pinError]
@[simp] theorem State.szp_coproc {n : Nat} (r : BitVec n) : (s.szp r).coproc = s.coproc := by
  simp only [State.szp, State.setFlag_coproc]
@[simp] theorem State.szp_coprocReplies {n : Nat} (r : BitVec n) : (s.szp r).coprocReplies = s.coprocReplies := by
  simp only [State.szp, State.setFlag_coprocReplies]
@[simp] theorem State.szp_coprocSent {n : Nat} (r : BitVec n) : (s.szp r).coprocSent = s.coprocSent := by
  simp only [State.szp, State.setFlag_coprocSent]
@[simp] theorem State.szp_ioInput {n : Nat} (r : BitVec n) : (s.szp r).ioInput = s.ioInput := by
  simp only [State.szp, State.setFlag_ioInput]
@[simp] theorem State.szp_ioLog {n : Nat} (r : BitVec n) : (s.szp r).ioLog = s.ioLog := by
  simp only [State.szp, State.setFlag_ioLog]
@[simp] theorem State.szp_devInput {n : Nat} (r : BitVec n) : (s.szp r).devInput = s.devInput := by
  simp only [State.szp, State.setFlag_devInput]
@[simp] theorem State.szp_devLog {n : Nat} (r : BitVec n) : (s.szp r).devLog = s.devLog := by
  simp only [State.szp, State.setFlag_devLog]
@[simp] theorem State.szp_platform {n : Nat} (r : BitVec n) : (s.szp r).platform = s.platform := by
  simp only [State.szp, State.setFlag_platform]

/-! ### `addFlags` -/

@[simp] theorem State.addFlags_regs {n : Nat} (x y : BitVec n) (c : Bool) : (s.addFlags x y c).regs = s.regs := by
  simp only [State.addFlags, State.szp_regs, State.setFlag_regs]
@[simp] theorem State.addFlags_eip {n : Nat} (x y : BitVec n) (c : Bool) : (s.addFlags x y c).eip = s.eip := by
  simp only [State.addFlags, State.szp_eip, State.setFlag_eip]
@[simp] theorem State.addFlags_es {n : Nat} (x y : BitVec n) (c : Bool) : (s.addFlags x y c).es = s.es := by
  simp only [State.addFlags, State.szp_es, State.setFlag_es]
@[simp] theorem State.addFlags_cs {n : Nat} (x y : BitVec n) (c : Bool) : (s.addFlags x y c).cs = s.cs := by
  simp only [State.addFlags, State.szp_cs, State.setFlag_cs]
@[simp] theorem State.addFlags_ss {n : Nat} (x y : BitVec n) (c : Bool) : (s.addFlags x y c).ss = s.ss := by
  simp only [State.addFlags, State.szp_ss, State.setFlag_ss]
@[simp] theorem State.addFlags_ds {n : Nat} (x y : BitVec n) (c : Bool) : (s.addFlags x y c).ds = s.ds := by
  simp only [State.addFlags, State.szp_ds, State.setFlag_ds]
@[simp] theorem State.addFlags_fs {n : Nat} (x y : BitVec n) (c : Bool) : (s.addFlags x y c).fs = s.fs := by
  simp only [State.addFlags, State.szp_fs, State.setFlag_fs]
@[simp] theorem State.addFlags_gs {n : Nat} (x y : BitVec n) (c : Bool) : (s.addFlags x y c).gs = s.gs := by
  simp only [State.addFlags, State.szp_gs, State.setFlag_gs]
@[simp] theorem State.addFlags_gdtr {n : Nat} (x y : BitVec n) (c : Bool) : (s.addFlags x y c).gdtr = s.gdtr := by
  simp only [State.addFlags, State.szp_gdtr, State.setFlag_gdtr]
@[simp] theorem State.addFlags_idtr {n : Nat} (x y : BitVec n) (c : Bool) : (s.addFlags x y c).idtr = s.idtr := by
  simp only [State.addFlags, State.szp_idtr, State.setFlag_idtr]
@[simp] theorem State.addFlags_ldtr {n : Nat} (x y : BitVec n) (c : Bool) : (s.addFlags x y c).ldtr = s.ldtr := by
  simp only [State.addFlags, State.szp_ldtr, State.setFlag_ldtr]
@[simp] theorem State.addFlags_tr {n : Nat} (x y : BitVec n) (c : Bool) : (s.addFlags x y c).tr = s.tr := by
  simp only [State.addFlags, State.szp_tr, State.setFlag_tr]
@[simp] theorem State.addFlags_cr0 {n : Nat} (x y : BitVec n) (c : Bool) : (s.addFlags x y c).cr0 = s.cr0 := by
  simp only [State.addFlags, State.szp_cr0, State.setFlag_cr0]
@[simp] theorem State.addFlags_mswFresh {n : Nat} (x y : BitVec n) (c : Bool) : (s.addFlags x y c).mswFresh = s.mswFresh := by
  simp only [State.addFlags, State.szp_mswFresh, State.setFlag_mswFresh]
@[simp] theorem State.addFlags_cr2 {n : Nat} (x y : BitVec n) (c : Bool) : (s.addFlags x y c).cr2 = s.cr2 := by
  simp only [State.addFlags, State.szp_cr2, State.setFlag_cr2]
@[simp] theorem State.addFlags_cr3 {n : Nat} (x y : BitVec n) (c : Bool) : (s.addFlags x y c).cr3 = s.cr3 := by
  simp only [State.addFlags, State.szp_cr3, State.setFlag_cr3]
@[simp] theorem State.addFlags_dr0 {n : Nat} (x y : BitVec n) (c : Bool) : (s.addFlags x y c).dr0 = s.dr0 := by
  simp only [State.addFlags, State.szp_dr0, State.setFlag_dr0]
@[simp] theorem State.addFlags_dr1 {n : Nat} (x y : BitVec n) (c : Bool) : (s.addFlags x y c).dr1 = s.dr1 := by
  simp only [State.addFlags, State.szp_dr1, State.setFlag_dr1]
@[simp] theorem State.addFlags_dr2 {n : Nat} (x y : BitVec n) (c : Bool) : (s.addFlags x y c).dr2 = s.dr2 := by
  simp only [State.addFlags, State.szp_dr2, State.setFlag_dr2]
@[simp] theorem State.addFlags_dr3 {n : Nat} (x y : BitVec n) (c : Bool) : (s.addFlags x y c).dr3 = s.dr3 := by
  simp only [State.addFlags, State.szp_dr3, State.setFlag_dr3]
@[simp] theorem State.addFlags_dr6 {n : Nat} (x y : BitVec n) (c : Bool) : (s.addFlags x y c).dr6 = s.dr6 := by
  simp only [State.addFlags, State.szp_dr6, State.setFlag_dr6]
@[simp] theorem State.addFlags_dr7 {n : Nat} (x y : BitVec n) (c : Bool) : (s.addFlags x y c).dr7 = s.dr7 := by
  simp only [State.addFlags, State.szp_dr7, State.setFlag_dr7]
@[simp] theorem State.addFlags_tr6 {n : Nat} (x y : BitVec n) (c : Bool) : (s.addFlags x y c).tr6 = s.tr6 := by
  simp only [State.addFlags, State.szp_tr6, State.setFlag_tr6]
@[simp] theorem State.addFlags_tr7 {n : Nat} (x y : BitVec n) (c : Bool) : (s.addFlags x y c).tr7 = s.tr7 := by
  simp only [State.addFlags, State.szp_tr7, State.setFlag_tr7]
@[simp] theorem State.addFlags_cpl {n : Nat} (x y : BitVec n) (c : Bool) : (s.addFlags x y c).cpl = s.cpl := by
  simp only [State.addFlags, State.szp_cpl, State.setFlag_cpl]
@[simp] theorem State.addFlags_tlb {n : Nat} (x y : BitVec n) (c : Bool) : (s.addFlags x y c).tlb = s.tlb := by
  simp only [State.addFlags, State.szp_tlb, State.setFlag_tlb]
@[simp] theorem State.addFlags_nmiMask {n : Nat} (x y : BitVec n) (c : Bool) : (s.addFlags x y c).nmiMask = s.nmiMask := by
  simp only [State.addFlags, State.szp_nmiMask, State.setFlag_nmiMask]
@[simp] theorem State.addFlags_nmiPending {n : Nat} (x y : BitVec n) (c : Bool) : (s.addFlags x y c).nmiPending = s.nmiPending := by
  simp only [State.addFlags, State.szp_nmiPending, State.setFlag_nmiPending]
@[simp] theorem State.addFlags_inhibit {n : Nat} (x y : BitVec n) (c : Bool) : (s.addFlags x y c).inhibit = s.inhibit := by
  simp only [State.addFlags, State.szp_inhibit, State.setFlag_inhibit]
@[simp] theorem State.addFlags_inhibitIntr {n : Nat} (x y : BitVec n) (c : Bool) : (s.addFlags x y c).inhibitIntr = s.inhibitIntr := by
  simp only [State.addFlags, State.szp_inhibitIntr, State.setFlag_inhibitIntr]
@[simp] theorem State.addFlags_run {n : Nat} (x y : BitVec n) (c : Bool) : (s.addFlags x y c).run = s.run := by
  simp only [State.addFlags, State.szp_run, State.setFlag_run]
@[simp] theorem State.addFlags_pend {n : Nat} (x y : BitVec n) (c : Bool) : (s.addFlags x y c).pend = s.pend := by
  simp only [State.addFlags, State.szp_pend, State.setFlag_pend]
@[simp] theorem State.addFlags_pendLate {n : Nat} (x y : BitVec n) (c : Bool) : (s.addFlags x y c).pendLate = s.pendLate := by
  simp only [State.addFlags, State.szp_pendLate, State.setFlag_pendLate]
@[simp] theorem State.addFlags_repActive {n : Nat} (x y : BitVec n) (c : Bool) : (s.addFlags x y c).repActive = s.repActive := by
  simp only [State.addFlags, State.szp_repActive, State.setFlag_repActive]
@[simp] theorem State.addFlags_ranPast {n : Nat} (x y : BitVec n) (c : Bool) : (s.addFlags x y c).ranPast = s.ranPast := by
  simp only [State.addFlags, State.szp_ranPast, State.setFlag_ranPast]
@[simp] theorem State.addFlags_nextStart {n : Nat} (x y : BitVec n) (c : Bool) : (s.addFlags x y c).nextStart = s.nextStart := by
  simp only [State.addFlags, State.szp_nextStart, State.setFlag_nextStart]
@[simp] theorem State.addFlags_nextEip {n : Nat} (x y : BitVec n) (c : Bool) : (s.addFlags x y c).nextEip = s.nextEip := by
  simp only [State.addFlags, State.szp_nextEip, State.setFlag_nextEip]
@[simp] theorem State.addFlags_free {n : Nat} (x y : BitVec n) (c : Bool) : (s.addFlags x y c).free = s.free := by
  simp only [State.addFlags, State.szp_free, State.setFlag_free]
@[simp] theorem State.addFlags_mem {n : Nat} (x y : BitVec n) (c : Bool) : (s.addFlags x y c).mem = s.mem := by
  simp only [State.addFlags, State.szp_mem, State.setFlag_mem]
@[simp] theorem State.addFlags_pinReset {n : Nat} (x y : BitVec n) (c : Bool) : (s.addFlags x y c).pinReset = s.pinReset := by
  simp only [State.addFlags, State.szp_pinReset, State.setFlag_pinReset]
@[simp] theorem State.addFlags_pinNmi {n : Nat} (x y : BitVec n) (c : Bool) : (s.addFlags x y c).pinNmi = s.pinNmi := by
  simp only [State.addFlags, State.szp_pinNmi, State.setFlag_pinNmi]
@[simp] theorem State.addFlags_intrQueue {n : Nat} (x y : BitVec n) (c : Bool) : (s.addFlags x y c).intrQueue = s.intrQueue := by
  simp only [State.addFlags, State.szp_intrQueue, State.setFlag_intrQueue]
@[simp] theorem State.addFlags_pinBusy {n : Nat} (x y : BitVec n) (c : Bool) : (s.addFlags x y c).pinBusy = s.pinBusy := by
  simp only [State.addFlags, State.szp_pinBusy, State.setFlag_pinBusy]
@[simp] theorem State.addFlags_pinError {n : Nat} (x y : BitVec n) (c : Bool) : (s.addFlags x y c).pinError = s.pinError := by
  simp only [State.addFlags, State.szp_pinError, State.setFlag_pinError]
@[simp] theorem State.addFlags_coproc {n : Nat} (x y : BitVec n) (c : Bool) : (s.addFlags x y c).coproc = s.coproc := by
  simp only [State.addFlags, State.szp_coproc, State.setFlag_coproc]
@[simp] theorem State.addFlags_coprocReplies {n : Nat} (x y : BitVec n) (c : Bool) : (s.addFlags x y c).coprocReplies = s.coprocReplies := by
  simp only [State.addFlags, State.szp_coprocReplies, State.setFlag_coprocReplies]
@[simp] theorem State.addFlags_coprocSent {n : Nat} (x y : BitVec n) (c : Bool) : (s.addFlags x y c).coprocSent = s.coprocSent := by
  simp only [State.addFlags, State.szp_coprocSent, State.setFlag_coprocSent]
@[simp] theorem State.addFlags_ioInput {n : Nat} (x y : BitVec n) (c : Bool) : (s.addFlags x y c).ioInput = s.ioInput := by
  simp only [State.addFlags, State.szp_ioInput, State.setFlag_ioInput]
@[simp] theorem State.addFlags_ioLog {n : Nat} (x y : BitVec n) (c : Bool) : (s.addFlags x y c).ioLog = s.ioLog := by
  simp only [State.addFlags, State.szp_ioLog, State.setFlag_ioLog]
@[simp] theorem State.addFlags_devInput {n : Nat} (x y : BitVec n) (c : Bool) : (s.addFlags x y c).devInput = s.devInput := by
  simp only [State.addFlags, State.szp_devInput, State.setFlag_devInput]
@[simp] theorem State.addFlags_devLog {n : Nat} (x y : BitVec n) (c : Bool) : (s.addFlags x y c).devLog = s.devLog := by
  simp only [State.addFlags, State.szp_devLog, State.setFlag_devLog]
@[simp] theorem State.addFlags_platform {n : Nat} (x y : BitVec n) (c : Bool) : (s.addFlags x y c).platform = s.platform := by
  simp only [State.addFlags, State.szp_platform, State.setFlag_platform]

/-! ### `subFlags` -/

@[simp] theorem State.subFlags_regs {n : Nat} (x y : BitVec n) (c : Bool) : (s.subFlags x y c).regs = s.regs := by
  simp only [State.subFlags, State.szp_regs, State.setFlag_regs]
@[simp] theorem State.subFlags_eip {n : Nat} (x y : BitVec n) (c : Bool) : (s.subFlags x y c).eip = s.eip := by
  simp only [State.subFlags, State.szp_eip, State.setFlag_eip]
@[simp] theorem State.subFlags_es {n : Nat} (x y : BitVec n) (c : Bool) : (s.subFlags x y c).es = s.es := by
  simp only [State.subFlags, State.szp_es, State.setFlag_es]
@[simp] theorem State.subFlags_cs {n : Nat} (x y : BitVec n) (c : Bool) : (s.subFlags x y c).cs = s.cs := by
  simp only [State.subFlags, State.szp_cs, State.setFlag_cs]
@[simp] theorem State.subFlags_ss {n : Nat} (x y : BitVec n) (c : Bool) : (s.subFlags x y c).ss = s.ss := by
  simp only [State.subFlags, State.szp_ss, State.setFlag_ss]
@[simp] theorem State.subFlags_ds {n : Nat} (x y : BitVec n) (c : Bool) : (s.subFlags x y c).ds = s.ds := by
  simp only [State.subFlags, State.szp_ds, State.setFlag_ds]
@[simp] theorem State.subFlags_fs {n : Nat} (x y : BitVec n) (c : Bool) : (s.subFlags x y c).fs = s.fs := by
  simp only [State.subFlags, State.szp_fs, State.setFlag_fs]
@[simp] theorem State.subFlags_gs {n : Nat} (x y : BitVec n) (c : Bool) : (s.subFlags x y c).gs = s.gs := by
  simp only [State.subFlags, State.szp_gs, State.setFlag_gs]
@[simp] theorem State.subFlags_gdtr {n : Nat} (x y : BitVec n) (c : Bool) : (s.subFlags x y c).gdtr = s.gdtr := by
  simp only [State.subFlags, State.szp_gdtr, State.setFlag_gdtr]
@[simp] theorem State.subFlags_idtr {n : Nat} (x y : BitVec n) (c : Bool) : (s.subFlags x y c).idtr = s.idtr := by
  simp only [State.subFlags, State.szp_idtr, State.setFlag_idtr]
@[simp] theorem State.subFlags_ldtr {n : Nat} (x y : BitVec n) (c : Bool) : (s.subFlags x y c).ldtr = s.ldtr := by
  simp only [State.subFlags, State.szp_ldtr, State.setFlag_ldtr]
@[simp] theorem State.subFlags_tr {n : Nat} (x y : BitVec n) (c : Bool) : (s.subFlags x y c).tr = s.tr := by
  simp only [State.subFlags, State.szp_tr, State.setFlag_tr]
@[simp] theorem State.subFlags_cr0 {n : Nat} (x y : BitVec n) (c : Bool) : (s.subFlags x y c).cr0 = s.cr0 := by
  simp only [State.subFlags, State.szp_cr0, State.setFlag_cr0]
@[simp] theorem State.subFlags_mswFresh {n : Nat} (x y : BitVec n) (c : Bool) : (s.subFlags x y c).mswFresh = s.mswFresh := by
  simp only [State.subFlags, State.szp_mswFresh, State.setFlag_mswFresh]
@[simp] theorem State.subFlags_cr2 {n : Nat} (x y : BitVec n) (c : Bool) : (s.subFlags x y c).cr2 = s.cr2 := by
  simp only [State.subFlags, State.szp_cr2, State.setFlag_cr2]
@[simp] theorem State.subFlags_cr3 {n : Nat} (x y : BitVec n) (c : Bool) : (s.subFlags x y c).cr3 = s.cr3 := by
  simp only [State.subFlags, State.szp_cr3, State.setFlag_cr3]
@[simp] theorem State.subFlags_dr0 {n : Nat} (x y : BitVec n) (c : Bool) : (s.subFlags x y c).dr0 = s.dr0 := by
  simp only [State.subFlags, State.szp_dr0, State.setFlag_dr0]
@[simp] theorem State.subFlags_dr1 {n : Nat} (x y : BitVec n) (c : Bool) : (s.subFlags x y c).dr1 = s.dr1 := by
  simp only [State.subFlags, State.szp_dr1, State.setFlag_dr1]
@[simp] theorem State.subFlags_dr2 {n : Nat} (x y : BitVec n) (c : Bool) : (s.subFlags x y c).dr2 = s.dr2 := by
  simp only [State.subFlags, State.szp_dr2, State.setFlag_dr2]
@[simp] theorem State.subFlags_dr3 {n : Nat} (x y : BitVec n) (c : Bool) : (s.subFlags x y c).dr3 = s.dr3 := by
  simp only [State.subFlags, State.szp_dr3, State.setFlag_dr3]
@[simp] theorem State.subFlags_dr6 {n : Nat} (x y : BitVec n) (c : Bool) : (s.subFlags x y c).dr6 = s.dr6 := by
  simp only [State.subFlags, State.szp_dr6, State.setFlag_dr6]
@[simp] theorem State.subFlags_dr7 {n : Nat} (x y : BitVec n) (c : Bool) : (s.subFlags x y c).dr7 = s.dr7 := by
  simp only [State.subFlags, State.szp_dr7, State.setFlag_dr7]
@[simp] theorem State.subFlags_tr6 {n : Nat} (x y : BitVec n) (c : Bool) : (s.subFlags x y c).tr6 = s.tr6 := by
  simp only [State.subFlags, State.szp_tr6, State.setFlag_tr6]
@[simp] theorem State.subFlags_tr7 {n : Nat} (x y : BitVec n) (c : Bool) : (s.subFlags x y c).tr7 = s.tr7 := by
  simp only [State.subFlags, State.szp_tr7, State.setFlag_tr7]
@[simp] theorem State.subFlags_cpl {n : Nat} (x y : BitVec n) (c : Bool) : (s.subFlags x y c).cpl = s.cpl := by
  simp only [State.subFlags, State.szp_cpl, State.setFlag_cpl]
@[simp] theorem State.subFlags_tlb {n : Nat} (x y : BitVec n) (c : Bool) : (s.subFlags x y c).tlb = s.tlb := by
  simp only [State.subFlags, State.szp_tlb, State.setFlag_tlb]
@[simp] theorem State.subFlags_nmiMask {n : Nat} (x y : BitVec n) (c : Bool) : (s.subFlags x y c).nmiMask = s.nmiMask := by
  simp only [State.subFlags, State.szp_nmiMask, State.setFlag_nmiMask]
@[simp] theorem State.subFlags_nmiPending {n : Nat} (x y : BitVec n) (c : Bool) : (s.subFlags x y c).nmiPending = s.nmiPending := by
  simp only [State.subFlags, State.szp_nmiPending, State.setFlag_nmiPending]
@[simp] theorem State.subFlags_inhibit {n : Nat} (x y : BitVec n) (c : Bool) : (s.subFlags x y c).inhibit = s.inhibit := by
  simp only [State.subFlags, State.szp_inhibit, State.setFlag_inhibit]
@[simp] theorem State.subFlags_inhibitIntr {n : Nat} (x y : BitVec n) (c : Bool) : (s.subFlags x y c).inhibitIntr = s.inhibitIntr := by
  simp only [State.subFlags, State.szp_inhibitIntr, State.setFlag_inhibitIntr]
@[simp] theorem State.subFlags_run {n : Nat} (x y : BitVec n) (c : Bool) : (s.subFlags x y c).run = s.run := by
  simp only [State.subFlags, State.szp_run, State.setFlag_run]
@[simp] theorem State.subFlags_pend {n : Nat} (x y : BitVec n) (c : Bool) : (s.subFlags x y c).pend = s.pend := by
  simp only [State.subFlags, State.szp_pend, State.setFlag_pend]
@[simp] theorem State.subFlags_pendLate {n : Nat} (x y : BitVec n) (c : Bool) : (s.subFlags x y c).pendLate = s.pendLate := by
  simp only [State.subFlags, State.szp_pendLate, State.setFlag_pendLate]
@[simp] theorem State.subFlags_repActive {n : Nat} (x y : BitVec n) (c : Bool) : (s.subFlags x y c).repActive = s.repActive := by
  simp only [State.subFlags, State.szp_repActive, State.setFlag_repActive]
@[simp] theorem State.subFlags_ranPast {n : Nat} (x y : BitVec n) (c : Bool) : (s.subFlags x y c).ranPast = s.ranPast := by
  simp only [State.subFlags, State.szp_ranPast, State.setFlag_ranPast]
@[simp] theorem State.subFlags_nextStart {n : Nat} (x y : BitVec n) (c : Bool) : (s.subFlags x y c).nextStart = s.nextStart := by
  simp only [State.subFlags, State.szp_nextStart, State.setFlag_nextStart]
@[simp] theorem State.subFlags_nextEip {n : Nat} (x y : BitVec n) (c : Bool) : (s.subFlags x y c).nextEip = s.nextEip := by
  simp only [State.subFlags, State.szp_nextEip, State.setFlag_nextEip]
@[simp] theorem State.subFlags_free {n : Nat} (x y : BitVec n) (c : Bool) : (s.subFlags x y c).free = s.free := by
  simp only [State.subFlags, State.szp_free, State.setFlag_free]
@[simp] theorem State.subFlags_mem {n : Nat} (x y : BitVec n) (c : Bool) : (s.subFlags x y c).mem = s.mem := by
  simp only [State.subFlags, State.szp_mem, State.setFlag_mem]
@[simp] theorem State.subFlags_pinReset {n : Nat} (x y : BitVec n) (c : Bool) : (s.subFlags x y c).pinReset = s.pinReset := by
  simp only [State.subFlags, State.szp_pinReset, State.setFlag_pinReset]
@[simp] theorem State.subFlags_pinNmi {n : Nat} (x y : BitVec n) (c : Bool) : (s.subFlags x y c).pinNmi = s.pinNmi := by
  simp only [State.subFlags, State.szp_pinNmi, State.setFlag_pinNmi]
@[simp] theorem State.subFlags_intrQueue {n : Nat} (x y : BitVec n) (c : Bool) : (s.subFlags x y c).intrQueue = s.intrQueue := by
  simp only [State.subFlags, State.szp_intrQueue, State.setFlag_intrQueue]
@[simp] theorem State.subFlags_pinBusy {n : Nat} (x y : BitVec n) (c : Bool) : (s.subFlags x y c).pinBusy = s.pinBusy := by
  simp only [State.subFlags, State.szp_pinBusy, State.setFlag_pinBusy]
@[simp] theorem State.subFlags_pinError {n : Nat} (x y : BitVec n) (c : Bool) : (s.subFlags x y c).pinError = s.pinError := by
  simp only [State.subFlags, State.szp_pinError, State.setFlag_pinError]
@[simp] theorem State.subFlags_coproc {n : Nat} (x y : BitVec n) (c : Bool) : (s.subFlags x y c).coproc = s.coproc := by
  simp only [State.subFlags, State.szp_coproc, State.setFlag_coproc]
@[simp] theorem State.subFlags_coprocReplies {n : Nat} (x y : BitVec n) (c : Bool) : (s.subFlags x y c).coprocReplies = s.coprocReplies := by
  simp only [State.subFlags, State.szp_coprocReplies, State.setFlag_coprocReplies]
@[simp] theorem State.subFlags_coprocSent {n : Nat} (x y : BitVec n) (c : Bool) : (s.subFlags x y c).coprocSent = s.coprocSent := by
  simp only [State.subFlags, State.szp_coprocSent, State.setFlag_coprocSent]
@[simp] theorem State.subFlags_ioInput {n : Nat} (x y : BitVec n) (c : Bool) : (s.subFlags x y c).ioInput = s.ioInput := by
  simp only [State.subFlags, State.szp_ioInput, State.setFlag_ioInput]
@[simp] theorem State.subFlags_ioLog {n : Nat} (x y : BitVec n) (c : Bool) : (s.subFlags x y c).ioLog = s.ioLog := by
  simp only [State.subFlags, State.szp_ioLog, State.setFlag_ioLog]
@[simp] theorem State.subFlags_devInput {n : Nat} (x y : BitVec n) (c : Bool) : (s.subFlags x y c).devInput = s.devInput := by
  simp only [State.subFlags, State.szp_devInput, State.setFlag_devInput]
@[simp] theorem State.subFlags_devLog {n : Nat} (x y : BitVec n) (c : Bool) : (s.subFlags x y c).devLog = s.devLog := by
  simp only [State.subFlags, State.szp_devLog, State.setFlag_devLog]
@[simp] theorem State.subFlags_platform {n : Nat} (x y : BitVec n) (c : Bool) : (s.subFlags x y c).platform = s.platform := by
  simp only [State.subFlags, State.szp_platform, State.setFlag_platform]

/-! ### `logicFlags` -/

@[simp] theorem State.logicFlags_regs {n : Nat} (r : BitVec n) : (s.logicFlags r).regs = s.regs := by
  simp only [State.logicFlags, State.szp_regs, State.setFlag_regs]
@[simp] theorem State.logicFlags_eip {n : Nat} (r : BitVec n) : (s.logicFlags r).eip = s.eip := by
  simp only [State.logicFlags, State.szp_eip, State.setFlag_eip]
@[simp] theorem State.logicFlags_es {n : Nat} (r : BitVec n) : (s.logicFlags r).es = s.es := by
  simp only [State.logicFlags, State.szp_es, State.setFlag_es]
@[simp] theorem State.logicFlags_cs {n : Nat} (r : BitVec n) : (s.logicFlags r).cs = s.cs := by
  simp only [State.logicFlags, State.szp_cs, State.setFlag_cs]
@[simp] theorem State.logicFlags_ss {n : Nat} (r : BitVec n) : (s.logicFlags r).ss = s.ss := by
  simp only [State.logicFlags, State.szp_ss, State.setFlag_ss]
@[simp] theorem State.logicFlags_ds {n : Nat} (r : BitVec n) : (s.logicFlags r).ds = s.ds := by
  simp only [State.logicFlags, State.szp_ds, State.setFlag_ds]
@[simp] theorem State.logicFlags_fs {n : Nat} (r : BitVec n) : (s.logicFlags r).fs = s.fs := by
  simp only [State.logicFlags, State.szp_fs, State.setFlag_fs]
@[simp] theorem State.logicFlags_gs {n : Nat} (r : BitVec n) : (s.logicFlags r).gs = s.gs := by
  simp only [State.logicFlags, State.szp_gs, State.setFlag_gs]
@[simp] theorem State.logicFlags_gdtr {n : Nat} (r : BitVec n) : (s.logicFlags r).gdtr = s.gdtr := by
  simp only [State.logicFlags, State.szp_gdtr, State.setFlag_gdtr]
@[simp] theorem State.logicFlags_idtr {n : Nat} (r : BitVec n) : (s.logicFlags r).idtr = s.idtr := by
  simp only [State.logicFlags, State.szp_idtr, State.setFlag_idtr]
@[simp] theorem State.logicFlags_ldtr {n : Nat} (r : BitVec n) : (s.logicFlags r).ldtr = s.ldtr := by
  simp only [State.logicFlags, State.szp_ldtr, State.setFlag_ldtr]
@[simp] theorem State.logicFlags_tr {n : Nat} (r : BitVec n) : (s.logicFlags r).tr = s.tr := by
  simp only [State.logicFlags, State.szp_tr, State.setFlag_tr]
@[simp] theorem State.logicFlags_cr0 {n : Nat} (r : BitVec n) : (s.logicFlags r).cr0 = s.cr0 := by
  simp only [State.logicFlags, State.szp_cr0, State.setFlag_cr0]
@[simp] theorem State.logicFlags_mswFresh {n : Nat} (r : BitVec n) : (s.logicFlags r).mswFresh = s.mswFresh := by
  simp only [State.logicFlags, State.szp_mswFresh, State.setFlag_mswFresh]
@[simp] theorem State.logicFlags_cr2 {n : Nat} (r : BitVec n) : (s.logicFlags r).cr2 = s.cr2 := by
  simp only [State.logicFlags, State.szp_cr2, State.setFlag_cr2]
@[simp] theorem State.logicFlags_cr3 {n : Nat} (r : BitVec n) : (s.logicFlags r).cr3 = s.cr3 := by
  simp only [State.logicFlags, State.szp_cr3, State.setFlag_cr3]
@[simp] theorem State.logicFlags_dr0 {n : Nat} (r : BitVec n) : (s.logicFlags r).dr0 = s.dr0 := by
  simp only [State.logicFlags, State.szp_dr0, State.setFlag_dr0]
@[simp] theorem State.logicFlags_dr1 {n : Nat} (r : BitVec n) : (s.logicFlags r).dr1 = s.dr1 := by
  simp only [State.logicFlags, State.szp_dr1, State.setFlag_dr1]
@[simp] theorem State.logicFlags_dr2 {n : Nat} (r : BitVec n) : (s.logicFlags r).dr2 = s.dr2 := by
  simp only [State.logicFlags, State.szp_dr2, State.setFlag_dr2]
@[simp] theorem State.logicFlags_dr3 {n : Nat} (r : BitVec n) : (s.logicFlags r).dr3 = s.dr3 := by
  simp only [State.logicFlags, State.szp_dr3, State.setFlag_dr3]
@[simp] theorem State.logicFlags_dr6 {n : Nat} (r : BitVec n) : (s.logicFlags r).dr6 = s.dr6 := by
  simp only [State.logicFlags, State.szp_dr6, State.setFlag_dr6]
@[simp] theorem State.logicFlags_dr7 {n : Nat} (r : BitVec n) : (s.logicFlags r).dr7 = s.dr7 := by
  simp only [State.logicFlags, State.szp_dr7, State.setFlag_dr7]
@[simp] theorem State.logicFlags_tr6 {n : Nat} (r : BitVec n) : (s.logicFlags r).tr6 = s.tr6 := by
  simp only [State.logicFlags, State.szp_tr6, State.setFlag_tr6]
@[simp] theorem State.logicFlags_tr7 {n : Nat} (r : BitVec n) : (s.logicFlags r).tr7 = s.tr7 := by
  simp only [State.logicFlags, State.szp_tr7, State.setFlag_tr7]
@[simp] theorem State.logicFlags_cpl {n : Nat} (r : BitVec n) : (s.logicFlags r).cpl = s.cpl := by
  simp only [State.logicFlags, State.szp_cpl, State.setFlag_cpl]
@[simp] theorem State.logicFlags_tlb {n : Nat} (r : BitVec n) : (s.logicFlags r).tlb = s.tlb := by
  simp only [State.logicFlags, State.szp_tlb, State.setFlag_tlb]
@[simp] theorem State.logicFlags_nmiMask {n : Nat} (r : BitVec n) : (s.logicFlags r).nmiMask = s.nmiMask := by
  simp only [State.logicFlags, State.szp_nmiMask, State.setFlag_nmiMask]
@[simp] theorem State.logicFlags_nmiPending {n : Nat} (r : BitVec n) : (s.logicFlags r).nmiPending = s.nmiPending := by
  simp only [State.logicFlags, State.szp_nmiPending, State.setFlag_nmiPending]
@[simp] theorem State.logicFlags_inhibit {n : Nat} (r : BitVec n) : (s.logicFlags r).inhibit = s.inhibit := by
  simp only [State.logicFlags, State.szp_inhibit, State.setFlag_inhibit]
@[simp] theorem State.logicFlags_inhibitIntr {n : Nat} (r : BitVec n) : (s.logicFlags r).inhibitIntr = s.inhibitIntr := by
  simp only [State.logicFlags, State.szp_inhibitIntr, State.setFlag_inhibitIntr]
@[simp] theorem State.logicFlags_run {n : Nat} (r : BitVec n) : (s.logicFlags r).run = s.run := by
  simp only [State.logicFlags, State.szp_run, State.setFlag_run]
@[simp] theorem State.logicFlags_pend {n : Nat} (r : BitVec n) : (s.logicFlags r).pend = s.pend := by
  simp only [State.logicFlags, State.szp_pend, State.setFlag_pend]
@[simp] theorem State.logicFlags_pendLate {n : Nat} (r : BitVec n) : (s.logicFlags r).pendLate = s.pendLate := by
  simp only [State.logicFlags, State.szp_pendLate, State.setFlag_pendLate]
@[simp] theorem State.logicFlags_repActive {n : Nat} (r : BitVec n) : (s.logicFlags r).repActive = s.repActive := by
  simp only [State.logicFlags, State.szp_repActive, State.setFlag_repActive]
@[simp] theorem State.logicFlags_ranPast {n : Nat} (r : BitVec n) : (s.logicFlags r).ranPast = s.ranPast := by
  simp only [State.logicFlags, State.szp_ranPast, State.setFlag_ranPast]
@[simp] theorem State.logicFlags_nextStart {n : Nat} (r : BitVec n) : (s.logicFlags r).nextStart = s.nextStart := by
  simp only [State.logicFlags, State.szp_nextStart, State.setFlag_nextStart]
@[simp] theorem State.logicFlags_nextEip {n : Nat} (r : BitVec n) : (s.logicFlags r).nextEip = s.nextEip := by
  simp only [State.logicFlags, State.szp_nextEip, State.setFlag_nextEip]
@[simp] theorem State.logicFlags_free {n : Nat} (r : BitVec n) : (s.logicFlags r).free = s.free := by
  simp only [State.logicFlags, State.szp_free, State.setFlag_free]
@[simp] theorem State.logicFlags_mem {n : Nat} (r : BitVec n) : (s.logicFlags r).mem = s.mem := by
  simp only [State.logicFlags, State.szp_mem, State.setFlag_mem]
@[simp] theorem State.logicFlags_pinReset {n : Nat} (r : BitVec n) : (s.logicFlags r).pinReset = s.pinReset := by
  simp only [State.logicFlags, State.szp_pinReset, State.setFlag_pinReset]
@[simp] theorem State.logicFlags_pinNmi {n : Nat} (r : BitVec n) : (s.logicFlags r).pinNmi = s.pinNmi := by
  simp only [State.logicFlags, State.szp_pinNmi, State.setFlag_pinNmi]
@[simp] theorem State.logicFlags_intrQueue {n : Nat} (r : BitVec n) : (s.logicFlags r).intrQueue = s.intrQueue := by
  simp only [State.logicFlags, State.szp_intrQueue, State.setFlag_intrQueue]
@[simp] theorem State.logicFlags_pinBusy {n : Nat} (r : BitVec n) : (s.logicFlags r).pinBusy = s.pinBusy := by
  simp only [State.logicFlags, State.szp_pinBusy, State.setFlag_pinBusy]
@[simp] theorem State.logicFlags_pinError {n : Nat} (r : BitVec n) : (s.logicFlags r).pinError = s.pinError := by
  simp only [State.logicFlags, State.szp_pinError, State.setFlag_pinError]
@[simp] theorem State.logicFlags_coproc {n : Nat} (r : BitVec n) : (s.logicFlags r).coproc = s.coproc := by
  simp only [State.logicFlags, State.szp_coproc, State.setFlag_coproc]
@[simp] theorem State.logicFlags_coprocReplies {n : Nat} (r : BitVec n) : (s.logicFlags r).coprocReplies = s.coprocReplies := by
  simp only [State.logicFlags, State.szp_coprocReplies, State.setFlag_coprocReplies]
@[simp] theorem State.logicFlags_coprocSent {n : Nat} (r : BitVec n) : (s.logicFlags r).coprocSent = s.coprocSent := by
  simp only [State.logicFlags, State.szp_coprocSent, State.setFlag_coprocSent]
@[simp] theorem State.logicFlags_ioInput {n : Nat} (r : BitVec n) : (s.logicFlags r).ioInput = s.ioInput := by
  simp only [State.logicFlags, State.szp_ioInput, State.setFlag_ioInput]
@[simp] theorem State.logicFlags_ioLog {n : Nat} (r : BitVec n) : (s.logicFlags r).ioLog = s.ioLog := by
  simp only [State.logicFlags, State.szp_ioLog, State.setFlag_ioLog]
@[simp] theorem State.logicFlags_devInput {n : Nat} (r : BitVec n) : (s.logicFlags r).devInput = s.devInput := by
  simp only [State.logicFlags, State.szp_devInput, State.setFlag_devInput]
@[simp] theorem State.logicFlags_devLog {n : Nat} (r : BitVec n) : (s.logicFlags r).devLog = s.devLog := by
  simp only [State.logicFlags, State.szp_devLog, State.setFlag_devLog]
@[simp] theorem State.logicFlags_platform {n : Nat} (r : BitVec n) : (s.logicFlags r).platform = s.platform := by
  simp only [State.logicFlags, State.szp_platform, State.setFlag_platform]

/-! ### What is read after a write -/

/-- A bit of a doubleword after `setBit`. -/
theorem bitOf_setBit (v : Dword) (n m : Nat) (b : Bool) (h : m < 32) :
    bitOf (setBit v n b) m = if m = n then b else bitOf v m := by
  unfold setBit
  cases b <;> by_cases e : m = n <;> simp [e, BitVec.getLsbD_shiftLeft]
  all_goals first | omega | skip
  all_goals
    intros
    first
      | omega
      | (have : m - n ≠ 0 := by omega
         simp_all)

/-- The places of the flags lie in the doubleword. -/
theorem Flag.bit_lt (f : Flag) : f.bit < 32 := by cases f <;> decide

/-- Two flags have two places. -/
theorem Flag.bit_inj (f g : Flag) (h : f.bit = g.bit) : f = g := by cases f <;> cases g <;> first | rfl | cases h

/-- A flag after a flag is written. -/
@[simp] theorem State.flag_setFlag (f g : Flag) (b : Bool) :
    (s.setFlag f b).flag g = if g = f then b else s.flag g := by
  unfold State.flag State.setFlag
  rw [bitOf_setBit _ _ _ _ g.bit_lt]
  by_cases h : g = f
  · simp [h]
  · have : g.bit ≠ f.bit := fun e => h (Flag.bit_inj g f e)
    simp [h, this]

/-- A general register after one is written. -/
@[simp] theorem Regs.get_set (r : Regs) (n m : Reg) (v : Dword) : (r.set n v).get m = if m = n then v else r.get m := by
  cases n <;> cases m <;> rfl

/-- Registers do not depend on the flags. -/
@[simp] theorem State.reg_setFlag (f : Flag) (b : Bool) (w : Width) (r : Reg) : (s.setFlag f b).reg w r = s.reg w r := rfl

/-- Flags do not depend on the registers. -/
@[simp] theorem State.flag_setReg (w : Width) (r : Reg) (v : BitVec w.bits) (f : Flag) :
    (s.setReg w r v).flag f = s.flag f := by unfold State.flag; simp

/-- A doubleword register reads as written. -/
@[simp] theorem State.reg_setReg_d32 (r q : Reg) (v : BitVec 32) :
    (s.setReg .d32 r v).reg .d32 q = if q = r then v else s.reg .d32 q := by simp [State.reg, State.setReg]

/-- Writing another 32-bit register leaves a register alone, at every width whose home is another. -/
theorem State.regs_get_setReg (w : Width) (r q : Reg) (v : BitVec w.bits)
    (h : q ≠ (if w = .b8 then byteHome r else r)) : (s.setReg w r v).regs.get q = s.regs.get q := by
  cases w <;> simp_all [State.setReg]

end Sys2Proof.Machine
end

