-- ==== Sys2Proof/Laws/Access.lean ====
section
/-! SUPPORT. What translation and the access primitives can do: which fields they change, and what they answer for an
operand that can be reached. -/

namespace Sys2Proof.Machine

variable {α β : Type}

/-! ### Conditional steps -/

@[simp] theorem when_true (m : M Unit) : when true m = m := rfl
@[simp] theorem when_false (m : M Unit) : when false m = pure () := rfl

theorem when_pos_false {c : Prop} [Decidable c] (h : ¬c) (m : M Unit) : when (decide c) m = pure () := by
  rw [decide_eq_false h]
  rfl

theorem keeps_when {R E : State → State → Prop} (hs : Steady R E) {b : Bool} {m : M Unit} (h : Keeps R E m) :
    Keeps R E (when b m) := by
  cases b
  · exact keeps_pure hs ()
  · exact h

/-- A check that succeeds has found its condition false and changed nothing. -/
theorem when_raise_ok {b : Bool} {v : Byte} {c : Option Word} {s t : State} {x : Unit}
    (h : when b (raise v c) s = .ok x t) : b = false ∧ s = t := by
  cases b
  · cases h; exact ⟨rfl, rfl⟩
  · cases h

/-! ### What translation changes -/

theorem State.Walked.refl (s : State) : s.Walked s := ⟨_, _, _, _, _, rfl⟩

theorem State.Walked.trans {s t u : State} : s.Walked t → t.Walked u → s.Walked u
  | ⟨_, _, _, _, _, h⟩, ⟨m, b, f, d, l, h'⟩ => ⟨m, b, f, d, l, by rw [h', h]⟩

theorem State.Walked.ofTlb (s : State) (b : List TlbEntry) : s.Walked { s with tlb := b } := ⟨_, b, _, _, _, rfl⟩
theorem State.Walked.ofFree (s : State) (f : Nat) : s.Walked { s with free := f } := ⟨_, _, f, _, _, rfl⟩

/-- A read of physical memory. -/
theorem State.Walked.ofRead (s : State) (as : List Nat) : s.Walked (s.afterRead as) := by
  obtain ⟨f, d, l, h⟩ := afterRead_frame s as
  exact ⟨_, _, f, d, l, h⟩

/-- A write to physical memory. -/
theorem State.Walked.ofStore (s : State) (as : List Nat) (vs : List Byte) : s.Walked (s.storeBytes as vs) := by
  obtain ⟨m, l, h⟩ := storeBytes_frame s as vs
  exact ⟨m, _, _, _, l, h⟩

theorem State.Walked.ofDword (s : State) (pa v : Dword) : s.Walked (s.setPhysDword pa v) := .ofStore s _ _

/-- After a page fault CR2 may differ too. -/
def State.Faulted (s t : State) : Prop := ∃ c, ({ s with cr2 := c } : State).Walked t

theorem steady_walked : Steady State.Walked State.Faulted where
  refl := .refl
  refl' s := ⟨s.cr2, .refl s⟩
  trans := .trans
  trans' := by
    rintro s t u ⟨_, _, _, _, _, rfl⟩ ⟨c, m, b, f, d, l, rfl⟩
    exact ⟨c, m, b, f, d, l, rfl⟩

/-- A page fault never succeeds; it writes CR2 and draws one free value. -/
theorem pageFault_keeps (lin : Dword) (p w : Bool) : Keeps State.Walked State.Faulted (pageFault lin p w : M α) := by
  intro s
  constructor
  · intro a t h
    cases h
  · intro x t h
    cases h
    exact ⟨lin, _, _, s.free + 1, _, _, rfl⟩

theorem choose_keeps (xs : List Nat) : Keeps State.Walked State.Faulted (choose xs) := by
  unfold choose
  split
  · exact keeps_pure steady_walked _
  · exact keeps_pure steady_walked _
  · exact keeps_bind steady_walked (keeps_draw fun s => .ofFree s _) fun _ => keeps_pure steady_walked _

theorem freshBlock_keeps (o : Option Nat) : Keeps State.Walked State.Faulted (freshBlock o) := by
  cases o with
  | some b => exact keeps_pure steady_walked b
  | none => exact keeps_bind steady_walked (keeps_draw fun s => .ofFree s _) fun _ => keeps_pure steady_walked _

/-- A read of physical memory never fails. -/
theorem physRead_run (as : List Nat) (s : State) : physRead as s = .ok (s.numAt as) (s.afterRead as) := rfl

theorem physRead32_run (pa : Dword) (s : State) :
    physRead32 pa s = .ok (s.physDword pa) (s.afterRead (dwordAt pa)) := rfl

theorem physRead_keeps (as : List Nat) : Keeps State.Walked State.Faulted (physRead as) := by
  intro s
  constructor
  · intro a t h
    cases h
    exact .ofRead s as
  · intro x t h
    cases h

theorem physRead32_keeps (pa : Dword) : Keeps State.Walked State.Faulted (physRead32 pa) :=
  keeps_bind steady_walked (physRead_keeps _) fun _ => keeps_pure steady_walked _

theorem physWrite32_keeps (pa v : Dword) : Keeps State.Walked State.Faulted (physWrite32 pa v) :=
  keeps_modify _ fun s => .ofDword s _ _

/-- A table walk changes memory (A and D bits), the TLB and the free values, and reads devices, nothing else. -/
theorem walkTables_keeps (lin : Dword) (w u : Bool) (b : Option Nat) :
    Keeps State.Walked State.Faulted (walkTables lin w u b) := by
  have fault := fun (c : Bool) (p : Bool) =>
    keeps_when steady_walked (b := c) (pageFault_keeps (α := Unit) lin p w)
  have write := fun (c : Bool) (pa v : Dword) => keeps_when steady_walked (b := c) (physWrite32_keeps pa v)
  unfold walkTables
  refine keeps_bind steady_walked (keeps_get steady_walked) fun s => ?_
  refine keeps_bind steady_walked (physRead32_keeps _) fun pde => ?_
  refine keeps_bind steady_walked (fault _ _) fun _ => ?_
  refine keeps_bind steady_walked (physRead32_keeps _) fun pte => ?_
  refine keeps_bind steady_walked (fault _ _) fun _ => ?_
  refine keeps_bind steady_walked (fault _ _) fun _ => ?_
  refine keeps_bind steady_walked (fault _ _) fun _ => ?_
  refine keeps_bind steady_walked (write _ _ _) fun _ => ?_
  refine keeps_bind steady_walked (write _ _ _) fun _ => ?_
  refine keeps_bind steady_walked (freshBlock_keeps _) fun b => ?_
  exact keeps_bind steady_walked (keeps_modify _ fun s => .ofTlb s _) fun _ => keeps_pure steady_walked _

theorem tlbUse_keeps (lin : Dword) (w u : Bool) (b : Nat) (e : TlbEntry) :
    Keeps State.Walked State.Faulted (tlbUse lin w u b e) := by
  unfold tlbUse
  split
  · exact walkTables_keeps _ _ _ _
  · repeat' first
      | refine keeps_bind steady_walked ?_ fun _ => ?_
      | exact keeps_when steady_walked (pageFault_keeps _ _ _)
      | exact keeps_pure steady_walked _

theorem translateVia_keeps (lin : Dword) (w u : Bool) (o : Option Nat) :
    Keeps State.Walked State.Faulted (translateVia lin w u o) := by
  cases o with
  | none => exact walkTables_keeps _ _ _ _
  | some b => exact keeps_bind steady_walked (keeps_get steady_walked) fun _ => tlbUse_keeps _ _ _ _ _

/-- A translation changes memory (A and D bits), the TLB and the free values, nothing else; CR2 too when it faults. -/
theorem translate_keeps (lin : Dword) (w u : Bool) : Keeps State.Walked State.Faulted (translate lin w u) := by
  unfold translate translatePaged
  repeat' first
    | refine keeps_bind steady_walked ?_ fun _ => ?_
    | exact keeps_get steady_walked
    | exact choose_keeps _
    | exact translateVia_keeps _ _ _ _
    | refine keeps_ite (fun _ => ?_) fun _ => ?_
    | exact keeps_pure steady_walked _

theorem translateEach_keeps (w u : Bool) (lins : List Dword) :
    Keeps State.Walked State.Faulted (translateEach w u lins) := by
  induction lins with
  | nil => exact keeps_pure steady_walked _
  | cons lin rest ih =>
    exact keeps_bind steady_walked (translate_keeps lin w u) fun _ =>
      keeps_bind steady_walked ih fun _ => keeps_pure steady_walked _

theorem undoing_ok {m : M α} {s t : State} {a : α} : undoing m s = .ok a t ↔ m s = .ok a t := by
  unfold undoing
  cases h : m s <;> simp

/-- What is undone is memory, the TLB and the writes to devices. -/
theorem undoing_error {m : M α} {s t : State} {x : Exc} (h : undoing m s = .error x t) :
    ∃ t', m s = .error x t' ∧ t = { t' with mem := s.mem, tlb := s.tlb, devLog := s.readsSince t' } := by
  unfold undoing at h
  cases e : m s with
  | ok a u => simp [e] at h
  | error y u =>
    simp only [e, EStateM.Result.error.injEq] at h
    obtain ⟨rfl, rfl⟩ := h
    exact ⟨u, rfl, rfl⟩

theorem undoing_keeps {m : M α} (h : Keeps State.Walked State.Faulted m) :
    Keeps State.Walked State.Faulted (undoing m) := by
  intro s
  constructor
  · intro a t e
    exact h.ok (undoing_ok.1 e)
  · intro x t e
    obtain ⟨t', e', he⟩ := undoing_error e
    obtain ⟨c, m, b, f, d, l, hf⟩ := h.error e'
    exact ⟨c, s.mem, s.tlb, f, d, s.readsSince t', by rw [he, hf]⟩

theorem translateAll_keeps (w u : Bool) (lins : List Dword) :
    Keeps State.Walked State.Faulted (translateAll w u lins) := undoing_keeps (translateEach_keeps w u lins)

/-- Only reads join the record. -/
theorem readsSince_eq (s t : State) : ∃ ops, s.readsSince t = ops ++ s.devLog ∧ ∀ o ∈ ops, o.write = false :=
  ⟨_, rfl, fun o h => by simpa using (List.mem_filter.1 h).2⟩

/-- An access that raises #PF leaves memory and the TLB as they were and has written to no device (R226, D28). -/
theorem translateAll_error {w u : Bool} {lins : List Dword} {s t : State} {x : Exc}
    (h : translateAll w u lins s = .error x t) :
    t.mem = s.mem ∧ t.tlb = s.tlb ∧ ∃ ops, t.devLog = ops ++ s.devLog ∧ ∀ o ∈ ops, o.write = false := by
  obtain ⟨t', -, rfl⟩ := undoing_error h
  exact ⟨rfl, rfl, readsSince_eq s t'⟩

/-! ### Without paging -/

/-- With PG = 0 a linear address is a physical address and translation changes nothing (R46, R225). -/
theorem translate_flat {s : State} (h : s.pg = false) (lin : Dword) (w u : Bool) : translate lin w u s = .ok lin s := by
  unfold translate
  simp [h]

theorem translateEach_flat {s : State} (h : s.pg = false) (w u : Bool) (lins : List Dword) :
    translateEach w u lins s = .ok (lins.map BitVec.toNat) s := by
  induction lins with
  | nil => rfl
  | cons lin rest ih =>
    unfold translateEach
    rw [M_bind_ok (translate_flat h lin w u), M_bind_ok ih]
    rfl

theorem translateAll_flat {s : State} (h : s.pg = false) (w u : Bool) (lins : List Dword) :
    translateAll w u lins s = .ok (lins.map BitVec.toNat) s := undoing_ok.2 (translateEach_flat h w u lins)

/-- With PG = 0 an operand can be reached exactly when its segment allows it. -/
theorem Reach.flat {s : State} (h : s.pg = false) {u : Bool} {sr : SReg} {off : Dword} {n : Nat} {w : Bool}
    (hs : s.segOk sr off n w = true) :
    Reach s u sr off n w ((span (s.linOf sr off) n).map BitVec.toNat) (s.noted sr off n w) :=
  ⟨hs, translateAll_flat (s := s.noted sr off n w) h w u _⟩

/-- Reaching an operand changes memory (A and D bits), the TLB, the free values and what devices answer, and notes the access
(R906). -/
theorem Reach.walked {s t : State} {u : Bool} {sr : SReg} {off : Dword} {n : Nat} {w : Bool} {pas : List Nat}
    (h : Reach s u sr off n w pas t) : (s.noted sr off n w).Walked t := (translateAll_keeps w u _).ok h.page

/-! ### Segment checks -/

/-- The checks pass where the segment allows the access, and change nothing. -/
theorem checkSeg_ok {s : State} {sr : SReg} {off : Dword} {n : Nat} {w : Bool} (h : s.segOk sr off n w = true) :
    checkSeg sr off n w s = .ok () s := by
  unfold State.segOk at h
  simp only [Bool.and_eq_true] at h
  obtain ⟨⟨hv, hw⟩, hl⟩ := h
  unfold checkSeg
  cases w <;> simp_all

/-- The checks raise #SS(0) where SS is unusable or its limit violated, and #GP(0) else (R100, R170). -/
theorem checkSeg_error {s : State} {sr : SReg} {off : Dword} {n : Nat} {w : Bool} (h : s.segOk sr off n w = false) :
    checkSeg sr off n w s = .error (faultOf (if sr = .ss ∧ ((s.sreg .ss).valid = false ∨
      (if w then s.mayWrite .ss else (s.sreg .ss).readable) = true) then 12 else 13) (some 0)) s := by
  unfold State.segOk at h
  unfold checkSeg raiseLimit
  simp only [M_get_bind]
  cases hv : (s.sreg sr).valid
  · by_cases hs : sr = .ss
    · subst hs
      simp [hv]
      rfl
    · simp [hs]
      rfl
  simp only [hv, Bool.true_and, Bool.and_eq_false_iff] at h
  cases w
  · simp only [Bool.false_eq_true, if_false] at h ⊢
    cases hr : (s.sreg sr).readable
    · have hn : ¬(sr = .ss ∧ ((s.sreg .ss).valid = false ∨ (s.sreg .ss).readable = true)) := by
        rintro ⟨rfl, h2⟩
        rw [hv, hr] at h2
        simp at h2
      rw [if_neg hn]
      rfl
    simp only [hr, Bool.true_eq_false, false_or] at h
    by_cases hs : sr = .ss
    · subst hs
      simp [h, hr]
      rfl
    · simp [h, hs]
      rfl
  · simp only [if_true] at h ⊢
    cases hr : s.mayWrite sr
    · have hn : ¬(sr = .ss ∧ ((s.sreg .ss).valid = false ∨ s.mayWrite .ss = true)) := by
        rintro ⟨rfl, h2⟩
        rw [hv, hr] at h2
        simp at h2
      rw [if_neg hn]
      rfl
    simp only [hr, Bool.true_eq_false, false_or] at h
    by_cases hs : sr = .ss
    · subst hs
      simp [h, hr]
      rfl
    · simp [h, hs]
      rfl

/-! ### Accesses -/

/-- A read of an operand that can be reached. -/
theorem memReadN_run {s t : State} {sr : SReg} {off : Dword} {n : Nat} {pas : List Nat}
    (h : Reach s s.user sr off n false pas t) : memReadN sr off n s = .ok (t.numAt pas) (t.afterRead pas) := by
  unfold memReadN
  rw [M_bind_ok (checkSeg_ok h.seg)]
  simp only [M_get_bind]
  rw [noteAccess, M_modify_bind, linRead, M_bind_ok h.page]
  rfl

theorem memRead_run {s t : State} {sr : SReg} {off : Dword} {w : Width} {pas : List Nat}
    (h : Reach s s.user sr off w.bytes false pas t) : memRead sr off w s = .ok (t.valueAt w pas) (t.afterRead pas) := by
  unfold memRead
  rw [M_bind_ok (memReadN_run h)]
  rfl

/-- A write to an operand that can be reached. -/
theorem memWriteAs_run {s t : State} {u : Bool} {sr : SReg} {off : Dword} {n : Nat} {pas : List Nat} (v : Nat)
    (h : Reach s u sr off n true pas t) :
    memWriteAs u sr off n v s = .ok () (t.storeBytes pas (bytesOf n v)) := by
  unfold memWriteAs
  rw [M_bind_ok (checkSeg_ok h.seg)]
  simp only [M_get_bind]
  rw [noteAccess, M_modify_bind, linWrite, M_bind_ok h.page]
  rfl

theorem memWrite_run {s t : State} {sr : SReg} {off : Dword} {w : Width} {pas : List Nat} (v : BitVec w.bits)
    (h : Reach s s.user sr off w.bytes true pas t) : memWrite sr off w v s = .ok () (t.storeAt w pas v) := by
  unfold memWrite
  simp only [M_get_bind]
  exact memWriteAs_run _ h

/-- Where an operand can be written and its segment read, the checks of a read pass too. -/
theorem Reach.segRead {s t : State} {u : Bool} {sr : SReg} {off : Dword} {n : Nat} {pas : List Nat}
    (h : Reach s u sr off n true pas t) (hr : (s.sreg sr).readable = true) : s.segOk sr off n false = true := by
  have h := h.seg
  unfold State.segOk at h ⊢
  simp only [Bool.and_eq_true] at h
  simp [h.1.1, h.2, hr]

/-- An operand that can be reached, read and rewritten: what its function gives is stored; where it raises an exception
nothing is. -/
theorem memUpdate_eq {s t : State} {sr : SReg} {off : Dword} {w : Width} {pas : List Nat}
    (f : BitVec w.bits → M (BitVec w.bits)) (h : Reach s s.user sr off w.bytes true pas t)
    (hr : (s.sreg sr).readable = true) :
    memUpdate sr off w f s = (do
      let v ← f (t.valueAt w pas)
      modify fun u => u.storeAt w pas v : M Unit) (t.afterRead pas) := by
  unfold memUpdate
  rw [M_bind_ok (checkSeg_ok h.seg), M_bind_ok (checkSeg_ok (h.segRead hr))]
  simp only [M_get_bind]
  rw [noteAccess, M_modify_bind, M_bind_ok h.page, M_bind_ok (physRead_run _ _)]
  rfl

theorem memUpdate_run {s t u : State} {sr : SReg} {off : Dword} {w : Width} {pas : List Nat}
    {f : BitVec w.bits → M (BitVec w.bits)} {v : BitVec w.bits} (h : Reach s s.user sr off w.bytes true pas t)
    (hr : (s.sreg sr).readable = true) (hf : f (t.valueAt w pas) (t.afterRead pas) = .ok v u) :
    memUpdate sr off w f s = .ok () (u.storeAt w pas v) := by
  rw [memUpdate_eq f h hr, M_bind_ok hf]
  rfl

/-! ### The stack -/

theorem pushAs_run {s t : State} {u : Bool} {w : Width} {pas : List Nat} (v : BitVec w.bits)
    (h : Reach s u .ss (s.pushOff w) w.bytes true pas t) :
    pushAs u w v s = .ok () ((t.storeAt w pas v).setEsp (s.pushOff w)) := by
  unfold pushAs
  simp only [M_get_bind]
  rw [M_bind_ok (memWriteAs_run v.toNat h)]
  rfl

/-- A push that can be made. -/
theorem push_run {s : State} {w : Width} {put : BitVec w.bits → State} (v : BitVec w.bits) (h : PushTo s w put) :
    push w v s = .ok () (put v) := by
  cases h with
  | mk pas t h => exact pushAs_run v h

/-- A pop that can be made. -/
theorem pop_run {s t : State} {w : Width} {v : BitVec w.bits} (h : PopFrom s w v t) : pop w s = .ok v t := by
  cases h with
  | mk pas t h =>
    unfold pop
    simp only [M_get_bind]
    rw [M_bind_ok (memRead_run h)]
    rfl

end Sys2Proof.Machine
end

