-- ==== Sys2Proof/Laws/Operands.lean ====
section
/-! SUPPORT. What the operand forms do where their operands can be reached, and what undefined flags come to. -/

namespace Sys2Proof.Machine

variable {s t u : State} {w : Width} {rm : Rm}

/-! ### What the state in which a meaning runs reads as -/

@[simp] theorem State.begun_reg (s : State) (w : Width) (r : Reg) : s.begun.reg w r = s.reg w r := by cases w <;> rfl
@[simp] theorem State.begun_flag (s : State) (f : Flag) : s.begun.flag f = s.flag f := rfl
@[simp] theorem State.begun_iopl (s : State) : s.begun.iopl = s.iopl := rfl
@[simp] theorem State.begun_pe (s : State) : s.begun.pe = s.pe := rfl
@[simp] theorem State.begun_pg (s : State) : s.begun.pg = s.pg := rfl
@[simp] theorem State.begun_v86 (s : State) : s.begun.v86 = s.v86 := rfl
@[simp] theorem State.begun_prot (s : State) : s.begun.prot = s.prot := rfl
@[simp] theorem State.begun_paragraphs (s : State) : s.begun.paragraphs = s.paragraphs := rfl
@[simp] theorem State.begun_user (s : State) : s.begun.user = s.user := rfl
@[simp] theorem State.begun_sreg (s : State) (r : SReg) : s.begun.sreg r = s.sreg r := by cases r <;> rfl
@[simp] theorem State.begun_stack32 (s : State) : s.begun.stack32 = s.stack32 := rfl
@[simp] theorem State.begun_esp (s : State) : s.begun.esp = s.esp := rfl
@[simp] theorem State.begun_idx (s : State) (w : Width) (r : Reg) : s.begun.idx w r = s.idx w r := rfl
@[simp] theorem State.begun_memEa (s : State) (m : MemRef) : s.begun.memEa m = s.memEa m := by
  obtain ⟨_, a⟩ := m
  cases a with
  | based16 b d => cases b <;> rfl
  | sib b i sc d => cases b <;> cases i <;> rfl
  | _ => rfl

/-! ### Registers and flags -/

@[simp] theorem readReg_run (w : Width) (r : Reg) (s : State) : readReg w r s = .ok (s.reg w r) s := rfl
@[simp] theorem writeReg_run (w : Width) (r : Reg) (v : BitVec w.bits) (s : State) :
    writeReg w r v s = .ok () (s.setReg w r v) := rfl
@[simp] theorem putFlag_run (f : Flag) (b : Bool) (s : State) : putFlag f b s = .ok () (s.setFlag f b) := rfl
@[simp] theorem freeFlag_run (f : Flag) (s : State) : freeFlag f s = .ok () (s.freed [f]) := rfl

/-- Undefined flags take free bits, one after the other. -/
@[simp] theorem freeFlags_run (fs : List Flag) (s : State) : freeFlags fs s = .ok () (s.freed fs) := by
  induction fs generalizing s with
  | nil => rfl
  | cons f fs ih =>
    unfold freeFlags
    rw [M_bind_ok (freeFlag_run f s), ih]
    rfl

@[simp] theorem addF_run {n : Nat} (a b : BitVec n) (c : Bool) (s : State) :
    addF a b c s = .ok (addVal a b c) (s.addFlags a b c) := rfl
@[simp] theorem subF_run {n : Nat} (a b : BitVec n) (c : Bool) (s : State) :
    subF a b c s = .ok (subVal a b c) (s.subFlags a b c) := rfl
@[simp] theorem logicF_run {n : Nat} (r : BitVec n) (s : State) :
    logicF r s = .ok r ((s.logicFlags r).freed [.af]) := rfl
@[simp] theorem mulFlags_run (b : Bool) (s : State) :
    mulFlags b s = .ok () (((s.setFlag .cf b).setFlag .of b).freed [.sf, .zf, .af, .pf]) := by
  unfold mulFlags
  rw [M_bind_ok (putFlag_run _ _ _), M_bind_ok (putFlag_run _ _ _), freeFlags_run]
@[simp] theorem bitFlags_run (b : Bool) (s : State) :
    bitFlags b s = .ok () ((s.setFlag .cf b).freed [.of, .sf, .zf, .af, .pf]) := by
  unfold bitFlags
  rw [M_bind_ok (putFlag_run _ _ _), freeFlags_run]
@[simp] theorem szpF_run {n : Nat} (r : BitVec n) (s : State) : szpF r s = .ok () (s.szp r) := rfl

/-- An operation that keeps CF. -/
theorem keepCF_run {α : Type} {m : M α} {a : α} (h : m s = .ok a t) :
    keepCF m s = .ok a (t.setFlag .cf (s.flag .cf)) := by
  unfold keepCF
  simp only [M_get_bind]
  rw [M_bind_ok h, M_bind_ok (putFlag_run ..)]
  rfl

/-! ### The r/m operand -/

theorem readRm_run {v : BitVec w.bits} (h : RmIs s w rm v t) : readRm w rm s = .ok v t := by
  cases h with
  | reg r => rfl
  | mem m pas t h =>
    unfold readRm readMem
    dsimp only
    rw [M_get_bind]
    exact memRead_run h

theorem writeRm_run {put : BitVec w.bits → State} (v : BitVec w.bits) (h : RmPut s w rm put) :
    writeRm w rm v s = .ok () (put v) := by
  cases h with
  | reg r => rfl
  | mem m pas t h =>
    unfold writeRm writeMem
    dsimp only
    rw [M_get_bind]
    exact memWrite_run v h

/-- A memory operand that cannot be written raises what the write raises. -/
theorem writeRm_error {m : MemRef} {v : BitVec w.bits} {x : Exc} (h : memWrite (segOf m) (s.memEa m) w v s = .error x t) :
    writeRm w (.mem m) v s = .error x t := by
  unfold writeRm writeMem
  dsimp only
  rw [M_get_bind]
  exact h

theorem updateRm_run {a v : BitVec w.bits} {put : BitVec w.bits → State → State} {f : BitVec w.bits → M (BitVec w.bits)}
    (h : RmAt s w rm a t put) (hf : f a t = .ok v u) : updateRm w rm f s = .ok () (put v u) := by
  cases h with
  | reg r =>
    unfold updateRm
    simp only [M_get_bind]
    rw [M_bind_ok hf]
    rfl
  | mem m pas t h hr => exact memUpdate_run h hr hf

/-- Where the operand's function raises an exception nothing is written. -/
theorem updateRm_error {a : BitVec w.bits} {put : BitVec w.bits → State → State} {x : Exc}
    {f : BitVec w.bits → M (BitVec w.bits)} (h : RmAt s w rm a t put) (hf : f a t = .error x u) :
    updateRm w rm f s = .error x u := by
  cases h with
  | reg r =>
    unfold updateRm
    simp only [M_get_bind]
    rw [M_bind_error hf]
  | mem m pas t h hr =>
    unfold updateRm
    simp only [M_get_bind]
    rw [memUpdate_eq f h hr, M_bind_error hf]

/-! ### The operand forms -/

theorem aluWrite_run {f : AluForm} {a b v : BitVec w.bits} {put : BitVec w.bits → State → State}
    {g : {n : Nat} → BitVec n → BitVec n → M (BitVec n)} (h : AluAt s f w a b t put) (hg : g a b t = .ok v u) :
    aluWrite g f s = .ok () (put v u) := by
  cases h with
  | rmReg r h =>
    unfold aluWrite
    dsimp only
    rw [M_bind_ok (readReg_run ..)]
    exact updateRm_run h hg
  | regRm r h =>
    unfold aluWrite
    dsimp only
    rw [M_bind_ok (readRm_run h), M_bind_ok (readReg_run ..), M_bind_ok hg]
    rfl
  | accImm w imm =>
    unfold aluWrite
    dsimp only
    rw [M_bind_ok (readReg_run ..), M_bind_ok hg]
    rfl
  | rmImm imm h =>
    unfold aluWrite
    exact updateRm_run h hg
  | rmImm8 imm h =>
    unfold aluWrite
    exact updateRm_run h hg

theorem aluRead_run {f : AluForm} {a b v : BitVec w.bits} {g : {n : Nat} → BitVec n → BitVec n → M (BitVec n)}
    (h : AluIs s f w a b t) (hg : g a b t = .ok v u) : aluRead g f s = .ok () u := by
  cases h with
  | rmReg r h =>
    unfold aluRead
    dsimp only
    rw [M_bind_ok (readRm_run h), M_bind_ok (readReg_run ..), M_bind_ok hg]
    rfl
  | regRm r h =>
    unfold aluRead
    dsimp only
    rw [M_bind_ok (readRm_run h), M_bind_ok (readReg_run ..), M_bind_ok hg]
    rfl
  | accImm w imm =>
    unfold aluRead
    dsimp only
    rw [M_bind_ok (readReg_run ..), M_bind_ok hg]
    rfl
  | rmImm imm h =>
    unfold aluRead
    dsimp only
    rw [M_bind_ok (readRm_run h), M_bind_ok hg]
    rfl
  | rmImm8 imm h =>
    unfold aluRead
    dsimp only
    rw [M_bind_ok (readRm_run h), M_bind_ok hg]
    rfl

theorem testForm_run {f : TestForm} {a b : BitVec w.bits} (h : TestIs s f w a b t) :
    testForm f s = .ok () ((t.logicFlags (a &&& b)).freed [.af]) := by
  cases h with
  | rmReg r h =>
    unfold testForm
    dsimp only
    rw [M_bind_ok (readRm_run h), M_bind_ok (readReg_run ..)]
    rfl
  | accImm w imm => rfl
  | rmImm imm h =>
    unfold testForm
    dsimp only
    rw [M_bind_ok (readRm_run h)]
    rfl

theorem incForm_run {f : IncForm} {a v : BitVec w.bits} {put : BitVec w.bits → State → State}
    {g : {n : Nat} → BitVec n → M (BitVec n)} (h : IncAt s f w a t put) (hg : g a t = .ok v u) :
    incForm g f s = .ok () (put v u) := by
  cases h with
  | reg w r =>
    unfold incForm
    exact updateRm_run (.reg r) hg
  | rm h =>
    unfold incForm
    exact updateRm_run h hg

theorem dshiftForm_run {f : DShiftForm} {x y v : BitVec w.bits} {k : Nat} {put : BitVec w.bits → State → State}
    {g : {n : Nat} → Nat → BitVec n → BitVec n → M (BitVec n)} (h : DShiftAt s f w x y k t put)
    (hg : g k x y t = .ok v u) : dshiftForm g f s = .ok () (put v u) := by
  cases h with
  | imm r n h =>
    unfold dshiftForm
    dsimp only
    rw [M_bind_ok (readReg_run ..)]
    exact updateRm_run h hg
  | cl r h =>
    unfold dshiftForm
    dsimp only
    rw [M_bind_ok (readReg_run ..), M_get_bind]
    exact updateRm_run h hg

theorem shiftForm_run {k : ShiftKind} {f : ShiftForm} {x v : BitVec w.bits} {n : Nat}
    {put : BitVec w.bits → State → State} (h : ShiftAt s f w x n t put) (hg : shiftF k n x t = .ok v u) :
    shiftForm k f s = .ok () (put v u) := by
  cases h with
  | imm n h => exact updateRm_run h hg
  | one h => exact updateRm_run h hg
  | cl h =>
    unfold shiftForm
    dsimp only
    rw [M_get_bind]
    exact updateRm_run h hg

/-- A shift by 0 changes nothing; by another count the operand and CF go through that many single steps. -/
theorem shiftF_zero {n : Nat} (k : ShiftKind) (x : BitVec n) (s : State) : shiftF k 0 x s = .ok x s := rfl

theorem bitRead_run {f : BtForm} {v : BitVec w.bits} {k : Nat} (h : BitIs s f w v k t) :
    bitRead f s = .ok (v.getLsbD k) t := by
  cases h with
  | imm n h =>
    unfold bitRead
    dsimp only
    rw [M_bind_ok (readRm_run h)]
    rfl
  | reg w b r => rfl
  | mem w m r pas t h =>
    unfold bitRead
    dsimp only
    rw [M_bind_ok (readReg_run ..)]
    have e : bitUnitRead w (.mem m) (s.reg w r) s = .ok (t.valueAt w pas) (t.afterRead pas) := by
      unfold bitUnitRead
      simp only [M_get_bind]
      exact memRead_run h
    rw [M_bind_ok e]
    rfl

theorem bitUpdate_run {f : BtForm} {v : BitVec w.bits} {k : Nat} {put : BitVec w.bits → State → State}
    {g : {n : Nat} → BitVec n → Nat → BitVec n} (h : BitAt s f w v k t put) :
    bitUpdate g f s = .ok () (put (g v k) ((t.setFlag .cf (v.getLsbD k)).freed [.of, .sf, .zf, .af, .pf])) := by
  cases h with
  | imm n h =>
    unfold bitUpdate
    dsimp only
    refine updateRm_run h ?_
    rw [M_bind_ok (bitFlags_run ..)]
    rfl
  | reg w b r =>
    unfold bitUpdate
    dsimp only
    rw [M_bind_ok (readReg_run ..)]
    refine updateRm_run (.reg b) ?_
    rw [M_bind_ok (bitFlags_run ..)]
    rfl
  | mem w m r pas t h hr =>
    unfold bitUpdate
    dsimp only
    rw [M_bind_ok (readReg_run ..), M_get_bind]
    refine memUpdate_run h hr ?_
    rw [M_bind_ok (bitFlags_run ..)]
    rfl

/-! ### Shared operations of the arithmetic and logic instructions -/

/-- The product of IMUL with a register destination. -/
theorem imulReg_run (w : Width) (r : Reg) (a b : BitVec w.bits) (s : State) :
    imulReg w r a b s = .ok () ((((s.setReg w r (BitVec.ofInt w.bits (a.toInt * b.toInt))).setFlag .cf
      (misfits w.bits (a.toInt * b.toInt))).setFlag .of (misfits w.bits (a.toInt * b.toInt))).freed
        [.sf, .zf, .af, .pf]) := by
  unfold imulReg
  rw [M_bind_ok (writeReg_run ..), mulFlags_run]

/-- A shift or rotate by a count other than 0. -/
theorem shiftF_run {n m : Nat} {k : ShiftKind} {x r : BitVec n} {c : Bool} {t t₁ t₂ : State} (hm : m ≠ 0)
    (h : k.steps m x (t.flag .cf) = (r, c))
    (h₁ : t₁ = (if k.rotates then t.setFlag .cf c else ((t.setFlag .cf c).szp r).freed [.af]))
    (h₂ : t₂ = (if m = 1 then t₁.setFlag .of (k.overflow x r c) else t₁.freed [.of])) : shiftF k m x t = .ok r t₂ := by
  have a : when (!k.rotates) (szpFreeAF r) (t.setFlag .cf c) = .ok () t₁ := by
    subst h₁
    cases k.rotates <;> rfl
  have b : shiftOF m (k.overflow x r c) t₁ = .ok () t₂ := by
    subst h₂
    unfold shiftOF
    split <;> rfl
  unfold shiftF
  rw [if_neg hm]
  simp only [M_get_bind, h]
  rw [M_bind_ok (putFlag_run ..), M_bind_ok a, M_bind_ok b]
  rfl

/-- A double shift by a count below the width. -/
theorem dshiftF_run {n k : Nat} {x r : BitVec n} {c : Bool} {t : State} (h : k ≠ 0) (hk : k < n) :
    dshiftF k x r c t = .ok r (((t.setFlag .cf c).szp r).freed [.of, .af]) := by
  unfold dshiftF
  rw [if_neg h, if_neg (by omega), M_modify_bind, M_bind_ok (freeFlags_run _ _)]
  rfl

/-- A double shift by the width or more. -/
theorem dshiftF_free {n k : Nat} {x r : BitVec n} {c : Bool} {t : State} (h : k ≠ 0) (hk : n ≤ k) :
    dshiftF k x r c t = .ok ((Config.freeBits t.free).setWidth n) (({ t with free := t.free + 1 } : State).freed allStatus) := by
  unfold dshiftF
  rw [if_neg h, if_pos hk, M_bind_ok (draw_run _), M_bind_ok (freeFlags_run _ _)]
  rfl

/-- The search from below finds the least set bit. -/
theorem lowestBit_eq {n k : Nat} {v : BitVec n} (hk : v.getLsbD k = true) {fuel i : Nat}
    (h : ∀ j, i ≤ j → j < k → v.getLsbD j = false) (hi : i ≤ k) (hf : k < i + fuel) : lowestBit v fuel i = k := by
  induction fuel generalizing i with
  | zero => omega
  | succ m ih =>
    unfold lowestBit
    by_cases e : i = k
    · subst e
      rw [if_pos hk]
    · rw [if_neg (by rw [h i (by omega) (by omega)]; decide)]
      exact ih (fun j _ h' => h j (by omega) h') (by omega) (by omega)

/-- The search from above finds the greatest set bit. -/
theorem highestBit_eq {n k : Nat} {v : BitVec n} (hk : v.getLsbD k = true) {i : Nat}
    (h : ∀ j, k < j → v.getLsbD j = false) (hi : k < i) : highestBit v i = k := by
  induction i with
  | zero => omega
  | succ m ih =>
    unfold highestBit
    by_cases e : m = k
    · subst e
      rw [if_pos hk]
    · rw [if_neg (by rw [h m (by omega)]; decide)]
      exact ih (by omega)

/-- The bit scans on 0. -/
theorem bitScan_zero (find : {n : Nat} → BitVec n → Nat) {r : Reg} {v : BitVec w.bits} (h : RmIs s w rm v t)
    (hv : v = 0) : bitScan find w r rm s = .ok () ((({ t.setFlag .zf true with free := t.free + 1 } : State).setReg w r
      ((Config.freeBits t.free).setWidth w.bits)).freed [.of, .sf, .af, .pf, .cf]) := by
  subst hv
  have a : bitIndex find (0 : BitVec w.bits) (t.setFlag .zf (0#w.bits == 0)) =
      .ok ((Config.freeBits t.free).setWidth w.bits) { t.setFlag .zf true with free := t.free + 1 } := by
    unfold bitIndex
    rw [if_pos (by simp), M_bind_ok (draw_run _)]
    simp
  unfold bitScan
  rw [M_bind_ok (readRm_run h), M_bind_ok (putFlag_run ..)]
  refine (M_bind_ok a).trans ?_
  rw [M_bind_ok (writeReg_run ..), freeFlags_run]

/-- The bit scans on another value. -/
theorem bitScan_run (find : {n : Nat} → BitVec n → Nat) {r : Reg} {v : BitVec w.bits} (h : RmIs s w rm v t)
    (hv : v ≠ 0) : bitScan find w r rm s = .ok () (((t.setFlag .zf false).setReg w r
      (BitVec.ofNat w.bits (find v))).freed [.of, .sf, .af, .pf, .cf]) := by
  have e : (v == 0) = false := by simpa using hv
  have a : bitIndex find v (t.setFlag .zf false) = .ok (BitVec.ofNat _ (find v)) (t.setFlag .zf false) := by
    unfold bitIndex
    rw [e]
    rfl
  unfold bitScan
  rw [M_bind_ok (readRm_run h), M_bind_ok (putFlag_run ..), e]
  refine (M_bind_ok a).trans ?_
  rw [M_bind_ok (writeReg_run ..), freeFlags_run]

end Sys2Proof.Machine
end

