-- ==== Sys2Proof/Laws/Coproc.lean ====
section
/-! SUPPORT. The transfer between memory and a coprocessor (R996). -/

namespace Sys2Proof.Machine

variable {s t u : State} {sr : SReg}

theorem escCheck_run {wr : Bool} {off pa : Dword} (h : s.segOk sr off 1 wr = true)
    (ht : translate (s.linOf sr off) wr s.user s = .ok pa t) : escCheck sr wr off s = .ok () t := by
  unfold escCheck
  rw [M_bind_ok (checkSeg_ok h), M_get_bind, M_bind_ok ht]
  rfl

/-- The checks of an operand's ends pass. -/
theorem escEnds_run {wr : Bool} {offs : List Dword} (h : EscEnds sr wr s offs t) : escEnds sr wr offs s = .ok () t := by
  cases h with
  | nil => rfl
  | cons h =>
    unfold escEnds
    cases h with
    | cons h1 t1 h =>
      cases h with
      | cons h2 t2 h =>
        cases h
        refine undoing_ok.2 ?_
        rw [M_bind_ok (escCheck_run h1 t1)]
        exact escCheck_run h2 t2

theorem escCheckEnds_run {asz : Width} {tr : CoprocTransfer} {off : Dword}
    (h : EscEnds sr tr.size.2 s (escOffsets asz off tr.size.1) t) :
    escCheckEnds asz tr (some (sr, off)) s = .ok () t := by
  cases tr with
  | none =>
    cases h
    rfl
  | load n => exact escEnds_run h
  | store bytes => exact escEnds_run h

theorem EscChecks.walked {wr : Bool} {offs : List Dword} (h : EscChecks sr wr s offs t) : s.Walked t := by
  induction h with
  | nil s => exact .refl s
  | cons h ht _ ih => exact ((translate_keeps _ _ _).ok ht).trans ih

theorem escReach_run {wr : Bool} {offs : List Dword} (h : EscChecks sr wr s offs t) :
    escReach sr wr offs s = .ok offs.length t := by
  induction h with
  | nil => rfl
  | cons h ht _ ih =>
    unfold escReach
    have e := escCheck_run h ht
    rw [M_bind_ok (m := (do escCheck sr wr _; pure true : M Bool).tryCatch fun _ => pure false) (a := true) ?_]
    · simp only [if_true]
      rw [M_bind_ok ih]
      rfl
    · show EStateM.tryCatch _ _ _ = _
      unfold EStateM.tryCatch
      rw [M_bind_ok e]
      rfl

theorem escLoad_run {offs : List Dword} {bs : List Byte} (h : EscLoads sr s offs bs t) :
    escLoad sr offs s = .ok bs t := by
  induction h with
  | nil => rfl
  | cons h _ ih =>
    unfold escLoad
    rw [M_bind_ok (memRead_run (w := .b8) h), M_bind_ok ih]
    rfl

theorem escStore_run {items : List (Dword × Byte)} (h : EscStores sr s items t) : escStore sr items s = .ok () t := by
  induction h with
  | nil => rfl
  | cons h _ ih =>
    unfold escStore
    rw [M_bind_ok (memWrite_run (w := .b8) _ h)]
    exact ih

theorem escOffsets_length (asz : Width) (off : Dword) (n : Nat) : (escOffsets asz off n).length = n := by
  induction n generalizing off with
  | zero => rfl
  | succ n ih => simp [escOffsets, ih]

/-- Where nothing fails `overrun` changes nothing. -/
theorem overrun_ok {α : Type} {m : M α} {a : α} (h : m s = .ok a t) : overrun m s = .ok a t := by
  unfold overrun
  rw [h]

/-- A transfer whose bytes can all be reached is made. -/
theorem escTransfer_run {asz : Width} {tr : CoprocTransfer} {off : Dword} {bs : List Byte}
    (h : EscMoves asz sr off s tr bs t) : escTransfer asz tr (some (sr, off)) s = .ok bs t := by
  cases h with
  | none => rfl
  | load n bs t h => exact overrun_ok (escLoad_run h)
  | store bytes t u h hs =>
    have hc : t.cr2 = s.cr2 := by
      obtain ⟨_, _, _, _, _, rfl⟩ := h.walked
      rfl
    have hl : ((escOffsets asz off bytes.length).zip bytes).map (·.1) = escOffsets asz off bytes.length :=
      List.map_fst_zip (by simp [escOffsets_length])
    have hn : (escOffsets asz off bytes.length).length = ((escOffsets asz off bytes.length).zip bytes).length := by
      simp [escOffsets_length]
    unfold escTransfer
    dsimp only
    rw [M_get_bind, hl, M_bind_ok (escReach_run h), M_modify_bind, if_pos hn]
    have e : ({ t with cr2 := s.cr2 } : State) = t := by rw [← hc]
    rw [e, M_bind_ok (overrun_ok (escStore_run hs))]
    rfl

end Sys2Proof.Machine
end

