-- ==== Sys2Proof/Laws/Segment.lean ====
section
/-! SUPPORT. What reading a descriptor and loading a segment register do; sequences of pushes and pops; far pointers. -/

namespace Sys2Proof.Machine

variable {s t u : State}

/-! ### Reads on the processor's own account -/

theorem linRead_walked {lin : Dword} {n x : Nat} {u : Bool} (h : linRead lin n u s = .ok x t) : s.Walked t := by
  unfold linRead at h
  obtain ⟨_, v, h₁, h₂⟩ := M_bind_ok_inv h
  exact ((translateAll_keeps _ _ _).ok h₁).trans ((physRead_keeps _).ok h₂)

theorem sysRead32_walked {lin x : Dword} (h : sysRead32 lin s = .ok x t) : s.Walked t := by
  unfold sysRead32 at h
  obtain ⟨_, v, h₁, h₂⟩ := M_bind_ok_inv h
  cases h₂
  exact linRead_walked h₁

theorem sysRead16_walked {lin : Dword} {x : Word} (h : sysRead16 lin s = .ok x t) : s.Walked t := by
  unfold sysRead16 at h
  obtain ⟨_, v, h₁, h₂⟩ := M_bind_ok_inv h
  cases h₂
  exact linRead_walked h₁

theorem readDesc_walked {a : Dword} {d : Desc} (h : readDesc a s = .ok d t) : s.Walked t := by
  unfold readDesc at h
  obtain ⟨_, v, h₁, h₂⟩ := M_bind_ok_inv h
  obtain ⟨_, v', h₃, h₄⟩ := M_bind_ok_inv h₂
  cases h₄
  exact (sysRead32_walked h₁).trans (sysRead32_walked h₃)

/-- Reading a descriptor changes nothing but memory (A and D bits), the TLB, the free values and what devices answer. -/
theorem fetchDesc_walked {sel : Word} {d : Option Desc} (h : fetchDesc sel s = .ok d t) : s.Walked t := by
  unfold fetchDesc at h
  rw [M_get_bind] at h
  cases e : s.descAddr sel with
  | none =>
    rw [e] at h
    cases h
    exact .refl _
  | some a =>
    rw [e] at h
    obtain ⟨_, v, h₁, h₂⟩ := M_bind_ok_inv h
    cases h₂
    exact readDesc_walked h₁

theorem fetchDescOr_run {sel : Word} {d : Desc} {vec : Byte} {ext : Bool} (h : fetchDesc sel s = .ok (some d) t) :
    fetchDescOr vec ext sel s = .ok d t := by
  unfold fetchDescOr
  rw [M_bind_ok h]
  rfl

/-! ### Segment registers -/

theorem readable_s {d : Desc} (h : d.readable = true) : d.s = true := by
  simp only [Desc.readable, Desc.isData, Desc.isCode, Bool.or_eq_true, Bool.and_eq_true] at h
  rcases h with ⟨h, _⟩ | ⟨⟨h, _⟩, _⟩ <;> exact h

/-- A selector that can be loaded is loaded. -/
theorem loadSreg_run {sr : SReg} {sel : Word} (h : SregLoad s sr sel t) : loadSreg sr sel s = .ok () t := by
  unfold loadSreg
  rw [M_get_bind]
  cases h with
  | real h => simp [h]
  | v86 h hc =>
    simp only [State.v86, Bool.and_eq_true] at h
    simp [h, hc]
  | null h hr hn =>
    simp only [State.prot, Bool.and_eq_true, Bool.not_eq_true'] at h
    simp only [h, Bool.not_true, if_false, Bool.false_eq_true, if_neg hr]
    unfold loadDataSeg
    simp [hn]
  | data h hr hn d u t hd hp hk hv ha =>
    simp only [State.prot, Bool.and_eq_true, Bool.not_eq_true'] at h
    simp only [h, Bool.not_true, if_false, Bool.false_eq_true, if_neg hr]
    have hq : (!d.conforming && (decide (d.dpl < selRpl sel) || decide (d.dpl < s.cpl))) = false := by
      rcases hv with hv | ⟨h₁, h₂⟩
      · simp [hv]
      · simp [BitVec.not_lt.2 h₁, BitVec.not_lt.2 h₂]
    unfold loadDataSeg
    simp only [hn, Bool.false_eq_true, if_false]
    rw [M_bind_ok (fetchDescOr_run hd), readable_s hk, Bool.not_true, when_false, M_pure_bind, hk, Bool.not_true,
      when_false, M_pure_bind, hq, when_false, M_pure_bind, hp, Bool.not_true, when_false, M_pure_bind, M_bind_ok ha]
    rfl
  | stack h hr hn d u t hd hp hk hv ha =>
    subst hr
    simp only [State.prot, Bool.and_eq_true, Bool.not_eq_true'] at h
    simp only [h, Bool.not_true, if_false, Bool.false_eq_true, if_true]
    have e : checkStackSeg 13 false s.cpl sel s = .ok d u := by
      unfold checkStackSeg
      rw [M_bind_ok (fetchDescOr_run hd)]
      simp only [hv.1, hv.2, bne_self_eq_false, when_false, M_pure_bind, hk, hp, Bool.not_true]
      rfl
    unfold loadSS
    rw [hn, when_false, M_pure_bind, M_get_bind, M_bind_ok e]
    unfold setSS
    rw [M_bind_ok ha]
    rfl

/-! ### Sequences on the stack, far pointers -/

variable {β : Type} {w : Width}

theorem push_bind {v : BitVec w.bits} {vs : List (BitVec w.bits)} {f : Unit → M β} (h : Pushes w s (v :: vs) t) :
    ∃ u, (push w v >>= f) s = f () u ∧ Pushes w u vs t := by
  cases h with
  | cons h hs => exact ⟨_, M_bind_ok (push_run _ h), hs⟩

theorem pop_bind {v : BitVec w.bits} {vs : List (BitVec w.bits)} {f : BitVec w.bits → M β} (h : Pops w s (v :: vs) t) :
    ∃ u, (pop w >>= f) s = f v u ∧ Pops w u vs t := by
  cases h with
  | cons h hs => exact ⟨_, M_bind_ok (pop_run h), hs⟩

theorem readFar_run {m : MemRef} {sel : Word} {off : BitVec w.bits} (h : FarMem s w m sel off t) :
    readFar w m s = .ok (sel, off) t := by
  cases h with
  | mk pas pas' u t h hf h' =>
    have hu : (u.afterRead pas).user = s.user := by
      obtain ⟨_, _, _, _, _, e⟩ := h.walked
      unfold State.user
      rw [State.afterRead_cpl, e]
      rfl
    unfold readFar
    rw [M_get_bind, M_bind_ok (memRead_run h), when_pos_false (by simpa using hf), M_pure_bind,
      M_bind_ok (memRead_run (w := .w16) (by rw [hu]; exact h'))]
    rfl

end Sys2Proof.Machine
end

