-- ==== Sys2Proof/Laws/Near.lean ====
section
/-! SUPPORT. Near targets: what a jump to an offset within the CS limit does, and one beyond it. -/

namespace Sys2Proof.Machine

variable {s t : State} {w : Width} {off d : Dword}

/-- A target within the limit is the offset cut to the operand size (R561). -/
theorem nearTarget_run (h : inLimit s.cs (cut (w = .d32) off) 1 = true) :
    nearTarget w off s = .ok (cut (w = .d32) off) s := by
  unfold nearTarget
  simp only [M_get_bind, h, Bool.not_true, when_false, M_pure_bind]
  rfl

theorem nearTarget_error (h : inLimit s.cs (cut (w = .d32) off) 1 = false) :
    nearTarget w off s = .error (faultOf 13 (some 0)) s := by
  unfold nearTarget
  simp only [M_get_bind, h, Bool.not_false, when_true]
  rfl

theorem nearJump_run (h : inLimit s.cs (cut (w = .d32) off) 1 = true) :
    nearJump w off s = .ok () { s with eip := cut (w = .d32) off } := by
  unfold nearJump
  rw [M_bind_ok (nearTarget_run h)]
  rfl

theorem nearJump_error (h : inLimit s.cs (cut (w = .d32) off) 1 = false) :
    nearJump w off s = .error (faultOf 13 (some 0)) s := by
  unfold nearJump
  rw [M_bind_error (nearTarget_error h)]

/-- A conditional jump whose condition holds (R570). -/
theorem jumpIf_run {f : RelForm} (h : relForm f = (w, d))
    (hl : inLimit s.cs (cut (w = .d32) (s.nextEip + d)) 1 = true) :
    jumpIf true f s = .ok .went { s with eip := cut (w = .d32) (s.nextEip + d) } := by
  unfold jumpIf
  simp only [if_true, h, State.relTarget]
  rw [M_get_bind, M_bind_ok (nearJump_run hl)]
  rfl

theorem jumpIf_error {f : RelForm} (h : relForm f = (w, d))
    (hl : inLimit s.cs (cut (w = .d32) (s.nextEip + d)) 1 = false) :
    jumpIf true f s = .error (faultOf 13 (some 0)) s := by
  unfold jumpIf
  simp only [if_true, h, State.relTarget]
  rw [M_get_bind, M_bind_error (nearJump_error hl)]

theorem nearForm_run {f : NearForm} (h : NearIs s f w off t) : nearForm f s = .ok (w, off) t := by
  cases h with
  | rel8 => rfl
  | rel => rfl
  | rm h =>
    unfold nearForm
    dsimp only
    rw [M_bind_ok (readRm_run h)]
    rfl

/-- There is room for a block that lies within the limit and does not wrap (R601). -/
theorem stackRoom_ok {n : Nat} (h : s.roomOk n = true) : stackRoom n s = .ok () s := by
  simp only [State.roomOk, Bool.and_eq_true] at h
  unfold stackRoom
  rw [M_get_bind, M_bind_ok (checkSeg_ok h.1), h.2]
  rfl

/-- There is none, for want of a stack segment, of limit or of an offset that does not wrap (R601). -/
theorem stackRoom_error {n : Nat} (h : s.roomOk n = false) (hw : s.ss.valid = true → s.mayWrite .ss = true) :
    stackRoom n s = .error (faultOf 12 (some 0)) s := by
  unfold stackRoom
  rw [M_get_bind]
  by_cases hs : s.segOk .ss (cut s.stack32 (s.esp - BitVec.ofNat 32 n)) n true = true
  · simp only [State.roomOk, hs, Bool.true_and] at h
    rw [M_bind_ok (checkSeg_ok hs), h]
    rfl
  · refine M_bind_error ?_
    rw [checkSeg_error (by simpa using hs)]
    have e : SReg.ss = .ss ∧ ((s.sreg .ss).valid = false ∨
        (if true = true then s.mayWrite .ss else (s.sreg .ss).readable) = true) := by
      refine ⟨rfl, ?_⟩
      cases hv : s.ss.valid
      · exact .inl hv
      · exact .inr (hw hv)
    rw [if_pos e]

/-- ENTER copies the frame pointers of the outer levels (R580). -/
theorem enterCopy_run {k : Nat} (h : FrameCopies w k s t) : enterCopy w k s = .ok () t := by
  induction h with
  | zero s => rfl
  | succ hs' h hp _ ih =>
    unfold enterCopy
    subst hs'
    rw [M_modify_bind, M_get_bind, M_bind_ok (memRead_run h), M_bind_ok (push_run _ hp)]
    exact ih

end Sys2Proof.Machine
end

