-- ==== Sys2Proof/Laws/Far.lean ====
section
/-! SUPPORT. Far transfers and deliveries: the checks that pass, the items that are pushed, and that reaching operands
changes nothing else. -/

namespace Sys2Proof.Machine

variable {s s' t u v z : State} {w : Width}

/-! ### What reaching operands changes -/

/-- `t` is `s` but for memory, the TLB, the count of free values, what passed to and from devices and the debug bits
gathered. -/
def State.Touched (s t : State) : Prop := ∃ mem tlb free devInput devLog pend,
  t = { s with mem := mem, tlb := tlb, free := free, devInput := devInput, devLog := devLog, pend := pend }

theorem State.Touched.refl (s : State) : s.Touched s := ⟨_, _, _, _, _, _, rfl⟩

theorem State.Touched.trans : s.Touched t → t.Touched u → s.Touched u
  | ⟨_, _, _, _, _, _, h⟩, ⟨m, b, f, d, l, p, h'⟩ => ⟨m, b, f, d, l, p, by rw [h', h]⟩

theorem State.Walked.touched : s.Walked t → s.Touched t
  | ⟨m, b, f, d, l, h⟩ => ⟨m, b, f, d, l, s.pend, by rw [h]⟩

theorem State.Touched.cpl (h : s.Touched t) : t.cpl = s.cpl := by
  obtain ⟨_, _, _, _, _, _, rfl⟩ := h
  rfl

theorem State.Touched.cs (h : s.Touched t) : t.cs = s.cs := by
  obtain ⟨_, _, _, _, _, _, rfl⟩ := h
  rfl

theorem State.Touched.nextEip (h : s.Touched t) : t.nextEip = s.nextEip := by
  obtain ⟨_, _, _, _, _, _, rfl⟩ := h
  rfl

theorem State.Touched.user (h : s.Touched t) : t.user = s.user := by
  obtain ⟨_, _, _, _, _, _, rfl⟩ := h
  rfl

theorem Reach.touched {priv : Bool} {sr : SReg} {off : Dword} {n : Nat} {wr : Bool} {pas : List Nat}
    (h : Reach s priv sr off n wr pas t) : s.Touched t := by
  obtain ⟨m, b, f, d, l, h⟩ := h.walked
  exact ⟨m, b, f, d, l, _, h⟩

/-- The same after the read. -/
theorem Reach.read {priv : Bool} {sr : SReg} {off : Dword} {n : Nat} {wr : Bool} {pas : List Nat}
    (h : Reach s priv sr off n wr pas t) : s.Touched (t.afterRead pas) := h.touched.trans (State.Walked.ofRead t pas).touched

theorem RmIs.touched {rm : Rm} {x : BitVec w.bits} (h : RmIs s w rm x t) : s.Touched t := by
  cases h with
  | reg => exact .refl _
  | mem m pas t h => exact h.read

theorem FarMem.touched {m : MemRef} {sel : Word} {off : BitVec w.bits} (h : FarMem s w m sel off t) : s.Touched t := by
  cases h with
  | mk pas pas' u t h hf h' => exact h.read.trans h'.read

theorem FarIs.touched {f : FarForm} {sel : Word} {off : Dword} (h : FarIs s f w sel off t) : s.Touched t := by
  cases h with
  | ptr => exact .refl _
  | mem h => exact h.touched

theorem StackItem.touched {k : Nat} {x : BitVec w.bits} (h : StackItem s k w x t) : s.Touched t := by
  cases h with
  | mk pas t h => exact h.read

/-! ### Operands of far transfers and the stack -/

theorem farForm_run {f : FarForm} {sel : Word} {off : Dword} (h : FarIs s f w sel off t) :
    farForm f s = .ok (w, sel, off) t := by
  cases h with
  | ptr => rfl
  | mem h =>
    unfold farForm
    dsimp only
    rw [M_bind_ok (readFar_run h)]
    rfl

theorem stackRead_run {k : Nat} {x : BitVec w.bits} (h : StackItem s k w x t) : stackRead k w s = .ok x t := by
  cases h with
  | mk pas t h =>
    unfold stackRead
    rw [M_get_bind]
    exact memRead_run h

theorem Items_nil {priv : Bool} (h : Items priv w s [] z) : z = s := by
  cases h
  rfl

/-- The first item is a value: it is pushed, and the others after it. -/
theorem pushVal_bind {β : Type} {priv : Bool} {x : Dword} {is : List Item} {f : Unit → M β}
    (h : Items priv w s (.val x :: is) z) :
    ∃ t, (pushAs priv w (x.setWidth w.bits) >>= f) s = f () t ∧ Items priv w t is z := by
  cases h with
  | cons hi h hs =>
    simp only [State.item, Prod.mk.injEq] at hi
    obtain ⟨rfl, rfl⟩ := hi
    exact ⟨_, M_bind_ok (pushAs_run _ h), hs⟩

theorem selItem_run {sel : Word} {x : BitVec w.bits} (h : s.item w (.sel sel) = (x, s')) :
    selItem w sel s = .ok x s' := by
  cases w <;> simp only [State.item, Prod.mk.injEq] at h <;> obtain ⟨rfl, rfl⟩ := h
  · rfl
  · unfold selItem
    simp
  · rfl

/-- The first item is a selector. -/
theorem pushSel_bind {β : Type} {priv : Bool} {x : Word} {is : List Item} {f : Unit → M β}
    (h : Items priv w s (.sel x :: is) z) :
    ∃ t, (pushSel priv w x >>= f) s = f () t ∧ Items priv w t is z := by
  cases h with
  | cons hi h hs =>
    refine ⟨_, M_bind_ok ?_, hs⟩
    unfold pushSel
    rw [M_bind_ok (selItem_run hi)]
    exact pushAs_run _ h

theorem pushVal_last {priv : Bool} {x : Dword} (h : Items priv w s [.val x] z) :
    pushAs priv w (x.setWidth w.bits) s = .ok () z := by
  cases h with
  | cons hi h hs =>
    simp only [State.item, Prod.mk.injEq] at hi
    obtain ⟨rfl, rfl⟩ := hi
    cases hs
    exact pushAs_run _ h

theorem pushReturn_run {priv : Bool} {cs : Word} {ip : Dword} (h : Items priv w s [.sel cs, .val ip] z) :
    pushReturn priv w cs ip s = .ok () z := by
  unfold pushReturn
  obtain ⟨t, e, h⟩ := pushSel_bind h
  exact e.trans (pushVal_last h)

theorem item_touched {i : Item} {x : BitVec w.bits} (h : s.item w i = (x, s')) : s.Touched s' := by
  cases i
  · simp only [State.item, Prod.mk.injEq] at h
    obtain ⟨rfl, rfl⟩ := h
    exact .refl _
  · cases w <;> simp only [State.item, Prod.mk.injEq] at h <;> obtain ⟨rfl, rfl⟩ := h
    · exact .refl _
    · exact .refl _
    · exact ⟨_, _, _, _, _, _, rfl⟩

/-- Pushes leave CR0 alone. -/
theorem Items_cr0 {priv : Bool} {is : List Item} (h : Items priv w s is z) : z.cr0 = s.cr0 := by
  induction h with
  | nil => rfl
  | cons hi h hs ih =>
    rw [ih]
    obtain ⟨_, _, _, _, _, _, rfl⟩ := (item_touched hi).trans h.touched
    simp only [State.setEsp_cr0, State.storeAt, State.storeBytes_cr0]

/-! ### Code segments -/

theorem checkTargetHere_run {off : Dword} (h : inLimit s.cs off 1 = true) : checkTargetHere off s = .ok () s := by
  unfold checkTargetHere
  rw [M_get_bind, h]
  rfl

theorem checkTarget_run {d : Desc} {sel : Word} {off : Dword} (h : inLimit (d.toSeg sel) off 1 = true) :
    checkTarget d sel off s = .ok () s := by
  unfold checkTarget
  rw [if_pos h]
  rfl

theorem setCS_run {sel : Word} {d : Desc} {cpl : BitVec 2} (h : setAccessed sel d s = .ok () v) :
    setCS sel d cpl s = .ok () { v with cs := d.toSeg ((sel &&& 0xFFFC) ||| cpl.setWidth 16), cpl := cpl } := by
  unfold setCS
  rw [M_bind_ok h]
  rfl

theorem enterCode_run {sel : Word} {d : Desc} {cpl : BitVec 2} {off : Dword} (h : setAccessed sel d s = .ok () v) :
    enterCode sel d cpl off s = .ok () (v.inCode sel d cpl off) := by
  unfold enterCode
  rw [M_bind_ok (setCS_run h)]
  rfl

/-- A code segment that may be entered directly passes the checks of R602. -/
theorem directCode_run {sel : Word} {d : Desc} (h : d.directOk sel s.cpl) : directCode sel d s = .ok () s := by
  obtain ⟨-, hp, h⟩ := h
  unfold directCode
  rw [M_get_bind]
  rcases h with ⟨hc, h⟩ | ⟨hc, h1, h2⟩
  · simp [hc, BitVec.not_lt.2 h, hp]
  · simp [hc, BitVec.not_lt.2 h1, hp, h2]

theorem checkGate_run {sel : Word} {g : Desc} (h1 : s.cpl ≤ g.dpl) (h2 : selRpl sel ≤ g.dpl) (h3 : g.p = true) :
    checkGate sel g s = .ok () s := by
  unfold checkGate gatePrivilege
  have e : (decide (g.dpl < s.cpl) || decide (g.dpl < selRpl sel)) = false := by
    simp [BitVec.not_lt.2 h1, BitVec.not_lt.2 h2]
  rw [M_bind_ok (t := s) (a := ()) (by rw [M_get_bind, e]; rfl), h3]
  rfl

theorem Desc.isCode_of_isCallGate {g : Desc} (h : g.isCallGate = true) : g.isCode = false := by
  simp only [Desc.isCallGate, Bool.and_eq_true, Bool.not_eq_true'] at h
  simp [Desc.isCode, h.1]

/-- A code segment that a return may enter passes the checks of R612. -/
theorem returnCode_run {sel : Word} {d : Desc} {cpl : BitVec 2} (hn : nullSel sel = false)
    (h : fetchDesc sel s = .ok (some d) t) (hk : d.returnOk cpl) : returnCode sel cpl s = .ok d t := by
  obtain ⟨hc, hp, hd⟩ := hk
  unfold returnCode
  have e1 : (!d.conforming && d.dpl != cpl) = false := by rcases hd with ⟨h, _⟩ | ⟨_, h⟩ <;> simp [h]
  have e2 : (d.conforming && decide (cpl < d.dpl)) = false := by
    rcases hd with ⟨_, h⟩ | ⟨h, _⟩ <;> simp [h, BitVec.not_lt.2]
  rw [hn, when_false, M_pure_bind, M_bind_ok (fetchDescOr_run h), hc, Bool.not_true, when_false, M_pure_bind, e1,
    when_false, M_pure_bind, e2, when_false, M_pure_bind, hp]
  rfl

theorem setSS_run {sel : Word} {d : Desc} (h : setAccessed sel d s = .ok () t) :
    setSS sel d s = .ok () { t with ss := d.toSeg sel } := by
  unfold setSS
  rw [M_bind_ok h]
  rfl

theorem returnSP_run {sel : Word} {d : Desc} {sp : Dword} (h : setAccessed sel d s = .ok () t) :
    returnSP sel d w sp s = .ok ()
      (if w = .d32 then ({ t with ss := d.toSeg sel } : State).setReg .d32 .esp sp
       else ({ t with ss := d.toSeg sel } : State).setReg .w16 .esp (BitVec.setWidth 16 sp)) := by
  unfold returnSP
  rw [M_bind_ok (setSS_run h)]
  rfl

/-- Parameters are pushed, the last one first (R607). -/
theorem pushParams_run (hw : w ≠ .b8) : ∀ (ps : List (BitVec w.bits)) (s : State) (is : List Item) (z : State),
    Items false w s ((ps.reverse.map fun p => .val (p.setWidth 32)) ++ is) z →
    ∃ t, pushParams w ps s = .ok () t ∧ Items false w t is z
  | [], s, is, z, h => ⟨s, rfl, h⟩
  | p :: ps, s, is, z, h => by
    simp only [List.reverse_cons, List.map_append, List.append_assoc] at h
    obtain ⟨t, e, h⟩ := pushParams_run hw ps _ _ _ h
    obtain ⟨t', e', h⟩ := pushVal_bind (f := pure) h
    refine ⟨t', ?_, h⟩
    unfold pushParams
    rw [M_bind_ok e]
    have hp : (p.setWidth 32).setWidth w.bits = p := by
      cases w with
      | b8 => exact absurd rfl hw
      | w16 =>
        show BitVec.setWidth 16 (BitVec.setWidth 32 (p : BitVec 16)) = p
        simp
      | d32 =>
        show BitVec.setWidth 32 (BitVec.setWidth 32 (p : BitVec 32)) = p
        simp
    rw [hp] at e'
    simpa using e'

/-! ### Deliveries -/

theorem State.paragraphs_of_prot (h : s.prot = true) : s.paragraphs = false := by
  simp only [State.prot, State.paragraphs, Bool.and_eq_true, Bool.not_eq_true'] at *
  simp [h]

theorem State.pe_of_prot (h : s.prot = true) : s.pe = true := by
  simp [State.prot] at h
  exact h.1

theorem State.vm_of_prot (h : s.prot = true) : s.flag .vm = false := by
  simp [State.prot] at h
  exact h.2

/-- The frame of a delivery (R823). -/
theorem pushFrame_run {priv : Bool} {e : Event} {image : Dword} {cs : Word}
    (h : Items priv w s ([.val image, .sel cs, .val e.ret] ++ (e.code.map Item.sel).toList) z) :
    pushFrame priv w e image cs s = .ok () z := by
  unfold pushFrame
  obtain ⟨_, e1, h⟩ := pushVal_bind h
  refine e1.trans ?_
  obtain ⟨_, e1, h⟩ := pushSel_bind h
  refine e1.trans ?_
  obtain ⟨_, e1, h⟩ := pushVal_bind h
  refine e1.trans ?_
  cases hc : e.code with
  | none =>
    rw [hc] at h
    obtain rfl := Items_nil h
    rfl
  | some c =>
    rw [hc] at h
    unfold pushCode
    obtain ⟨_, e1, h⟩ := pushSel_bind (f := pure) h
    obtain rfl := Items_nil h
    simpa using e1

/-- An IDT entry that passes the checks of R821. -/
theorem idtGate_run {e : Event} {g : Desc} (hl : e.vec.toNat * 8 + 7 ≤ s.idtr.limit.toNat)
    (hg : readDesc (s.idtr.base + (e.vec.setWidth 32 <<< 3)) s = .ok g t) (hs : g.s = false)
    (ht : g.typ = 5 ∨ g.typ = 6 ∨ g.typ = 7 ∨ g.typ = 14 ∨ g.typ = 15) (hk : e.kind = .soft → s.cpl ≤ g.dpl)
    (hp : g.p = true) : idtGate e s = .ok g t := by
  unfold idtGate
  rw [M_get_bind]
  have e0 : decide (s.idtr.limit.toNat < e.vec.toNat * 8 + 7) = false := by
    simp
    omega
  have e1 : (g.s || !([5, 6, 7, 14, 15] : List (BitVec 4)).contains g.typ) = false := by
    rw [hs]
    rcases ht with h | h | h | h | h <;> rw [h] <;> rfl
  have e2 : decide (e.kind = .soft ∧ g.dpl < s.cpl) = false := by
    simp only [decide_eq_false_iff_not, not_and]
    intro h
    exact BitVec.not_lt.2 (hk h)
  rw [e0, when_false, M_pure_bind, M_bind_ok hg, e1, when_false, M_pure_bind, e2, when_false, M_pure_bind, hp]
  rfl

/-- The target of a gate that passes the checks of R823. -/
theorem gateCode_run {ext : Bool} {cs : Word} {c : Desc} (hn : nullSel cs = false)
    (h : fetchDesc cs s = .ok (some c) t) (hc : c.isCode = true) (hp : c.p = true)
    (hd : c.conforming = true ∨ c.dpl ≤ t.cpl) : gateCode ext cs s = .ok c t := by
  unfold gateCode
  rw [hn, when_false, M_pure_bind, M_bind_ok (fetchDescOr_run h), hc, Bool.not_true, when_false, M_pure_bind, hp,
    Bool.not_true, when_false, M_pure_bind, M_get_bind]
  have e : (!c.conforming && decide (t.cpl < c.dpl)) = false := by rcases hd with h | h <;> simp [h, BitVec.not_lt.2]
  rw [e]
  rfl

/-- A frame at the top of the stack that can be read (R109, R613, R642). -/
theorem stackTop_run {n : Nat} (h : s.topOk n = true) : stackTop n s = .ok () s := by
  unfold State.topOk at h
  rw [Bool.and_eq_true] at h
  unfold stackTop
  rw [M_get_bind, M_bind_ok (checkSeg_ok h.1), h.2]
  rfl

/-- A frame that runs beyond the SS limit, or wraps, is #SS(0). -/
theorem stackTop_error {n : Nat} (h : s.topOk n = false) (hr : s.ss.valid = true → s.ss.readable = true) :
    stackTop n s = .error (faultOf 12 (some 0)) s := by
  unfold State.topOk at h
  unfold stackTop
  rw [M_get_bind]
  cases e : s.segOk .ss s.esp n false
  · refine M_bind_error ?_
    rw [checkSeg_error e, if_pos]
    refine ⟨rfl, ?_⟩
    show s.ss.valid = false ∨ s.ss.readable = true
    cases hv : s.ss.valid
    · simp
    · simp [hr hv]
  · rw [M_bind_ok (checkSeg_ok e)]
    rw [e, Bool.true_and] at h
    rw [h]
    rfl

/-- Where the image is not that of a return to V86 mode (R642). -/
theorem returnsToV86_run {fl : Dword}
    (h : if w = .d32 ∧ s.cpl = 0 then StackItem s 8 .d32 fl t ∧ fl.getLsbD 17 = false else t = s) :
    returnsToV86 w s = .ok false t := by
  unfold returnsToV86
  rw [M_get_bind]
  split at h
  · next c =>
    rw [if_pos c, M_bind_ok (stackRead_run h.1)]
    exact congrArg (EStateM.Result.ok · t) h.2
  · next c =>
    rw [if_neg c, h]
    rfl

/-- In protected mode with NT = 0 the return is by the stack (R640). -/
theorem iretBy_stack (hp : s.prot = true) (hn : s.flag .nt = false) : iretBy w s = iretStack w s := by
  unfold iretBy
  simp only [M_get_bind, State.pe_of_prot hp, State.vm_of_prot hp, hn, Bool.not_true, Bool.false_eq_true, if_false]

/-- The return in real-address and V86 mode (R640). -/
theorem iretReal_run {off csv fl : BitVec w.bits} (h1 : StackItem s 0 w off t) (h2 : StackItem t w.bytes w csv u)
    (h3 : StackItem u (2 * w.bytes) w fl v) (hl : inLimit v.cs (off.setWidth 32) 1 = true) :
    iretReal w s = .ok () (({ (v.setEsp (v.esp + BitVec.ofNat 32 (3 * w.bytes))).paragraphCS (csv.setWidth 16) with
      eip := off.setWidth 32 } : State).putFlags (s.iretMask w) (fl.setWidth 32)) := by
  unfold iretReal
  rw [M_get_bind, M_bind_ok (stackRead_run h1), M_bind_ok (stackRead_run h2), M_bind_ok (stackRead_run h3),
    M_bind_ok (checkTargetHere_run hl)]
  rfl

end Sys2Proof.Machine
end

