-- ==== Sys2Proof/Laws/Finish.lean ====
section
/-! SUPPORT. The end of an instruction: which fields it changes, and that it changes none when no debug trap is gathered;
EIP in a 16-bit code segment; the bytes of an instruction; delivery that succeeds at once. -/

namespace Sys2Proof.Machine

/-- Gathering the debug traps changes the gathered bits and, at most, draws a free value. -/
theorem gather_frame (s : State) (kept late : Dword) :
    ∃ p q f, s.gather kept late = { s with pend := p, pendLate := q, free := f } := by
  unfold State.gather
  dsimp only
  split
  · exact ⟨_, _, _, rfl⟩
  · exact ⟨_, _, _, rfl⟩

theorem settle_frame (s : State) (kept late : Dword) :
    ∃ p q f, s.settle kept late = { s with pend := p, pendLate := q, free := f } := by
  obtain ⟨p, q, f, h⟩ := gather_frame s kept late
  unfold State.settle
  dsimp only
  rw [h]
  split
  · exact ⟨_, _, _, rfl⟩
  · exact ⟨_, _, _, rfl⟩

/-- With nothing gathered and nothing kept the state stays. -/
theorem settle_none {s : State} (h : s.pend = 0) : s.settle 0 0 = s := by
  have hd : s.dataDue 0 = false := by simp [State.dataDue]
  have hg : s.gather 0 0 = s := by
    unfold State.gather
    simp only [h, hd, Bool.not_false, Bool.true_or, if_true]
    obtain ⟨⟩ := s
    simp at h
    simp [h]
  unfold State.settle
  dsimp only
  rw [hg]
  split
  · rfl
  · obtain ⟨⟩ := s
    simp at h
    simp [h]

/-- The end of an instruction changes, besides EIP and RF, the gathered bits and the count of free values. -/
theorem finish_frame (s : State) (d : Done) (t : State) :
    ∃ p q f, finish s d t = { (d.place s t).trimEip with pend := p, pendLate := q, free := f } := by
  unfold finish
  dsimp only
  split
  · obtain ⟨p, q, f, h⟩ :=
      settle_frame ({ (d.place s t).trimEip with pend := setBit (d.place s t).trimEip.pend 14 true }) s.pend
        (if d = .waiting then 0 else s.pendLate)
    exact ⟨p, q, f, h⟩
  · exact settle_frame ..

/-! ### EIP in a 16-bit code segment (R118) -/

theorem cut_fits (v : Dword) : (cut false v).toNat ≤ 0xFFFF := by
  have h : (v &&& 0xFFFF).toNat ≤ 0xFFFF := by
    rw [BitVec.toNat_and]
    exact Nat.and_le_right
  simpa [cut] using h

theorem trimEip_fits (s : State) : s.trimEip.EipFits := fun h => by
  have hd : s.code32 = false := h
  rw [State.trimEip_eip, hd]
  exact cut_fits s.eip

/-- EIP that fits is not trimmed: the next instruction is fetched at EIP. -/
theorem trimEip_of_fits {s : State} (h : s.EipFits) : s.trimEip = s ∧ s.fetchOff = s.eip := by
  have hc : cut s.code32 s.eip = s.eip := by
    cases hd : s.code32
    · have hl := h hd
      show s.eip &&& 0xFFFF = s.eip
      apply BitVec.eq_of_toNat_eq
      rw [BitVec.toNat_and, show (0xFFFF : Dword).toNat = 2 ^ 16 - 1 from rfl, Nat.and_two_pow_sub_one_eq_mod]
      exact Nat.mod_eq_of_lt (by omega)
    · rfl
  exact ⟨by rw [State.trimEip, hc], hc⟩

theorem settle_fits {s : State} (h : s.EipFits) (kept late : Dword) : (s.settle kept late).EipFits := by
  obtain ⟨p, q, f, e⟩ := settle_frame s kept late
  rw [e]
  exact h

/-- However an instruction ends, EIP fits. -/
theorem finish_fits (s : State) (d : Done) (t : State) : (finish s d t).EipFits := by
  obtain ⟨p, q, f, e⟩ := finish_frame s d t
  rw [e]
  exact trimEip_fits (d.place s t)

theorem abandon_fits (s : State) (x : Exc) (t : State) : (abandon s x t).EipFits := settle_fits (trimEip_fits _) _ _

theorem takeEvent_fits (e : Event) (s : State) : (takeEvent e s).EipFits := settle_fits (trimEip_fits _) _ _

/-- Whatever an instruction does, it leaves an EIP that fits. -/
theorem instr_fits {m : M Done} {s t : State} (h : instr m s = .next t) : t.EipFits := by
  obtain ⟨d, u, -, rfl⟩ | ⟨x, u, -, rfl⟩ := instr_cases h
  · exact finish_fits s d u
  · exact abandon_fits s x u

/-! ### Instruction bytes (R15, R118) -/

/-- A byte within the CS limit is read at `trunc(EIP + i)`, or the page fault of that read is raised. -/
theorem fetchByte_inside {s : State} {i : Nat} (h : s.codeByteOk i = true) :
    fetchByte i s = match linRead (s.cs.base + BitVec.ofNat 32 (s.fetchOff.toNat + i)) 1 s.user s with
      | .ok x t => .ok (BitVec.ofNat 8 x) t
      | .error x t => .error x t := by
  unfold fetchByte
  rw [M_get_bind, M_bind_ok (show when (!s.codeByteOk i) raiseGP0 s = .ok () s by simp [when, h]), M_bind]
  cases linRead (s.cs.base + BitVec.ofNat 32 (s.fetchOff.toNat + i)) 1 s.user s <;> rfl

/-- A byte that lies outside it is #GP(0), and nothing is read. -/
theorem fetchByte_outside {s : State} {i : Nat} (h : s.codeByteOk i = false) :
    fetchByte i s = .error (faultOf 13 (some 0)) s := by
  unfold fetchByte
  rw [M_get_bind]
  exact M_bind_error (show when (!s.codeByteOk i) raiseGP0 s = .error _ s by simp [when, h, raiseGP0, faultOf])

/-- A delivery that succeeds leaves the processor running. -/
theorem deliverAll_ok {n : Nat} {e : Event} {s u : State} (h : deliver e s = .ok () u) :
    deliverAll (n + 1) e s = { u with run := .running } := by simp only [deliverAll, h]

end Sys2Proof.Machine
end

