-- ==== Sys2Proof/Laws/PerInstr.lean ====
section
/-! SUPPORT. One statement for every instruction, by constructor: the length of its encoding (R119, R320). -/

-- One theorem after the other: side by side, they would all wait for the equations of `encode` with a thread each.
set_option Elab.async false

namespace Sys2Proof.Laws

/-- How many lead bytes stand in front of an instruction. -/
def leadBytes : Instr → Nat
  | .rep i => leadBytes i + 1
  | .repne i => leadBytes i + 1
  | .lock i => leadBytes i + 1
  | .segES i => leadBytes i + 1
  | .segCS i => leadBytes i + 1
  | .segSS i => leadBytes i + 1
  | .segDS i => leadBytes i + 1
  | .segFS i => leadBytes i + 1
  | .segGS i => leadBytes i + 1
  | .opsize i => leadBytes i + 1
  | .addrsize i => leadBytes i + 1
  | _ => 0

/-- A well-formed instruction has at least one byte and, its lead bytes apart, at most eleven: only lead bytes can make it
longer than the 15 of R119. -/
def EncodeLength.Statement (i : Instr) : Prop :=
  ∀ (d : Bool) (l : Lead), wfUnder d l i = true → 1 ≤ (encode i).length ∧ (encode i).length ≤ 11 + leadBytes i

/-! ### The parts of an encoding -/

theorem immBytes_length (w : Width) (v : Dword) : (immBytes w v).length ≤ 4 := by cases w <;> simp [immBytes, wordBytes, dwordBytes]

theorem disp_length (d : Disp) : d.bytes.length ≤ 4 := by cases d <;> simp [Disp.bytes, wordBytes, dwordBytes]

theorem addr_length (reg : BitVec 3) (a : Addr) : 1 ≤ (a.bytes reg).length ∧ (a.bytes reg).length ≤ 6 := by
  cases a with
  | direct16 v => simp [Addr.bytes, wordBytes]
  | based16 b d => have := disp_length d; simp [Addr.bytes]; omega
  | direct32 v => simp [Addr.bytes, dwordBytes]
  | based32 r d => have := disp_length d; simp [Addr.bytes]; omega
  | sib b i sc d => have := disp_length d; cases b <;> simp [Addr.bytes] <;> omega

theorem rm_length (reg : BitVec 3) (rm : Rm) : 1 ≤ (rm.bytes reg).length ∧ (rm.bytes reg).length ≤ 6 := by
  cases rm with
  | reg r => simp [Rm.bytes]
  | mem m => exact addr_length reg m.addr

theorem moffs_length (m : MemRef) : (moffsBytes m).length ≤ 4 := by
  unfold moffsBytes
  split <;> simp [wordBytes, dwordBytes]

/-! ### The operand forms -/

theorem alu_length (op : BitVec 3) (f : AluForm) : 1 ≤ (encodeAlu op f).length ∧ (encodeAlu op f).length ≤ 11 := by
  cases f with
  | rmReg w rm r =>
    have := rm_length r.code rm
    simp [encodeAlu]
    omega
  | regRm w r rm =>
    have := rm_length r.code rm
    simp [encodeAlu]
    omega
  | accImm w v =>
    have := immBytes_length w v
    simp [encodeAlu]
    omega
  | rmImm w rm v =>
    have := rm_length op rm
    have := immBytes_length w v
    simp [encodeAlu]
    omega
  | rmImm8 w rm v =>
    have := rm_length op rm
    simp [encodeAlu]
    omega

theorem inc_length (digit : BitVec 3) (f : IncForm) : 1 ≤ (encodeInc digit f).length ∧ (encodeInc digit f).length ≤ 11 := by
  cases f with
  | reg w r =>
    simp [encodeInc]
  | rm w rm =>
    have := rm_length digit rm
    simp [encodeInc]
    omega

theorem imul_length (f : ImulForm) : 1 ≤ (encodeImul f).length ∧ (encodeImul f).length ≤ 11 := by
  cases f with
  | acc w rm =>
    have := rm_length 5#3 rm
    simp [encodeImul, encodeGrp3]
    omega
  | reg w r rm =>
    have := rm_length r.code rm
    simp [encodeImul]
    omega
  | imm w r rm v =>
    have := rm_length r.code rm
    have := immBytes_length w v
    simp [encodeImul]
    omega
  | imm8 w r rm v =>
    have := rm_length r.code rm
    simp [encodeImul]
    omega

theorem test_length (f : TestForm) : 1 ≤ (encodeTest f).length ∧ (encodeTest f).length ≤ 11 := by
  cases f with
  | rmReg w rm r =>
    have := rm_length r.code rm
    simp [encodeTest]
    omega
  | accImm w v =>
    have := immBytes_length w v
    simp [encodeTest]
    omega
  | rmImm w rm v =>
    have := rm_length 0#3 rm
    have := immBytes_length w v
    simp [encodeTest, encodeGrp3]
    omega

theorem shift_length (digit : BitVec 3) (f : ShiftForm) : 1 ≤ (encodeShift digit f).length ∧ (encodeShift digit f).length ≤ 11 := by
  cases f with
  | imm w rm n =>
    have := rm_length digit rm
    simp [encodeShift]
    omega
  | one w rm =>
    have := rm_length digit rm
    simp [encodeShift]
    omega
  | cl w rm =>
    have := rm_length digit rm
    simp [encodeShift]
    omega

theorem dshift_length (op : Byte) (f : DShiftForm) : 1 ≤ (encodeDShift op f).length ∧ (encodeDShift op f).length ≤ 11 := by
  cases f with
  | imm w rm r n =>
    have := rm_length r.code rm
    simp [encodeDShift]
    omega
  | cl w rm r =>
    have := rm_length r.code rm
    simp [encodeDShift]
    omega

theorem bt_length (k : BitVec 2) (f : BtForm) : 1 ≤ (encodeBt k f).length ∧ (encodeBt k f).length ≤ 11 := by
  cases f with
  | reg w rm r =>
    have := rm_length r.code rm
    simp [encodeBt]
    omega
  | imm w rm n =>
    have := rm_length (1#1 ++ k) rm
    simp [encodeBt]
    omega

theorem mov_length (f : MovForm) : 1 ≤ (encodeMov f).length ∧ (encodeMov f).length ≤ 11 := by
  cases f with
  | rmReg w rm r =>
    have := rm_length r.code rm
    simp [encodeMov]
    omega
  | regRm w r rm =>
    have := rm_length r.code rm
    simp [encodeMov]
    omega
  | accMoffs w m =>
    have := moffs_length m
    simp [encodeMov]
    omega
  | moffsAcc w m =>
    have := moffs_length m
    simp [encodeMov]
    omega
  | regImm w r v =>
    have := immBytes_length w v
    simp [encodeMov]
    omega
  | rmImm w rm v =>
    have := rm_length 0#3 rm
    have := immBytes_length w v
    simp [encodeMov]
    omega

theorem xchg_length (f : XchgForm) : 1 ≤ (encodeXchg f).length ∧ (encodeXchg f).length ≤ 11 := by
  cases f with
  | rmReg w rm r =>
    have := rm_length r.code rm
    simp [encodeXchg]
    omega
  | acc w r =>
    simp [encodeXchg]

theorem push_length (f : PushForm) : 1 ≤ (encodePush f).length ∧ (encodePush f).length ≤ 11 := by
  cases f with
  | sreg w sr => cases sr <;> simp [encodePush, encodePushSreg]
  | reg w r => simp [encodePush]
  | imm w v =>
    have := immBytes_length w v
    simp [encodePush]
    omega
  | imm8 w v => simp [encodePush]
  | rm w rm =>
    have := rm_length 6#3 rm
    simp [encodePush]
    omega

theorem pop_length {c : Ctx} (f : PopForm) (h : okPop c f = true) :
    1 ≤ (encodePop f).length ∧ (encodePop f).length ≤ 11 := by
  cases f with
  | sreg w sr => cases sr <;> simp [encodePop, encodePopSreg, okPop] at h ⊢
  | reg w r => simp [encodePop]
  | rm w rm =>
    have := rm_length 0#3 rm
    simp [encodePop]
    omega

theorem jcc_length (cc : BitVec 4) (f : RelForm) : 1 ≤ (encodeJcc cc f).length ∧ (encodeJcc cc f).length ≤ 11 := by
  cases f with
  | rel8 w d =>
    simp [encodeJcc]
  | rel w v =>
    have := immBytes_length w v
    simp [encodeJcc]
    omega

theorem jmp_length (f : NearForm) : 1 ≤ (encodeJmp f).length ∧ (encodeJmp f).length ≤ 11 := by
  cases f with
  | rel8 w d =>
    simp [encodeJmp]
  | rel w v =>
    have := immBytes_length w v
    simp [encodeJmp]
    omega
  | rm w rm =>
    have := rm_length 4#3 rm
    simp [encodeJmp]
    omega

theorem call_length {c : Ctx} (f : NearForm) (h : okNearCall c f = true) :
    1 ≤ (encodeCall f).length ∧ (encodeCall f).length ≤ 11 := by
  cases f with
  | rel8 w d => cases h
  | rel w v =>
    have := immBytes_length w v
    simp [encodeCall]
    omega
  | rm w rm =>
    have := rm_length 2#3 rm
    simp [encodeCall]
    omega

theorem far_length (op : Byte) (digit : BitVec 3) (f : FarForm) : 1 ≤ (encodeFar op digit f).length ∧ (encodeFar op digit f).length ≤ 11 := by
  cases f with
  | ptr w sel v =>
    have := immBytes_length w v
    simp [encodeFar, wordBytes]
    omega
  | mem w m =>
    have := addr_length digit m.addr
    simp [encodeFar]
    omega

theorem ret_length (op : Byte) (n : Option Word) : 1 ≤ (encodeRet op n).length ∧ (encodeRet op n).length ≤ 11 := by
  cases n <;> simp [encodeRet, wordBytes]

theorem io_length (op : Byte) (f : IoForm) : 1 ≤ (encodeIo op f).length ∧ (encodeIo op f).length ≤ 11 := by
  cases f <;> simp [encodeIo]

/-! ### Every instruction -/

namespace EncodeLength

/-- An instruction that fits eleven bytes whatever its context. -/
theorem short {i : Instr} (h : 1 ≤ (encode i).length ∧ (encode i).length ≤ 11) : Statement i :=
  fun _ _ _ => ⟨h.1, Nat.le_trans h.2 (Nat.le_add_right _ _)⟩

theorem add (f : AluForm) : Statement (.add f) := fun _ _ _ => alu_length 0 f

theorem or (f : AluForm) : Statement (.or f) := fun _ _ _ => alu_length 1 f

theorem adc (f : AluForm) : Statement (.adc f) := fun _ _ _ => alu_length 2 f

theorem sbb (f : AluForm) : Statement (.sbb f) := fun _ _ _ => alu_length 3 f

theorem and (f : AluForm) : Statement (.and f) := fun _ _ _ => alu_length 4 f

theorem sub (f : AluForm) : Statement (.sub f) := fun _ _ _ => alu_length 5 f

theorem xor (f : AluForm) : Statement (.xor f) := fun _ _ _ => alu_length 6 f

theorem cmp (f : AluForm) : Statement (.cmp f) := fun _ _ _ => alu_length 7 f

theorem inc (f : IncForm) : Statement (.inc f) := fun _ _ _ => inc_length 0 f

theorem dec (f : IncForm) : Statement (.dec f) := fun _ _ _ => inc_length 1 f

theorem not (w : Width) (rm : Rm) : Statement (.not w rm) := short <| by
  have := rm_length 2#3 rm
  simp [encode, encodeGrp3]
  omega

theorem neg (w : Width) (rm : Rm) : Statement (.neg w rm) := short <| by
  have := rm_length 3#3 rm
  simp [encode, encodeGrp3]
  omega

theorem mul (w : Width) (rm : Rm) : Statement (.mul w rm) := short <| by
  have := rm_length 4#3 rm
  simp [encode, encodeGrp3]
  omega

theorem imul (f : ImulForm) : Statement (.imul f) := fun _ _ _ => imul_length f

theorem div (w : Width) (rm : Rm) : Statement (.div w rm) := short <| by
  have := rm_length 6#3 rm
  simp [encode, encodeGrp3]
  omega

theorem idiv (w : Width) (rm : Rm) : Statement (.idiv w rm) := short <| by
  have := rm_length 7#3 rm
  simp [encode, encodeGrp3]
  omega

theorem daa : Statement .daa := short (by simp [encode])

theorem das : Statement .das := short (by simp [encode])

theorem aaa : Statement .aaa := short (by simp [encode])

theorem aas : Statement .aas := short (by simp [encode])

theorem aam (base : Byte) : Statement (.aam base) := short (by simp [encode])

theorem aad (base : Byte) : Statement (.aad base) := short (by simp [encode])

theorem test (f : TestForm) : Statement (.test f) := fun _ _ _ => test_length f

theorem rol (f : ShiftForm) : Statement (.rol f) := fun _ _ _ => shift_length 0 f

theorem ror (f : ShiftForm) : Statement (.ror f) := fun _ _ _ => shift_length 1 f

theorem rcl (f : ShiftForm) : Statement (.rcl f) := fun _ _ _ => shift_length 2 f

theorem rcr (f : ShiftForm) : Statement (.rcr f) := fun _ _ _ => shift_length 3 f

theorem shl (f : ShiftForm) : Statement (.shl f) := fun _ _ _ => shift_length 4 f

theorem shr (f : ShiftForm) : Statement (.shr f) := fun _ _ _ => shift_length 5 f

theorem sar (f : ShiftForm) : Statement (.sar f) := fun _ _ _ => shift_length 7 f

theorem shld (f : DShiftForm) : Statement (.shld f) := fun _ _ _ => dshift_length 0xA4 f

theorem shrd (f : DShiftForm) : Statement (.shrd f) := fun _ _ _ => dshift_length 0xAC f

theorem bt (f : BtForm) : Statement (.bt f) := fun _ _ _ => bt_length 0 f

theorem bts (f : BtForm) : Statement (.bts f) := fun _ _ _ => bt_length 1 f

theorem btr (f : BtForm) : Statement (.btr f) := fun _ _ _ => bt_length 2 f

theorem btc (f : BtForm) : Statement (.btc f) := fun _ _ _ => bt_length 3 f

theorem bsf (w : Width) (r : Reg) (rm : Rm) : Statement (.bsf w r rm) := short <| by
  have := rm_length r.code rm
  simp [encode]
  omega

theorem bsr (w : Width) (r : Reg) (rm : Rm) : Statement (.bsr w r rm) := short <| by
  have := rm_length r.code rm
  simp [encode]
  omega

theorem seto (rm : Rm) : Statement (.seto rm) := short <| by
  have := rm_length 0#3 rm
  simp [encode, encodeSetcc]
  omega

theorem setno (rm : Rm) : Statement (.setno rm) := short <| by
  have := rm_length 0#3 rm
  simp [encode, encodeSetcc]
  omega

theorem setb (rm : Rm) : Statement (.setb rm) := short <| by
  have := rm_length 0#3 rm
  simp [encode, encodeSetcc]
  omega

theorem setae (rm : Rm) : Statement (.setae rm) := short <| by
  have := rm_length 0#3 rm
  simp [encode, encodeSetcc]
  omega

theorem sete (rm : Rm) : Statement (.sete rm) := short <| by
  have := rm_length 0#3 rm
  simp [encode, encodeSetcc]
  omega

theorem setne (rm : Rm) : Statement (.setne rm) := short <| by
  have := rm_length 0#3 rm
  simp [encode, encodeSetcc]
  omega

theorem setbe (rm : Rm) : Statement (.setbe rm) := short <| by
  have := rm_length 0#3 rm
  simp [encode, encodeSetcc]
  omega

theorem seta (rm : Rm) : Statement (.seta rm) := short <| by
  have := rm_length 0#3 rm
  simp [encode, encodeSetcc]
  omega

theorem sets (rm : Rm) : Statement (.sets rm) := short <| by
  have := rm_length 0#3 rm
  simp [encode, encodeSetcc]
  omega

theorem setns (rm : Rm) : Statement (.setns rm) := short <| by
  have := rm_length 0#3 rm
  simp [encode, encodeSetcc]
  omega

theorem setp (rm : Rm) : Statement (.setp rm) := short <| by
  have := rm_length 0#3 rm
  simp [encode, encodeSetcc]
  omega

theorem setnp (rm : Rm) : Statement (.setnp rm) := short <| by
  have := rm_length 0#3 rm
  simp [encode, encodeSetcc]
  omega

theorem setl (rm : Rm) : Statement (.setl rm) := short <| by
  have := rm_length 0#3 rm
  simp [encode, encodeSetcc]
  omega

theorem setge (rm : Rm) : Statement (.setge rm) := short <| by
  have := rm_length 0#3 rm
  simp [encode, encodeSetcc]
  omega

theorem setle (rm : Rm) : Statement (.setle rm) := short <| by
  have := rm_length 0#3 rm
  simp [encode, encodeSetcc]
  omega

theorem setg (rm : Rm) : Statement (.setg rm) := short <| by
  have := rm_length 0#3 rm
  simp [encode, encodeSetcc]
  omega

theorem mov (f : MovForm) : Statement (.mov f) := fun _ _ _ => mov_length f

theorem movFromSreg (rm : Rm) (sr : SReg) : Statement (.movFromSreg rm sr) := short <| by
  have := rm_length sr.code rm
  simp [encode]
  omega

theorem movToSreg (sr : SReg) (rm : Rm) : Statement (.movToSreg sr rm) := short <| by
  have := rm_length sr.code rm
  simp [encode]
  omega

theorem movFromCr (n : BitVec 3) (r : Reg) : Statement (.movFromCr n r) := short (by simp [encode, encodeMovSpecial])

theorem movToCr (n : BitVec 3) (r : Reg) : Statement (.movToCr n r) := short (by simp [encode, encodeMovSpecial])

theorem movFromDr (n : BitVec 3) (r : Reg) : Statement (.movFromDr n r) := short (by simp [encode, encodeMovSpecial])

theorem movToDr (n : BitVec 3) (r : Reg) : Statement (.movToDr n r) := short (by simp [encode, encodeMovSpecial])

theorem movFromTr (n : BitVec 3) (r : Reg) : Statement (.movFromTr n r) := short (by simp [encode, encodeMovSpecial])

theorem movToTr (n : BitVec 3) (r : Reg) : Statement (.movToTr n r) := short (by simp [encode, encodeMovSpecial])

theorem xchg (f : XchgForm) : Statement (.xchg f) := fun _ _ _ => xchg_length f

theorem push (f : PushForm) : Statement (.push f) := fun _ _ _ => push_length f

theorem pop (f : PopForm) : Statement (.pop f) := fun _ _ h => pop_length f h

theorem pusha : Statement .pusha := short (by simp [encode])

theorem pushad : Statement .pushad := short (by simp [encode])

theorem popa : Statement .popa := short (by simp [encode])

theorem popad : Statement .popad := short (by simp [encode])

theorem cbw : Statement .cbw := short (by simp [encode])

theorem cwde : Statement .cwde := short (by simp [encode])

theorem cwd : Statement .cwd := short (by simp [encode])

theorem cdq : Statement .cdq := short (by simp [encode])

theorem movsx (w : Width) (r : Reg) (src : Width) (rm : Rm) : Statement (.movsx w r src rm) := short <| by
  have := rm_length r.code rm
  simp [encode]
  omega

theorem movzx (w : Width) (r : Reg) (src : Width) (rm : Rm) : Statement (.movzx w r src rm) := short <| by
  have := rm_length r.code rm
  simp [encode]
  omega

theorem lea (w : Width) (r : Reg) (m : MemRef) : Statement (.lea w r m) := short <| by
  have := addr_length r.code m.addr
  simp [encode]
  omega

theorem les (w : Width) (r : Reg) (m : MemRef) : Statement (.les w r m) := short <| by
  have := addr_length r.code m.addr
  simp [encode]
  omega

theorem lds (w : Width) (r : Reg) (m : MemRef) : Statement (.lds w r m) := short <| by
  have := addr_length r.code m.addr
  simp [encode]
  omega

theorem lss (w : Width) (r : Reg) (m : MemRef) : Statement (.lss w r m) := short <| by
  have := addr_length r.code m.addr
  simp [encode]
  omega

theorem lfs (w : Width) (r : Reg) (m : MemRef) : Statement (.lfs w r m) := short <| by
  have := addr_length r.code m.addr
  simp [encode]
  omega

theorem lgs (w : Width) (r : Reg) (m : MemRef) : Statement (.lgs w r m) := short <| by
  have := addr_length r.code m.addr
  simp [encode]
  omega

theorem xlat (a : StrAttr) : Statement (.xlat a) := short (by simp [encode])

theorem jo (t : RelForm) : Statement (.jo t) := fun _ _ _ => jcc_length 0 t

theorem jno (t : RelForm) : Statement (.jno t) := fun _ _ _ => jcc_length 1 t

theorem jb (t : RelForm) : Statement (.jb t) := fun _ _ _ => jcc_length 2 t

theorem jae (t : RelForm) : Statement (.jae t) := fun _ _ _ => jcc_length 3 t

theorem je (t : RelForm) : Statement (.je t) := fun _ _ _ => jcc_length 4 t

theorem jne (t : RelForm) : Statement (.jne t) := fun _ _ _ => jcc_length 5 t

theorem jbe (t : RelForm) : Statement (.jbe t) := fun _ _ _ => jcc_length 6 t

theorem ja (t : RelForm) : Statement (.ja t) := fun _ _ _ => jcc_length 7 t

theorem js (t : RelForm) : Statement (.js t) := fun _ _ _ => jcc_length 8 t

theorem jns (t : RelForm) : Statement (.jns t) := fun _ _ _ => jcc_length 9 t

theorem jp (t : RelForm) : Statement (.jp t) := fun _ _ _ => jcc_length 10 t

theorem jnp (t : RelForm) : Statement (.jnp t) := fun _ _ _ => jcc_length 11 t

theorem jl (t : RelForm) : Statement (.jl t) := fun _ _ _ => jcc_length 12 t

theorem jge (t : RelForm) : Statement (.jge t) := fun _ _ _ => jcc_length 13 t

theorem jle (t : RelForm) : Statement (.jle t) := fun _ _ _ => jcc_length 14 t

theorem jg (t : RelForm) : Statement (.jg t) := fun _ _ _ => jcc_length 15 t

theorem jcxz (w : Width) (asz : Width) (d : Byte) : Statement (.jcxz w asz d) := short (by simp [encode])

theorem loop (w : Width) (asz : Width) (d : Byte) : Statement (.loop w asz d) := short (by simp [encode])

theorem loope (w : Width) (asz : Width) (d : Byte) : Statement (.loope w asz d) := short (by simp [encode])

theorem loopne (w : Width) (asz : Width) (d : Byte) : Statement (.loopne w asz d) := short (by simp [encode])

theorem jmp (t : NearForm) : Statement (.jmp t) := fun _ _ _ => jmp_length t

theorem jmpFar (t : FarForm) : Statement (.jmpFar t) := fun _ _ _ => far_length 0xEA 5 t

theorem call (t : NearForm) : Statement (.call t) := fun _ _ h => call_length t h

theorem callFar (t : FarForm) : Statement (.callFar t) := fun _ _ _ => far_length 0x9A 3 t

theorem ret (w : Width) (n : Option Word) : Statement (.ret w n) := fun _ _ _ => ret_length 0xC2 n

theorem retFar (w : Width) (n : Option Word) : Statement (.retFar w n) := fun _ _ _ => ret_length 0xCA n

theorem enter (w : Width) (size : Word) (level : Byte) : Statement (.enter w size level) := short (by simp [encode, wordBytes])

theorem leave (w : Width) : Statement (.leave w) := short (by simp [encode])

theorem bound (w : Width) (r : Reg) (m : MemRef) : Statement (.bound w r m) := short <| by
  have := addr_length r.code m.addr
  simp [encode]
  omega

theorem intN (n : Byte) : Statement (.intN n) := short (by simp [encode])

theorem int3 : Statement .int3 := short (by simp [encode])

theorem into : Statement .into := short (by simp [encode])

theorem iret : Statement .iret := short (by simp [encode])

theorem iretd : Statement .iretd := short (by simp [encode])

theorem movsb (a : StrAttr) : Statement (.movsb a) := short (by simp [encode])

theorem movsw (a : StrAttr) : Statement (.movsw a) := short (by simp [encode])

theorem movsd (a : StrAttr) : Statement (.movsd a) := short (by simp [encode])

theorem cmpsb (a : StrAttr) : Statement (.cmpsb a) := short (by simp [encode])

theorem cmpsw (a : StrAttr) : Statement (.cmpsw a) := short (by simp [encode])

theorem cmpsd (a : StrAttr) : Statement (.cmpsd a) := short (by simp [encode])

theorem stosb (a : StrAttr) : Statement (.stosb a) := short (by simp [encode])

theorem stosw (a : StrAttr) : Statement (.stosw a) := short (by simp [encode])

theorem stosd (a : StrAttr) : Statement (.stosd a) := short (by simp [encode])

theorem lodsb (a : StrAttr) : Statement (.lodsb a) := short (by simp [encode])

theorem lodsw (a : StrAttr) : Statement (.lodsw a) := short (by simp [encode])

theorem lodsd (a : StrAttr) : Statement (.lodsd a) := short (by simp [encode])

theorem scasb (a : StrAttr) : Statement (.scasb a) := short (by simp [encode])

theorem scasw (a : StrAttr) : Statement (.scasw a) := short (by simp [encode])

theorem scasd (a : StrAttr) : Statement (.scasd a) := short (by simp [encode])

theorem insb (a : StrAttr) : Statement (.insb a) := short (by simp [encode])

theorem insw (a : StrAttr) : Statement (.insw a) := short (by simp [encode])

theorem insd (a : StrAttr) : Statement (.insd a) := short (by simp [encode])

theorem outsb (a : StrAttr) : Statement (.outsb a) := short (by simp [encode])

theorem outsw (a : StrAttr) : Statement (.outsw a) := short (by simp [encode])

theorem outsd (a : StrAttr) : Statement (.outsd a) := short (by simp [encode])

theorem inp (f : IoForm) : Statement (.inp f) := fun _ _ _ => io_length 0xE4 f

theorem out (f : IoForm) : Statement (.out f) := fun _ _ _ => io_length 0xE6 f

theorem stc : Statement .stc := short (by simp [encode])

theorem clc : Statement .clc := short (by simp [encode])

theorem cmc : Statement .cmc := short (by simp [encode])

theorem std : Statement .std := short (by simp [encode])

theorem cld : Statement .cld := short (by simp [encode])

theorem cli : Statement .cli := short (by simp [encode])

theorem sti : Statement .sti := short (by simp [encode])

theorem lahf : Statement .lahf := short (by simp [encode])

theorem sahf : Statement .sahf := short (by simp [encode])

theorem popf : Statement .popf := short (by simp [encode])

theorem popfd : Statement .popfd := short (by simp [encode])

theorem pushf : Statement .pushf := short (by simp [encode])

theorem pushfd : Statement .pushfd := short (by simp [encode])

theorem nop : Statement .nop := short (by simp [encode])

theorem hlt : Statement .hlt := short (by simp [encode])

theorem wait : Statement .wait := short (by simp [encode])

theorem esc (w : Width) (asz : Width) (op : BitVec 3) (reg : BitVec 3) (rm : Rm) : Statement (.esc w asz op reg rm) := short <| by
  have := rm_length reg rm
  simp [encode]
  omega

theorem lgdt (w : Width) (m : MemRef) : Statement (.lgdt w m) := short <| by
  have := addr_length 2#3 m.addr
  simp [encode]
  omega

theorem lidt (w : Width) (m : MemRef) : Statement (.lidt w m) := short <| by
  have := addr_length 3#3 m.addr
  simp [encode]
  omega

theorem sgdt (w : Width) (m : MemRef) : Statement (.sgdt w m) := short <| by
  have := addr_length 0#3 m.addr
  simp [encode]
  omega

theorem sidt (w : Width) (m : MemRef) : Statement (.sidt w m) := short <| by
  have := addr_length 1#3 m.addr
  simp [encode]
  omega

theorem lldt (rm : Rm) : Statement (.lldt rm) := short <| by
  have := rm_length 2#3 rm
  simp [encode]
  omega

theorem sldt (rm : Rm) : Statement (.sldt rm) := short <| by
  have := rm_length 0#3 rm
  simp [encode]
  omega

theorem ltr (rm : Rm) : Statement (.ltr rm) := short <| by
  have := rm_length 3#3 rm
  simp [encode]
  omega

theorem str (rm : Rm) : Statement (.str rm) := short <| by
  have := rm_length 1#3 rm
  simp [encode]
  omega

theorem lmsw (rm : Rm) : Statement (.lmsw rm) := short <| by
  have := rm_length 6#3 rm
  simp [encode]
  omega

theorem smsw (rm : Rm) : Statement (.smsw rm) := short <| by
  have := rm_length 4#3 rm
  simp [encode]
  omega

theorem clts : Statement .clts := short (by simp [encode])

theorem lar (w : Width) (r : Reg) (rm : Rm) : Statement (.lar w r rm) := short <| by
  have := rm_length r.code rm
  simp [encode]
  omega

theorem lsl (w : Width) (r : Reg) (rm : Rm) : Statement (.lsl w r rm) := short <| by
  have := rm_length r.code rm
  simp [encode]
  omega

theorem verr (rm : Rm) : Statement (.verr rm) := short <| by
  have := rm_length 4#3 rm
  simp [encode]
  omega

theorem verw (rm : Rm) : Statement (.verw rm) := short <| by
  have := rm_length 5#3 rm
  simp [encode]
  omega

theorem arpl (rm : Rm) (r : Reg) : Statement (.arpl rm r) := short <| by
  have := rm_length r.code rm
  simp [encode]
  omega

theorem undef (b : Undef) : Statement (.undef b) := short (by simp [encode])

end EncodeLength

/-- A lead byte in front of an instruction. -/
theorem EncodeLength.behind {i j : Instr} {b : Byte} (h : EncodeLength.Statement i) (he : encode j = b :: encode i)
    (hl : leadBytes j = leadBytes i + 1) (hw : ∀ d l, wfUnder d l j = true → ∃ l', wfUnder d l' i = true) :
    EncodeLength.Statement j := by
  intro d l hj
  obtain ⟨l', h'⟩ := hw d l hj
  have := h d l' h'
  rw [he, hl]
  simp
  omega

/-- Every instruction. -/
theorem encodeLength_all : ∀ i : Instr, EncodeLength.Statement i
  | .add f => EncodeLength.add f
  | .or f => EncodeLength.or f
  | .adc f => EncodeLength.adc f
  | .sbb f => EncodeLength.sbb f
  | .and f => EncodeLength.and f
  | .sub f => EncodeLength.sub f
  | .xor f => EncodeLength.xor f
  | .cmp f => EncodeLength.cmp f
  | .inc f => EncodeLength.inc f
  | .dec f => EncodeLength.dec f
  | .not w rm => EncodeLength.not w rm
  | .neg w rm => EncodeLength.neg w rm
  | .mul w rm => EncodeLength.mul w rm
  | .imul f => EncodeLength.imul f
  | .div w rm => EncodeLength.div w rm
  | .idiv w rm => EncodeLength.idiv w rm
  | .daa => EncodeLength.daa
  | .das => EncodeLength.das
  | .aaa => EncodeLength.aaa
  | .aas => EncodeLength.aas
  | .aam base => EncodeLength.aam base
  | .aad base => EncodeLength.aad base
  | .test f => EncodeLength.test f
  | .rol f => EncodeLength.rol f
  | .ror f => EncodeLength.ror f
  | .rcl f => EncodeLength.rcl f
  | .rcr f => EncodeLength.rcr f
  | .shl f => EncodeLength.shl f
  | .shr f => EncodeLength.shr f
  | .sar f => EncodeLength.sar f
  | .shld f => EncodeLength.shld f
  | .shrd f => EncodeLength.shrd f
  | .bt f => EncodeLength.bt f
  | .bts f => EncodeLength.bts f
  | .btr f => EncodeLength.btr f
  | .btc f => EncodeLength.btc f
  | .bsf w r rm => EncodeLength.bsf w r rm
  | .bsr w r rm => EncodeLength.bsr w r rm
  | .seto rm => EncodeLength.seto rm
  | .setno rm => EncodeLength.setno rm
  | .setb rm => EncodeLength.setb rm
  | .setae rm => EncodeLength.setae rm
  | .sete rm => EncodeLength.sete rm
  | .setne rm => EncodeLength.setne rm
  | .setbe rm => EncodeLength.setbe rm
  | .seta rm => EncodeLength.seta rm
  | .sets rm => EncodeLength.sets rm
  | .setns rm => EncodeLength.setns rm
  | .setp rm => EncodeLength.setp rm
  | .setnp rm => EncodeLength.setnp rm
  | .setl rm => EncodeLength.setl rm
  | .setge rm => EncodeLength.setge rm
  | .setle rm => EncodeLength.setle rm
  | .setg rm => EncodeLength.setg rm
  | .mov f => EncodeLength.mov f
  | .movFromSreg rm sr => EncodeLength.movFromSreg rm sr
  | .movToSreg sr rm => EncodeLength.movToSreg sr rm
  | .movFromCr n r => EncodeLength.movFromCr n r
  | .movToCr n r => EncodeLength.movToCr n r
  | .movFromDr n r => EncodeLength.movFromDr n r
  | .movToDr n r => EncodeLength.movToDr n r
  | .movFromTr n r => EncodeLength.movFromTr n r
  | .movToTr n r => EncodeLength.movToTr n r
  | .xchg f => EncodeLength.xchg f
  | .push f => EncodeLength.push f
  | .pop f => EncodeLength.pop f
  | .pusha => EncodeLength.pusha
  | .pushad => EncodeLength.pushad
  | .popa => EncodeLength.popa
  | .popad => EncodeLength.popad
  | .cbw => EncodeLength.cbw
  | .cwde => EncodeLength.cwde
  | .cwd => EncodeLength.cwd
  | .cdq => EncodeLength.cdq
  | .movsx w r src rm => EncodeLength.movsx w r src rm
  | .movzx w r src rm => EncodeLength.movzx w r src rm
  | .lea w r m => EncodeLength.lea w r m
  | .les w r m => EncodeLength.les w r m
  | .lds w r m => EncodeLength.lds w r m
  | .lss w r m => EncodeLength.lss w r m
  | .lfs w r m => EncodeLength.lfs w r m
  | .lgs w r m => EncodeLength.lgs w r m
  | .xlat a => EncodeLength.xlat a
  | .jo t => EncodeLength.jo t
  | .jno t => EncodeLength.jno t
  | .jb t => EncodeLength.jb t
  | .jae t => EncodeLength.jae t
  | .je t => EncodeLength.je t
  | .jne t => EncodeLength.jne t
  | .jbe t => EncodeLength.jbe t
  | .ja t => EncodeLength.ja t
  | .js t => EncodeLength.js t
  | .jns t => EncodeLength.jns t
  | .jp t => EncodeLength.jp t
  | .jnp t => EncodeLength.jnp t
  | .jl t => EncodeLength.jl t
  | .jge t => EncodeLength.jge t
  | .jle t => EncodeLength.jle t
  | .jg t => EncodeLength.jg t
  | .jcxz w asz d => EncodeLength.jcxz w asz d
  | .loop w asz d => EncodeLength.loop w asz d
  | .loope w asz d => EncodeLength.loope w asz d
  | .loopne w asz d => EncodeLength.loopne w asz d
  | .jmp t => EncodeLength.jmp t
  | .jmpFar t => EncodeLength.jmpFar t
  | .call t => EncodeLength.call t
  | .callFar t => EncodeLength.callFar t
  | .ret w n => EncodeLength.ret w n
  | .retFar w n => EncodeLength.retFar w n
  | .enter w size level => EncodeLength.enter w size level
  | .leave w => EncodeLength.leave w
  | .bound w r m => EncodeLength.bound w r m
  | .intN n => EncodeLength.intN n
  | .int3 => EncodeLength.int3
  | .into => EncodeLength.into
  | .iret => EncodeLength.iret
  | .iretd => EncodeLength.iretd
  | .movsb a => EncodeLength.movsb a
  | .movsw a => EncodeLength.movsw a
  | .movsd a => EncodeLength.movsd a
  | .cmpsb a => EncodeLength.cmpsb a
  | .cmpsw a => EncodeLength.cmpsw a
  | .cmpsd a => EncodeLength.cmpsd a
  | .stosb a => EncodeLength.stosb a
  | .stosw a => EncodeLength.stosw a
  | .stosd a => EncodeLength.stosd a
  | .lodsb a => EncodeLength.lodsb a
  | .lodsw a => EncodeLength.lodsw a
  | .lodsd a => EncodeLength.lodsd a
  | .scasb a => EncodeLength.scasb a
  | .scasw a => EncodeLength.scasw a
  | .scasd a => EncodeLength.scasd a
  | .insb a => EncodeLength.insb a
  | .insw a => EncodeLength.insw a
  | .insd a => EncodeLength.insd a
  | .outsb a => EncodeLength.outsb a
  | .outsw a => EncodeLength.outsw a
  | .outsd a => EncodeLength.outsd a
  | .inp f => EncodeLength.inp f
  | .out f => EncodeLength.out f
  | .stc => EncodeLength.stc
  | .clc => EncodeLength.clc
  | .cmc => EncodeLength.cmc
  | .std => EncodeLength.std
  | .cld => EncodeLength.cld
  | .cli => EncodeLength.cli
  | .sti => EncodeLength.sti
  | .lahf => EncodeLength.lahf
  | .sahf => EncodeLength.sahf
  | .popf => EncodeLength.popf
  | .popfd => EncodeLength.popfd
  | .pushf => EncodeLength.pushf
  | .pushfd => EncodeLength.pushfd
  | .nop => EncodeLength.nop
  | .hlt => EncodeLength.hlt
  | .wait => EncodeLength.wait
  | .esc w asz op reg rm => EncodeLength.esc w asz op reg rm
  | .lgdt w m => EncodeLength.lgdt w m
  | .lidt w m => EncodeLength.lidt w m
  | .sgdt w m => EncodeLength.sgdt w m
  | .sidt w m => EncodeLength.sidt w m
  | .lldt rm => EncodeLength.lldt rm
  | .sldt rm => EncodeLength.sldt rm
  | .ltr rm => EncodeLength.ltr rm
  | .str rm => EncodeLength.str rm
  | .lmsw rm => EncodeLength.lmsw rm
  | .smsw rm => EncodeLength.smsw rm
  | .clts => EncodeLength.clts
  | .lar w r rm => EncodeLength.lar w r rm
  | .lsl w r rm => EncodeLength.lsl w r rm
  | .verr rm => EncodeLength.verr rm
  | .verw rm => EncodeLength.verw rm
  | .arpl rm r => EncodeLength.arpl rm r
  | .undef b => EncodeLength.undef b
  | .rep i => EncodeLength.behind (encodeLength_all i) rfl rfl fun _ _ h => ⟨_, h⟩
  | .repne i => EncodeLength.behind (encodeLength_all i) rfl rfl fun _ _ h => ⟨_, h⟩
  | .lock i => EncodeLength.behind (encodeLength_all i) rfl rfl fun _ _ h => ⟨_, h⟩
  | .segES i => EncodeLength.behind (encodeLength_all i) rfl rfl fun _ _ h => ⟨_, h⟩
  | .segCS i => EncodeLength.behind (encodeLength_all i) rfl rfl fun _ _ h => ⟨_, h⟩
  | .segSS i => EncodeLength.behind (encodeLength_all i) rfl rfl fun _ _ h => ⟨_, h⟩
  | .segDS i => EncodeLength.behind (encodeLength_all i) rfl rfl fun _ _ h => ⟨_, h⟩
  | .segFS i => EncodeLength.behind (encodeLength_all i) rfl rfl fun _ _ h => ⟨_, h⟩
  | .segGS i => EncodeLength.behind (encodeLength_all i) rfl rfl fun _ _ h => ⟨_, h⟩
  | .opsize i => EncodeLength.behind (encodeLength_all i) rfl rfl fun _ _ h => ⟨_, h⟩
  | .addrsize i => EncodeLength.behind (encodeLength_all i) rfl rfl fun _ _ h => ⟨_, h⟩

namespace EncodeLength

theorem rep (i : Instr) : Statement (.rep i) := encodeLength_all _

theorem repne (i : Instr) : Statement (.repne i) := encodeLength_all _

theorem lock (i : Instr) : Statement (.lock i) := encodeLength_all _

theorem segES (i : Instr) : Statement (.segES i) := encodeLength_all _

theorem segCS (i : Instr) : Statement (.segCS i) := encodeLength_all _

theorem segSS (i : Instr) : Statement (.segSS i) := encodeLength_all _

theorem segDS (i : Instr) : Statement (.segDS i) := encodeLength_all _

theorem segFS (i : Instr) : Statement (.segFS i) := encodeLength_all _

theorem segGS (i : Instr) : Statement (.segGS i) := encodeLength_all _

theorem opsize (i : Instr) : Statement (.opsize i) := encodeLength_all _

theorem addrsize (i : Instr) : Statement (.addrsize i) := encodeLength_all _

end EncodeLength

end Sys2Proof.Laws
end

