-- ==== Sys2Proof/Laws/System.lean ====
section
/-! SUPPORT. System instructions: their privilege and mode checks, the descriptor probes, reserved bits, table images. -/

namespace Sys2Proof.Machine

variable {s t u : State} {w : Width}

theorem checkCpl0_run (h : s.pe = false ∨ s.cpl = 0) : checkCpl0 s = .ok () s := by
  unfold checkCpl0
  rw [M_get_bind]
  have e : (s.pe && s.cpl != 0) = false := by rcases h with h | h <;> simp [h]
  rw [e]
  rfl

theorem checkCpl0_error (h : s.pe = true) (h' : s.cpl ≠ 0) : checkCpl0 s = .error (faultOf 13 (some 0)) s := by
  unfold checkCpl0
  rw [M_get_bind]
  have e : (s.pe && s.cpl != 0) = true := by rw [h, Bool.true_and, bne_iff_ne]; exact h'
  rw [e]
  rfl

theorem checkProt_run (h : s.prot = true) : checkProt s = .ok () s := by
  unfold checkProt
  rw [M_get_bind, h]
  rfl

theorem checkProt_error (h : s.prot = false) : checkProt s = .error (faultOf 6 none) s := by
  unfold checkProt
  rw [M_get_bind, h]
  rfl

theorem freeStatus_run (s : State) : freeStatus s = .ok () (s.freed allStatus) := freeFlags_run _ _

/-- A register read with its reserved bits free (log 7). -/
theorem reserved_run (mask v : Dword) (s : State) :
    reserved mask v s = .ok ((v &&& mask) ||| (Config.freeBits s.free &&& ~~~mask)) { s with free := s.free + 1 } := rfl

/-- The low 24 bits, by masking. -/
theorem and_low24 (b : Dword) : b &&& 0x00FFFFFF = (b.setWidth 24).setWidth 32 := by
  apply BitVec.eq_of_toNat_eq
  rw [BitVec.toNat_and, BitVec.toNat_setWidth, BitVec.toNat_setWidth]
  show b.toNat &&& (2 ^ 24 - 1) = _
  rw [Nat.and_two_pow_sub_one_eq_mod]
  omega

/-- The base of a table: 24 bits of it with a 16-bit operand size (R741, R743). -/
theorem tableBase_eq (w : Width) (b : Dword) : tableBase w b = if w = .d32 then b else (b.setWidth 24).setWidth 32 := by
  unfold tableBase
  rw [and_low24]

/-- The operand of LGDT and LIDT, read as a word and a doubleword (R741). -/
theorem readTable_run {m : MemRef} {pas pas' : List Nat} (hs : s.segOk (segOf m) (s.memEa m) 6 false = true)
    (h : Reach s s.user (segOf m) (s.memEa m) 2 false pas t)
    (h' : Reach (t.afterRead pas) (t.afterRead pas).user (segOf m) (s.memEa m + 2) 4 false pas' u) :
    readTable w m s = .ok { limit := t.valueAt .w16 pas, base := tableBase w (u.valueAt .d32 pas') } (u.afterRead pas') := by
  unfold readTable
  rw [M_get_bind, M_bind_ok (checkSeg_ok hs), M_bind_ok (memRead_run h), M_bind_ok (memRead_run h')]
  rfl

/-! ### Probes of descriptors (R750 to R753) -/

variable {sel : Word} {ok : Desc → Bool}

theorem probe_null (h : nullSel sel = true) : probe sel ok s = .ok none s := by
  unfold probe
  rw [if_pos h]
  rfl

theorem probe_none (h : nullSel sel = false) (hd : fetchDesc sel s = .ok none u) : probe sel ok s = .ok none u := by
  unfold probe
  rw [if_neg (by simp [h]), M_bind_ok hd]
  rfl

theorem probe_some {d : Desc} (h : nullSel sel = false) (hd : fetchDesc sel s = .ok (some d) u) :
    probe sel ok s = .ok (if ok d then some d else none) u := by
  unfold probe
  rw [if_neg (by simp [h]), M_bind_ok hd]
  rfl

end Sys2Proof.Machine
end

