-- ==== Sys2Proof/Laws/Task.lean ====
section
/-! SUPPORT. Accesses on the processor's own account and the parts of a task switch: what is saved, read and loaded. -/

namespace Sys2Proof.Machine

variable {s t u : State}

/-! ### Accesses on the processor's own account (R102) -/

theorem linRead_run {lin : Dword} {n x : Nat} (h : SysGet s lin n x t) : linRead lin n false s = .ok x t := by
  cases h with
  | mk pas t h =>
    unfold linRead
    rw [M_bind_ok h]
    rfl

theorem linWrite_run {lin : Dword} {n x : Nat} (h : SysPut s lin n x t) : linWrite lin n x false s = .ok () t := by
  cases h with
  | mk pas t h =>
    unfold linWrite
    rw [M_bind_ok h]
    rfl

theorem sysRead8_run {lin : Dword} {x : Nat} (h : SysGet s lin 1 x t) : sysRead8 lin s = .ok (BitVec.ofNat 8 x) t := by
  unfold sysRead8
  rw [M_bind_ok (linRead_run h)]
  rfl

theorem sysRead16_run {lin : Dword} {x : Nat} (h : SysGet s lin 2 x t) : sysRead16 lin s = .ok (BitVec.ofNat 16 x) t := by
  unfold sysRead16
  rw [M_bind_ok (linRead_run h)]
  rfl

theorem sysRead16z_run {lin : Dword} {x : Nat} (h : SysGet s lin 2 x t) :
    sysRead16z lin s = .ok ((BitVec.ofNat 16 x).setWidth 32) t := by
  unfold sysRead16z
  rw [M_bind_ok (sysRead16_run h)]
  rfl

theorem sysRead32_run {lin : Dword} {x : Nat} (h : SysGet s lin 4 x t) : sysRead32 lin s = .ok (BitVec.ofNat 32 x) t := by
  unfold sysRead32
  rw [M_bind_ok (linRead_run h)]
  rfl

/-- The first of some reads in turn, and the others after it. -/
theorem SysGets.first {base k : Dword} {n x : Nat} {ks : List Dword} {xs : List Nat}
    (h : SysGets base n s (k :: ks) (x :: xs) u) : ∃ t, SysGet s (base + k) n x t ∧ SysGets base n t ks xs u := by
  cases h with
  | cons h hs => exact ⟨_, h, hs⟩

theorem SysGets.done {base : Dword} {n : Nat} (h : SysGets base n s [] [] u) : u = s := by
  cases h
  rfl

theorem SysPut.touched {lin : Dword} {n x : Nat} (h : SysPut s lin n x t) : s.Touched t := by
  cases h with
  | mk pas t h => exact (((translateAll_keeps _ _ _).ok h).trans (State.Walked.ofStore _ _ _)).touched

theorem SysGet.touched {lin : Dword} {n x : Nat} (h : SysGet s lin n x t) : s.Touched t := by
  cases h with
  | mk pas t h => exact (((translateAll_keeps _ _ _).ok h).trans (State.Walked.ofRead _ _)).touched

theorem SysPuts.touched {base : Dword} {n : Nat} {ks : List (Dword × Dword)} (h : SysPuts base n s ks t) :
    s.Touched t := by
  induction h with
  | nil => exact .refl _
  | cons h _ ih => exact h.touched.trans ih

theorem TaskSaved.touched {eip fl : Dword} (h : TaskSaved s eip fl t) : s.Touched t := by
  cases h with
  | tss386 hk h => exact h.touched
  | tss286 hk h => exact h.touched

theorem BusyCleared.touched {sel : Word} (h : BusyCleared s sel t) : s.Touched t := by
  cases h with
  | gone h => exact .refl _
  | mk addr b t u ha hg hp => exact hg.touched.trans hp.touched

/-! ### The outgoing task (R270, R271) -/

/-- Items of one size written from `lin` on are values at rising offsets. -/
theorem writeItems_cons {n : Nat} {base k v : Dword} {vs : List Dword} {ks : List (Dword × Dword)}
    (h : SysPuts base n s ((k, v) :: ks) u)
    (ih : ∀ t, SysPuts base n t ks u → writeItems n (base + k + BitVec.ofNat 32 n) vs t = .ok () u) :
    writeItems n (base + k) (v :: vs) s = .ok () u := by
  cases h with
  | cons h hs =>
    unfold writeItems
    rw [M_bind_ok (linWrite_run h)]
    exact ih _ hs

theorem writeItems_nil {n : Nat} {base lin : Dword} (h : SysPuts base n s [] u) : writeItems n lin [] s = .ok () u := by
  cases h
  rfl

/-- The outgoing state is saved. -/
theorem saveTask_run {eip fl : Dword} (h : TaskSaved s eip fl t) : saveTask eip fl s = .ok () t := by
  unfold saveTask
  rw [M_get_bind]
  cases h with
  | tss386 hk h =>
    rw [hk]
    simp only [if_true]
    unfold tssItems
    iterate 16
      refine writeItems_cons h fun _ h => ?_
      rw [BitVec.add_assoc]
    exact writeItems_nil h
  | tss286 hk h =>
    rw [hk]
    simp only [if_false, Bool.false_eq_true]
    show writeItems 2 (s.tr.base + 0x0E) [_, _, _, _, _, _, _, _, _, _, _, _, _, _] s = _
    iterate 14
      refine writeItems_cons h fun _ h => ?_
      rw [BitVec.add_assoc]
    exact writeItems_nil h

theorem clearBusy_run {sel : Word} (h : BusyCleared s sel t) : clearBusy sel s = .ok () t := by
  unfold clearBusy
  rw [M_get_bind]
  cases h with
  | gone h =>
    rw [h]
    rfl
  | mk addr b t u ha hg hp =>
    rw [ha]
    dsimp only
    rw [M_bind_ok (sysRead8_run hg)]
    exact linWrite_run hp

/-- The type bits of a descriptor with bit 1 set are those of its access byte. -/
theorem accessByte_busy (d1 : Dword) :
    d1.extractLsb' 12 4 ++ (d1.extractLsb' 8 4 ||| 2) = d1.extractLsb' 8 8 ||| (2 : BitVec (4 + 4)) := by
  have key : ∀ x y : BitVec 4, x ++ (y ||| 2) = (x ++ y) ||| (2 : BitVec (4 + 4)) := by decide
  rw [key, BitVec.extractLsb'_append_extractLsb'_eq_extractLsb' (by rfl)]

theorem setBusy_run {tss : Word} {new : Desc} {addr : Dword} (ha : s.descAddr tss = some addr)
    (h : SysPut s (addr + 5) 1 (new.d1.extractLsb' 8 8 ||| 2).toNat t) :
    setDescType tss new (new.typ ||| 2) s = .ok () t := by
  unfold setDescType
  rw [M_get_bind, ha]
  dsimp only [Desc.typ]
  rw [accessByte_busy]
  exact linWrite_run h

/-- The back link is written. -/
theorem writeBackLink_run {new : Desc} {old : Word} (h : SysPut s new.base (linkBytes new) old.toNat t) :
    writeBackLink new old s = .ok () t := linWrite_run h

theorem committed_ok {α : Type} {m : M α} {a : α} (h : m s = .ok a t) : committed m s = .ok a t := by
  unfold committed
  rw [h]

/-! ### The incoming task (R272, R273) -/

/-- The general registers of a TSS are read in turn. -/
theorem readTssRegs_run {base k : Dword} {n : Nat} {item : Dword → M Dword} {f : Nat → Dword}
    (hi : ∀ {lin x s t}, SysGet s lin n x t → item lin s = .ok (f x) t) {ax cx dx bx sp bp si di : Nat}
    {ks : List Dword} {xs : List Nat}
    (h : SysGets base n s (k :: (k + BitVec.ofNat 32 n) :: (k + 2 * BitVec.ofNat 32 n) :: (k + 3 * BitVec.ofNat 32 n) ::
      (k + 4 * BitVec.ofNat 32 n) :: (k + 5 * BitVec.ofNat 32 n) :: (k + 6 * BitVec.ofNat 32 n) ::
      (k + 7 * BitVec.ofNat 32 n) :: ks) (ax :: cx :: dx :: bx :: sp :: bp :: si :: di :: xs) u) :
    ∃ t, readTssRegs (base + k) (BitVec.ofNat 32 n) item s =
      .ok { eax := f ax, ecx := f cx, edx := f dx, ebx := f bx, esp := f sp, ebp := f bp, esi := f si, edi := f di } t ∧
      SysGets base n t ks xs u := by
  obtain ⟨_, r0, h⟩ := h.first
  obtain ⟨_, r1, h⟩ := h.first
  obtain ⟨_, r2, h⟩ := h.first
  obtain ⟨_, r3, h⟩ := h.first
  obtain ⟨_, r4, h⟩ := h.first
  obtain ⟨_, r5, h⟩ := h.first
  obtain ⟨_, r6, h⟩ := h.first
  obtain ⟨_, r7, h⟩ := h.first
  refine ⟨_, ?_, h⟩
  unfold readTssRegs
  simp only [BitVec.add_assoc]
  exact (M_bind_ok (hi r0)).trans <| (M_bind_ok (hi r1)).trans <| (M_bind_ok (hi r2)).trans <|
    (M_bind_ok (hi r3)).trans <| (M_bind_ok (hi r4)).trans <| (M_bind_ok (hi r5)).trans <|
    (M_bind_ok (hi r6)).trans <| (M_bind_ok (hi r7)).trans rfl

/-- The state of the incoming task is read from its TSS. -/
theorem readTss_run {new : Desc} {i : TssImage} (h : TssIs s new i t) : readTss new s = .ok i t := by
  unfold readTss
  cases h with
  | tss386 ip fl ax cx dx bx sp bp si di es cs ss ds fs gs ldt trap t _ hk h h' =>
    rw [hk]
    simp only [if_true]
    obtain ⟨_, e0, h⟩ := h.first
    obtain ⟨_, e1, h⟩ := h.first
    obtain ⟨_, r, h⟩ := readTssRegs_run (f := BitVec.ofNat 32) sysRead32_run h
    cases h.done
    obtain ⟨_, s0, h'⟩ := h'.first
    obtain ⟨_, s1, h'⟩ := h'.first
    obtain ⟨_, s2, h'⟩ := h'.first
    obtain ⟨_, s3, h'⟩ := h'.first
    obtain ⟨_, s4, h'⟩ := h'.first
    obtain ⟨_, s5, h'⟩ := h'.first
    obtain ⟨_, s6, h'⟩ := h'.first
    obtain ⟨_, s7, h'⟩ := h'.first
    cases h'.done
    unfold readTss386
    refine (M_bind_ok (sysRead32_run e0)).trans <| (M_bind_ok (sysRead32_run e1)).trans <| (M_bind_ok r).trans <|
      (M_bind_ok (sysRead16_run s0)).trans <| (M_bind_ok (sysRead16_run s1)).trans <|
      (M_bind_ok (sysRead16_run s2)).trans <| (M_bind_ok (sysRead16_run s3)).trans <|
      (M_bind_ok (sysRead16_run s4)).trans <| (M_bind_ok (sysRead16_run s5)).trans <|
      (M_bind_ok (sysRead16_run s6)).trans <| (M_bind_ok (sysRead16_run s7)).trans ?_
    have e : (BitVec.ofNat 16 trap).getLsbD 0 = trap.testBit 0 := by rw [BitVec.getLsbD_ofNat]; rfl
    rw [e]
    rfl
  | tss286 ip fl ax cx dx bx sp bp si di es cs ss ds ldt _ hk h =>
    rw [hk]
    simp only [if_false, Bool.false_eq_true]
    obtain ⟨_, e0, h⟩ := h.first
    obtain ⟨_, e1, h⟩ := h.first
    obtain ⟨_, r, h⟩ := readTssRegs_run (f := fun x => (BitVec.ofNat 16 x).setWidth 32) sysRead16z_run h
    obtain ⟨_, s0, h⟩ := h.first
    obtain ⟨_, s1, h⟩ := h.first
    obtain ⟨_, s2, h⟩ := h.first
    obtain ⟨_, s3, h⟩ := h.first
    obtain ⟨_, s4, h⟩ := h.first
    cases h.done
    unfold readTss286
    exact (M_bind_ok (sysRead16z_run e0)).trans <| (M_bind_ok (sysRead16z_run e1)).trans <| (M_bind_ok r).trans <|
      (M_bind_ok (sysRead16_run s0)).trans <| (M_bind_ok (sysRead16_run s1)).trans <|
      (M_bind_ok (sysRead16_run s2)).trans <| (M_bind_ok (sysRead16_run s3)).trans <|
      (M_bind_ok (sysRead16_run s4)).trans rfl

/-- LDTR takes a selector that can be loaded (R183, R273). -/
theorem loadLDTR_run {vec vnp : Byte} {ext : Bool} {sel : Word} (h : LdtLoad s sel t) :
    loadLDTR vec vnp ext sel s = .ok () t := by
  unfold loadLDTR
  cases h with
  | null hn =>
    rw [if_pos hn]
    rfl
  | mk d t hn hi hd hk hp =>
    rw [if_neg (by simp [hn]), hi, when_false, M_pure_bind, M_bind_ok (fetchDescOr_run hd), hk, Bool.not_true, when_false,
      M_pure_bind, hp, Bool.not_true, when_false, M_pure_bind]
    rfl

theorem LdtLoad.same {sel : Word} (h : LdtLoad s sel t) : t.cpl = s.cpl ∧ t.eflags = s.eflags ∧ t.cr0 = s.cr0 := by
  cases h with
  | null => exact ⟨rfl, rfl, rfl⟩
  | mk d t hn hi hd =>
    obtain ⟨_, _, _, _, _, rfl⟩ := fetchDesc_walked hd
    exact ⟨rfl, rfl, rfl⟩

theorem setAccessed_walked {sel : Word} {d : Desc} {x : Unit} (h : setAccessed sel d s = .ok x t) : s.Walked t := by
  unfold setAccessed setDescType at h
  by_cases hb : d.typ.getLsbD 0
  · rw [if_pos hb] at h
    cases h
    exact .refl _
  · rw [if_neg hb, M_get_bind] at h
    cases e : s.descAddr sel with
    | none =>
      rw [e] at h
      cases h
      exact .refl _
    | some a =>
      rw [e] at h
      unfold sysWrite8 linWrite at h
      obtain ⟨_, v, h₁, h₂⟩ := M_bind_ok_inv h
      cases h₂
      exact ((translateAll_keeps _ _ _).ok h₁).trans (.ofStore _ _ _)

/-- A segment register loaded in protected mode changes nothing that the loads after it look at. -/
theorem SregLoad.same {sr : SReg} {sel : Word} (h : SregLoad s sr sel t) :
    t.cpl = s.cpl ∧ t.eflags = s.eflags ∧ t.cr0 = s.cr0 := by
  cases h with
  | real h => cases sr <;> exact ⟨rfl, rfl, rfl⟩
  | v86 h hc => cases sr <;> exact ⟨rfl, rfl, rfl⟩
  | null h hr hn => cases sr <;> exact ⟨rfl, rfl, rfl⟩
  | data h hr hn d u t hd hp hk hv ha =>
    obtain ⟨_, _, _, _, _, rfl⟩ := (fetchDesc_walked hd).trans (setAccessed_walked ha)
    cases sr <;> exact ⟨rfl, rfl, rfl⟩
  | stack h hr hn d u t hd hp hk hv ha =>
    obtain ⟨_, _, _, _, _, rfl⟩ := (fetchDesc_walked hd).trans (setAccessed_walked ha)
    cases sr <;> exact ⟨rfl, rfl, rfl⟩

/-- A data segment register loaded in protected mode, whatever exception its checks would raise. -/
theorem loadDataSeg_run {vt : Byte} {ext : Bool} {sr : SReg} {sel : Word} (h : SregLoad s sr sel t) (hm : s.prot = true)
    (hs : sr ≠ .ss) : loadDataSeg vt ext s.cpl sr sel s = .ok () t := by
  simp only [State.prot, Bool.and_eq_true, Bool.not_eq_true'] at hm
  unfold loadDataSeg
  cases h with
  | real h => simp [h] at hm
  | v86 h hc =>
    simp only [State.v86, Bool.and_eq_true] at h
    simp [h.2] at hm
  | null h hr hn => simp [hn]
  | data h hr hn d u t hd hp hk hv ha =>
    have hq : (!d.conforming && (decide (d.dpl < selRpl sel) || decide (d.dpl < s.cpl))) = false := by
      rcases hv with hv | ⟨h₁, h₂⟩
      · simp [hv]
      · simp [BitVec.not_lt.2 h₁, BitVec.not_lt.2 h₂]
    simp only [hn, Bool.false_eq_true, if_false]
    rw [M_bind_ok (fetchDescOr_run hd), readable_s hk, Bool.not_true, when_false, M_pure_bind, hk, Bool.not_true,
      when_false, M_pure_bind, hq, when_false, M_pure_bind, hp, Bool.not_true, when_false, M_pure_bind, M_bind_ok ha]
    rfl
  | stack h hr => exact absurd hr hs

/-- SS of an incoming task. -/
theorem checkTaskSS_run {ext : Bool} {sel : Word} (h : SregLoad s .ss sel t) (hm : s.prot = true) :
    checkTaskSS ext sel s = .ok () t := by
  simp only [State.prot, Bool.and_eq_true, Bool.not_eq_true'] at hm
  unfold checkTaskSS
  cases h with
  | real h => simp [h] at hm
  | v86 h hc =>
    simp only [State.v86, Bool.and_eq_true] at h
    simp [h.2] at hm
  | null h hr => exact absurd rfl hr
  | data h hr => exact absurd rfl hr
  | stack h hr hn d u t hd hp hk hv ha =>
    have e : checkStackSeg 10 ext s.cpl sel s = .ok d u := by
      unfold checkStackSeg
      rw [M_bind_ok (fetchDescOr_run hd)]
      simp only [hv.1, hv.2, bne_self_eq_false, when_false, M_pure_bind, hk, hp, Bool.not_true]
      rfl
    rw [hn, when_false, M_pure_bind, M_get_bind, M_bind_ok e]
    unfold setSS
    rw [M_bind_ok ha]
    rfl

/-- A mode of protected mode is kept by what keeps CR0 and EFLAGS. -/
theorem prot_same (h : t.cpl = s.cpl ∧ t.eflags = s.eflags ∧ t.cr0 = s.cr0) (hs : s.prot = true) : t.prot = true := by
  unfold State.prot State.pe State.flag at *
  rw [h.2.1, h.2.2]
  exact hs

theorem LdtLoad.prot {sel : Word} (h : LdtLoad s sel t) (hp : s.pe = true) (hv : t.flag .vm = false) : t.prot = true := by
  have e := h.same
  unfold State.prot
  rw [hv, Bool.not_false, Bool.and_true]
  unfold State.pe at *
  rw [e.2.2]
  exact hp

theorem TaskCode.same {i : TssImage} (h : TaskCode s i t) : t.cpl = s.cpl ∧ t.eflags = s.eflags ∧ t.cr0 = s.cr0 := by
  cases h with
  | mk d t u hn hd hk hv hp ha =>
    obtain ⟨_, _, _, _, _, rfl⟩ := (fetchDesc_walked hd).trans (setAccessed_walked ha)
    exact ⟨rfl, rfl, rfl⟩

/-- CS of an incoming task. -/
theorem checkTaskCS_run {ext : Bool} {i : TssImage} (h : TaskCode s i t) : checkTaskCS ext i.cs s = .ok () t := by
  cases h with
  | mk d t u hn hd hk hv hq ha =>
    have c1 : (d.conforming && decide (selRpl i.cs < d.dpl)) = false := by
      rcases hv with ⟨a, b⟩ | ⟨a, b⟩ <;> simp [a, b, BitVec.not_lt.2]
    have c2 : (!d.conforming && d.dpl != selRpl i.cs) = false := by
      rcases hv with ⟨a, b⟩ | ⟨a, b⟩ <;> simp [a, b]
    unfold checkTaskCS
    rw [hn, when_false, M_pure_bind, M_bind_ok (fetchDescOr_run hd), hk, Bool.not_true, when_false, M_pure_bind, c1,
      when_false, M_pure_bind, c2, when_false, M_pure_bind, hq, Bool.not_true, when_false, M_pure_bind, M_bind_ok ha]
    rfl

/-- The segment registers of an incoming task, LDTR first. -/
theorem checkTaskSegs_run {ext : Bool} {i : TssImage} (hp : s.pe = true) (hl : LdtLoad s i.ldt t) (h : TaskSegs t i u) :
    checkTaskSegs ext i s = .ok () u := by
  unfold checkTaskSegs
  rw [M_bind_ok (loadLDTR_run hl), M_get_bind]
  cases h with
  | v86 h =>
    rw [if_pos h]
    rfl
  | prot h u v x y z w hc hss hds hes hfs hgs =>
    have p1 := prot_same hc.same (hl.prot hp h)
    have p2 := prot_same hss.same p1
    have p3 := prot_same hds.same p2
    have p4 := prot_same hes.same p3
    have p5 := prot_same hfs.same p4
    have k2 : v.cpl = t.cpl := hss.same.1.trans hc.same.1
    have k3 : x.cpl = t.cpl := hds.same.1.trans k2
    have k4 : y.cpl = t.cpl := hes.same.1.trans k3
    have k5 : z.cpl = t.cpl := hfs.same.1.trans k4
    rw [if_neg (by simp [h]), M_bind_ok (checkTaskCS_run hc), M_bind_ok (checkTaskSS_run hss p1)]
    have l2 := loadDataSeg_run (vt := 10) (ext := ext) hds p2 (by decide)
    have l3 := loadDataSeg_run (vt := 10) (ext := ext) hes p3 (by decide)
    have l4 := loadDataSeg_run (vt := 10) (ext := ext) hfs p4 (by decide)
    have l5 := loadDataSeg_run (vt := 10) (ext := ext) hgs p5 (by decide)
    rw [k2] at l2
    rw [k3] at l3
    rw [k4] at l4
    rw [k5] at l5
    rw [M_bind_ok l2, M_bind_ok l3, M_bind_ok l4]
    exact l5

end Sys2Proof.Machine
end

