-- ==== Sys2Proof/Laws/Refusals.lean ====
section
/-! SUPPORT. Descriptors that are refused: which exception each operation raises for the first check that fails. -/

namespace Sys2Proof.Machine

variable {s t u : State} {x : Exc} {sel : Word} {ext : Bool}

/-! ### Lists of checks -/

/-- A check that fails raises its exception; the rest does not run. -/
theorem when_raise_bind {β : Type} (b : Bool) (v : Byte) (c : Word) (f : Unit → M β) (s : State) :
    (when b (raise v (some c)) >>= f) s = if b then .error (faultOf v (some c)) s else f () s := by
  cases b <;> rfl

/-- The checks of `faults` are made one after the other on a descriptor: the first that fails raises its exception. -/
theorem fault_first {β : Type} {rest : List (Bool × Byte)} {b : Bool} {v v' : Byte} {f : Unit → M β}
    (h : firstFault ((b, v') :: rest) = some v)
    (hf : firstFault rest = some v → f () s = .error (faultOf v (some (selCode ext sel))) s) :
    (when b (raiseSel v' sel ext) >>= f) s = .error (faultOf v (some (selCode ext sel))) s := by
  cases b with
  | false =>
    rw [when_false, M_pure_bind]
    exact hf h
  | true =>
    simp only [firstFault, if_true, Option.some.injEq] at h
    subst h
    rfl

theorem fault_none {v : Byte} {P : Prop} (h : firstFault [] = some v) : P := by cases h

/-- A descriptor that is fetched is refused with the exception of the first check that fails. -/
theorem fetch_refused {β : Type} {vec : Byte} {faults : Desc → List (Bool × Byte)} {f : Desc → M β}
    (h : Refused s sel vec ext faults x t)
    (hf : ∀ d v u, fetchDesc sel s = .ok (some d) u → firstFault (faults d) = some v →
      f d u = .error (faultOf v (some (selCode ext sel))) u) :
    (fetchDescOr vec ext sel >>= f) s = .error x t := by
  cases h with
  | outside t h =>
    refine M_bind_error ?_
    unfold fetchDescOr
    rw [M_bind_ok h]
    rfl
  | fault d v t h hv =>
    rw [M_bind_ok (fetchDescOr_run h)]
    exact hf d v t h hv

/-- Reading a descriptor leaves the CPL. -/
theorem fetchDesc_cpl {d : Option Desc} (h : fetchDesc sel s = .ok d t) : t.cpl = s.cpl := (fetchDesc_walked h).touched.cpl

/-! ### Segment registers, LDTR and TR -/

theorem loadDataSeg_refused {vt : Byte} {cpl : BitVec 2} {sr : SReg} (hn : nullSel sel = false)
    (h : Refused s sel vt ext (fun d => d.dataFaults vt cpl sel) x t) : loadDataSeg vt ext cpl sr sel s = .error x t := by
  unfold loadDataSeg
  simp only [hn, Bool.false_eq_true, if_false]
  refine fetch_refused h fun d v u _ hv => ?_
  have hs : d.s = false → d.readable = false := fun e => by simp [Desc.readable, Desc.isData, Desc.isCode, e]
  cases e : d.s
  · simp only [Desc.dataFaults, hs e, Bool.not_false, firstFault, if_true, Option.some.injEq] at hv
    subst hv
    rfl
  · rw [Bool.not_true, when_false, M_pure_bind]
    exact fault_first hv fun hv => fault_first hv fun hv => fault_first hv fault_none

theorem checkStackSeg_refused {vec : Byte} {cpl : BitVec 2}
    (h : Refused s sel vec ext (fun d => d.stackFaults vec cpl sel) x t) : checkStackSeg vec ext cpl sel s = .error x t := by
  unfold checkStackSeg
  exact fetch_refused h fun d v u _ hv => fault_first hv fun hv => fault_first hv fun hv => fault_first hv fun hv =>
    fault_first hv fault_none

/-- A segment register that is refused. -/
theorem loadSreg_refused {sr : SReg} (hp : s.prot = true) (h : SregRefused s sr sel x t) :
    loadSreg sr sel s = .error x t := by
  simp only [State.prot, Bool.and_eq_true, Bool.not_eq_true'] at hp
  unfold loadSreg
  simp only [M_get_bind, hp, Bool.not_true, if_false, Bool.false_eq_true]
  cases h with
  | null hr hn =>
    rw [if_pos hr]
    unfold loadSS
    rw [hn]
    rfl
  | stack hr hn h =>
    rw [if_pos hr]
    unfold loadSS
    rw [hn, when_false, M_pure_bind, M_get_bind]
    exact M_bind_error (checkStackSeg_refused h)
  | data hr hn h =>
    rw [if_neg hr]
    exact loadDataSeg_refused hn h

theorem loadLDTR_refused {vec vnp : Byte} (hn : nullSel sel = false) (hi : selTi sel = false)
    (h : Refused s sel vec ext (fun d => d.ldtFaults vec vnp) x t) : loadLDTR vec vnp ext sel s = .error x t := by
  unfold loadLDTR
  rw [if_neg (by simp [hn]), hi, when_false, M_pure_bind]
  exact fetch_refused h fun d v u _ hv => fault_first hv fun hv => fault_first hv fault_none

theorem loadLDTR_ti {vec vnp : Byte} (hn : nullSel sel = false) (hi : selTi sel = true) :
    loadLDTR vec vnp ext sel s = .error (faultOf vec (some (selCode ext sel))) s := by
  unfold loadLDTR
  rw [if_neg (by simp [hn]), hi]
  rfl

theorem loadTR_refused (hn : nullSel sel = false) (hi : selTi sel = false)
    (h : Refused s sel 13 false (fun d => d.trFaults) x t) : loadTR sel s = .error x t := by
  unfold loadTR
  rw [hn, when_false, M_pure_bind, hi, when_false, M_pure_bind]
  exact fetch_refused h fun d v u _ hv => fault_first hv fun hv => fault_first hv fault_none

/-! ### Far returns, gates of the IDT -/

theorem returnCode_refused {cpl : BitVec 2} (hn : nullSel sel = false)
    (h : Refused s sel 13 false (fun c => c.codeFaults 13 cpl) x t) : returnCode sel cpl s = .error x t := by
  unfold returnCode
  rw [hn, when_false, M_pure_bind]
  exact fetch_refused h fun d v u _ hv => fault_first hv fun hv => fault_first hv fun hv => fault_first hv fun hv =>
    fault_first hv fault_none

theorem returnStack_refused {cpl : BitVec 2} (hn : nullSel sel = false)
    (h : Refused s sel 13 false (fun d => d.stackFaults 13 cpl sel) x t) : returnStack sel cpl s = .error x t := by
  unfold returnStack
  rw [hn, when_false, M_pure_bind]
  exact checkStackSeg_refused h

theorem gateCode_refused (hn : nullSel sel = false)
    (h : Refused s sel 13 ext (fun c => c.gateFaults s.cpl) x t) : gateCode ext sel s = .error x t := by
  unfold gateCode
  rw [hn, when_false, M_pure_bind]
  refine fetch_refused h fun d v u hd hv => fault_first hv fun hv => fault_first hv fun hv => ?_
  rw [M_get_bind, fetchDesc_cpl hd]
  exact fault_first hv fault_none

theorem idtCode_eq (v : Byte) (ext : Bool) : idtCode v ext = BitVec.ofNat 16 (8 * v.toNat + 2 + ext.toNat) := by
  apply BitVec.eq_of_toNat_eq
  have h := v.isLt
  cases ext <;> simp [idtCode, Nat.shiftLeft_eq] <;> omega

theorem idtGate_outside {e : Event} (h : s.idtr.limit.toNat < e.vec.toNat * 8 + 7) :
    idtGate e s = .error (faultOf 13 (some (idtCode e.vec e.kind.ext))) s := by
  unfold idtGate
  rw [M_get_bind]
  simp only [h, decide_true]
  rfl

theorem idtGate_refused {e : Event} {g : Desc} {v : Byte} (hl : e.vec.toNat * 8 + 7 ≤ s.idtr.limit.toNat)
    (hg : readDesc (s.idtr.base + (e.vec.setWidth 32 <<< 3)) s = .ok g t)
    (hv : firstFault (g.idtFaults (e.kind == .soft) s.cpl) = some v) :
    idtGate e s = .error (faultOf v (some (idtCode e.vec e.kind.ext))) t := by
  unfold idtGate
  simp only [M_get_bind]
  rw [when_pos_false (by omega), M_pure_bind, M_bind_ok hg]
  have e1 : (g.s || !([5, 6, 7, 14, 15] : List (BitVec 4)).contains g.typ) =
      (g.s || !(g.typ == 5 || g.typ == 6 || g.typ == 7 || g.typ == 14 || g.typ == 15)) := by
    simp only [List.contains_cons, List.contains_nil, Bool.or_false, Bool.or_assoc]
  have e2 : decide (e.kind = .soft ∧ g.dpl < s.cpl) = ((e.kind == .soft) && decide (g.dpl < s.cpl)) := by
    rw [Bool.decide_and]
    rfl
  simp only [when_raise_bind, e1, e2]
  simp only [Desc.idtFaults, firstFault] at hv
  split
  · next c => rw [if_pos c] at hv; cases hv; rfl
  next c =>
  rw [if_neg c] at hv
  split
  · next c => rw [if_pos c] at hv; cases hv; rfl
  next c =>
  rw [if_neg c] at hv
  split
  · next c => rw [if_pos c] at hv; cases hv; rfl
  next c =>
  rw [if_neg c] at hv
  cases hv

/-! ### Far JMP and CALL (R602 to R606, R268) -/

theorem fault_last {b : Bool} {v v' : Byte} (h : firstFault [(b, v')] = some v) :
    when b (raiseSel v' sel ext) s = .error (faultOf v (some (selCode ext sel))) s := by
  cases b with
  | false => cases h
  | true =>
    cases h
    rfl

theorem directCode_refused {d : Desc} {v : Byte} (hc : d.isCode = true)
    (h : firstFault (d.farFaults s.cpl sel) = some v) :
    directCode sel d s = .error (faultOf v (some (selCode false sel))) s := by
  have hs : d.s = true := by
    simp only [Desc.isCode, Bool.and_eq_true] at hc
    exact hc.1
  have e : firstFault [(d.conforming && decide (s.cpl < d.dpl), 13), (!d.conforming && decide (s.cpl < selRpl sel), 13),
      (!d.conforming && d.dpl != s.cpl, 13), (!d.p, 11)] = some v := by
    rw [← h]
    simp only [Desc.farFaults, hc, hs, Desc.availTss, Desc.busyTss]
    cases d.conforming <;> cases decide (s.cpl < selRpl sel) <;> simp [firstFault]
  unfold directCode
  rw [M_get_bind]
  exact fault_first e fun h => fault_first h fun h => fault_first h fun h => fault_last h

theorem isCode_false {d : Desc} (h : d.s = false) : d.isCode = false := by simp [Desc.isCode, h]

/-- What of the checks is left for a gate or a TSS. -/
theorem farFaults_system {d : Desc} {cpl : BitVec 2} {v : Byte} (hs : d.s = false)
    (hk : d.typ = 4 ∨ d.typ = 12 ∨ d.typ = 5 ∨ d.availTss = true ∨ d.busyTss = true)
    (h : firstFault (d.farFaults cpl sel) = some v) :
    firstFault [(decide (d.dpl < cpl) || decide (d.dpl < selRpl sel), 13),
      ((d.availTss || d.busyTss) && (selTi sel || d.busyTss), 13), (!d.p, 11)] = some v := by
  rw [← h]
  have hn : (!d.isCode && !(!d.s && (d.typ == 4 || d.typ == 5 || d.typ == 12)) && !(d.availTss || d.busyTss)) = false := by
    rcases hk with h | h | h | h | h <;> simp [h, hs]
  simp only [Desc.farFaults]
  rw [hn]
  simp [isCode_false hs, firstFault]

theorem gatePrivilege_bind {β : Type} {g : Desc} {f : Unit → M β} : (gatePrivilege sel g >>= f) s =
    (when (decide (g.dpl < s.cpl) || decide (g.dpl < selRpl sel)) (raiseSel 13 sel false) >>= f) s := rfl

theorem farTask_refused {k : SwitchKind} {d : Desc} {v : Byte} (hs : d.s = false)
    (hk : d.typ = 5 ∨ d.availTss = true ∨ d.busyTss = true)
    (h : firstFault (d.farFaults s.cpl sel) = some v) :
    farTask k sel d s = .error (faultOf v (some (selCode false sel))) s := by
  have h := farFaults_system hs (by rcases hk with h | h | h <;> simp [h]) h
  refine M_bind_error ?_
  unfold farTss
  by_cases hg : d.isTaskGate = true
  · rw [if_pos hg]
    refine M_bind_error ?_
    unfold checkGate
    have e : d.availTss = false ∧ d.busyTss = false := by
      simp only [Desc.isTaskGate, Bool.and_eq_true, beq_iff_eq] at hg
      simp [Desc.availTss, Desc.busyTss, hg.2]
    simp only [e.1, e.2, Bool.or_false, Bool.false_and] at h
    rw [gatePrivilege_bind]
    refine fault_first h fun h => ?_
    exact fault_last h
  · rw [if_neg hg]
    have hk : (d.availTss || d.busyTss) = true := by
      rcases hk with h | h | h
      · exact absurd (by simp [Desc.isTaskGate, h, hs]) hg
      · simp [h]
      · simp [h]
    have hb : d.busyTss = !d.availTss := by
      simp only [Desc.availTss, Desc.busyTss, hs] at *
      revert hk
      generalize d.typ = k
      revert k; decide
    rw [hk, Bool.true_and, hb] at h
    rw [gatePrivilege_bind]
    exact fault_first h fun h => fault_first h fun h => fault_first h fault_none

theorem transfer_refused {w : Width} {off : Dword} (hn : nullSel sel = false)
    (h : Refused s sel 13 false (fun d => d.farFaults s.cpl sel) x t) :
    jmpProt sel off s = .error x t ∧ callProt w sel off s = .error x t := by
  have key : ∀ d v u, fetchDesc sel s = .ok (some d) u → firstFault (d.farFaults s.cpl sel) = some v →
      (d.isCode = true → directCode sel d u = .error (faultOf v (some (selCode false sel))) u) ∧
      (d.isCode = false → d.isCallGate = true → checkGate sel d u = .error (faultOf v (some (selCode false sel))) u) ∧
      (d.isCode = false → d.isCallGate = false → (d.isTaskGate || d.availTss || d.busyTss) = true →
        ∀ k, farTask k sel d u = .error (faultOf v (some (selCode false sel))) u) ∧
      (d.isCode = false → d.isCallGate = false → (d.isTaskGate || d.availTss || d.busyTss) = false → v = 13) := by
    intro d v u hd hv
    rw [← fetchDesc_cpl hd] at hv
    refine ⟨fun hc => directCode_refused hc hv, fun hc hg => ?_, fun hc hg hk k => ?_, fun hc hg hk => ?_⟩
    · simp only [Desc.isCallGate, Bool.and_eq_true, Bool.or_eq_true, beq_iff_eq, Bool.not_eq_true'] at hg
      have h := farFaults_system hg.1 (by rcases hg.2 with h | h <;> simp [h]) hv
      have e : d.availTss = false ∧ d.busyTss = false := by
        rcases hg.2 with h | h <;> simp [Desc.availTss, Desc.busyTss, h]
      simp only [e.1, e.2, Bool.or_false, Bool.false_and] at h
      unfold checkGate
      rw [gatePrivilege_bind]
      exact fault_first h fun h => fault_last h
    · simp only [Bool.or_eq_true] at hk
      have hs : d.s = false := by
        rcases hk with (h | h) | h
        · simp only [Desc.isTaskGate, Bool.and_eq_true, Bool.not_eq_true'] at h; exact h.1
        · simp only [Desc.availTss, Bool.and_eq_true, Bool.not_eq_true'] at h; exact h.1
        · simp only [Desc.busyTss, Bool.and_eq_true, Bool.not_eq_true'] at h; exact h.1
      refine farTask_refused hs ?_ hv
      rcases hk with (h | h) | h
      · left; simp only [Desc.isTaskGate, Bool.and_eq_true, beq_iff_eq] at h; exact h.2
      · simp [h]
      · simp [h]
    · simp only [Bool.or_eq_false_iff] at hk
      have : (!d.isCode && !(!d.s && (d.typ == 4 || d.typ == 5 || d.typ == 12)) && !(d.availTss || d.busyTss)) = true := by
        rw [hc, hk.2, hk.1.2]
        simp only [Desc.isCallGate, Desc.isTaskGate] at *
        cases hs : d.s
        · simp only [hs, Bool.not_false, Bool.true_and, Bool.or_eq_false_iff] at hg hk
          rw [hg.1, hg.2, hk.1.1]
          rfl
        · rfl
      simp only [Desc.farFaults, firstFault] at hv
      rw [this] at hv
      simpa using hv.symm
  constructor
  · unfold jmpProt
    rw [hn, when_false, M_pure_bind]
    refine fetch_refused h fun d v u hd hv => ?_
    obtain ⟨k1, k2, k3, k4⟩ := key d v u hd hv
    split
    · next c => exact M_bind_error (k1 c)
    next c =>
    split
    · next g => exact M_bind_error (M_bind_error (k2 (by simpa using c) g))
    next g =>
    split
    · next q => exact k3 (by simpa using c) (by simpa using g) q _
    next q =>
    rw [k4 (by simpa using c) (by simpa using g) (by simpa using q)]
    rfl
  · unfold callProt
    rw [hn, when_false, M_pure_bind]
    refine fetch_refused h fun d v u hd hv => ?_
    obtain ⟨k1, k2, k3, k4⟩ := key d v u hd hv
    split
    · next c => exact M_bind_error (k1 c)
    next c =>
    split
    · next g => exact M_bind_error (M_bind_error (k2 (by simpa using c) g))
    next g =>
    split
    · next q => exact k3 (by simpa using c) (by simpa using g) q _
    next q =>
    rw [k4 (by simpa using c) (by simpa using g) (by simpa using q)]
    rfl
/-- The checks of the code segment behind a call gate. -/
theorem jmpGate_refused {g : Desc} (h1 : s.cpl ≤ g.dpl) (h2 : selRpl sel ≤ g.dpl) (h3 : g.p = true)
    (hn : nullSel g.gateSel = false) (h : Refused s g.gateSel 13 false (fun c => c.throughFaults false s.cpl) x t) :
    jmpGate sel g s = .error x t := by
  unfold jmpGate
  rw [M_bind_ok (checkGate_run h1 h2 h3)]
  simp only [hn, when_false, M_pure_bind]
  refine fetch_refused h fun d v u hd hv => ?_
  rw [M_get_bind, fetchDesc_cpl hd]
  have e : firstFault [(!d.isCode, 13), (!d.conforming && d.dpl != s.cpl, 13), (d.conforming && decide (s.cpl < d.dpl), 13),
      (!d.p, 11)] = some v := by
    rw [← hv]
    simp only [Desc.throughFaults, firstFault, Bool.not_false, Bool.true_and]
    by_cases hlt : s.cpl < d.dpl
    · have hne : d.dpl ≠ s.cpl := fun e => by simp [e] at hlt
      cases d.conforming <;> simp [hlt, hne]
    · cases d.conforming <;> simp [hlt]
  exact fault_first e fun h => fault_first h fun h => fault_first h fun h => fault_first h fault_none

theorem callGate_refused {g : Desc} (h1 : s.cpl ≤ g.dpl) (h2 : selRpl sel ≤ g.dpl) (h3 : g.p = true)
    (hn : nullSel g.gateSel = false) (h : Refused s g.gateSel 13 false (fun c => c.throughFaults true s.cpl) x t) :
    callGate sel g s = .error x t := by
  unfold callGate
  rw [M_bind_ok (checkGate_run h1 h2 h3)]
  simp only [hn, when_false, M_pure_bind]
  refine fetch_refused h fun d v u hd hv => ?_
  rw [M_get_bind, fetchDesc_cpl hd]
  refine fault_first hv fun hv => fault_first hv fun hv => ?_
  have e : firstFault [(!d.p, 11)] = some v := by simpa [firstFault] using hv
  exact fault_first e fault_none

/-! ### Inner stacks (R607, R824) -/

theorem innerStack_outside {n : BitVec 2}
    (h : s.tr.limit.toNat < (if s.tr.is386 then 9 + 8 * n.toNat else 5 + 4 * n.toNat)) :
    innerStack ext n s = .error (faultOf 10 (some (selCode ext s.tr.sel))) s := by
  unfold innerStack
  rw [M_get_bind]
  cases e : s.tr.is386 <;> simp only [e, if_true, if_false, Bool.false_eq_true] at h ⊢ <;> rw [decide_eq_true h] <;> rfl

theorem innerStack_run {n : BitVec 2} {sp ss : Nat}
    (hl : (if s.tr.is386 then 9 + 8 * n.toNat else 5 + 4 * n.toNat) ≤ s.tr.limit.toNat)
    (h : if s.tr.is386 then SysGet s (s.tr.base + BitVec.ofNat 32 (4 + 8 * n.toNat)) 4 sp t ∧
        SysGet t (s.tr.base + BitVec.ofNat 32 (8 + 8 * n.toNat)) 2 ss u
      else SysGet s (s.tr.base + BitVec.ofNat 32 (2 + 4 * n.toNat)) 2 sp t ∧
        SysGet t (s.tr.base + BitVec.ofNat 32 (4 + 4 * n.toNat)) 2 ss u) :
    innerStack ext n s = .ok (BitVec.ofNat 16 ss,
      if s.tr.is386 then BitVec.ofNat 32 sp else (BitVec.ofNat 16 sp).setWidth 32) u := by
  unfold innerStack
  rw [M_get_bind]
  cases e : s.tr.is386 <;> simp only [e, if_true, if_false, Bool.false_eq_true] at h hl ⊢
  · rw [when_pos_false (by omega), M_pure_bind, M_bind_ok (sysRead16_run h.1), M_bind_ok (sysRead16_run h.2)]
    rfl
  · rw [when_pos_false (by omega), M_pure_bind, M_bind_ok (sysRead32_run h.1), M_bind_ok (sysRead16_run h.2)]
    rfl

theorem checkStackSeg_run {vec : Byte} {cpl : BitVec 2} {d : Desc} (h : fetchDesc sel s = .ok (some d) t)
    (hv : firstFault (d.stackFaults vec cpl sel) = none) : checkStackSeg vec ext cpl sel s = .ok d t := by
  unfold checkStackSeg
  rw [M_bind_ok (fetchDescOr_run h)]
  have one : ∀ {b : Bool} {v : Byte} {l : List (Bool × Byte)}, firstFault ((b, v) :: l) = none →
      b = false ∧ firstFault l = none := by
    intro b v l h
    cases b
    · exact ⟨rfl, h⟩
    · cases h
  obtain ⟨e1, hv⟩ := one hv
  obtain ⟨e2, hv⟩ := one hv
  obtain ⟨e3, hv⟩ := one hv
  obtain ⟨e4, -⟩ := one hv
  rw [e1, e2, e3, e4]
  rfl

/-! ### Task switches (R268, R273) -/

theorem taskDesc_null {vec : Byte} (h : nullSel sel = true) : taskDesc vec ext sel s = .error (faultOf vec (some 0)) s := by
  unfold taskDesc
  rw [h]
  rfl

theorem taskDesc_ti {vec : Byte} (h : nullSel sel = false) (hi : selTi sel = true) :
    taskDesc vec ext sel s = .error (faultOf vec (some (selCode ext sel))) s := by
  unfold taskDesc
  rw [h, hi]
  rfl

theorem taskDesc_eq {vec : Byte} (h : nullSel sel = false) (hi : selTi sel = false) :
    taskDesc vec ext sel = fetchDescOr vec ext sel := by
  unfold taskDesc
  rw [h, hi]
  rfl

theorem gateTaskDesc_refused {vec busy : Byte} (h : nullSel sel = false) (hi : selTi sel = false)
    (hr : Refused s sel vec ext (fun d => [(d.busyTss, busy), (!d.availTss, vec), (!d.p, 11)]) x t) :
    gateTaskDesc vec busy ext sel s = .error x t := by
  unfold gateTaskDesc
  rw [taskDesc_eq h hi]
  refine fetch_refused hr fun d v u _ hv => ?_
  cases e : d.busyTss
  · simp only [Bool.false_eq_true, if_false]
    simp only [e] at hv
    exact fault_first hv fun hv => fault_first hv fault_none
  · have a : d.availTss = false := by
      simp only [Desc.busyTss, Desc.availTss, Bool.and_eq_true, Bool.or_eq_true, beq_iff_eq] at *
      rcases e.2 with h | h <;> simp [h]
    simp only [e, firstFault, if_true, Option.some.injEq] at hv
    subst hv
    simp [a]
    rfl

theorem checkTaskCS_null (hn : nullSel sel = true) :
    checkTaskCS ext sel s = .error (faultOf 10 (some (selCode ext sel))) s := by
  unfold checkTaskCS
  rw [hn]
  rfl

theorem checkTaskCS_refused (hn : nullSel sel = false)
    (h : Refused s sel 10 ext (fun c => c.codeFaults 10 (selRpl sel)) x t) : checkTaskCS ext sel s = .error x t := by
  unfold checkTaskCS
  rw [hn, when_false, M_pure_bind]
  refine fetch_refused h fun d v u _ hv => ?_
  have swap : firstFault [(!d.isCode, 10), (d.conforming && decide (selRpl sel < d.dpl), 10),
      (!d.conforming && d.dpl != selRpl sel, 10), (!d.p, 11)] = some v := by
    rw [← hv]
    simp only [Desc.codeFaults, firstFault]
    cases d.conforming <;> simp
  exact fault_first swap fun hv => fault_first hv fun hv => fault_first hv fun hv => fault_first hv fault_none

theorem checkTaskSS_null (hn : nullSel sel = true) :
    checkTaskSS ext sel s = .error (faultOf 10 (some (selCode ext sel))) s := by
  unfold checkTaskSS
  rw [hn]
  rfl

theorem checkTaskSS_refused (hn : nullSel sel = false)
    (h : Refused s sel 10 ext (fun d => d.stackFaults 10 s.cpl sel) x t) : checkTaskSS ext sel s = .error x t := by
  unfold checkTaskSS
  rw [hn, when_false, M_pure_bind, M_get_bind]
  exact M_bind_error (checkStackSeg_refused h)

theorem DataRefused.run : ∀ {s u : State} {l : List (SReg × Word)} {x : Exc}, DataRefused ext s l x u →
    ∀ {sr : SReg} {sel : Word} {rest : List (SReg × Word)}, l = (sr, sel) :: rest → sr ≠ .ss → s.prot = true →
    loadDataSeg 10 ext s.cpl sr sel s = .error x u ∨
      ∃ t, loadDataSeg 10 ext s.cpl sr sel s = .ok () t ∧ t.cpl = s.cpl ∧ t.prot = true ∧ DataRefused ext t rest x u := by
  intro s u l x h
  cases h with
  | here hn h =>
    rintro _ _ _ ⟨⟩ _ _
    exact .inl (loadDataSeg_refused hn h)
  | later h hs =>
    rintro _ _ _ ⟨⟩ hr hp
    exact .inr ⟨_, loadDataSeg_run h hp hr, h.same.1, prot_same h.same hp, hs⟩

/-- LDTR or a segment register of an incoming task is refused. -/
theorem checkTaskSegs_refused {i : TssImage} (hp : s.pe = true) (h : TaskRefused s ext i x u) :
    checkTaskSegs ext i s = .error x u := by
  unfold checkTaskSegs
  cases h with
  | ldtTi hn h => exact M_bind_error (loadLDTR_ti hn h)
  | ldt hn hi h => exact M_bind_error (loadLDTR_refused hn hi h)
  | csNull hl hv hn =>
    rw [M_bind_ok (loadLDTR_run hl), M_get_bind, if_neg (by simp [hv])]
    exact M_bind_error (checkTaskCS_null hn)
  | cs hl hv hn h =>
    rw [M_bind_ok (loadLDTR_run hl), M_get_bind, if_neg (by simp [hv])]
    exact M_bind_error (checkTaskCS_refused hn h)
  | ssNull hl hv h hn =>
    rw [M_bind_ok (loadLDTR_run hl), M_get_bind, if_neg (by simp [hv]), M_bind_ok (checkTaskCS_run h)]
    exact M_bind_error (checkTaskSS_null hn)
  | ss hl hv hc hn h =>
    rw [M_bind_ok (loadLDTR_run hl), M_get_bind, if_neg (by simp [hv]), M_bind_ok (checkTaskCS_run hc)]
    exact M_bind_error (checkTaskSS_refused hn h)
  | data hl hv hc hss h =>
    have p1 := prot_same hc.same (hl.prot hp hv)
    have p2 := prot_same hss.same p1
    rw [M_bind_ok (loadLDTR_run hl), M_get_bind, if_neg (by simp [hv]), M_bind_ok (checkTaskCS_run hc),
      M_bind_ok (checkTaskSS_run hss p1), ← hc.same.1, ← hss.same.1]
    rcases h.run rfl (by decide) p2 with e | ⟨a, e, k, p, h⟩
    · exact M_bind_error e
    rw [M_bind_ok e, ← k]
    rcases h.run rfl (by decide) p with e | ⟨a, e, k, p, h⟩
    · exact M_bind_error e
    rw [M_bind_ok e, ← k]
    rcases h.run rfl (by decide) p with e | ⟨a, e, k, p, h⟩
    · exact M_bind_error e
    rw [M_bind_ok e, ← k]
    rcases h.run rfl (by decide) p with e | ⟨a, e, k, p, h⟩
    · exact e
    · cases h

end Sys2Proof.Machine
end

