-- ==== Sys2Proof/Laws/Strings.lean ====
section
/-! SUPPORT. The elements of string instructions, the repeat loop, ports, and instructions behind lead bytes. -/

namespace Sys2Proof.Machine

variable {s t : State} {w : Width} {a : StrAttr}

/-- An element that fits passes its checks (R660). -/
theorem checkElement_run {sr : SReg} {off : Dword} {n : Nat} {wr : Bool} (h : s.segOk sr off n wr = true)
    (hf : blockFits (a.asz = .d32) off n = true) : checkElement a sr off n wr s = .ok () s := by
  unfold checkElement
  rw [M_bind_ok (checkSeg_ok h), hf]
  rfl

theorem readSrc_run {v : BitVec w.bits} (h : StrSrc s w a v t) : readSrc a w s = .ok v t := by
  cases h with
  | mk pas t hf h =>
    unfold readSrc
    rw [M_get_bind, M_bind_ok (checkElement_run h.seg hf)]
    exact memRead_run h

theorem readDst_run {v : BitVec w.bits} (h : StrDst s w a v t) : readDst a w s = .ok v t := by
  cases h with
  | mk pas t hf h =>
    unfold readDst
    rw [M_get_bind, M_bind_ok (checkElement_run h.seg hf)]
    exact memRead_run h

theorem writeDst_run {put : BitVec w.bits → State} (v : BitVec w.bits) (h : StrPut s w a put) :
    writeDst a w v s = .ok () (put v) := by
  cases h with
  | mk pas t hf h =>
    unfold writeDst
    rw [M_get_bind, M_bind_ok (checkElement_run h.seg hf)]
    exact memWrite_run v h

theorem stepSrc_run : stepSrc a w s = .ok () (s.stepIdx a.asz .esi w.bytes) := rfl

theorem stepDst_run : stepDst a w s = .ok () (s.stepIdx a.asz .edi w.bytes) := rfl

/-- Access to a port that is allowed (R309). -/
theorem checkIo_run {port : Word} (h : PortOk s port w t) : checkIo port w s = .ok () t := by
  unfold checkIo
  rw [M_get_bind]
  cases h with
  | free h =>
    rw [h]
    rfl
  | mapped t h hp =>
    rw [h]
    simp only [if_true]
    rw [M_bind_ok hp]
    rfl

theorem ioRead_run (port : Word) (w : Width) (s : State) : ioRead port w s = .ok (s.ioValue port w) (s.ioTook port w) := rfl

/-- One primitive of a string instruction, and the repeat decision after it (R690). -/
theorem strStep_run {compares : Bool} {m : M Unit} (h : m s.begun = .ok () t)
    (hr : a.rep = .none ∨ s.idx a.asz .ecx ≠ 0) :
    instr (strStep a compares m) s = .next (strDone a compares s t) := by
  unfold strDone
  by_cases hn : a.rep = .none
  · rw [if_pos hn]
    refine instr_ok ?_
    unfold strStep
    rw [if_pos hn, M_bind_ok h]
    rfl
  · have hc : s.idx a.asz .ecx ≠ 0 := hr.resolve_left hn
    rw [if_neg hn]
    dsimp only
    have key : strStep a compares m s.begun =
        (if (t.setIdx a.asz .ecx (t.idx a.asz .ecx - 1)).idx a.asz .ecx = 0 ||
            (compares && (t.setIdx a.asz .ecx (t.idx a.asz .ecx - 1)).repEnds a.rep) then pure .next
         else pure .again : M Done) (t.setIdx a.asz .ecx (t.idx a.asz .ecx - 1)) := by
      unfold strStep
      rw [if_neg hn, M_get_bind, State.begun_idx, if_neg hc, M_bind_ok h, M_modify_bind, M_get_bind]
    split <;> rename_i hx
    · exact instr_ok (key.trans (by rw [if_pos hx]; rfl))
    · exact instr_ok (key.trans (by rw [if_neg hx]; rfl))

/-- A repeat prefix with a count of 0 (R690). -/
theorem strStep_zero {compares : Bool} {m : M Unit} (hr : a.rep ≠ .none) (hz : s.idx a.asz .ecx = 0) :
    instr (strStep a compares m) s = .next (finish s .next s.begun) := by
  refine instr_ok ?_
  unfold strStep
  rw [if_neg hr, M_get_bind, if_pos (by rw [State.begun_idx, hz])]
  rfl

/-- The meaning behind lead bytes is that of the instruction alone (R320). -/
theorem runUnder_eq (i : Instr) (s : State) : runUnder i s = exec i s := by cases i <;> rfl

end Sys2Proof.Machine
end

