-- ==== Sys2Proof/Tests/Slice0.lean ====
section
/-! SUPPORT. Tests: ill-formed terms are refused; words written out from the encoding tables of spec/30_encoding.md decode to
their instructions; single steps on the values of spec/95_test_vectors.md and of the examples in the instruction rules; and
for every statement a state and operands that meet its hypotheses. -/

open Sys2Proof Sys2Proof.Machine

namespace Sys2Proof.Tests

-- One theorem after the other: each in a thread of its own takes more memory than there is.
set_option Elab.async false

/-! ### WellFormed: one ill-formed term for each check -/

/-- The bytes at [BX+SI], as a 16-bit operand. -/
def bxsi : MemRef := { seg := none, addr := .based16 .bxsi .none }
/-- The bytes at [EAX], as a 32-bit operand. -/
def atEax : MemRef := { seg := none, addr := .based32 .eax .none }
/-- A register operand. -/
def rg (q : Reg) : Rm := .reg q
/-- Attributes of a string instruction without lead bytes, by address size. -/
def str (w : Width) : StrAttr := { asz := w, seg := none, rep := .none }

/-- R323: a 32-bit operand needs the size byte in a 16-bit segment. -/
theorem test_wf_operand_size : wf false (.add (.rmReg .d32 (rg .eax) .ebx)) = false ∧
    wf false (.opsize (.add (.rmReg .d32 (rg .eax) .ebx))) = true := by decide
/-- R323: a form with no byte width. -/
theorem test_wf_byte_form : wf false (.bsf .b8 .eax (rg .ecx)) = false := by decide
/-- R323: 32-bit addressing needs the address-size byte in a 16-bit segment. -/
theorem test_wf_address_size : wf false (.not .b8 (.mem atEax)) = false ∧
    wf false (.addrsize (.not .b8 (.mem atEax))) = true := by decide
/-- R321: an override needs its lead byte. -/
theorem test_wf_override : wf false (.not .b8 (.mem { bxsi with seg := some .es })) = false ∧
    wf false (.segES (.not .b8 (.mem { bxsi with seg := some .es }))) = true := by decide
/-- R326: an immediate fits its width. -/
theorem test_wf_immediate : wf false (.add (.accImm .b8 0x100)) = false := by decide
/-- R333: [BP] has no form without a displacement; a 32-bit displacement does not go with 16-bit addressing. -/
theorem test_wf_addr16 : wf false (.not .b8 (.mem ⟨none, .based16 .bp .none⟩)) = false ∧
    wf false (.not .b8 (.mem ⟨none, .based16 .bx (.d32 0)⟩)) = false := by decide
/-- R334: [ESP] needs a SIB byte, [EBP] a displacement; a 16-bit displacement does not go with 32-bit addressing. -/
theorem test_wf_addr32 : wf true (.not .b8 (.mem ⟨none, .based32 .esp .none⟩)) = false ∧
    wf true (.not .b8 (.mem ⟨none, .based32 .ebp .none⟩)) = false ∧
    wf true (.not .b8 (.mem ⟨none, .based32 .eax (.d16 0)⟩)) = false := by decide
/-- R337: ESP is no index; without a base the displacement has 32 bits. -/
theorem test_wf_sib : wf true (.not .b8 (.mem ⟨none, .sib (some .eax) (some .esp) 0 .none⟩)) = false ∧
    wf true (.not .b8 (.mem ⟨none, .sib none none 0 .none⟩)) = false ∧
    wf true (.not .b8 (.mem ⟨none, .sib (some .ebp) none 0 .none⟩)) = false := by decide
/-- R340: A0 to A3 have a direct address. -/
theorem test_wf_moffs : wf false (.mov (.accMoffs .b8 bxsi)) = false := by decide
/-- R690: a repeat kind needs its lead byte. -/
theorem test_wf_repeat : wf false (.movsb ⟨.w16, none, .rep⟩) = false ∧
    wf false (.rep (.movsb ⟨.w16, none, .rep⟩)) = true := by decide
/-- R405, R411: CS is no destination of MOV and POP. -/
theorem test_wf_cs : wf false (.movToSreg .cs (rg .eax)) = false ∧ wf false (.pop (.sreg .w16 .cs)) = false := by decide
/-- R344: 90 is NOP; CALL has no short form. -/
theorem test_wf_no_form : wf false (.xchg (.acc .w16 .eax)) = false ∧ wf false (.call (.rel8 .w16 0)) = false := by decide
/-- R323: the 16-bit and the 32-bit mnemonics of one opcode; a source of MOVSX is a byte or a word. -/
theorem test_wf_mnemonic : wf true .cbw = false ∧ wf false .cwde = false ∧ wf true (.movsw (str .d32)) = false ∧
    wf false (.movsd (str .w16)) = false ∧ wf true (.movsx .d32 .eax .d32 (rg .ebx)) = false := by decide
/-- R323: the address size of a loop, a string instruction and an ESC is the one in force. -/
theorem test_wf_attribute : wf false (.loop .w16 .d32 0) = false ∧ wf false (.stosb (str .d32)) = false ∧
    wf false (.esc .w16 .d32 0 0 (rg .eax)) = false ∧ wf false (.esc .d32 .w16 0 0 (rg .eax)) = false := by decide
/-- The other checks of a size or an operand. -/
theorem test_wf_sizes : wf false (.inc (.reg .d32 .eax)) = false ∧ wf false (.imul (.reg .b8 .eax (rg .ecx))) = false ∧
    wf false (.test (.accImm .w16 0x10000)) = false ∧ wf false (.shl (.one .d32 (rg .eax))) = false ∧
    wf false (.shld (.cl .b8 (rg .eax) .ecx)) = false ∧ wf false (.bt (.imm .b8 (rg .eax) 0)) = false ∧
    wf false (.seto (.mem atEax)) = false ∧ wf false (.push (.imm .w16 0x10000)) = false ∧
    wf false (.jo (.rel .w16 0x10000)) = false ∧ wf false (.jmp (.rel8 .d32 0)) = false ∧
    wf false (.jmpFar (.ptr .w16 0 0x10000)) = false ∧ wf false (.ret .d32 none) = false ∧
    wf false (.inp (.dx .d32)) = false ∧ wf false (.lgdt .d32 bxsi) = false ∧ wf false (.lar .b8 .eax (rg .ecx)) = false ∧
    wf false (.lldt (.mem atEax)) = false ∧ wf false (.lea .w16 .eax atEax) = false ∧
    wf false (.bound .d32 .eax bxsi) = false ∧ wf false (.xlat (str .d32)) = false := by decide

/-! ### Decoding: words written out from R321, R330 to R345, one at least for every constructor -/

/-- The bytes decode to the instruction, all of them. -/
def reads (d : Bool) (bs : List Byte) (i : Instr) : Bool :=
  match decode d bs with
  | .ok (j, n) => decide (j = i) && n == bs.length
  | .error _ => false

/-- The bytes are refused for the reason given. -/
def refused (d : Bool) (bs : List Byte) (e : DecErr) : Bool :=
  match decode d bs with
  | .ok _ => false
  | .error x => decide (x = e)

/-- [BX] -/
def bx : MemRef := { seg := none, addr := .based16 .bx .none }

/-- 00 to 3D by k = 0 to 7, 80, 81, 83; INC, DEC (R451, R457, R458). -/
theorem test_decode_arith : (
    reads false [0x00, 0xD8] (.add (.rmReg .b8 (rg .eax) .ebx)) &&
    reads false [0x80, 0xC4, 0x01] (.add (.rmImm .b8 (rg .esp) 1)) &&
    reads false [0x09, 0xC8] (.or (.rmReg .w16 (rg .eax) .ecx)) &&
    reads false [0x12, 0xC3] (.adc (.regRm .b8 .eax (rg .ebx))) &&
    reads false [0x1B, 0x07] (.sbb (.regRm .w16 .eax (.mem bx))) &&
    reads false [0x24, 0xF0] (.and (.accImm .b8 0xF0)) &&
    reads false [0x2D, 0x34, 0x12] (.sub (.accImm .w16 0x1234)) &&
    reads false [0x81, 0xF1, 0xFF, 0x00] (.xor (.rmImm .w16 (rg .ecx) 0xFF)) &&
    reads false [0x83, 0xF8, 0xFE] (.cmp (.rmImm8 .w16 (rg .eax) 0xFE)) &&
    reads false [0x43] (.inc (.reg .w16 .ebx)) &&
    reads false [0xFE, 0xC0] (.inc (.rm .b8 (rg .eax))) &&
    reads false [0x4F] (.dec (.reg .w16 .edi)) &&
    reads false [0xFF, 0x4E, 0x02] (.dec (.rm .w16 (.mem ⟨none, .based16 .bp (.d8 2)⟩)))) = true := by decide
/-- F6 and F7, IMUL, TEST, decimal adjustment (R346, R459 to R471, R504, R505). -/
theorem test_decode_group3 : (
    reads false [0xF6, 0xD1] (.not .b8 (rg .ecx)) &&
    reads false [0xF7, 0xDA] (.neg .w16 (rg .edx)) &&
    reads false [0xF7, 0xE3] (.mul .w16 (rg .ebx)) &&
    reads false [0xF6, 0xEB] (.imul (.acc .b8 (rg .ebx))) &&
    reads false [0x0F, 0xAF, 0xC1] (.imul (.reg .w16 .eax (rg .ecx))) &&
    reads false [0x69, 0xC1, 0x34, 0x12] (.imul (.imm .w16 .eax (rg .ecx) 0x1234)) &&
    reads false [0x6B, 0xC1, 0xFE] (.imul (.imm8 .w16 .eax (rg .ecx) 0xFE)) &&
    reads false [0xF6, 0xF1] (.div .b8 (rg .ecx)) &&
    reads false [0xF7, 0xFE] (.idiv .w16 (rg .esi)) &&
    reads false [0x85, 0xC8] (.test (.rmReg .w16 (rg .eax) .ecx)) &&
    reads false [0xA8, 0x80] (.test (.accImm .b8 0x80)) &&
    reads false [0xF7, 0xC3, 0x01, 0x00] (.test (.rmImm .w16 (rg .ebx) 1)) &&
    reads false [0x27] (.daa) &&
    reads false [0x2F] (.das) &&
    reads false [0x37] (.aaa) &&
    reads false [0x3F] (.aas) &&
    reads false [0xD4, 0x0A] (.aam 10) &&
    reads false [0xD5, 0x0A] (.aad 10)) = true := by decide
/-- C0, C1, D0 to D3, 0F A4 to 0F BD (R510 to R519, R541 to R546). -/
theorem test_decode_shift : (
    reads false [0xC0, 0xC0, 0x08] (.rol (.imm .b8 (rg .eax) 8)) &&
    reads false [0xD1, 0xC9] (.ror (.one .w16 (rg .ecx))) &&
    reads false [0xD3, 0xD2] (.rcl (.cl .w16 (rg .edx))) &&
    reads false [0xD0, 0xDB] (.rcr (.one .b8 (rg .ebx))) &&
    reads false [0xC1, 0xE0, 0x04] (.shl (.imm .w16 (rg .eax) 4)) &&
    reads false [0xD2, 0xE9] (.shr (.cl .b8 (rg .ecx))) &&
    reads false [0xD1, 0xF8] (.sar (.one .w16 (rg .eax))) &&
    reads false [0x0F, 0xA4, 0xD8, 0x04] (.shld (.imm .w16 (rg .eax) .ebx 4)) &&
    reads false [0x0F, 0xA5, 0xD8] (.shld (.cl .w16 (rg .eax) .ebx)) &&
    reads false [0x0F, 0xAC, 0xD0, 0x04] (.shrd (.imm .w16 (rg .eax) .edx 4)) &&
    reads false [0x0F, 0xAD, 0xD0] (.shrd (.cl .w16 (rg .eax) .edx)) &&
    reads false [0x0F, 0xA3, 0xC8] (.bt (.reg .w16 (rg .eax) .ecx)) &&
    reads false [0x0F, 0xBA, 0xE0, 0x05] (.bt (.imm .w16 (rg .eax) 5)) &&
    reads false [0x0F, 0xAB, 0xC8] (.bts (.reg .w16 (rg .eax) .ecx)) &&
    reads false [0x0F, 0xBA, 0xE8, 0x05] (.bts (.imm .w16 (rg .eax) 5)) &&
    reads false [0x0F, 0xB3, 0xC8] (.btr (.reg .w16 (rg .eax) .ecx)) &&
    reads false [0x0F, 0xBA, 0xF0, 0x05] (.btr (.imm .w16 (rg .eax) 5)) &&
    reads false [0x0F, 0xBB, 0xC8] (.btc (.reg .w16 (rg .eax) .ecx)) &&
    reads false [0x0F, 0xBA, 0xF8, 0x05] (.btc (.imm .w16 (rg .eax) 5)) &&
    reads false [0x0F, 0xBC, 0xC1] (.bsf .w16 .eax (rg .ecx)) &&
    reads false [0x0F, 0xBD, 0xC1] (.bsr .w16 .eax (rg .ecx))) = true := by decide
/-- 0F 90 to 0F 9F (R550). -/
theorem test_decode_setcc : (
    reads false [0x0F, 0x90, 0xC3] (.seto (rg .ebx)) &&
    reads false [0x0F, 0x91, 0xC3] (.setno (rg .ebx)) &&
    reads false [0x0F, 0x92, 0xC3] (.setb (rg .ebx)) &&
    reads false [0x0F, 0x93, 0xC3] (.setae (rg .ebx)) &&
    reads false [0x0F, 0x94, 0xC3] (.sete (rg .ebx)) &&
    reads false [0x0F, 0x95, 0xC3] (.setne (rg .ebx)) &&
    reads false [0x0F, 0x96, 0xC3] (.setbe (rg .ebx)) &&
    reads false [0x0F, 0x97, 0xC3] (.seta (rg .ebx)) &&
    reads false [0x0F, 0x98, 0xC3] (.sets (rg .ebx)) &&
    reads false [0x0F, 0x99, 0xC3] (.setns (rg .ebx)) &&
    reads false [0x0F, 0x9A, 0xC3] (.setp (rg .ebx)) &&
    reads false [0x0F, 0x9B, 0xC3] (.setnp (rg .ebx)) &&
    reads false [0x0F, 0x9C, 0xC3] (.setl (rg .ebx)) &&
    reads false [0x0F, 0x9D, 0xC3] (.setge (rg .ebx)) &&
    reads false [0x0F, 0x9E, 0xC3] (.setle (rg .ebx)) &&
    reads false [0x0F, 0x9F, 0xC3] (.setg (rg .ebx))) = true := by decide
/-- 70 to 7F and 0F 80 to 0F 8F (R571, R572). -/
theorem test_decode_jcc : (
    reads false [0x0F, 0x80, 0x34, 0x12] (.jo (.rel .w16 0x1234)) &&
    reads false [0x71, 0xFE] (.jno (.rel8 .w16 0xFE)) &&
    reads false [0x0F, 0x82, 0x34, 0x12] (.jb (.rel .w16 0x1234)) &&
    reads false [0x73, 0xFE] (.jae (.rel8 .w16 0xFE)) &&
    reads false [0x0F, 0x84, 0x34, 0x12] (.je (.rel .w16 0x1234)) &&
    reads false [0x75, 0xFE] (.jne (.rel8 .w16 0xFE)) &&
    reads false [0x0F, 0x86, 0x34, 0x12] (.jbe (.rel .w16 0x1234)) &&
    reads false [0x77, 0xFE] (.ja (.rel8 .w16 0xFE)) &&
    reads false [0x0F, 0x88, 0x34, 0x12] (.js (.rel .w16 0x1234)) &&
    reads false [0x79, 0xFE] (.jns (.rel8 .w16 0xFE)) &&
    reads false [0x0F, 0x8A, 0x34, 0x12] (.jp (.rel .w16 0x1234)) &&
    reads false [0x7B, 0xFE] (.jnp (.rel8 .w16 0xFE)) &&
    reads false [0x0F, 0x8C, 0x34, 0x12] (.jl (.rel .w16 0x1234)) &&
    reads false [0x7D, 0xFE] (.jge (.rel8 .w16 0xFE)) &&
    reads false [0x0F, 0x8E, 0x34, 0x12] (.jle (.rel .w16 0x1234)) &&
    reads false [0x7F, 0xFE] (.jg (.rel8 .w16 0xFE))) = true := by decide
/-- The other form of each (R571, R572). -/
theorem test_decode_jcc_other : (
    reads false [0x70, 0xFE] (.jo (.rel8 .w16 0xFE)) &&
    reads false [0x0F, 0x81, 0x34, 0x12] (.jno (.rel .w16 0x1234)) &&
    reads false [0x72, 0xFE] (.jb (.rel8 .w16 0xFE)) &&
    reads false [0x0F, 0x83, 0x34, 0x12] (.jae (.rel .w16 0x1234)) &&
    reads false [0x74, 0xFE] (.je (.rel8 .w16 0xFE)) &&
    reads false [0x0F, 0x85, 0x34, 0x12] (.jne (.rel .w16 0x1234)) &&
    reads false [0x76, 0xFE] (.jbe (.rel8 .w16 0xFE)) &&
    reads false [0x0F, 0x87, 0x34, 0x12] (.ja (.rel .w16 0x1234)) &&
    reads false [0x78, 0xFE] (.js (.rel8 .w16 0xFE)) &&
    reads false [0x0F, 0x89, 0x34, 0x12] (.jns (.rel .w16 0x1234)) &&
    reads false [0x7A, 0xFE] (.jp (.rel8 .w16 0xFE)) &&
    reads false [0x0F, 0x8B, 0x34, 0x12] (.jnp (.rel .w16 0x1234)) &&
    reads false [0x7C, 0xFE] (.jl (.rel8 .w16 0xFE)) &&
    reads false [0x0F, 0x8D, 0x34, 0x12] (.jge (.rel .w16 0x1234)) &&
    reads false [0x7E, 0xFE] (.jle (.rel8 .w16 0xFE)) &&
    reads false [0x0F, 0x8F, 0x34, 0x12] (.jg (.rel .w16 0x1234))) = true := by decide
/-- 88 to 8E, A0 to A3, B0 to BF, C6, C7, XCHG, the special registers (R401 to R406, R770 to R774). -/
theorem test_decode_mov : (
    reads false [0x88, 0xD8] (.mov (.rmReg .b8 (rg .eax) .ebx)) &&
    reads false [0x8B, 0x0F] (.mov (.regRm .w16 .ecx (.mem bx))) &&
    reads false [0xA1, 0x34, 0x12] (.mov (.accMoffs .w16 ⟨none, .direct16 0x1234⟩)) &&
    reads false [0xA2, 0x34, 0x12] (.mov (.moffsAcc .b8 ⟨none, .direct16 0x1234⟩)) &&
    reads false [0xB4, 0x7F] (.mov (.regImm .b8 .esp 0x7F)) &&
    reads false [0xBB, 0x34, 0x12] (.mov (.regImm .w16 .ebx 0x1234)) &&
    reads false [0xC7, 0x06, 0x34, 0x12, 0x78, 0x56] (.mov (.rmImm .w16 (.mem ⟨none, .direct16 0x1234⟩) 0x5678)) &&
    reads false [0x8C, 0xD8] (.movFromSreg (rg .eax) .ds) &&
    reads false [0x8E, 0xD0] (.movToSreg .ss (rg .eax)) &&
    reads false [0x0F, 0x20, 0xC3] (.movFromCr 0 .ebx) &&
    reads false [0x0F, 0x22, 0xD8] (.movToCr 3 .eax) &&
    reads false [0x0F, 0x21, 0xF1] (.movFromDr 6 .ecx) &&
    reads false [0x0F, 0x23, 0xF8] (.movToDr 7 .eax) &&
    reads false [0x0F, 0x24, 0xF0] (.movFromTr 6 .eax) &&
    reads false [0x0F, 0x26, 0xF9] (.movToTr 7 .ecx) &&
    reads false [0x87, 0xCB] (.xchg (.rmReg .w16 (rg .ebx) .ecx)) &&
    reads false [0x93] (.xchg (.acc .w16 .ebx))) = true := by decide
/-- PUSH, POP and their groups (R408 to R415). -/
theorem test_decode_stack : (
    reads false [0x06] (.push (.sreg .w16 .es)) &&
    reads false [0x0E] (.push (.sreg .w16 .cs)) &&
    reads false [0x16] (.push (.sreg .w16 .ss)) &&
    reads false [0x1E] (.push (.sreg .w16 .ds)) &&
    reads false [0x0F, 0xA0] (.push (.sreg .w16 .fs)) &&
    reads false [0x0F, 0xA8] (.push (.sreg .w16 .gs)) &&
    reads false [0x53] (.push (.reg .w16 .ebx)) &&
    reads false [0x68, 0x34, 0x12] (.push (.imm .w16 0x1234)) &&
    reads false [0x6A, 0xFF] (.push (.imm8 .w16 0xFF)) &&
    reads false [0xFF, 0xF1] (.push (.rm .w16 (rg .ecx))) &&
    reads false [0x07] (.pop (.sreg .w16 .es)) &&
    reads false [0x17] (.pop (.sreg .w16 .ss)) &&
    reads false [0x1F] (.pop (.sreg .w16 .ds)) &&
    reads false [0x0F, 0xA1] (.pop (.sreg .w16 .fs)) &&
    reads false [0x0F, 0xA9] (.pop (.sreg .w16 .gs)) &&
    reads false [0x5D] (.pop (.reg .w16 .ebp)) &&
    reads false [0x8F, 0xC2] (.pop (.rm .w16 (rg .edx))) &&
    reads false [0x60] (.pusha) &&
    reads true [0x60] (.pushad) &&
    reads false [0x61] (.popa) &&
    reads true [0x61] (.popad) &&
    reads false [0x9C] (.pushf) &&
    reads true [0x9C] (.pushfd) &&
    reads false [0x9D] (.popf) &&
    reads true [0x9D] (.popfd)) = true := by decide
/-- 98, 99, MOVSX, MOVZX, LEA, the pointer loads, XLAT (R416 to R422). -/
theorem test_decode_convert : (
    reads false [0x98] (.cbw) &&
    reads true [0x98] (.cwde) &&
    reads false [0x99] (.cwd) &&
    reads true [0x99] (.cdq) &&
    reads false [0x0F, 0xBE, 0xC3] (.movsx .w16 .eax .b8 (rg .ebx)) &&
    reads true [0x0F, 0xBF, 0xC3] (.movsx .d32 .eax .w16 (rg .ebx)) &&
    reads false [0x0F, 0xB6, 0xC3] (.movzx .w16 .eax .b8 (rg .ebx)) &&
    reads true [0x0F, 0xB7, 0xC3] (.movzx .d32 .eax .w16 (rg .ebx)) &&
    reads false [0x8D, 0x47, 0x04] (.lea .w16 .eax ⟨none, .based16 .bx (.d8 4)⟩) &&
    reads false [0xC4, 0x07] (.les .w16 .eax bx) &&
    reads false [0xC5, 0x07] (.lds .w16 .eax bx) &&
    reads false [0x0F, 0xB2, 0x07] (.lss .w16 .eax bx) &&
    reads false [0x0F, 0xB4, 0x07] (.lfs .w16 .eax bx) &&
    reads false [0x0F, 0xB5, 0x07] (.lgs .w16 .eax bx) &&
    reads false [0xD7] (.xlat (str .w16))) = true := by decide
/-- Transfers of control (R562 to R566, R573 to R582, R602 to R640). -/
theorem test_decode_control : (
    reads false [0xE3, 0x10] (.jcxz .w16 .w16 0x10) &&
    reads false [0xE2, 0xFE] (.loop .w16 .w16 0xFE) &&
    reads false [0xE1, 0xFE] (.loope .w16 .w16 0xFE) &&
    reads false [0xE0, 0xFE] (.loopne .w16 .w16 0xFE) &&
    reads false [0xEB, 0x7F] (.jmp (.rel8 .w16 0x7F)) &&
    reads false [0xE9, 0x34, 0x12] (.jmp (.rel .w16 0x1234)) &&
    reads false [0xFF, 0xE3] (.jmp (.rm .w16 (rg .ebx))) &&
    reads false [0xEA, 0x34, 0x12, 0x78, 0x56] (.jmpFar (.ptr .w16 0x5678 0x1234)) &&
    reads false [0xFF, 0x2F] (.jmpFar (.mem .w16 bx)) &&
    reads false [0xE8, 0x34, 0x12] (.call (.rel .w16 0x1234)) &&
    reads false [0xFF, 0xD3] (.call (.rm .w16 (rg .ebx))) &&
    reads true [0x9A, 0x78, 0x56, 0x34, 0x12, 0x08, 0x00] (.callFar (.ptr .d32 8 0x12345678)) &&
    reads false [0xFF, 0x1F] (.callFar (.mem .w16 bx)) &&
    reads false [0xC3] (.ret .w16 none) &&
    reads false [0xC2, 0x08, 0x00] (.ret .w16 (some 8)) &&
    reads false [0xCB] (.retFar .w16 none) &&
    reads false [0xCA, 0x04, 0x00] (.retFar .w16 (some 4)) &&
    reads false [0xC8, 0x08, 0x00, 0x01] (.enter .w16 8 1) &&
    reads false [0xC9] (.leave .w16) &&
    reads false [0x62, 0x07] (.bound .w16 .eax bx) &&
    reads false [0xCD, 0x21] (.intN 0x21) &&
    reads false [0xCC] (.int3) &&
    reads false [0xCE] (.into) &&
    reads false [0xCF] (.iret) &&
    reads true [0xCF] (.iretd)) = true := by decide
/-- String and port instructions (R662 to R673). -/
theorem test_decode_string : (
    reads false [0xA4] (.movsb (str .w16)) &&
    reads false [0xA5] (.movsw (str .w16)) &&
    reads true [0xA5] (.movsd (str .d32)) &&
    reads false [0xA6] (.cmpsb (str .w16)) &&
    reads false [0xA7] (.cmpsw (str .w16)) &&
    reads true [0xA7] (.cmpsd (str .d32)) &&
    reads false [0xAA] (.stosb (str .w16)) &&
    reads false [0xAB] (.stosw (str .w16)) &&
    reads true [0xAB] (.stosd (str .d32)) &&
    reads false [0xAC] (.lodsb (str .w16)) &&
    reads false [0xAD] (.lodsw (str .w16)) &&
    reads true [0xAD] (.lodsd (str .d32)) &&
    reads false [0xAE] (.scasb (str .w16)) &&
    reads false [0xAF] (.scasw (str .w16)) &&
    reads true [0xAF] (.scasd (str .d32)) &&
    reads false [0x6C] (.insb (str .w16)) &&
    reads false [0x6D] (.insw (str .w16)) &&
    reads true [0x6D] (.insd (str .d32)) &&
    reads false [0x6E] (.outsb (str .w16)) &&
    reads false [0x6F] (.outsw (str .w16)) &&
    reads true [0x6F] (.outsd (str .d32)) &&
    reads false [0xE4, 0x60] (.inp (.imm .b8 0x60)) &&
    reads false [0xE5, 0x60] (.inp (.imm .w16 0x60)) &&
    reads false [0xEC] (.inp (.dx .b8)) &&
    reads false [0xED] (.inp (.dx .w16)) &&
    reads false [0xE6, 0x10] (.out (.imm .b8 0x10)) &&
    reads false [0xE7, 0x10] (.out (.imm .w16 0x10)) &&
    reads false [0xEE] (.out (.dx .b8)) &&
    reads false [0xEF] (.out (.dx .w16))) = true := by decide
/-- Flag control and miscellaneous (R700 to R727). -/
theorem test_decode_misc : (
    reads false [0xF9] (.stc) &&
    reads false [0xF8] (.clc) &&
    reads false [0xF5] (.cmc) &&
    reads false [0xFD] (.std) &&
    reads false [0xFC] (.cld) &&
    reads false [0xFA] (.cli) &&
    reads false [0xFB] (.sti) &&
    reads false [0x9F] (.lahf) &&
    reads false [0x9E] (.sahf) &&
    reads false [0x90] (.nop) &&
    reads false [0xF4] (.hlt) &&
    reads false [0x9B] (.wait) &&
    reads false [0xD9, 0xE8] (.esc .w16 .w16 1 5 (rg .eax)) &&
    reads false [0xDB, 0x07] (.esc .w16 .w16 3 0 (.mem bx)) &&
    reads false [0x82] (.undef .op82) &&
    reads false [0xD6] (.undef .opD6) &&
    reads false [0xF1] (.undef .opF1)) = true := by decide
/-- 0F 00 to 0F 03, 0F 06, 63 (R741 to R765). -/
theorem test_decode_system : (
    reads false [0x0F, 0x01, 0x17] (.lgdt .w16 bx) &&
    reads false [0x0F, 0x01, 0x1F] (.lidt .w16 bx) &&
    reads false [0x0F, 0x01, 0x07] (.sgdt .w16 bx) &&
    reads false [0x0F, 0x01, 0x0F] (.sidt .w16 bx) &&
    reads false [0x0F, 0x00, 0xD0] (.lldt (rg .eax)) &&
    reads false [0x0F, 0x00, 0xC0] (.sldt (rg .eax)) &&
    reads false [0x0F, 0x00, 0xD8] (.ltr (rg .eax)) &&
    reads false [0x0F, 0x00, 0xC8] (.str (rg .eax)) &&
    reads false [0x0F, 0x01, 0xF0] (.lmsw (rg .eax)) &&
    reads false [0x0F, 0x01, 0xE0] (.smsw (rg .eax)) &&
    reads false [0x0F, 0x06] (.clts) &&
    reads false [0x0F, 0x02, 0xC3] (.lar .w16 .eax (rg .ebx)) &&
    reads false [0x0F, 0x03, 0xC3] (.lsl .w16 .eax (rg .ebx)) &&
    reads false [0x0F, 0x00, 0xE0] (.verr (rg .eax)) &&
    reads false [0x0F, 0x00, 0xE8] (.verw (rg .eax)) &&
    reads false [0x63, 0xCB] (.arpl (rg .ebx) .ecx)) = true := by decide
/-- The lead bytes (R321 to R323): the last override and the last of F2 and F3 win. -/
theorem test_decode_lead : (
    reads false [0xF3, 0xA4] (.rep (.movsb ⟨.w16, none, .rep⟩)) &&
    reads false [0xF2, 0xAE] (.repne (.scasb ⟨.w16, none, .repne⟩)) &&
    reads false [0xF2, 0xF3, 0xA6] (.repne (.rep (.cmpsb ⟨.w16, none, .rep⟩))) &&
    reads false [0xF0, 0x01, 0x0F] (.lock (.add (.rmReg .w16 (.mem bx) .ecx))) &&
    reads false [0x26, 0x8A, 0x07] (.segES (.mov (.regRm .b8 .eax (.mem ⟨some .es, .based16 .bx .none⟩)))) &&
    reads false [0x2E, 0x8A, 0x07] (.segCS (.mov (.regRm .b8 .eax (.mem ⟨some .cs, .based16 .bx .none⟩)))) &&
    reads false [0x36, 0x8A, 0x07] (.segSS (.mov (.regRm .b8 .eax (.mem ⟨some .ss, .based16 .bx .none⟩)))) &&
    reads false [0x3E, 0x8A, 0x07] (.segDS (.mov (.regRm .b8 .eax (.mem ⟨some .ds, .based16 .bx .none⟩)))) &&
    reads false [0x64, 0x8A, 0x07] (.segFS (.mov (.regRm .b8 .eax (.mem ⟨some .fs, .based16 .bx .none⟩)))) &&
    reads false [0x65, 0x8A, 0x07] (.segGS (.mov (.regRm .b8 .eax (.mem ⟨some .gs, .based16 .bx .none⟩)))) &&
    reads false [0x26, 0x64, 0x8A, 0x07] (.segES (.segFS (.mov (.regRm .b8 .eax (.mem ⟨some .fs, .based16 .bx .none⟩))))) &&
    reads false [0x66, 0x01, 0xD8] (.opsize (.add (.rmReg .d32 (rg .eax) .ebx))) &&
    reads true [0x66, 0x01, 0xD8] (.opsize (.add (.rmReg .w16 (rg .eax) .ebx))) &&
    reads false [0x67, 0x8A, 0x00] (.addrsize (.mov (.regRm .b8 .eax (.mem atEax))))) = true := by decide
/-- The rows of Table 17-2 (R333). -/
theorem test_decode_addr16 : (
    reads false [0xF6, 0x50, 0xFE] (.not .b8 (.mem ⟨none, .based16 .bxsi (.d8 0xFE)⟩)) &&
    reads false [0xF6, 0x51, 0xFE] (.not .b8 (.mem ⟨none, .based16 .bxdi (.d8 0xFE)⟩)) &&
    reads false [0xF6, 0x52, 0xFE] (.not .b8 (.mem ⟨none, .based16 .bpsi (.d8 0xFE)⟩)) &&
    reads false [0xF6, 0x53, 0xFE] (.not .b8 (.mem ⟨none, .based16 .bpdi (.d8 0xFE)⟩)) &&
    reads false [0xF6, 0x54, 0xFE] (.not .b8 (.mem ⟨none, .based16 .si (.d8 0xFE)⟩)) &&
    reads false [0xF6, 0x55, 0xFE] (.not .b8 (.mem ⟨none, .based16 .di (.d8 0xFE)⟩)) &&
    reads false [0xF6, 0x56, 0xFE] (.not .b8 (.mem ⟨none, .based16 .bp (.d8 0xFE)⟩)) &&
    reads false [0xF6, 0x57, 0xFE] (.not .b8 (.mem ⟨none, .based16 .bx (.d8 0xFE)⟩)) &&
    reads false [0xF6, 0x16, 0x34, 0x12] (.not .b8 (.mem ⟨none, .direct16 0x1234⟩)) &&
    reads false [0xF6, 0x97, 0x34, 0x12] (.not .b8 (.mem ⟨none, .based16 .bx (.d16 0x1234)⟩))) = true := by decide
/-- Rows of Tables 17-3 and 17-4 (R334, R337). -/
theorem test_decode_addr32 : (
    reads true [0xF6, 0x13] (.not .b8 (.mem ⟨none, .based32 .ebx .none⟩)) &&
    reads true [0xF6, 0x55, 0xFC] (.not .b8 (.mem ⟨none, .based32 .ebp (.d8 0xFC)⟩)) &&
    reads true [0xF6, 0x96, 0x78, 0x56, 0x34, 0x12] (.not .b8 (.mem ⟨none, .based32 .esi (.d32 0x12345678)⟩)) &&
    reads true [0xF6, 0x15, 0x78, 0x56, 0x34, 0x12] (.not .b8 (.mem ⟨none, .direct32 0x12345678⟩)) &&
    reads true [0xF6, 0x14, 0x24] (.not .b8 (.mem ⟨none, .sib (some .esp) none 0 .none⟩)) &&
    reads true [0xF6, 0x54, 0xB3, 0x08] (.not .b8 (.mem ⟨none, .sib (some .ebx) (some .esi) 2 (.d8 8)⟩)) &&
    reads true [0xF6, 0x14, 0xC5, 0x78, 0x56, 0x34, 0x12] (.not .b8 (.mem ⟨none, .sib none (some .eax) 3 (.d32 0x12345678)⟩)) &&
    reads true [0xF6, 0x54, 0x45, 0x00] (.not .b8 (.mem ⟨none, .sib (some .ebp) (some .eax) 1 (.d8 0)⟩))) = true := by decide

/-- Encodings that stand for no instruction: blank entries of the maps and groups (R344 to R346), a register where memory is
required (R341), segment codes 6 and 7 and MOV CS (R330, R405), more than 15 bytes (R119). -/
theorem test_decode_refused : (
    refused false [0x0F, 0x04] .undefinedOpcode && refused false [0x0F, 0xFF] .undefinedOpcode &&
    refused false [0xFE, 0xD0] .undefinedGroup && refused false [0xFF, 0xF8] .undefinedGroup &&
    refused false [0xF6, 0xC8] .undefinedGroup && refused false [0xD0, 0xF0] .undefinedGroup &&
    refused false [0x0F, 0xBA, 0xC0] .undefinedGroup && refused false [0x8F, 0xC8] .undefinedGroup &&
    refused false [0xC6, 0xC8, 0] .undefinedGroup && refused false [0x0F, 0x00, 0xF0] .undefinedGroup &&
    refused false [0x0F, 0x01, 0xE8] .undefinedGroup && refused false [0x8D, 0xC0] .memoryRequired &&
    refused false [0xC4, 0xC0] .memoryRequired && refused false [0xFF, 0xD8] .memoryRequired &&
    refused false [0x0F, 0x01, 0xD0] .memoryRequired && refused false [0x62, 0xC0] .memoryRequired &&
    refused false [0x8C, 0xF0] .badRegister && refused false [0x8E, 0xC8] .badRegister &&
    refused false [0x0F] .truncated && refused false (List.replicate 15 0x66 ++ [0x90]) .tooLong) = true := by decide

/-- The same table's rows as `spec/opcode_table.json` numbers their bits. -/
theorem test_decode_table : decodeTableWord 16 0xD801 = some (.add (.rmReg .w16 (rg .eax) .ebx)) ∧
    decodeTableWord 8 0x90 = some .nop ∧ decodeTableWord 24 0xC3AF0F = some (.imul (.reg .w16 .eax (rg .ebx))) := by decide

/-! ### Single steps: values of spec/95_test_vectors.md and of the examples in the rules -/

/-- A flat 4-gigabyte data segment of level 0. -/
def flat : SegReg :=
  { sel := 0x10, base := 0, limit := 0xFFFFFFFF, typ := 0b0011, s := true, dpl := 0, p := true, db := true, g := true,
    valid := true }
/-- Bytes placed in memory. -/
def put (s : State) (a : Nat) (bs : List Nat) : State :=
  { s with mem := s.mem.writeAll ((List.range bs.length).map (a + ·)) (bs.map (BitVec.ofNat 8)) }
/-- A general register set. -/
def set (s : State) (r : Reg) (v : Nat) : State := { s with regs := s.regs.set r (BitVec.ofNat 32 v) }
/-- A descriptor in the GDT at 4000H. -/
def desc (s : State) (sel base limit access gran : Nat) : State :=
  put s (0x4000 + sel) [limit % 256, limit / 256 % 256, base % 256, base / 256 % 256, base / 65536 % 256, access,
    gran * 16 + limit / 65536, base / 16777216]
/-- Interrupt gate `v` of the IDT at 6000H, a 16-bit one, to offset 8000H + 16 v of the code segment 8. -/
def gate (s : State) (v : Nat) (access : Nat := 0x86) : State :=
  put s (0x6000 + 8 * v) [16 * v % 256, 0x80 + v / 16, 8, 0, 0, access, 0, 0]
/-- Protected mode at CPL 0: flat segments, a 32-bit code segment, EIP 1000H, a GDT and an IDT. -/
def flatMode : State :=
  { State.reset with cr0 := 1, cs := { flat with sel := 8, typ := 0b1011 }, ds := flat, es := flat, ss := flat, fs := flat,
                     gs := flat, eip := 0x1000, gdtr := ⟨0x4000, 0xFFF⟩, idtr := ⟨0x6000, 0x7FF⟩ }
/-- The same with its two descriptors, ESP 9000H and the gate of #GP. -/
def prot : State := set (gate (desc (desc flatMode 8 0 0xFFFFF 0x9A 0xC) 0x10 0 0xFFFFF 0x92 0xC) 13) .esp 0x9000
/-- Real-address mode at 0000:0600H. -/
def real : State := { State.reset with cs := { SegReg.resetCode with sel := 0, base := 0 }, eip := 0x600 }
/-- One step, the bytes given being placed at CS:EIP. -/
def go (s : State) (bs : List Nat) : State :=
  match step (put s (s.cs.base + s.eip).toNat bs) with
  | .next t => t
  | _ => { s with run := .shutdown }
/-- A general register as a number. -/
def val (s : State) (r : Reg) : Nat := (s.regs.get r).toNat
/-- `n` bytes of memory as a number. -/
def rd (s : State) (a n : Nat) : Nat := natOfBytes (s.mem.readAll ((List.range n).map (a + ·)))
/-- CF, PF, AF, ZF, SF, OF. -/
def fl (s : State) : List Bool := [.cf, .pf, .af, .zf, .sf, .of].map s.flag
/-- EAX and EBX set, CF given, one step. -/
def two (bs : List Nat) (a b : Nat) (cf : Bool := false) : State := go ((set (set prot .eax a) .ebx b).setFlag .cf cf) bs

/-- R452: 7FH + 7FH. -/
theorem test_add8 : (let s := two [0x00, 0xD8] 0x7F 0x7F; val s .eax = 0xFE ∧ fl s = [false, false, true, false, true, true]) := by decide +kernel

/-- R452: FFFFH + 1 in 16 bits. -/
theorem test_add16 : (let s := two [0x66, 0x01, 0xD8] 0xFFFF 1; val s .eax = 0 ∧ fl s = [true, true, true, true, false, false]) := by decide +kernel

/-- R453: carry in and out. -/
theorem test_adc : (let s := two [0x10, 0xD8] 0xFF 0xFF true; val s .eax = 0xFF ∧ fl s = [true, true, true, false, true, false]) := by decide +kernel

/-- R454: 80H - 1. -/
theorem test_sub8 : (let s := two [0x28, 0xD8] 0x80 1; val s .eax = 0x7F ∧ fl s = [false, false, true, false, false, true]) := by decide +kernel

/-- R454: 0 - 80000000H. -/
theorem test_sub32 : (let s := two [0x29, 0xD8] 0 0x80000000; val s .eax = 0x80000000 ∧ fl s = [true, true, false, false, true, true]) := by decide +kernel

/-- R455: 0 - 0 - 1. -/
theorem test_sbb : (let s := two [0x19, 0xD8] 0 0 true; val s .eax = 0xFFFFFFFF ∧ fl s = [true, true, true, false, true, false]) := by decide +kernel

/-- R456: 80000000H against 1. -/
theorem test_cmp : (let s := two [0x39, 0xD8] 0x80000000 1; val s .eax = 0x80000000 ∧ fl s = [false, true, true, false, false, true]) := by decide +kernel

/-- R457: FFH, CF kept. -/
theorem test_inc : (let s := two [0xFE, 0xC0] 0xFF 0 true; val s .eax = 0 ∧ fl s = [true, true, true, true, false, false]) := by decide +kernel

/-- R458: 80000000H, CF kept. -/
theorem test_dec : (let s := two [0x48] 0x80000000 0 true; val s .eax = 0x7FFFFFFF ∧ fl s = [true, true, true, false, false, true]) := by decide +kernel

/-- R459: 80H. -/
theorem test_neg : (let s := two [0xF6, 0xD8] 0x80 0; val s .eax = 0x80 ∧ fl s = [true, false, false, false, true, true]) := by decide +kernel

/-- R504: 55H, no flag. -/
theorem test_not : (let s := two [0xF6, 0xD0] 0x55 0 true; val s .eax = 0xAA ∧ s.eflags = 3) := by decide +kernel

/-- R501: F0H AND 3CH. -/
theorem test_and : val (two [0x24, 0x3C] 0xF0 0) .eax = 0x30 := by decide +kernel

/-- R502. -/
theorem test_or : val (two [0x08, 0xD8] 0xF0 0x0C) .eax = 0xFC := by decide +kernel

/-- R503: FFH XOR FFH. -/
theorem test_xor : val (two [0x34, 0xFF] 0xFF 1) .eax = 0 := by decide +kernel

/-- R505: the operand stays. -/
theorem test_test : (let s := two [0x84, 0xD8] 0xF0 0x0C; val s .eax = 0xF0 ∧ s.eip = 0x1002) := by decide +kernel

/-- R460: FFH times FFH. -/
theorem test_mul8 : val (two [0xF6, 0xE3] 0xFF 0xFF) .eax = 0xFE01 := by decide +kernel

/-- R461: 8000H times -1 in 16 bits. -/
theorem test_imul16 : (let s := go (set (set prot .eax 0x8000) .ecx 0xFFFF) [0x66, 0xF7, 0xE9]; val s .eax = 0x8000) := by decide +kernel

/-- R463: 3 times 40000000H. -/
theorem test_imul_imm : val (two [0x69, 0xC3, 0, 0, 0, 0x40] 9 3) .eax = 0xC0000000 := by decide +kernel

/-- R464: 100 by 7. -/
theorem test_div : (let s := go (set (set (set prot .edx 0) .eax 100) .ecx 7) [0xF7, 0xF1]; val s .eax = 14 ∧ val s .edx = 2) := by decide +kernel

/-- R464: a quotient of 33 bits is vector 0, at the DIV. -/
theorem test_div_overflow : (let s := go (set (set (gate prot 0) .edx 1) .ecx 1) [0xF7, 0xF1]; s.eip = 0x8000 ∧ rd s 0x8FFA 2 = 0x1000 ∧ val s .edx = 1) := by decide +kernel

/-- R465: 7 by -2. -/
theorem test_idiv : val (two [0xF6, 0xFB] 7 0xFE) .eax = 0x01FD := by decide +kernel

/-- R466: 0AH. -/
theorem test_daa : val (two [0x27] 0x0A 0) .eax = 0x10 := by decide +kernel

/-- R467: FFH with AF clear. -/
theorem test_das : val (two [0x2F] 0xFF 0) .eax = 0x99 := by decide +kernel

/-- R468: 0FH. -/
theorem test_aaa : val (two [0x37] 0x0F 0) .eax = 0x105 := by decide +kernel

/-- R469: 0FH. -/
theorem test_aas : val (two [0x3F] 0x0F 0) .eax = 0xFF09 := by decide +kernel

/-- R470: FFH to the base 10. -/
theorem test_aam : val (two [0xD4, 0x0A] 0xFF 0) .eax = 0x1905 := by decide +kernel

/-- R471: 9, 9. -/
theorem test_aad : val (two [0xD5, 0x0A] 0x0909 0) .eax = 0x63 := by decide +kernel

/-- R511: a count of 9 clears a byte; a count of 32 is 0. -/
theorem test_shl : (val (two [0xC0, 0xE0, 9] 1 0) .eax = 0 ∧ (let s := two [0xC0, 0xE0, 32] 0xFF 0 true; val s .eax = 0xFF ∧ s.eflags = 3)) := by decide +kernel

/-- R512: 80000000H by 31. -/
theorem test_shr : val (two [0xC1, 0xE8, 31] 0x80000000 0) .eax = 1 := by decide +kernel

/-- R513: 80H by 31. -/
theorem test_sar : val (two [0xC0, 0xF8, 31] 0x80 0) .eax = 0xFF := by decide +kernel

/-- R514: 12345678H by 8. -/
theorem test_rol : val (two [0xC1, 0xC0, 8] 0x12345678 0) .eax = 0x34567812 := by decide +kernel

/-- R515: 2 by 1, CF and OF. -/
theorem test_ror : (let s := two [0xD0, 0xC8] 2 0 true; val s .eax = 1 ∧ s.flag .cf = false ∧ s.flag .of = false) := by decide +kernel

/-- R516: A5H by 9 and by 4 through CF. -/
theorem test_rcl : (val (two [0xC0, 0xD0, 9] 0xA5 0 true) .eax = 0xA5 ∧ val (two [0xC0, 0xD0, 4] 0xA5 0 true) .eax = 0x5D) := by decide +kernel

/-- R517: 0 by 1 with CF set. -/
theorem test_rcr : (let s := two [0xD1, 0xD8] 0 0 true; val s .eax = 0x80000000 ∧ s.flag .cf = false ∧ s.flag .of = true) := by decide +kernel

/-- R518: by 4. -/
theorem test_shld : val (two [0x0F, 0xA4, 0xD8, 4] 0x12345678 0x9ABCDEF0) .eax = 0x23456789 := by decide +kernel

/-- R519: by 4. -/
theorem test_shrd : val (two [0x0F, 0xAC, 0xD8, 4] 0x12345678 0x9ABCDEF0) .eax = 0x01234567 := by decide +kernel

/-- R542: bit 35 of the bit string at [EBX] is bit 3 of the doubleword 4 bytes on. -/
theorem test_bts : rd (two [0x0F, 0xAB, 0x03] 35 0x2000) 0x2000 8 = 0x800000000 := by decide +kernel

/-- R543. -/
theorem test_btr : val (two [0x0F, 0xB3, 0xC3] 33 7) .ebx = 5 := by decide +kernel

/-- R544. -/
theorem test_btc : val (two [0x0F, 0xBA, 0xFB, 1] 0 5) .ebx = 7 := by decide +kernel

/-- R541: the operand stays. -/
theorem test_bt : val (two [0x0F, 0xA3, 0xC3] 1 5) .ebx = 5 := by decide +kernel

/-- R545. -/
theorem test_bsf : val (two [0x0F, 0xBC, 0xC3] 0 0x80000000) .eax = 31 := by decide +kernel

/-- R546. -/
theorem test_bsr : val (two [0x0F, 0xBD, 0xC3] 9 0x0001FFFF) .eax = 16 := by decide +kernel

/-- R550: SETL and SETGE with OF set and SF clear. -/
theorem test_setl : (val (go (prot.setFlag .of true) [0x0F, 0x9C, 0xC0]) .eax = 1 ∧ val (go (prot.setFlag .of true) [0x0F, 0x9D, 0xC0]) .eax = 0) := by decide +kernel

/-- R401: MOV AH,AL. -/
theorem test_mov8 : val (two [0x88, 0xC4] 0x11223344 0) .eax = 0x11224444 := by decide +kernel

/-- R402: A0 reads DS:5000H. -/
theorem test_mov_moffs : val (go (put (set prot .eax 0x11223344) 0x5000 [0x77]) [0xA0, 0, 0x50, 0, 0]) .eax = 0x11223377 := by decide +kernel

/-- R403: B4 sets AH. -/
theorem test_mov_imm : val (two [0xB4, 0x7F] 0 0) .eax = 0x7F00 := by decide +kernel

/-- R404, R405: DS is loaded, its accessed bit set. -/
theorem test_mov_sreg : (let s := go (set prot .eax 0x10) [0x8E, 0xD8]; s.ds.sel = 0x10 ∧ rd s 0x4015 1 = 0x93) := by decide +kernel

/-- R180: a code segment that may not be read is #GP(selector), and DS stays. -/
theorem test_mov_sreg_fault : (let s := go (set (desc prot 0x18 0 0xFFFFF 0x98 0xC) .eax 0x18) [0x8E, 0xD8]; s.eip = 0x80D0 ∧ rd s 0x8FF8 4 = 0x10000018 ∧ s.ds.sel = 0x10) := by decide +kernel

/-- R770: bits 11:0 are not written. -/
theorem test_mov_cr3 : (go (set prot .eax 0x12FFF) [0x0F, 0x22, 0xD8]).cr3 = 0x12000 := by decide +kernel

/-- R772: DR7, reserved bits not written. -/
theorem test_mov_dr : (go (set prot .eax 0xFFFFFFFF) [0x0F, 0x23, 0xF8]).dr7 &&& 0x400 = 0 := by decide +kernel

/-- R774: TR7 stored and read. -/
theorem test_mov_tr : (go (set prot .eax 0x55014) [0x0F, 0x26, 0xF8]).tr7 = 0x55014 := by decide +kernel

/-- R406. -/
theorem test_xchg : (let s := two [0x93] 1 2; val s .eax = 2 ∧ val s .ebx = 1) := by decide +kernel

/-- R408: PUSH ESP stores ESP as it was. -/
theorem test_push_esp : (let s := go (set prot .esp 0x2000) [0x54]; rd s 0x1FFC 4 = 0x2000 ∧ val s .esp = 0x1FFC) := by decide +kernel

/-- R408: sign-extended, as a word. -/
theorem test_push_imm8 : (let s := go (set prot .esp 0x2000) [0x66, 0x6A, 0xFF]; rd s 0x1FFE 2 = 0xFFFF ∧ val s .esp = 0x1FFE) := by decide +kernel

/-- R411: POP ESP keeps the popped value. -/
theorem test_pop_esp : val (go (put (set prot .esp 0x2FFC) 0x2FFC [0, 0x50]) [0x5C]) .esp = 0x5000 := by decide +kernel

/-- R414: the stack pointer pushed is the old one. -/
theorem test_pushad : (let s := go (set prot .esp 0x2000) [0x60]; rd s 0x1FEC 4 = 0x2000 ∧ val s .esp = 0x1FE0) := by decide +kernel

/-- R415: in real-address mode; SP is not popped. -/
theorem test_popa : (let s := go (put (set real .esp 0x100) 0x100 [1, 0, 2, 0, 3, 0, 4, 0]) [0x61]; val s .edi = 1 ∧ val s .ebp = 3 ∧ val s .esp = 0x110) := by decide +kernel

/-- R416: 80H. -/
theorem test_cbw : val (two [0x66, 0x98] 0x1280 0) .eax = 0xFF80 := by decide +kernel

/-- R417. -/
theorem test_cdq : val (two [0x99] 0x80000000 0) .edx = 0xFFFFFFFF := by decide +kernel

/-- R418: F6H. -/
theorem test_movsx : val (two [0x0F, 0xBE, 0xC3] 9 0xF6) .eax = 0xFFFFFFF6 := by decide +kernel

/-- R419: 8000H. -/
theorem test_movzx : val (two [0x0F, 0xB7, 0xC3] 9 0x8000) .eax = 0x8000 := by decide +kernel

/-- R420: 16-bit address, 32-bit operand. -/
theorem test_lea : val (two [0x67, 0x8D, 0x07] 0 0xFFFF1234) .eax = 0x1234 := by decide +kernel

/-- R421: in real-address mode. -/
theorem test_les : (let s := go (put (set real .ebx 0x700) 0x700 [5, 0, 0, 0x20]) [0xC4, 0x07]; val s .eax = 5 ∧ s.es.sel = 0x2000 ∧ s.es.base = 0x20000) := by decide +kernel

/-- R422: DS:[EBX + 5]. -/
theorem test_xlat : val (go (put (set (set prot .eax 5) .ebx 0x3000) 0x3005 [0x41]) [0xD7]) .eax = 0x41 := by decide +kernel

/-- R571: taken and not. -/
theorem test_je : ((go ({ prot with eip := 0x1000 }.setFlag .zf true) [0x74, 5]).eip = 0x1007 ∧ (go prot [0x74, 5]).eip = 0x1002) := by decide +kernel

/-- R573: with a 16-bit address size CX counts. -/
theorem test_jcxz : (go { set prot .ecx 0x10000 with eip := 0x100 } [0x67, 0xE3, 0x10]).eip = 0x113 := by decide +kernel

/-- R574: from 0 it wraps. -/
theorem test_loop : (let s := go { prot with eip := 0x1010 } [0xE2, 0xFE]; s.eip = 0x1010 ∧ val s .ecx = 0xFFFFFFFF) := by decide +kernel

/-- R562: backward. -/
theorem test_jmp : (go prot [0xEB, 0x80]).eip = 0xF82 := by decide +kernel

/-- R564. -/
theorem test_call : (let s := go prot [0xE8, 0xFB, 0xFF, 0xFF, 0xFF]; s.eip = 0x1000 ∧ rd s 0x8FFC 4 = 0x1005) := by decide +kernel

/-- R566: C2 with 8. -/
theorem test_ret : (let s := go (put (set prot .esp 0x7FFC) 0x7FFC [5, 0x10]) [0xC2, 8, 0]; s.eip = 0x1005 ∧ val s .esp = 0x8008) := by decide +kernel

/-- R602: in real-address mode. -/
theorem test_jmp_far : (let s := go real [0xEA, 4, 0, 0, 0x20]; s.cs.sel = 0x2000 ∧ s.cs.base = 0x20000 ∧ s.eip = 4) := by decide +kernel

/-- R605: to a code segment of the same level. -/
theorem test_call_far : (let s := go prot [0x66, 0x9A, 0, 0x20, 8, 0]; s.eip = 0x2000 ∧ rd s 0x8FFC 4 = 0x00081006) := by decide +kernel

/-- R612: in real-address mode. -/
theorem test_ret_far : (let s := go (put (set real .esp 0x100) 0x100 [5, 0, 0, 0x30]) [0xCB]; s.eip = 5 ∧ s.cs.base = 0x30000 ∧ val s .esp = 0x104) := by decide +kernel

/-- R580: level 2. -/
theorem test_enter : (let s := go (put (set (set prot .esp 0x8000) .ebp 0x9000) 0x8FFC [0, 0xA0]) [0xC8, 8, 0, 2]; rd s 0x7FF8 4 = 0xA000 ∧ rd s 0x7FF4 4 = 0x7FFC ∧ val s .ebp = 0x7FFC ∧ val s .esp = 0x7FEC) := by decide +kernel

/-- R581. -/
theorem test_leave : (let s := go (put (set prot .ebp 0x7FFC) 0x7FFC [0, 0x90]) [0xC9]; val s .ebp = 0x9000 ∧ val s .esp = 0x8000) := by decide +kernel

/-- R582: above the upper bound is vector 5, at the BOUND. -/
theorem test_bound : (let s := go (put (gate (set (set prot .eax 10) .ebx 0x2000) 5) 0x2004 [9]) [0x62, 0x03]; s.eip = 0x8050 ∧ rd s 0x8FFA 2 = 0x1000) := by decide +kernel

/-- R630, R936: in real-address mode, INT 3 through 0000:000CH. -/
theorem test_int : (let s := go (put { set real .esp 0x100 with eflags := 0x202 } 0xC [0, 5, 0x40, 0]) [0xCC]; s.eip = 0x500 ∧ s.cs.base = 0x400 ∧ rd s 0xFA 6 = 0x020200000601 ∧ s.eflags = 2) := by decide +kernel

/-- R632: OF clear. -/
theorem test_into : (go prot [0xCE]).eip = 0x1001 := by decide +kernel

/-- R640: in real-address mode. -/
theorem test_iret : (let s := go (put (set real .esp 0x100) 0x100 [5, 0, 0, 0x30, 0xD7, 0x0A]) [0xCF]; s.eip = 5 ∧ s.cs.sel = 0x3000 ∧ s.eflags = 0x0AD7 ∧ val s .esp = 0x106) := by decide +kernel

/-- R662, R690: one iteration downward; the instruction stays until ECX is 0. -/
theorem test_movsb : (let s := go (put (set (set (set (prot.setFlag .df true) .esi 0x3003) .edi 0x2003) .ecx 2) 0x3003 [4]) [0xF3, 0xA4]; rd s 0x2003 1 = 4 ∧ val s .esi = 0x3002 ∧ val s .edi = 0x2002 ∧ val s .ecx = 1 ∧ s.eip = 0x1000) := by decide +kernel

/-- R663: REPE stops at a difference. -/
theorem test_cmpsb : (let s := go (put (set (set (set prot .esi 0x3000) .edi 0x2000) .ecx 3) 0x2000 [1]) [0xF3, 0xA6]; val s .ecx = 2 ∧ s.eip = 0x1002 ∧ fl s = [true, true, true, false, true, false]) := by decide +kernel

/-- R664. -/
theorem test_scasw : (let s := go (put (set (set prot .eax 0x1234) .edi 0x2000) 0x2000 [0x34, 0x12]) [0x66, 0xAF]; s.flag .zf = true ∧ val s .edi = 0x2002) := by decide +kernel

/-- R665. -/
theorem test_lodsd : (let s := go (put (set prot .esi 0x2000) 0x2000 [1, 2, 3, 4]) [0xAD]; val s .eax = 0x04030201 ∧ val s .esi = 0x2004) := by decide +kernel

/-- R666: with a 16-bit address size only DI moves. -/
theorem test_stosb : (let s := go (set (set prot .eax 7) .edi 0x12000) [0x67, 0xAA]; rd s 0x2000 1 = 7 ∧ val s .edi = 0x12001) := by decide +kernel

/-- R670: AL from the port in DX. -/
theorem test_in : (let s := go { set (set prot .edx 0x300) .eax 0xFFFFFFFF with ioInput := [0x78] } [0xEC]; val s .eax = 0xFFFFFF78 ∧ s.ioLog = [⟨false, [[(0x300, 0x78)]]⟩]) := by decide +kernel

/-- R671. -/
theorem test_out : (go (set prot .eax 0x11223344) [0xE7, 0x10]).ioLog = [⟨true, [[(0x10, 0x44), (0x11, 0x33), (0x12, 0x22), (0x13, 0x11)]]⟩] := by decide +kernel

/-- R672. -/
theorem test_insb : (let s := go { set prot .edi 0x2000 with ioInput := [0x5A] } [0x6C]; rd s 0x2000 1 = 0x5A ∧ val s .edi = 0x2001) := by decide +kernel

/-- R673. -/
theorem test_outsw : (go (put (set prot .esi 0x2000) 0x2000 [1, 2]) [0x66, 0x6F]).ioLog = [⟨true, [[(0x300, 1), (0x301, 2)]]⟩] := by decide +kernel

/-- R702. -/
theorem test_cmc : (go prot [0xF5]).eflags = 3 := by decide +kernel

/-- R705: above IOPL it is #GP(0). -/
theorem test_cli : (go { prot with cpl := 0, eflags := 0x202 } [0xFA]).eflags = 2 := by decide +kernel

/-- R706: INTR waits for one instruction. -/
theorem test_sti : (let s := go prot [0xFB]; s.flag .iflag = true ∧ s.inhibitIntr = true) := by decide +kernel

/-- R710. -/
theorem test_lahf : val (go prot [0x9F]) .eax = 0x200 := by decide +kernel

/-- R711. -/
theorem test_sahf : (go (set prot .eax 0xFF00) [0x9E]).eflags = 0xD7 := by decide +kernel

/-- R712: at CPL 0. -/
theorem test_popfd : (go (put (set prot .esp 0x5000) 0x5000 [255, 255, 255, 255]) [0x9D]).eflags = 0x7FD7 := by decide +kernel

/-- R713: RF and VM are pushed as 0. -/
theorem test_pushfd : rd (go { set prot .esp 0x5000 with eflags := 0x10246 } [0x9C]) 0x4FFC 4 = 0x246 := by decide +kernel

/-- R721. -/
theorem test_hlt : (let s := go prot [0xF4]; s.run = .halted ∧ s.eip = 0x1001) := by decide +kernel

/-- R725: LOCK before MOV is vector 6. -/
theorem test_lock : (go (gate prot 6) [0xF0, 0x89, 0x03]).eip = 0x8060 := by decide +kernel

/-- R726: ERROR# is vector 16. -/
theorem test_wait : (go { gate prot 16 with coproc := .i387, pinError := true } [0x9B]).eip = 0x8100 := by decide +kernel

/-- R727: a store and AX. -/
theorem test_esc : (let s := go { prot with coproc := .i387, coprocReplies := [⟨.store [1, 2, 3, 4], some 0x1234, false, false⟩] } [0xD9, 0x05, 0, 0x50, 0, 0]; rd s 0x5000 4 = 0x04030201 ∧ val s .eax = 0x1234) := by decide +kernel

/-- R347: D6 is vector 6. -/
theorem test_undef : (go (gate prot 6) [0xD6]).eip = 0x8060 := by decide +kernel

/-- R741: 24 bits of the base with a 16-bit operand size. -/
theorem test_lgdt : (go (put (set prot .eax 0x2000) 0x2000 [0x34, 0x12, 0x78, 0x56, 0x34, 0x12]) [0x66, 0x0F, 0x01, 0x10]).gdtr = ⟨0x345678, 0x1234⟩ := by decide +kernel

/-- R744. -/
theorem test_sidt : rd (go (set prot .eax 0x2000) [0x0F, 0x01, 0x08]) 0x2000 6 = 0x6000_07FF := by decide +kernel

/-- R745. -/
theorem test_lldt : (go (set (desc prot 0x38 0x30000 0xFFF 0x82 0) .eax 0x38) [0x0F, 0x00, 0xD0]).ldtr = ⟨0x38, 0x30000, 0xFFF, true⟩ := by decide +kernel

/-- R764: the TSS becomes busy. -/
theorem test_ltr : (let s := go (set (desc prot 0x38 0x30000 0xFFF 0x89 0) .eax 0x38) [0x0F, 0x00, 0xD8]; s.tr = ⟨0x38, 0x30000, 0xFFF, true⟩ ∧ rd s 0x403D 1 = 0x8B) := by decide +kernel

/-- R747: PE cannot be cleared. -/
theorem test_lmsw : (go { prot with cr0 := 0xF } [0x0F, 0x01, 0xF0]).cr0 = 1 := by decide +kernel

/-- R749. -/
theorem test_clts : (go { prot with cr0 := 9 } [0x0F, 0x06]).cr0 = 1 := by decide +kernel

/-- R751: the scaled limit. -/
theorem test_lsl : (let s := two [0x0F, 0x03, 0xC3] 0 0x10; val s .eax = 0xFFFFFFFF ∧ s.flag .zf = true) := by decide +kernel

/-- R753: a code segment may not be written. -/
theorem test_verw : (let s := go ((set prot .eax 8).setFlag .zf true) [0x0F, 0x00, 0xE8]; s.flag .zf = false) := by decide +kernel

/-- R754. -/
theorem test_arpl : (let s := go (set (set prot .ebx 0x10) .ecx 0x13) [0x63, 0xCB]; val s .ebx = 0x13 ∧ s.flag .zf = true) := by decide +kernel

/-- R754: vector 6 in real-address mode. -/
theorem test_arpl_real : (go (put (set real .esp 0x100) 0x18 [0, 5]) [0x63, 0xCB]).eip = 0x500 := by decide +kernel

/-- R101, R170: beyond the limit is #GP(0); the register stays. -/
theorem test_limit : (let s := go { prot with ds := { flat with limit := 0xFFF } } [0xA0, 0, 0x10, 0, 0]; s.eip = 0x80D0 ∧ rd s 0x8FF8 4 = 0x10000000) := by decide +kernel

/-- R225, R226: the page frame, the accessed and dirty bits. -/
theorem test_paging : (match translate 0x5025 true false (put (put (put { prot with cr0 := 0x80000001, cr3 := 0x10000 } 0x10000 [7, 0x20, 1]) 0x12004 [7, 0x10]) 0x12014 [7, 0x50, 5]) with | .ok a s => a == 0x55025 && rd s 0x10000 4 == 0x12027 && rd s 0x12014 4 == 0x55067 | _ => false) = true := by decide +kernel

/-- R811: taken before the instruction; further ones are masked. -/
theorem test_nmi : (let s := go { gate prot 2 with pinNmi := true } [0x90]; s.eip = 0x8020 ∧ s.nmiMask = true ∧ rd s 0x8FFA 2 = 0x1000) := by decide +kernel

/-- R908: the trap is kept for the next boundary. -/
theorem test_single_step : (let s := go (prot.setFlag .tf true) [0x90]; s.eip = 0x1001 ∧ s.pend = 0x4000) := by decide +kernel

/-- R119: more than 15 bytes are #GP(0). -/
theorem test_fetch_limit : (let s := go prot (List.replicate 15 0x66 ++ [0x90]); s.eip = 0x80D0 ∧ rd s 0x8FF8 4 = 0x10000000) := by decide +kernel

/-- R712, R934: a word at SS:FFFFH is exception 12 in real-address mode. -/
theorem test_popf_limit : (go (put (set real .esp 0xFFFF) 0x30 [0, 5]) [0x9D]).eip = 0x500 := by decide +kernel

/-- V70-3 (R15, R934): past FFFFH a 16-bit code segment ends in exception 13; EIP holds 16 bits (R118). -/
theorem test_past_64K : (let s := { put (set real .esp 0x100) 0x34 [0, 5] with eip := 0xFFFF }
    (go s [0x90]).eip = 0 ∧ (go s [0x90]).ranPast = true ∧ (go { s with eip := 0, ranPast := true } [0x90]).eip = 0x500) := by
  decide +kernel

/-- Real-address mode with a CS limit of FFFFFH, which protected mode left there. -/
def wide : State :=
  let s := put (set real .esp 0x100) 0x34 [0, 5]
  { s with cs := { s.cs with limit := 0xFFFFF } }

/-- D16 (R118): with a limit above FFFFH execution goes on at offset 0, and an instruction that straddles FFFFH is exception 13. -/
theorem test_wide_64K : (go { wide with eip := 0, ranPast := true } [0x90]).eip = 1 ∧
    (go { wide with eip := 0xFFFF } [0xB0, 5]).eip = 0x500 ∧ (go { wide with eip := 0xFFFE } [0xB0, 5]).eip = 0 := by decide +kernel

/-- R118: a target above FFFFH leaves the 16-bit EIP of it. -/
theorem test_wide_jump : (go { wide with eip := 0x600 } [0x66, 0xE9, 0x00, 0x00, 0x01, 0x00]).eip = 0x606 := by decide +kernel

/-- R325: EIP_next is cut to 16 bits, also as a return address of 32. -/
theorem test_call_64K : (let s := go { set real .esp 0x100 with eip := 0xFFFA } [0x66, 0xE8, 0x20, 0, 0, 0]
    s.eip = 0x20 ∧ rd s 0xFC 4 = 0) := by decide +kernel

/-- R870: in real-address mode without room for a frame. -/
theorem test_shutdown : (go (set real .esp 1) [0x50]).run = .shutdown := by decide +kernel

/-- ROM at 5000H, nothing at 5010H, a device at 5020H, whose next byte is 77H. -/
def mapped : State :=
  { put prot 0x5000 [0x12, 0x34] with
    devInput := [0x77]
    platform := { Platform.reset with physMem := [⟨0x5000, 0x10, .rom⟩, ⟨0x5010, 0x10, .nothing⟩, ⟨0x5020, 0x10, .device⟩] } }

/-- Level 3 under a 32-bit TSS at 7000H whose permission map denies port 1 and allows port 0; SS0:ESP0 = 10H:9800H. -/
def user : State :=
  let s := put (put (put (put prot 0x7004 [0, 0x98, 0, 0, 0x10]) 0x7066 [0x68]) 0x7068 [2]) 0x4020 [255, 255, 0, 0, 0, 0xF2, 0xCF, 0]
  { put s 0x4018 [255, 255, 0, 0, 0, 0xFA, 0xCF, 0] with
    cpl := 3, cs := { s.cs with sel := 0x1B, dpl := 3 }, ss := { flat with sel := 0x23, dpl := 3 },
    ds := { flat with sel := 0x23, dpl := 3 }, es := { flat with sel := 0x23, dpl := 3 },
    tr := { sel := 0x28, base := 0x7000, limit := 0xFFF, is386 := true } }

/-- R96, R743: a word and a doubleword. -/
theorem test_sgdt_device : (go (set mapped .eax 0x5020) [0x0F, 0x01, 0x00]).devLog =
    [⟨true, [[(0x5022, 0), (0x5023, 0x40)], [(0x5024, 0), (0x5025, 0)]]⟩, ⟨true, [[(0x5020, 0xFF), (0x5021, 0x0F)]]⟩] := by
  decide +kernel

/-- R109, R642: a frame of twelve bytes that would wrap on a 16-bit stack. -/
theorem test_iretd_wrap : (go { gate (set prot .esp 0xFFFC) 12 with ss := { flat with db := false } } [0xCF]).eip = 0x80C0 := by
  decide +kernel

/-- R101, R116: a read-modify-write of a device reads it and then writes it. -/
theorem test_inc_device : (go mapped [0xFE, 5, 0x20, 0x50, 0, 0]).devLog = [⟨true, [[(0x5020, 0x78)]]⟩, ⟨false, [[(0x5020, 0x77)]]⟩] := by decide +kernel

/-- R103: what is written to ROM is lost. -/
theorem test_dec_rom : rd (go mapped [0xFE, 0x0D, 0, 0x50, 0, 0]) 0x5000 1 = 0x12 := by decide +kernel

/-- R300: at a port that is not aligned each byte port is written by itself. -/
theorem test_out_unaligned : (go (set prot .eax 0x11223344) [0xE7, 0x11]).ioLog = [⟨true, [[(0x11, 0x44)], [(0x12, 0x33)], [(0x13, 0x22)], [(0x14, 0x11)]]⟩] := by decide +kernel

/-- R100: an SS that is not usable is vector 12. -/
theorem test_pop_ss : (go { gate user 12 with ss := { flat with valid := false } } [0x58]).eip = 0x80C0 := by decide +kernel

/-- R421, R934: a far pointer at FFFEH is vector 13 in real-address mode. -/
theorem test_les_wrap : (go (put (set (set real .ebx 0xFFFE) .esp 0x100) 0x34 [0, 5]) [0xC4, 0x07]).eip = 0x500 := by decide +kernel

/-- R660: an element that runs past the end of 16-bit offsets is #GP(0), whatever the limit. -/
theorem test_lodsw_wrap : (go (set prot .esi 0xFFFF) [0x67, 0x66, 0xAD]).eip = 0x80D0 := by decide +kernel

/-- R813: a WAIT held by BUSY# keeps the inhibit of the instruction before it. -/
theorem test_wait_inhibit : (let s := go { prot with coproc := .i387, pinBusy := true, inhibit := true } [0x9B]; s.eip = 0x1000 ∧ s.inhibit = true) := by decide +kernel

/-- R931, D78: in real-address mode LLDT is vector 6 before its displacement is fetched. -/
theorem test_lldt_real : (go (put { set real .esp 0x100 with cs := { real.cs with limit := 0x602 } } 0x18 [0, 5]) [0x0F, 0, 0x16]).eip = 0x500 := by decide +kernel

/-- R70: the first instruction is fetched at FFFFFFF0H. -/
theorem test_reset : (let s := go State.reset [0xEA, 0, 0, 0, 0xF0]; s.cs.base = 0xF0000 ∧ s.eip = 0) := by decide +kernel

/-- The word stored for the host is the next instruction. -/
theorem test_withFetchWord : (match step (State.reset.withFetchWord 16 0xC031) with | .next t => t.regs.eax == 0 && t.eip == 0xFFF2 | _ => false) = true := by decide +kernel

/-! ### Witnesses: for every statement, a state and operands that meet its hypotheses, clause by clause -/

/-- A computation that succeeds. -/
def isOk {α : Type} (m : M α) (s : State) : Bool :=
  match m s with
  | .ok _ _ => true
  | .error _ _ => false
/-- The state after a computation. -/
def after {α : Type} (m : M α) (s : State) : State :=
  match m s with
  | .ok _ t => t
  | .error _ t => t
/-- What a computation answers. -/
def answer {α : Type} [Inhabited α] (m : M α) (s : State) : α :=
  match m s with
  | .ok a _ => a
  | .error _ _ => default
/-- A computation that succeeds, by its answer and the state after it. -/
theorem okV {α : Type} [Inhabited α] {m : M α} {s : State} (h : isOk m s = true) : m s = .ok (answer m s) (after m s) := by
  unfold isOk at h
  unfold answer after
  split at h
  · rename_i e
    rw [e]
  · cases h
/-- The same with the answer named. -/
theorem okA {α : Type} [Inhabited α] {m : M α} {s : State} {a : α} (h : isOk m s = true) (ha : answer m s = a) :
    m s = .ok a (after m s) := ha ▸ okV h
/-- The same for an answer of three parts. -/
theorem okT {α β γ : Type} [Inhabited α] [Inhabited β] [Inhabited γ] {m : M (α × β × γ)} {s : State} (h : isOk m s = true) :
    m s = .ok ((answer m s).1, (answer m s).2.1, (answer m s).2.2) (after m s) := okV h
/-- The same for a computation without an answer. -/
theorem okU {m : M Unit} {s : State} (h : isOk m s = true) : m s = .ok () (after m s) := okV h
/-- A descriptor that can be fetched. -/
theorem okD {sel : Word} {s : State} (h : (isOk (fetchDesc sel) s && (answer (fetchDesc sel) s).isSome) = true) :
    fetchDesc sel s = .ok (some ((answer (fetchDesc sel) s).getD default)) (after (fetchDesc sel) s) := by
  rw [Bool.and_eq_true] at h
  rw [okV h.1]
  obtain ⟨d, hd⟩ := Option.isSome_iff_exists.mp h.2
  rw [hd]
  rfl
/-- Bytes that can be reached without paging. -/
theorem reach {s : State} {u : Bool} {sr : SReg} {off : Dword} {n : Nat} {w : Bool}
    (h : (!s.pg && s.segOk sr off n w) = true) :
    Reach s u sr off n w ((span (s.linOf sr off) n).map BitVec.toNat) (s.noted sr off n w) := by
  rw [Bool.and_eq_true, Bool.not_eq_true'] at h
  exact Reach.flat h.1 h.2

/-- The last doubleword of the address space. -/
def top : MemRef := { seg := none, addr := .direct32 0xFFFFFFFC }
/-- The doubleword at 5000H. -/
def m5 : MemRef := { seg := none, addr := .direct32 0x5000 }

theorem witness_AddSubResult : (∃ a b t put, AluAt prot.begun (.rmReg .d32 (.mem top) .ebx) .d32 a b t put) ∧
    ∃ a b t put, AluAt prot.begun (.regRm .b8 .esp (.mem top)) .b8 a b t put :=
  ⟨⟨_, _, _, _, .rmReg _ (.mem _ _ _ (reach (by decide +kernel)) (by decide +kernel))⟩,
    ⟨_, _, _, _, .regRm _ (.mem _ _ _ (reach (by decide +kernel)))⟩⟩

theorem witness_ArithmeticFlags : (prot.subFlags (0 : Byte) 0xFF true).flag .cf = true ∧
    (prot.addFlags (0x7F : Byte) 0 true).flag .of = true := by decide +kernel

theorem witness_LogicResult : (∃ a b t put, AluAt prot.begun (.rmImm8 .w16 (.mem m5) 0x80) .w16 a b t put) ∧
    (∃ a b t, AluIs prot.begun (.rmReg .d32 (.mem top) .eax) .d32 a b t) ∧
    ∃ a b t, TestIs prot.begun (.rmImm .b8 (.mem top) 0xFF) .b8 a b t :=
  ⟨⟨_, _, _, _, .rmImm8 _ (.mem _ _ _ (reach (by decide +kernel)) (by decide +kernel))⟩,
    ⟨_, _, _, .rmReg _ (.mem _ _ _ (reach (by decide +kernel)))⟩,
    ⟨_, _, _, .rmImm _ (.mem _ _ _ (reach (by decide +kernel)))⟩⟩

theorem witness_OneOperandResult : (∃ a t put, IncAt prot.begun (.reg .w16 .esp) .w16 a t put) ∧
    ∃ a t put, RmAt prot.begun .d32 (.mem top) a t put :=
  ⟨⟨_, _, _, .reg _ _⟩, ⟨_, _, _, .mem _ _ _ (reach (by decide +kernel)) (by decide +kernel)⟩⟩

theorem witness_MultiplyResult : ∃ b t, RmIs prot.begun .d32 (.mem top) b t :=
  ⟨_, _, .mem _ _ _ (reach (by decide +kernel))⟩

/-- EDX:EAX divided by ECX. -/
def dividing (edx eax ecx : Nat) : State := set (set (set prot .edx edx) .eax eax) .ecx ecx

/-- The largest quotients that fit, the smallest that do not, and a divisor of 0. -/
theorem witness_DivideResult :
    (∃ d t, RmIs (dividing 0 0xFFFFFFFF 1).begun .d32 (rg .ecx) d t ∧ d ≠ 0 ∧
      ((dividing 0 0xFFFFFFFF 1).dividend .d32).toNat / d.toNat < 2 ^ Width.d32.bits) ∧
    (∃ d t, RmIs (dividing 0xFFFFFFFF 0x80000000 1).begun .d32 (rg .ecx) d t ∧ d ≠ 0 ∧
      misfits Width.d32.bits (((dividing 0xFFFFFFFF 0x80000000 1).dividend .d32).toInt.tdiv d.toInt) = false) ∧
    (∃ d t, RmIs (dividing 1 0 1).begun .d32 (rg .ecx) d t ∧
      2 ^ Width.d32.bits ≤ ((dividing 1 0 1).dividend .d32).toNat / d.toNat) ∧
    (∃ d t, RmIs (dividing 0 0x80000000 1).begun .d32 (rg .ecx) d t ∧
      misfits Width.d32.bits (((dividing 0 0x80000000 1).dividend .d32).toInt.tdiv d.toInt) = true) ∧
    ∃ d t, RmIs (dividing 0 0 0).begun .d32 (rg .ecx) d t ∧ d = 0 :=
  ⟨⟨_, _, .reg _, by decide +kernel, by decide +kernel⟩, ⟨_, _, .reg _, by decide +kernel, by decide +kernel⟩,
    ⟨_, _, .reg _, by decide +kernel⟩, ⟨_, _, .reg _, by decide +kernel⟩, ⟨_, _, .reg _, by decide +kernel⟩⟩

theorem witness_DecimalAdjust :
    (∃ (i : Instr) (g : Byte → Byte → Byte), (i = .daa ∧ g = (fun a k => a + k)) ∨ (i = .das ∧ g = fun a k => a - k)) ∧
    (∃ (i : Instr) (g : Byte → Byte → Byte), (i = .aaa ∧ g = (fun a k => a + k)) ∨ (i = .aas ∧ g = fun a k => a - k)) ∧ (0xFF : Byte) ≠ 0 :=
  ⟨⟨.das, _, .inr ⟨rfl, rfl⟩⟩, ⟨.aas, _, .inr ⟨rfl, rfl⟩⟩, by decide⟩

/-- Masked counts 0, 1 and 31. -/
theorem witness_ShiftResult : (∃ x n t put, ShiftAt prot.begun (.imm .b8 (rg .eax) 32) .b8 x n t put ∧ n = 0) ∧
    (∃ x n t put, ShiftAt prot.begun (.one .d32 (.mem top)) .d32 x n t put ∧ n = 1) ∧
    ∃ x n t put, ShiftAt (set prot .ecx 0xFF).begun (.cl .w16 (.mem m5)) .w16 x n t put ∧ n = 31 :=
  ⟨⟨_, _, _, _, .imm _ (.reg _), by decide +kernel⟩,
    ⟨_, _, _, _, .one (.mem _ _ _ (reach (by decide +kernel)) (by decide +kernel)), rfl⟩,
    ⟨_, _, _, _, .cl (.mem _ _ _ (reach (by decide +kernel)) (by decide +kernel)), by decide +kernel⟩⟩

theorem witness_ShiftMeaning : ∃ k, 0 < k ∧ k < 32 ∧ kindRcl.steps k (0x80 : Byte) true = (0x0C, false) :=
  ⟨31, by decide +kernel⟩

/-- Counts 0, one less than the width, the width, 31 with a width of 16. -/
theorem witness_DoubleShiftResult :
    (∃ x y k t put, DShiftAt prot.begun (.imm .w16 (rg .eax) .ebx 32) .w16 x y k t put ∧ k = 0) ∧
    (∃ x y k t put, DShiftAt prot.begun (.imm .w16 (.mem m5) .ebx 15) .w16 x y k t put ∧ 0 < k ∧ k < Width.w16.bits ∧
      k = 15) ∧
    (∃ x y k t put, DShiftAt prot.begun (.imm .d32 (.mem top) .ebx 31) .d32 x y k t put ∧ 0 < k ∧ k < Width.d32.bits) ∧
    (∃ x y k t put, DShiftAt prot.begun (.imm .w16 (rg .eax) .ebx 16) .w16 x y k t put ∧ Width.w16.bits ≤ k ∧ k = 16) ∧
    ∃ x y k t put, DShiftAt (set prot .ecx 0xFF).begun (.cl .w16 (rg .eax) .ebx) .w16 x y k t put ∧ Width.w16.bits ≤ k :=
  ⟨⟨_, _, _, _, _, .imm _ _ (.reg _), by decide +kernel⟩,
    ⟨_, _, _, _, _, .imm _ _ (.mem _ _ _ (reach (by decide +kernel)) (by decide +kernel)), by decide +kernel⟩,
    ⟨_, _, _, _, _, .imm _ _ (.mem _ _ _ (reach (by decide +kernel)) (by decide +kernel)), by decide +kernel⟩,
    ⟨_, _, _, _, _, .imm _ _ (.reg _), by decide +kernel⟩, ⟨_, _, _, _, _, .cl _ (.reg _), by decide +kernel⟩⟩

/-- A bit string that begins below its address; the lowest and the highest bit; an operand of 0. -/
theorem witness_BitTestResult :
    (∃ v k t, BitIs (set prot .ecx 0xFFFFFFFF).begun (.reg .d32 (.mem top) .ecx) .d32 v k t) ∧
    (∃ v k t put, BitAt (set prot .ecx 0xFFFFFFFF).begun (.reg .d32 (.mem top) .ecx) .d32 v k t put) ∧
    (∃ v t, RmIs (set prot .ebx 0).begun .d32 (rg .ebx) v t ∧ v = 0) ∧
    (∃ v t, RmIs (set prot .ebx 0x80000000).begun .d32 (rg .ebx) v t ∧ v.getLsbD 31 = true ∧
      ∀ j, j < 31 → v.getLsbD j = false) ∧
    ∃ v t, RmIs (set prot .ebx 1).begun .d32 (rg .ebx) v t ∧ v.getLsbD 0 = true ∧ ∀ j, 0 < j → v.getLsbD j = false :=
  ⟨⟨_, _, _, .mem _ _ _ _ _ (reach (by decide +kernel))⟩, ⟨_, _, _, _, .mem _ _ _ _ _ (reach (by decide +kernel)) (by decide +kernel)⟩,
    ⟨_, _, .reg _, by decide +kernel⟩, ⟨_, _, .reg _, by decide +kernel, by decide +kernel⟩,
    ⟨_, _, .reg _, by decide +kernel, fun j h => by
      by_cases hj : j < 32
      · have : ∀ j < 32, 0 < j → ((set prot .ebx 1).begun.reg .d32 .ebx).getLsbD j = false := by decide +kernel
        exact this j hj h
      · exact BitVec.getLsbD_of_ge _ _ (Nat.le_of_not_lt hj)⟩⟩

theorem witness_SetccResult : ∃ put, RmPut prot.begun .b8 (.mem top) put :=
  ⟨_, .mem _ _ _ (reach (by decide +kernel))⟩

/-- A null segment, one that cannot be written, and an offset beyond the limit, in DS and in SS. -/
theorem witness_SetccResult_segment :
    (({ prot with ds := { flat with valid := false } } : State).sreg (segOf m5)).valid = false ∧ segOf m5 ≠ .ss ∧
    (prot.cs.valid = true ∧ prot.prot = true ∧ prot.cs.writable = false) ∧
    ∀ sr ∈ [SReg.ds, .ss],
      let s : State := { prot with ds := { flat with limit := 0x4FFF }, ss := { flat with limit := 0x4FFF } }
      (s.sreg sr).valid = true ∧ (s.sreg sr).writable = true ∧ inLimit (s.sreg sr) (s.memEa m5) 1 = false := by decide +kernel

theorem witness_MovResult : (∃ put, RmPut prot.begun .d32 (.mem top) put) ∧
    (∃ v t, RmIs prot.begun .d32 (.mem top) v t) ∧ ∃ y t put, RmAt prot.begun .d32 (.mem top) y t put :=
  ⟨⟨_, .mem _ _ _ (reach (by decide +kernel))⟩, ⟨_, _, .mem _ _ _ (reach (by decide +kernel))⟩,
    ⟨_, _, _, .mem _ _ _ (reach (by decide +kernel)) (by decide +kernel)⟩⟩

theorem witness_ExtendResult : (∃ v t, RmIs prot.begun .w16 (.mem m5) v t) ∧
    ∃ pas t, Reach prot.begun prot.user .ds (cut (Width.d32 = .d32) (prot.idx .d32 .ebx + (prot.reg .b8 .eax).setWidth 32)) 1
      false pas t :=
  ⟨⟨_, _, .mem _ _ _ (reach (by decide +kernel))⟩, ⟨_, _, reach (by decide +kernel)⟩⟩

/-- Virtual 8086 mode with IOPL 3: CS 100H, the data segments 200H, SS 300H. -/
def v86 : State :=
  { set prot .esp 0x1000 with
    cs := SegReg.loadV86 0x100 true, ss := SegReg.loadV86 0x300 false, ds := SegReg.loadV86 0x200 false,
    es := SegReg.loadV86 0x200 false, fs := SegReg.loadV86 0x200 false, gs := SegReg.loadV86 0x200 false,
    eip := 0, cpl := 3, eflags := 0x23202 }
/-- A far pointer 0010H:00000020H at 5000H. -/
def pointing (s : State) : State := put s 0x5000 [0x20, 0, 0, 0, 0x10, 0]

theorem witness_SegmentRegisterMoves :
    (∃ put, RmPut prot.begun .w16 (.mem m5) put) ∧
    (∃ sel t u, RmIs (set real .eax 0xFFFF).begun .w16 (rg .eax) sel t ∧ SregLoad t .ss sel u) ∧
    (∃ sel t u, RmIs v86.begun .w16 (rg .eax) sel t ∧ SregLoad t .gs sel u) ∧
    (∃ sel t u, RmIs (set prot .eax 3).begun .w16 (rg .eax) sel t ∧ SregLoad t .ds sel u) ∧
    (∃ sel t u, RmIs (set prot .eax 0x10).begun .w16 (rg .eax) sel t ∧ SregLoad t .ss sel u) ∧
    ∃ sel off t u, FarMem (pointing prot).begun .d32 m5 sel off t ∧ SregLoad t .es sel u :=
  ⟨⟨_, .mem _ _ _ (reach (by decide +kernel))⟩, ⟨_, _, _, .reg _, .real (by decide +kernel)⟩,
    ⟨_, _, _, .reg _, .v86 (by decide +kernel) (by decide)⟩,
    ⟨_, _, _, .reg _, .null (by decide +kernel) (by decide) (by decide +kernel)⟩,
    ⟨_, _, _, .reg _, .stack (by decide +kernel) rfl (by decide +kernel) _ _ _ (okD (by decide +kernel)) (by decide +kernel)
      (by decide +kernel) (by decide +kernel) (okU (by decide +kernel))⟩,
    ⟨_, _, _, _, .mk _ _ _ _ (reach (by decide +kernel)) (by decide +kernel) (reach (by decide +kernel)),
      .data (by decide +kernel) (by decide) (by decide +kernel) _ _ _ (okD (by decide +kernel)) (by decide +kernel)
        (by decide +kernel) (by decide +kernel) (okU (by decide +kernel))⟩⟩

theorem witness_PushResult : (∃ put, PushTo (set prot .esp 0).begun .d32 put) ∧
    (∃ v t put, RmIs prot.begun .w16 (.mem m5) v t ∧ PushTo t .w16 put) ∧ (∃ put, PushTo real.begun .w16 put) ∧
    ∃ put, PushTo { prot.begun with free := prot.free + 1 } .d32 put :=
  ⟨⟨_, .mk _ _ (reach (by decide +kernel))⟩,
    ⟨_, _, _, .mem _ _ _ (reach (by decide +kernel)), .mk _ _ (reach (by decide +kernel))⟩,
    ⟨_, .mk _ _ (reach (by decide +kernel))⟩, ⟨_, .mk _ _ (reach (by decide +kernel))⟩⟩

theorem witness_PopResult :
    (∃ v t put, PopFrom prot.begun .d32 v t ∧ RmPut t .d32 (.mem top) put) ∧
    (∃ v t u, PopFrom (set real .esp 0xFFFE).begun .w16 v t ∧ SregLoad t .ss (v.setWidth 16) u) ∧
    ∃ v t u, PopFrom (put prot 0x9000 [0x10]).begun .d32 v t ∧ SregLoad t .es (v.setWidth 16) u :=
  ⟨⟨_, _, _, .mk _ _ (reach (by decide +kernel)), .mem _ _ _ (reach (by decide +kernel))⟩,
    ⟨_, _, _, .mk _ _ (reach (by decide +kernel)), .real (by decide +kernel)⟩,
    ⟨_, _, _, .mk _ _ (reach (by decide +kernel)), .data (by decide +kernel) (by decide) (by decide +kernel) _ _ _
      (okD (by decide +kernel)) (by decide +kernel) (by decide +kernel) (by decide +kernel) (okU (by decide +kernel))⟩⟩

/-- An item pushed without paging. -/
theorem pushes {w : Width} {s z : State} {v : BitVec w.bits} {vs : List (BitVec w.bits)}
    (h : (!s.pg && s.segOk .ss (s.pushOff w) w.bytes true) = true)
    (hs : Pushes w ((((s.noted .ss (s.pushOff w) w.bytes true).storeAt w
      ((span (s.linOf .ss (s.pushOff w)) w.bytes).map BitVec.toNat) v)).setEsp (s.pushOff w)) vs z) :
    Pushes w s (v :: vs) z := .cons (.mk _ _ (reach h)) hs
/-- An item popped without paging. -/
theorem pops {w : Width} {s z : State} {vs : List (BitVec w.bits)}
    (h : (!s.pg && s.segOk .ss s.esp w.bytes false) = true)
    (hs : Pops w (((s.noted .ss s.esp w.bytes false).afterRead ((span (s.linOf .ss s.esp) w.bytes).map BitVec.toNat)).setEsp
      (s.esp + BitVec.ofNat 32 w.bytes)) vs z) :
    Pops w s ((s.noted .ss s.esp w.bytes false).valueAt w ((span (s.linOf .ss s.esp) w.bytes).map BitVec.toNat) :: vs) z :=
  .cons (.mk _ _ (reach h)) hs

theorem witness_PushAllPopAll :
    (∃ u t, pushaChecks Width.w16.bytes 8 real.begun.esp real.begun = .ok () u ∧
      Pushes .w16 u [real.reg .w16 .eax, real.reg .w16 .ecx, real.reg .w16 .edx, real.reg .w16 .ebx, real.reg .w16 .esp,
        real.reg .w16 .ebp, real.reg .w16 .esi, real.reg .w16 .edi] t) ∧
    ∃ di si bp sp bx dx cx ax t, Pops .d32 prot.begun [di, si, bp, sp, bx, dx, cx, ax] t :=
  ⟨⟨_, _, okU (by decide +kernel), pushes (by decide +kernel) <| pushes (by decide +kernel) <|
      pushes (by decide +kernel) <| pushes (by decide +kernel) <| pushes (by decide +kernel) <|
      pushes (by decide +kernel) <| pushes (by decide +kernel) <| pushes (by decide +kernel) <| .nil _⟩,
    ⟨_, _, _, _, _, _, _, _, _, pops (by decide +kernel) <| pops (by decide +kernel) <| pops (by decide +kernel) <|
      pops (by decide +kernel) <| pops (by decide +kernel) <| pops (by decide +kernel) <| pops (by decide +kernel) <|
      pops (by decide +kernel) <| .nil _⟩⟩

/-- IOPL 3 in V86 mode, and IOPL 2. -/
theorem witness_FlagTransfer : ¬(v86.v86 = true ∧ v86.iopl < 3) ∧ (∃ put, PushTo v86.begun .w16 put) ∧
    (∃ v t, PopFrom v86.begun .d32 v t) ∧ ({ v86 with eflags := 0x22202 } : State).v86 = true ∧
    ({ v86 with eflags := 0x22202 } : State).iopl < 3 :=
  ⟨by decide +kernel, ⟨_, .mk _ _ (reach (by decide +kernel))⟩, ⟨_, _, .mk _ _ (reach (by decide +kernel))⟩,
    by decide +kernel⟩

/-- A state whose CS limit is 1010H, at the end of a two-byte instruction, with ZF set and ECX 1. -/
def short : State :=
  { (set prot .ecx 1).setFlag .zf true with cs := { prot.cs with limit := 0x1010 }, nextStart := 0x1002 }

/-- The last target within the limit and the first beyond it; a condition that does not hold. -/
theorem witness_ConditionalJump :
    (relForm (.rel8 .d32 0x0E) = (.d32, 0x0E) ∧ short.flag .zf = true ∧
      inLimit short.cs (cut (Width.d32 = .d32) (short.nextEip + 0x0E)) 1 = true) ∧
    (relForm (.rel .d32 0x0F) = (.d32, 0x0F) ∧ inLimit short.cs (cut (Width.d32 = .d32) (short.nextEip + 0x0F)) 1 = false) ∧
    (!short.flag .zf) = false ∧
    ((short.begun.setIdx .d32 .ecx (short.idx .d32 .ecx - 1)).idx .d32 .ecx != 0) = false ∧
    (prot.idx .w16 .ecx == 0) = true ∧ inLimit prot.cs (cut (Width.w16 = .d32) (prot.nextEip + (0xFE : Byte).signExtend 32)) 1
      = true ∧ ((prot.begun.setIdx .w16 .ecx (prot.idx .w16 .ecx - 1)).idx .w16 .ecx != 0) = true := by decide +kernel

/-- The last target within the limit and the first beyond it; a stack with room, and one of three bytes; a return to both. -/
theorem witness_NearTransfer :
    (∃ w off t put, NearIs short.begun (.rel8 .d32 0x0E) w off t ∧ inLimit t.cs (cut (w = .d32) off) 1 = true ∧
      t.roomOk w.bytes = true ∧ PushTo t w put) ∧
    (∃ w off t put, NearIs prot.begun (.rm .w16 (.mem m5)) w off t ∧ inLimit t.cs (cut (w = .d32) off) 1 = true ∧
      t.roomOk w.bytes = true ∧ PushTo t w put) ∧
    (∃ w off t, NearIs short.begun (.rel8 .d32 0x0F) w off t ∧ inLimit t.cs (cut (w = .d32) off) 1 = false ∧
      t.roomOk w.bytes = true) ∧
    (∃ w off t, NearIs (set prot .esp 3).begun (.rel8 .d32 0x0E) w off t ∧ t.roomOk w.bytes = false ∧
      t.mayWrite .ss = true) ∧
    (∃ v t u, PopFrom prot.begun .d32 v t ∧ u = t.setEsp (t.esp + retCount (some 0xFFFF)) ∧
      inLimit u.cs (cut (Width.d32 = .d32) (v.setWidth 32)) 1 = true) ∧
    ∃ v t u, PopFrom (put short 0x9000 [0x11, 0x10]).begun .d32 v t ∧ u = t.setEsp (t.esp + retCount none) ∧
      inLimit u.cs (cut (Width.d32 = .d32) (v.setWidth 32)) 1 = false :=
  ⟨⟨_, _, _, _, .rel8 _ _, by decide +kernel, by decide +kernel, .mk _ _ (reach (by decide +kernel))⟩,
    ⟨_, _, _, _, .rm (.mem _ _ _ (reach (by decide +kernel))), by decide +kernel, by decide +kernel,
      .mk _ _ (reach (by decide +kernel))⟩,
    ⟨_, _, _, .rel8 _ _, by decide +kernel, by decide +kernel⟩, ⟨_, _, _, .rel8 _ _, by decide +kernel, by decide +kernel⟩,
    ⟨_, _, _, .mk _ _ (reach (by decide +kernel)), rfl, by decide +kernel⟩,
    ⟨_, _, _, .mk _ _ (reach (by decide +kernel)), rfl, by decide +kernel⟩⟩

/-- The state after `k` frame pointers are copied, without paging, and whether they can be. -/
def copied : Nat → State → State × Bool
  | 0, s => (s, true)
  | k + 1, s =>
    let s' := s.setReg .d32 .ebp (s.reg .d32 .ebp - 4#32)
    let off := (s'.reg .d32 .ebp).setWidth 32
    let t := s'.noted .ss off 4 false
    let pas := (span (s'.linOf .ss off) 4).map BitVec.toNat
    let u := t.afterRead pas
    let z := ((u.noted .ss (u.pushOff .d32) 4 true).storeAt .d32
      ((span (u.linOf .ss (u.pushOff .d32)) 4).map BitVec.toNat) (t.valueAt .d32 pas)).setEsp (u.pushOff .d32)
    let r := copied k z
    (r.1, !s'.pg && s'.segOk .ss off 4 false && (!u.pg && u.segOk .ss (u.pushOff .d32) 4 true) && r.2)

theorem copies (k : Nat) (s : State) (h : (copied k s).2 = true) : FrameCopies .d32 k s (copied k s).1 := by
  induction k generalizing s with
  | zero => exact .zero s
  | succ k ih =>
    unfold copied at h
    rw [Bool.and_eq_true, Bool.and_eq_true] at h
    exact .succ rfl (reach h.1.1) (.mk _ _ (reach h.1.2)) (ih _ h.2)

/-- Levels 0 (written 20H), 1 and 31. -/
theorem witness_FrameInstructions :
    (∃ put, PushTo prot.begun .d32 put ∧ (0x20 : Byte) &&& 0x1F = 0 ∧
      inLimit ((put (prot.reg .d32 .ebp)).setReg .d32 .ebp (put (prot.reg .d32 .ebp)).esp).ss
        (cut ((put (prot.reg .d32 .ebp)).setReg .d32 .ebp (put (prot.reg .d32 .ebp)).esp).stack32
          (((put (prot.reg .d32 .ebp)).setReg .d32 .ebp (put (prot.reg .d32 .ebp)).esp).esp - (0xFFFF : Word).setWidth 32)) 1
        = true) ∧
    (∀ level ∈ ([1, 31] : List Byte), level &&& 0x1F ≠ 0 ∧ ∃ put x put' u, PushTo (set prot .ebp 0x7000).begun .d32 put ∧
      FrameCopies .d32 ((level &&& 0x1F).toNat - 1) (put 0x7000) x ∧ PushTo x .d32 put' ∧
      u = put' ((put 0x7000).esp.setWidth 32) ∧ inLimit u.ss (cut u.stack32 (u.esp - 8)) 1 = true) ∧
    ∃ v t, PopFrom (prot.begun.setEsp prot.regs.ebp) .d32 v t := by
  refine ⟨⟨_, .mk _ _ (reach (by decide +kernel)), by decide +kernel, by decide +kernel⟩, ?_,
    ⟨_, _, .mk _ _ (reach (by decide +kernel))⟩⟩
  intro level h
  simp only [List.mem_cons, List.not_mem_nil, or_false] at h
  obtain rfl | rfl := h <;>
  exact ⟨by decide, _, _, _, _, .mk _ _ (reach (by decide +kernel)), copies _ _ (by decide +kernel),
    .mk _ _ (reach (by decide +kernel)), rfl, by decide +kernel⟩

/-- An index at the upper bound, one above it. -/
theorem witness_BoundResult : ∀ p ∈ ([(9, false), (10, true)] : List (Nat × Bool)),
    ∃ pas pas' t u, Reach (put (set prot .eax p.1) 0x5004 [9]).begun (put (set prot .eax p.1) 0x5004 [9]).user (segOf m5)
        ((put (set prot .eax p.1) 0x5004 [9]).memEa m5) Width.d32.bytes false pas t ∧
      Reach (t.afterRead pas) (put (set prot .eax p.1) 0x5004 [9]).user (segOf m5)
        (nextOff m5 ((put (set prot .eax p.1) 0x5004 [9]).memEa m5) Width.d32.bytes) Width.d32.bytes false pas' u ∧
      decide ((u.valueAt .d32 pas').toInt < ((set prot .eax p.1).reg .d32 .eax).toInt) = p.2 ∧
      (t.valueAt .d32 pas).toInt ≤ ((set prot .eax p.1).reg .d32 .eax).toInt := by
  intro p h
  simp only [List.mem_cons, List.not_mem_nil, or_false] at h
  obtain rfl | rfl := h
  · exact ⟨_, _, _, _, reach (by decide +kernel), reach (by decide +kernel), by decide +kernel, by decide +kernel⟩
  · exact ⟨_, _, _, _, reach (by decide +kernel), reach (by decide +kernel), by decide +kernel, by decide +kernel⟩

/-- Items pushed as words without paging. -/
theorem words {u : Bool} {s z : State} {i : Item} {is : List Item}
    (h : (!s.pg && s.segOk .ss (s.pushOff .w16) Width.w16.bytes true) = true)
    (hs : Items u .w16 (((s.noted .ss (s.pushOff .w16) Width.w16.bytes true).storeAt .w16
      ((span (s.linOf .ss (s.pushOff .w16)) Width.w16.bytes).map BitVec.toNat)
      (match i with | .val v => v.setWidth 16 | .sel v => v)).setEsp (s.pushOff .w16)) is z) :
    Items u .w16 s (i :: is) z := by
  cases i
  · exact .cons rfl (reach h) hs
  · exact .cons rfl (reach h) hs

/-- Offset 0FFFFH is the last within a limit of 64 kilobytes; SP 2 has no room for two words. -/
theorem witness_FarTransferByParagraph :
    (∃ w sel off t u, real.paragraphs = true ∧ FarIs real.begun (.ptr .w16 0x2000 0xFFFF) w sel off t ∧
      inLimit t.cs off 1 = true ∧ t.roomOk (2 * w.bytes) = true ∧
      Items real.user w t [.sel real.cs.sel, .val real.nextEip] u) ∧
    (∃ w sel off t, v86.paragraphs = true ∧ FarIs v86.begun (.ptr .d32 0x2000 0x10000) w sel off t ∧
      inLimit t.cs off 1 = false ∧ t.roomOk (2 * w.bytes) = true) ∧
    ∃ w sel off t, (set real .esp 2).paragraphs = true ∧ FarIs (set real .esp 2).begun (.ptr .w16 0x2000 0) w sel off t ∧
      t.roomOk (2 * w.bytes) = false ∧ t.mayWrite .ss = true :=
  ⟨⟨_, _, _, _, _, by decide +kernel, .ptr _ _ _, by decide +kernel, by decide +kernel,
      words (by decide +kernel) <| words (by decide +kernel) <| .nil _⟩,
    ⟨_, _, _, _, by decide +kernel, .ptr _ _ _, by decide +kernel, by decide +kernel⟩,
    ⟨_, _, _, _, by decide +kernel, .ptr _ _ _, by decide +kernel, by decide +kernel⟩⟩

/-- A 16-bit call gate at selector 38H to offset 2000H of segment 8, for parameters `n`. -/
def gated (s : State) (n : Nat) : State := put s 0x4038 [0, 0x20, 8, 0, n, 0xE4, 0, 0]

theorem witness_FarTransferSame :
    (∃ w sel off t u d z v, prot.prot = true ∧ FarIs prot.begun (.ptr .w16 8 0x2000) w sel off t ∧ nullSel sel = false ∧
      fetchDesc sel t = .ok (some d) u ∧ d.directOk sel prot.cpl ∧ inLimit (d.toSeg sel) off 1 = true ∧
      (∃ v', setAccessed sel d u = .ok () v') ∧ u.roomOk (2 * w.bytes) = true ∧
      Items prot.user w u [.sel prot.cs.sel, .val prot.nextEip] z ∧ setAccessed sel d z = .ok () v) ∧
    (∃ w sel off t u d, prot.prot = true ∧ FarIs (desc prot 0x18 0 0xFFF 0x9A 4).begun (.ptr .w16 0x18 0x1000) w sel off t ∧
      nullSel sel = false ∧ fetchDesc sel t = .ok (some d) u ∧ d.directOk sel prot.cpl ∧
      inLimit (d.toSeg sel) off 1 = false ∧ u.roomOk (2 * w.bytes) = true) ∧
    (∃ w sel off t u u' g c z v, (gated prot 0).prot = true ∧ FarIs (gated prot 0).begun (.ptr .d32 0x38 9) w sel off t ∧
      nullSel sel = false ∧ fetchDesc sel t = .ok (some g) u ∧ g.isCallGate = true ∧ (gated prot 0).cpl ≤ g.dpl ∧
      selRpl sel ≤ g.dpl ∧ g.p = true ∧ nullSel g.gateSel = false ∧ fetchDesc g.gateSel u = .ok (some c) u' ∧
      c.isCode = true ∧ c.p = true ∧ (c.conforming = false ∧ c.dpl = (gated prot 0).cpl) ∧ g.typ.getLsbD 3 = false ∧
      inLimit (c.toSeg g.gateSel) (g.gateOffset false) 1 = true ∧ (∃ v', setAccessed g.gateSel c u' = .ok () v') ∧
      u'.roomOk (2 * Width.w16.bytes) = true ∧
      Items (gated prot 0).user .w16 u' [.sel (gated prot 0).cs.sel, .val (gated prot 0).nextEip] z ∧
      setAccessed g.gateSel c z = .ok () v) ∧
    ∃ w sel off t u u' g c, FarIs (gated (desc prot 8 0 0x1FFF 0x9A 4) 0).begun (.ptr .d32 0x38 9) w sel off t ∧
      nullSel sel = false ∧ fetchDesc sel t = .ok (some g) u ∧ g.isCallGate = true ∧ prot.cpl ≤ g.dpl ∧
      selRpl sel ≤ g.dpl ∧ g.p = true ∧ nullSel g.gateSel = false ∧ fetchDesc g.gateSel u = .ok (some c) u' ∧
      c.isCode = true ∧ c.p = true ∧ (c.conforming = false ∧ c.dpl = prot.cpl) ∧ g.typ.getLsbD 3 = false ∧
      inLimit (c.toSeg g.gateSel) (g.gateOffset false) 1 = false ∧ u'.roomOk (2 * Width.w16.bytes) = true :=
  ⟨⟨_, _, _, _, _, _, _, _, by decide +kernel, .ptr _ _ _, by decide +kernel, okD (by decide +kernel),
      ⟨by decide +kernel, by decide +kernel, .inr (by decide +kernel)⟩, by decide +kernel, ⟨_, okU (by decide +kernel)⟩,
      by decide +kernel, words (by decide +kernel) <| words (by decide +kernel) <| .nil _, okU (by decide +kernel)⟩,
    ⟨_, _, _, _, _, _, by decide +kernel, .ptr _ _ _, by decide +kernel, okD (by decide +kernel),
      ⟨by decide +kernel, by decide +kernel, .inr (by decide +kernel)⟩, by decide +kernel, by decide +kernel⟩,
    ⟨_, _, _, _, _, _, _, _, _, _, by decide +kernel, .ptr _ _ _, by decide +kernel, okD (by decide +kernel),
      by decide +kernel, by decide +kernel, by decide +kernel, by decide +kernel, by decide +kernel, okD (by decide +kernel),
      by decide +kernel, by decide +kernel, by decide +kernel, by decide +kernel, by decide +kernel,
      ⟨_, okU (by decide +kernel)⟩, by decide +kernel,
      words (by decide +kernel) <| words (by decide +kernel) <| .nil _, okU (by decide +kernel)⟩,
    ⟨_, _, _, _, _, _, _, _, .ptr _ _ _, by decide +kernel, okD (by decide +kernel), by decide +kernel, by decide +kernel,
      by decide +kernel, by decide +kernel, by decide +kernel, okD (by decide +kernel), by decide +kernel, by decide +kernel,
      by decide +kernel, by decide +kernel, by decide +kernel, by decide +kernel⟩⟩

theorem witness_FarReturn :
    (∃ off csv t u, real.paragraphs = true ∧ StackItem real.begun 0 .w16 off t ∧ StackItem t Width.w16.bytes .w16 csv u ∧
      inLimit u.cs (off.setWidth 32) 1 = true) ∧
    ∃ rs off t u v z d, (put prot 0x9004 [8]).prot = true ∧ StackItem (put prot 0x9004 [8]).begun Width.d32.bytes .w16 rs t ∧
      selRpl rs = (put prot 0x9004 [8]).cpl ∧ nullSel rs = false ∧ fetchDesc rs t = .ok (some d) u ∧
      d.returnOk (put prot 0x9004 [8]).cpl ∧ StackItem u 0 .d32 off v ∧ inLimit (d.toSeg rs) (off.setWidth 32) 1 = true ∧
      setAccessed rs d v = .ok () z :=
  ⟨⟨_, _, _, _, by decide +kernel, .mk _ _ (reach (by decide +kernel)), .mk _ _ (reach (by decide +kernel)),
      by decide +kernel⟩,
    ⟨_, _, _, _, _, _, _, by decide +kernel, .mk _ _ (reach (by decide +kernel)), by decide +kernel, by decide +kernel,
      okD (by decide +kernel), ⟨by decide +kernel, by decide +kernel, .inr (by decide +kernel)⟩,
      .mk _ _ (reach (by decide +kernel)), by decide +kernel, okU (by decide +kernel)⟩⟩

/-- Vector 0FFH is the last that an IDT limit of 3FFH holds; a limit of 22H is one short of holding vector 8. A limit that
holds vector 8: see `witness_DeliveryReal_limit`. -/
theorem witness_DeliveryReal :
    (∃ off seg t u z, (set real .esp 0x100).pe = false ∧ 4 * (0xFF : Byte).toNat + 3 ≤ (set real .esp 0x100).idtr.limit.toNat ∧
      Items (set real .esp 0x100).user .w16 (set real .esp 0x100) [.val 0x202, .sel (set real .esp 0x100).cs.sel, .val 0x600] t ∧
      sysRead16 ((set real .esp 0x100).idtr.base + BitVec.ofNat 32 (4 * (0xFF : Byte).toNat)) t = .ok off u ∧
      sysRead16 ((set real .esp 0x100).idtr.base + BitVec.ofNat 32 (4 * (0xFF : Byte).toNat + 2)) u = .ok seg z) ∧
    real.pe = false ∧ ({ real with idtr := ⟨0, 0x22⟩ } : State).idtr.limit.toNat < 4 * (9 : Byte).toNat + 3 ∧
      ({ real with idtr := ⟨0, 0x22⟩ } : State).idtr.limit.toNat < 4 * 8 + 3 :=
  ⟨⟨_, _, _, _, _, by decide +kernel, by decide +kernel,
      words (by decide +kernel) <| words (by decide +kernel) <| words (by decide +kernel) <| .nil _,
      okV (by decide +kernel), okV (by decide +kernel)⟩, by decide +kernel⟩

/-- #GP with an error code. -/
def gp (ret : Dword) : Event := { vec := 13, kind := .exc, code := some 0x18, isFault := true, ret := ret }

theorem witness_DeliverySame : ∃ g c t u z v, prot.prot = true ∧
    (gp 0x1000).vec.toNat * 8 + 7 ≤ prot.idtr.limit.toNat ∧
    readDesc (prot.idtr.base + ((gp 0x1000).vec.setWidth 32 <<< 3)) prot = .ok g t ∧ g.s = false ∧ g.typ = 6 ∧
    ((gp 0x1000).kind = .soft → prot.cpl ≤ g.dpl) ∧ g.p = true ∧ nullSel g.gateSel = false ∧
    fetchDesc g.gateSel t = .ok (some c) u ∧ c.isCode = true ∧ c.p = true ∧ (c.conforming = false ∧ c.dpl = prot.cpl) ∧
    g.typ.getLsbD 3 = false ∧ u.roomOk ((gp 0x1000).frame .w16 3) = true ∧
    inLimit (c.toSeg g.gateSel) (g.gateOffset false) 1 = true ∧
    Items prot.user .w16 u ([.val ((gp 0x1000).image prot), .sel prot.cs.sel, .val (gp 0x1000).ret] ++
      ((gp 0x1000).code.map Item.sel).toList) z ∧
    setAccessed g.gateSel c z = .ok () v :=
  ⟨_, _, _, _, _, _, by decide +kernel, by decide +kernel, okV (by decide +kernel), by decide +kernel, by decide +kernel,
    by decide +kernel, by decide +kernel, by decide +kernel, okD (by decide +kernel), by decide +kernel, by decide +kernel,
    by decide +kernel, by decide +kernel, by decide +kernel, by decide +kernel,
    words (by decide +kernel) <| words (by decide +kernel) <| words (by decide +kernel) <| words (by decide +kernel) <| .nil _,
    okU (by decide +kernel)⟩

theorem witness_SoftwareInterrupt :
    (∃ t, deliver { vec := 0x21, kind := .soft, code := none, isFault := false, ret := real.nextEip }
      (set real .esp 0x100).begun = .ok () t) ∧
    (∃ t, (real.setFlag .of true).flag .of = true ∧
      deliver { vec := 4, kind := .soft, code := none, isFault := false, ret := real.nextEip } (real.setFlag .of true).begun =
        .ok () t) ∧
    real.flag .of = false ∧ ({ v86 with eflags := 0x22202 } : State).v86 = true ∧
      ({ v86 with eflags := 0x22202 } : State).iopl < 3 :=
  ⟨⟨_, okU (by decide +kernel)⟩, ⟨_, by decide +kernel, okU (by decide +kernel)⟩, by decide +kernel⟩

/-- Protected mode with an IRET frame to 8:0000H on the stack, FLAGS 0. -/
def returning : State := put prot 0x9002 [8]
/-- The same with doublewords. -/
def returningd : State := put prot 0x9004 [8]

/-- V86 mode with IOPL 2. -/
def v86low : State := { v86 with eflags := 0x22202 }
/-- An IRETD frame to V86 mode, 0100:0000H with IOPL 3, on the stack of level 0. -/
def to86 : State := put prot 0x9000 [0, 0, 0, 0, 0, 1, 0, 0, 2, 0x32, 2]

theorem witness_InterruptReturn :
    (v86low.v86 = true ∧ v86low.iopl < 3) ∧
    (∃ fl' t₀ t off csv fl nsp nss es ds fs gs, to86.prot = true ∧ to86.flag .nt = false ∧ to86.cpl = 0 ∧
      StackItem { to86.begun with nmiMask := false } 8 .d32 fl' t₀ ∧ fl'.getLsbD 17 = true ∧
      t₀.topOk 36 = true ∧
      StackItems .d32 t₀ [0, 4, 8, 12, 16, 20, 24, 28, 32] [off, csv, fl, nsp, nss, es, ds, fs, gs] t ∧ off.toNat ≤ 0xFFFF) ∧
    (∃ off csv fl t u v, v86.v86 = true ∧ v86.iopl = 3 ∧ StackItem { v86.begun with nmiMask := false } 0 .w16 off t ∧
      StackItem t Width.w16.bytes .w16 csv u ∧ StackItem u (2 * Width.w16.bytes) .w16 fl v ∧
      inLimit v.cs (off.setWidth 32) 1 = true) ∧
    (∃ rs off fl t t₁ u v z d, returning.prot = true ∧ returning.flag .nt = false ∧
      StackItem { returning.begun with nmiMask := false } Width.w16.bytes .w16 rs t ∧ selRpl rs = returning.cpl ∧
      nullSel rs = false ∧ t.topOk (3 * Width.w16.bytes) = true ∧ fetchDesc rs t = .ok (some d) t₁ ∧
      d.returnOk returning.cpl ∧ StackItem t₁ 0 .w16 off u ∧ inLimit (d.toSeg rs) (off.setWidth 32) 1 = true ∧
      StackItem u (2 * Width.w16.bytes) .w16 fl v ∧ setAccessed rs d v = .ok () z) ∧
    ∃ fl' rs off fl t₀ t t₁ u v z d, returningd.prot = true ∧ returningd.flag .nt = false ∧ returningd.cpl = 0 ∧
      StackItem { returningd.begun with nmiMask := false } 8 .d32 fl' t₀ ∧ fl'.getLsbD 17 = false ∧
      StackItem t₀ Width.d32.bytes .w16 rs t ∧ selRpl rs = returningd.cpl ∧
      nullSel rs = false ∧ t.topOk (3 * Width.d32.bytes) = true ∧ fetchDesc rs t = .ok (some d) t₁ ∧
      d.returnOk returningd.cpl ∧ StackItem t₁ 0 .d32 off u ∧ inLimit (d.toSeg rs) (off.setWidth 32) 1 = true ∧
      StackItem u (2 * Width.d32.bytes) .d32 fl v ∧ setAccessed rs d v = .ok () z :=
  ⟨by decide +kernel,
    ⟨_, _, _, _, _, _, _, _, _, _, _, _, by decide +kernel, by decide +kernel, by decide +kernel,
      .mk _ _ (reach (by decide +kernel)), by decide +kernel, by decide +kernel,
      .cons (.mk _ _ (reach (by decide +kernel))) <| .cons (.mk _ _ (reach (by decide +kernel))) <|
        .cons (.mk _ _ (reach (by decide +kernel))) <| .cons (.mk _ _ (reach (by decide +kernel))) <|
        .cons (.mk _ _ (reach (by decide +kernel))) <| .cons (.mk _ _ (reach (by decide +kernel))) <|
        .cons (.mk _ _ (reach (by decide +kernel))) <| .cons (.mk _ _ (reach (by decide +kernel))) <|
        .cons (.mk _ _ (reach (by decide +kernel))) <| .nil _, by decide +kernel⟩,
    ⟨_, _, _, _, _, _, by decide +kernel, by decide +kernel, .mk _ _ (reach (by decide +kernel)),
      .mk _ _ (reach (by decide +kernel)), .mk _ _ (reach (by decide +kernel)), by decide +kernel⟩,
    ⟨_, _, _, _, _, _, _, _, _, by decide +kernel, by decide +kernel, .mk _ _ (reach (by decide +kernel)), by decide +kernel,
      by decide +kernel, by decide +kernel, okD (by decide +kernel),
      ⟨by decide +kernel, by decide +kernel, .inr (by decide +kernel)⟩, .mk _ _ (reach (by decide +kernel)),
      by decide +kernel, .mk _ _ (reach (by decide +kernel)), okU (by decide +kernel)⟩,
    ⟨_, _, _, _, _, _, _, _, _, _, _, by decide +kernel, by decide +kernel, by decide +kernel,
      .mk _ _ (reach (by decide +kernel)), by decide +kernel, .mk _ _ (reach (by decide +kernel)), by decide +kernel,
      by decide +kernel, by decide +kernel, okD (by decide +kernel),
      ⟨by decide +kernel, by decide +kernel, .inr (by decide +kernel)⟩, .mk _ _ (reach (by decide +kernel)),
      by decide +kernel, .mk _ _ (reach (by decide +kernel)), okU (by decide +kernel)⟩⟩

/-- Both elements in the first doubleword of the segments; a repeat prefix with a count of 1 and of 0. -/
theorem witness_StringMoves :
    (∃ v t put, ((str .d32).rep = .none ∨ prot.idx .d32 .ecx ≠ 0) ∧ StrSrc prot.begun .d32 (str .d32) v t ∧
      StrPut t .d32 (str .d32) put) ∧
    (∃ put, (set prot .ecx 1).idx .d32 .ecx ≠ 0 ∧ StrPut (set prot .ecx 1).begun .w16 ⟨.d32, none, .rep⟩ put) ∧
    (⟨.w16, none, .rep⟩ : StrAttr).rep ≠ .none ∧ (set prot .ecx 0x10000).idx .w16 .ecx = 0 :=
  ⟨⟨_, _, _, .inl rfl, .mk _ _ (by decide +kernel) (reach (by decide +kernel)), .mk _ _ (by decide +kernel) (reach (by decide +kernel))⟩,
    ⟨_, by decide +kernel, .mk _ _ (by decide +kernel) (reach (by decide +kernel))⟩, by decide, by decide +kernel⟩

theorem witness_StringCompares : ∃ x y t u, ((str .w16).rep = .none ∨ prot.idx .w16 .ecx ≠ 0) ∧
    StrSrc prot.begun .b8 (str .w16) x t ∧ StrDst t .b8 (str .w16) y u :=
  ⟨_, _, _, _, .inl rfl, .mk _ _ (by decide +kernel) (reach (by decide +kernel)), .mk _ _ (by decide +kernel) (reach (by decide +kernel))⟩

/-- An aligned port and one that is not; a port allowed and one denied by the permission map. -/
theorem witness_PortTransfer :
    ((0x300 : Word).toNat % Width.d32.bytes = 0 ∧ (0x301 : Word).toNat % Width.d32.bytes ≠ 0) ∧
    (∃ t, prot.ioForm (.dx .d32) = (.d32, prot.reg .w16 .edx) ∧ PortOk prot.begun (prot.reg .w16 .edx) .d32 t) ∧
    (∃ t, user.ioForm (.imm .b8 0) = (.b8, 0) ∧ PortOk user.begun 0 .b8 t) ∧
    (∃ t, user.ioForm (.imm .b8 1) = (.b8, 1) ∧ user.ioMapped = true ∧
      ioPermission 1 Width.b8.bytes user.begun = .ok false t) ∧
    (∃ t u put, PortOk prot.begun (prot.reg .w16 .edx) .b8 t ∧
      memWriteCheck prot.user .es (prot.idx .d32 .edi) Width.b8.bytes t = .ok () u ∧
      StrPut (u.ioTook (prot.reg .w16 .edx) .b8) .b8 (str .d32) put) ∧
    (∃ t x u, PortOk prot.begun (prot.reg .w16 .edx) .w16 t ∧ StrSrc t .w16 (str .d32) x u) ∧
    ∃ t, (set user .edx 1).ioMapped = true ∧
      ioPermission ((set user .edx 1).reg .w16 .edx) Width.b8.bytes (set user .edx 1).begun = .ok false t := by
  have h0 : isOk (ioPermission 0 1) user.begun = true := by decide +kernel
  have h1 : isOk (ioPermission 1 1) user.begun = true := by decide +kernel
  have a0 : answer (ioPermission 0 1) user.begun = true := by decide +kernel
  have a1 : answer (ioPermission 1 1) user.begun = false := by decide +kernel
  exact ⟨by decide, ⟨_, by decide +kernel, .free (by decide +kernel)⟩,
    ⟨_, by decide +kernel, .mapped _ (by decide +kernel) ((okV h0).trans (by rw [a0]))⟩,
    ⟨_, by decide +kernel, by decide +kernel, (okV h1).trans (by rw [a1])⟩,
    ⟨_, _, _, .free (by decide +kernel), okU (by decide +kernel), .mk _ _ (by decide +kernel) (reach (by decide +kernel))⟩,
    ⟨_, _, _, .free (by decide +kernel), .mk _ _ (by decide +kernel) (reach (by decide +kernel))⟩,
    ⟨_, by decide +kernel, okA (by decide +kernel) (by decide +kernel)⟩⟩

/-- CPL equal to IOPL, and one above it. -/
theorem witness_FlagControl : v86.cpl ≤ v86.iopl ∧ (user.pe = true ∧ user.iopl < user.cpl) ∧
    ({ user with eflags := 0x2002 } : State).iopl < ({ user with eflags := 0x2002 } : State).cpl := by decide +kernel

/-- A coprocessor that asks for a transfer. -/
def asking (t : CoprocTransfer) : State := { prot with coproc := .i387, coprocReplies := [⟨t, none, false, false⟩] }

/-- Checks passed without paging. -/
theorem checks {sr : SReg} {w : Bool} {s : State} {offs : List Dword}
    (h : (!s.pg && offs.all fun o => s.segOk sr o 1 w) = true) : EscChecks sr w s offs s := by
  rw [Bool.and_eq_true, Bool.not_eq_true', List.all_eq_true] at h
  induction offs with
  | nil => exact .nil s
  | cons o offs ih =>
    exact .cons (h.2 o (.head _)) (translate_flat h.1 _ _ _) (ih ⟨h.1, fun x hx => h.2 x (.tail _ hx)⟩)

theorem witness_HaltWaitEscape : (prot.cpl = 0 ∧ ({ prot with cr0 := 0xB } : State).mp = true ∧
      ({ prot with cr0 := 0xB } : State).tsw = true) ∧
    ({ prot with coproc := .i387, pinBusy := true } : State).busy = true ∧
    (({ prot with coproc := .i387, pinError := true } : State).busy = false ∧
      ({ prot with coproc := .i387, pinError := true } : State).coprocError = true) ∧
    (prot.busy = false ∧ prot.coprocError = false ∧ ¬(prot.mp = true ∧ prot.tsw = true) ∧ prot.em = false ∧
      prot.tsw = false ∧ prot.coproc = .none) ∧
    ({ prot with cr0 := 5 } : State).em = true ∧
    (({ prot with coproc := .i287 } : State).busy = false ∧ ({ prot with coproc := .i287 } : State).coproc ≠ .none) ∧
    (∃ t u bytes, EscEnds .ds (asking .none).nextReply.transfer.size.2 (asking .none).begun
        (escOffsets .d32 0x5000 (asking .none).nextReply.transfer.size.1) t ∧
      EscMoves .d32 .ds 0x5000 { t with coprocReplies := [] } (asking .none).nextReply.transfer bytes u) ∧
    (∃ t u bytes, EscEnds .ds (asking (.load 2)).nextReply.transfer.size.2 (asking (.load 2)).begun
        (escOffsets .d32 0x5000 (asking (.load 2)).nextReply.transfer.size.1) t ∧
      EscMoves .d32 .ds 0x5000 { t with coprocReplies := [] } (asking (.load 2)).nextReply.transfer bytes u) ∧
    ∃ t u bytes, EscEnds .ds (asking (.store [1, 2])).nextReply.transfer.size.2 (asking (.store [1, 2])).begun
        (escOffsets .d32 0x5000 (asking (.store [1, 2])).nextReply.transfer.size.1) t ∧
      EscMoves .d32 .ds 0x5000 { t with coprocReplies := [] } (asking (.store [1, 2])).nextReply.transfer bytes u :=
  ⟨by decide +kernel, by decide +kernel, by decide +kernel, by decide +kernel, by decide +kernel, by decide +kernel,
    ⟨_, _, _, .nil _, .none⟩,
    ⟨_, _, _, .cons (checks (by decide +kernel)),
      .load _ _ _ (.cons (reach (by decide +kernel)) (.cons (reach (by decide +kernel)) (.nil _)))⟩,
    ⟨_, _, _, .cons (checks (by decide +kernel)), .store _ _ _ (checks (by decide +kernel))
      (.cons (reach (by decide +kernel)) (.cons (reach (by decide +kernel)) (.nil _)))⟩⟩

theorem witness_LeadBytes : repeatable (coreOf (.segES (.outsb (str .w16)))) = true ∧
    repeatable (coreOf (.opsize .nop)) = false ∧ lockable (coreOf (.segFS (.inc (.rm .b8 (.mem bx))))) = true ∧
    lockable (coreOf (.inc (.rm .b8 (rg .eax)))) = false ∧
    (∃ put, (set prot .ecx 0xFFFFFFFF).idx .d32 .ecx ≠ 0 ∧ StrPut (set prot .ecx 0xFFFFFFFF).begun .b8 ⟨.d32, none, .repne⟩ put) ∧
    ∃ x t put, RmAt prot.begun .d32 (.mem top) x t put :=
  ⟨by decide, by decide, by decide, by decide, ⟨_, by decide +kernel, .mk _ _ (by decide +kernel) (reach (by decide +kernel))⟩,
    ⟨_, _, _, .mem _ _ _ (reach (by decide +kernel)) (by decide +kernel)⟩⟩

/-- The last six bytes of the address space. -/
def last6 : MemRef := { seg := none, addr := .direct32 0xFFFFFFFA }

theorem witness_TableRegisterMoves :
    (∃ pas pas' t u, prot.cpl = 0 ∧ prot.segOk (segOf last6) (prot.memEa last6) 6 false = true ∧
      Reach prot.begun prot.user (segOf last6) (prot.memEa last6) 2 false pas t ∧
      Reach (t.afterRead pas) prot.user (segOf last6) (prot.memEa last6 + 2) 4 false pas' u) ∧
    ∃ x pas pas' t u, memWriteCheck user.user (segOf last6) (user.memEa last6) 6 user.begun = .ok () x ∧
      Reach x user.user (segOf last6) (user.memEa last6) 2 true pas t ∧
      Reach (t.storeAt .w16 pas user.gdtr.limit) user.user (segOf last6) (user.memEa last6 + 2) 4 true pas' u :=
  ⟨⟨_, _, _, _, by decide +kernel, by decide +kernel, reach (by decide +kernel), reach (by decide +kernel)⟩,
    _, _, _, _, _, okU (by decide +kernel), reach (by decide +kernel), reach (by decide +kernel)⟩

/-- An LDT and an available TSS at selector 38H. -/
def ldt : State := set (desc prot 0x38 0x30000 0xFFF 0x82 0) .eax 0x38
def tss : State := set (desc prot 0x38 0x30000 0xFFF 0x89 0) .eax 0x38

theorem witness_TaskRegisterMoves :
    (∃ sel t, RmIs (set prot .eax 3).begun .w16 (rg .eax) sel t ∧ nullSel sel = true) ∧
    (∃ sel t d u, ldt.prot = true ∧ ldt.cpl = 0 ∧ RmIs ldt.begun .w16 (rg .eax) sel t ∧ nullSel sel = false ∧
      selTi sel = false ∧ fetchDesc sel t = .ok (some d) u ∧ d.p = true ∧ d.isLdt = true) ∧
    (∃ sel t d u v, tss.prot = true ∧ tss.cpl = 0 ∧ RmIs tss.begun .w16 (rg .eax) sel t ∧ nullSel sel = false ∧
      selTi sel = false ∧ fetchDesc sel t = .ok (some d) u ∧ d.p = true ∧ d.availTss = true ∧
      setDescType sel d (d.typ ||| 2) u = .ok () v) ∧
    ∃ put, user.prot = true ∧ RmPut user.begun .w16 (.mem m5) put :=
  ⟨⟨_, _, .reg _, by decide +kernel⟩,
    ⟨_, _, _, _, by decide +kernel, by decide +kernel, .reg _, by decide +kernel, by decide +kernel, okD (by decide +kernel),
      by decide +kernel, by decide +kernel⟩,
    ⟨_, _, _, _, _, by decide +kernel, by decide +kernel, .reg _, by decide +kernel, by decide +kernel,
      okD (by decide +kernel), by decide +kernel, by decide +kernel, okU (by decide +kernel)⟩,
    ⟨_, by decide +kernel, .mem _ _ _ (reach (by decide +kernel))⟩⟩

theorem witness_MachineStatusWord : (∃ v t, prot.cpl = 0 ∧ RmIs prot.begun .w16 (.mem m5) v t) ∧
    (∃ put, prot.mswFresh = true ∧ RmPut prot.begun .w16 (.mem m5) put) ∧
    (∃ put, ({ prot with mswFresh := false } : State).mswFresh = false ∧
      RmPut { ({ prot with mswFresh := false } : State).begun with free := prot.free + 1 } .w16 (.mem m5) put) ∧
    user.pe = true ∧ user.cpl ≠ 0 :=
  ⟨⟨_, _, by decide +kernel, .mem _ _ _ (reach (by decide +kernel))⟩,
    ⟨_, by decide +kernel, .mem _ _ _ (reach (by decide +kernel))⟩, ⟨_, rfl, .mem _ _ _ (reach (by decide +kernel))⟩,
    by decide +kernel⟩

/-- A descriptor that is accepted and seen, one that is not accepted, one that is not seen, none, a null selector. -/
theorem witness_AccessRights :
    (∃ v t, RmIs (set prot .ebx 3).begun .d32 (rg .ebx) v t ∧ nullSel (v.setWidth 16) = true) ∧
    (∃ v t u, RmIs (set prot .ebx 0x1000).begun .d32 (rg .ebx) v t ∧ nullSel (v.setWidth 16) = false ∧
      fetchDesc (v.setWidth 16) t = .ok none u) ∧
    (∃ v t d u, (set user .ebx 0x20).prot = true ∧ RmIs (set user .ebx 0x20).begun .d32 (rg .ebx) v t ∧
      nullSel (v.setWidth 16) = false ∧ fetchDesc (v.setWidth 16) t = .ok (some d) u ∧ d.larType = true ∧ d.lslType = true ∧
      (set user .ebx 0x20).cpl ≤ d.dpl ∧ selRpl (v.setWidth 16) ≤ d.dpl) ∧
    (∃ v t d u, RmIs (set user .ebx 0x10).begun .w16 (rg .ebx) v t ∧ nullSel (v.setWidth 16) = false ∧
      fetchDesc (v.setWidth 16) t = .ok (some d) u ∧
      ¬(d.conforming = true ∨ ((set user .ebx 0x10).cpl ≤ d.dpl ∧ selRpl (v.setWidth 16) ≤ d.dpl))) ∧
    (∃ v t d u, RmIs (set (gated prot 0) .ebx 0x38).begun .w16 (rg .ebx) v t ∧ nullSel (v.setWidth 16) = false ∧
      fetchDesc (v.setWidth 16) t = .ok (some d) u ∧ d.lslType = false) ∧
    (((set (set prot .ebx 0x10) .ecx 0x13).reg .w16 .ebx).extractLsb' 0 2 < ((set (set prot .ebx 0x10) .ecx 0x13).reg .w16
      .ecx).extractLsb' 0 2) ∧
    ∃ u a t put, memWriteCheck prot.user (segOf m5) (prot.memEa m5) 2 prot.begun = .ok () u ∧ RmIs u .w16 (.mem m5) a t ∧
      a.extractLsb' 0 2 < ((set prot .ecx 0x13).reg .w16 .ecx).extractLsb' 0 2 ∧ RmPut t .w16 (.mem m5) put := by
  have hn : isOk (fetchDesc 0x1000) (set prot .ebx 0x1000).begun = true := by decide +kernel
  have an : answer (fetchDesc 0x1000) (set prot .ebx 0x1000).begun = none := by decide +kernel
  have en : ((set prot .ebx 0x1000).begun.reg .d32 .ebx).setWidth 16 = (0x1000 : Word) := by decide +kernel
  exact ⟨⟨_, _, .reg _, by decide +kernel⟩, ⟨_, _, _, .reg _, by decide +kernel, by rw [en, okV hn, an]⟩,
    ⟨_, _, _, _, by decide +kernel, .reg _, by decide +kernel, okD (by decide +kernel), by decide +kernel, by decide +kernel,
      by decide +kernel, by decide +kernel⟩,
    ⟨_, _, _, _, .reg _, by decide +kernel, okD (by decide +kernel), by decide +kernel⟩,
    ⟨_, _, _, _, .reg _, by decide +kernel, okD (by decide +kernel), by decide +kernel⟩, by decide +kernel,
    ⟨_, _, _, _, okU (by decide +kernel), .mem _ _ _ (reach (by decide +kernel)), by decide +kernel,
      .mem _ _ _ (reach (by decide +kernel))⟩⟩

theorem witness_ControlRegisterMoves : prot.cpl = 0 ∧
    (let v := (set prot .eax 0x80000001).reg .d32 .eax; ¬(v.getLsbD 31 = true ∧ v.getLsbD 0 = false)) ∧
    (let v := (set prot .eax 0x80000000).reg .d32 .eax; v.getLsbD 31 = true ∧ v.getLsbD 0 = false) ∧
    real.pe = false ∧ (7 : BitVec 3) ≠ 0 ∧ (7 : BitVec 3) ≠ 2 ∧ (7 : BitVec 3) ≠ 3 := by decide +kernel

/-- Breakpoint 0 on writes to the four bytes at 5000H, enabled: the last byte and the byte before the first, a read; a LEN field
of 10 matches nothing. -/
theorem witness_DebugRegisters : (prot.pe = false ∨ prot.cpl = 0) ∧ (real.pe = false ∨ real.cpl = 0) ∧
    (3 : BitVec 3).toNat < 4 ∧
    (let s : State := { prot with dr0 := 0x5001, dr7 := 0x000D0001 }
     (s.noted .ds 0x5003 1 true).pend = 1 ∧ (s.noted .ds 0x5003 1 true).due = true ∧ (s.noted .ds 0x4FFF 1 true).pend = 0 ∧
       (s.noted .ds 0x5000 4 false).pend = 0 ∧ ({ s with dr7 := 0x000B0001 }.noted .ds 0x5001 1 true).pend = 0) := by
  decide +kernel

/-- TLB test registers: a write of the entry of page 00403H, and a lookup that hits it in block 1. -/
def tested : State :=
  { set prot .eax 0x00403D40 with tr7 := 0x00055014 }
/-- The TLB with that entry in block 1. -/
def looking : State :=
  { set prot .eax 0x00403D41 with
    tlb := tested.tlb.set (tlbIndex 0x00403000 1) { lin := 0x00403, v := true, d := true, u := true, w := true, phys := 0x55 } }

theorem witness_TestRegisterMoves :
    (let v := tested.reg .d32 .eax
     v.getLsbD 0 = false ∧ tested.tr7.getLsbD 4 = true ∧ v.getLsbD 10 ≠ v.getLsbD 9 ∧ v.getLsbD 8 ≠ v.getLsbD 7 ∧
       v.getLsbD 6 ≠ v.getLsbD 5) ∧
    (let v := looking.reg .d32 .eax
     v.getLsbD 0 = true ∧ v.getLsbD 11 = true ∧ v.getLsbD 10 ≠ v.getLsbD 9 ∧ v.getLsbD 8 ≠ v.getLsbD 7 ∧
       v.getLsbD 6 ≠ v.getLsbD 5 ∧
       ∀ k < 4, (let e := looking.tlbEntry (tlbIndex v k)
         e.lin = v.extractLsb' 12 20 ∧ e.v = true ∧ e.d = v.getLsbD 10 ∧ e.u = v.getLsbD 8 ∧ e.w = v.getLsbD 6) ↔ k = 1) ∧
    (∃ t, tlbWrite (tested.reg .d32 .eax) { tested.begun with tr6 := tested.reg .d32 .eax } = .ok () t) ∧
    (5 : BitVec 3) ≠ 6 ∧ (5 : BitVec 3) ≠ 7 :=
  ⟨by decide +kernel, by decide +kernel, ⟨_, okU (by decide +kernel)⟩, by decide⟩

theorem witness_PrivilegedInstructions : (user.pe = true ∧ user.cpl ≠ 0 ∧ user.prot = true) ∧
    (v86.pe = true ∧ v86.cpl ≠ 0 ∧ v86.prot = false) ∧ real.prot = false := by decide +kernel

/-- An item pushed as a doubleword without paging. -/
theorem dwords {u : Bool} {s z : State} {i : Item} {is : List Item}
    (h : (!(s.item .d32 i).2.pg && (s.item .d32 i).2.segOk .ss ((s.item .d32 i).2.pushOff .d32) Width.d32.bytes true) = true)
    (hs : Items u .d32 ((((s.item .d32 i).2.noted .ss ((s.item .d32 i).2.pushOff .d32) Width.d32.bytes true).storeAt .d32
      ((span ((s.item .d32 i).2.linOf .ss ((s.item .d32 i).2.pushOff .d32)) Width.d32.bytes).map BitVec.toNat)
      (s.item .d32 i).1).setEsp ((s.item .d32 i).2.pushOff .d32)) is z) :
    Items u .d32 s (i :: is) z := .cons rfl (reach h) hs

/-- V86 mode with a TSS and a 32-bit interrupt gate of #GP to level 0. -/
def v86gate : State := { v86 with mem := (gate user 13 0x8E).mem, tr := user.tr }

/-- #GP delivered to level 0 from V86 mode and from level 3. -/
theorem witness_DeliveryInner : (∃ g c sd ssel sp t u x₁ x₂ x₃ z v, v86gate.v86 = true ∧
    (gp 0x1000).vec.toNat * 8 + 7 ≤ v86gate.idtr.limit.toNat ∧
    readDesc (v86gate.idtr.base + ((gp 0x1000).vec.setWidth 32 <<< 3)) v86gate = .ok g t ∧ g.s = false ∧ g.typ = 14 ∧
    g.p = true ∧ nullSel g.gateSel = false ∧ fetchDesc g.gateSel t = .ok (some c) u ∧ c.isCode = true ∧ c.p = true ∧
    c.conforming = false ∧ c.dpl = 0 ∧ innerStackSeg (gp 0x1000).kind.ext 0 u = .ok (ssel, sd, sp) x₁ ∧
    newStackRoom ssel sd sp ((gp 0x1000).frame .d32 9) x₁ = .ok () x₂ ∧
    inLimit (c.toSeg g.gateSel) (g.gateOffset true) 1 = true ∧
    switchStack ssel sd sp { x₂.setFlag .vm false with cpl := 0 } = .ok () x₃ ∧
    Items false .d32 x₃ ([.sel v86gate.gs.sel, .sel v86gate.fs.sel, .sel v86gate.ds.sel, .sel v86gate.es.sel,
      .sel v86gate.ss.sel, .val v86gate.regs.esp] ++ ([.val ((gp 0x1000).image v86gate), .sel v86gate.cs.sel,
      .val (gp 0x1000).ret] ++ ((gp 0x1000).code.map Item.sel).toList)) z ∧
    setAccessed g.gateSel c { z with ds := z.ds.null 0, es := z.es.null 0, fs := z.fs.null 0, gs := z.gs.null 0 } =
      .ok () v) ∧
    ∃ g c sd ssel sp t u x₁ x₂ x₃ z v, user.prot = true ∧
    (gp 0x1000).vec.toNat * 8 + 7 ≤ user.idtr.limit.toNat ∧
    readDesc (user.idtr.base + ((gp 0x1000).vec.setWidth 32 <<< 3)) user = .ok g t ∧ g.s = false ∧ g.typ = 6 ∧ g.p = true ∧
    nullSel g.gateSel = false ∧ fetchDesc g.gateSel t = .ok (some c) u ∧ c.isCode = true ∧ c.p = true ∧
    c.conforming = false ∧ c.dpl < user.cpl ∧ g.typ.getLsbD 3 = false ∧
    innerStackSeg (gp 0x1000).kind.ext c.dpl u = .ok (ssel, sd, sp) x₁ ∧
    newStackRoom ssel sd sp ((gp 0x1000).frame .w16 5) x₁ = .ok () x₂ ∧
    inLimit (c.toSeg g.gateSel) (g.gateOffset false) 1 = true ∧ switchStack ssel sd sp x₂ = .ok () x₃ ∧
    Items false .w16 { x₃ with cpl := c.dpl } ([.sel user.ss.sel, .val user.regs.esp] ++
      ([.val ((gp 0x1000).image user), .sel user.cs.sel, .val (gp 0x1000).ret] ++ ((gp 0x1000).code.map Item.sel).toList)) z ∧
    setAccessed g.gateSel c z = .ok () v :=
  ⟨⟨_, _, _, _, _, _, _, _, _, _, _, _, by decide +kernel, by decide +kernel, okV (by decide +kernel), by decide +kernel,
    by decide +kernel, by decide +kernel, by decide +kernel, okD (by decide +kernel), by decide +kernel, by decide +kernel,
    by decide +kernel, by decide +kernel, okT (by decide +kernel), okU (by decide +kernel), by decide +kernel,
    okU (by decide +kernel),
    dwords (by decide +kernel) <| dwords (by decide +kernel) <| dwords (by decide +kernel) <| dwords (by decide +kernel) <|
      dwords (by decide +kernel) <| dwords (by decide +kernel) <| dwords (by decide +kernel) <| dwords (by decide +kernel) <|
      dwords (by decide +kernel) <| dwords (by decide +kernel) <| .nil _, okU (by decide +kernel)⟩,
  ⟨_, _, _, _, _, _, _, _, _, _, _, _, by decide +kernel, by decide +kernel, okV (by decide +kernel), by decide +kernel,
    by decide +kernel, by decide +kernel, by decide +kernel, okD (by decide +kernel), by decide +kernel, by decide +kernel,
    by decide +kernel, by decide +kernel, by decide +kernel, okT (by decide +kernel), okU (by decide +kernel),
    by decide +kernel, okU (by decide +kernel),
    words (by decide +kernel) <| words (by decide +kernel) <| words (by decide +kernel) <| words (by decide +kernel) <|
      words (by decide +kernel) <| words (by decide +kernel) <| .nil _, okU (by decide +kernel)⟩⟩

/-- Level 0, a frame to return to level 3 with words on the stack: 001BH:0000H, a parameter, SP 0, SS 0023H. -/
def leaving : State := { put (gated user 0) 0x9800 [0, 0, 0x1B, 0, 0, 0, 0, 0, 0x23] with
  cpl := 0, cs := { user.cs with sel := 8, dpl := 0 }, ss := flat, regs := user.regs.set .esp 0x9800 }

theorem witness_FarTransferAcrossLevels :
    (∃ rs nss off fl nsp d sd t t₁ t₂ t₃ t₄ t₅ t₆ t₇ t₈, leaving.prot = true ∧ leaving.flag .nt = false ∧
      StackItem { leaving.begun with nmiMask := false } Width.w16.bytes .w16 rs t ∧ leaving.cpl < selRpl rs ∧
      nullSel rs = false ∧ t.topOk (5 * Width.w16.bytes) = true ∧ fetchDesc rs t = .ok (some d) t₁ ∧
      d.returnOk (selRpl rs) ∧ StackItem t₁ (3 * Width.w16.bytes) .w16 nsp t₂ ∧
      StackItem t₂ (4 * Width.w16.bytes) .w16 nss t₃ ∧ nullSel nss = false ∧ fetchDesc nss t₃ = .ok (some sd) t₄ ∧
      selRpl nss = selRpl rs ∧ sd.writableData = true ∧ sd.dpl = selRpl rs ∧ sd.p = true ∧ StackItem t₄ 0 .w16 off t₅ ∧
      inLimit (d.toSeg rs) (off.setWidth 32) 1 = true ∧ StackItem t₅ (2 * Width.w16.bytes) .w16 fl t₆ ∧
      setAccessed rs d t₆ = .ok () t₇ ∧
      setAccessed nss sd { t₇.inCode rs d (selRpl rs) (off.setWidth 32) with
        eflags := (t₇.eflags &&& ~~~leaving.stayMask .w16) ||| (fl.setWidth 32 &&& leaving.stayMask .w16) } = .ok () t₈) ∧
    (∃ w₀ sel off₀ t u u' g c sd ssel sp ps x₁ x₂ x₃ x₄ z v, (gated user 1).prot = true ∧
      FarIs (gated user 1).begun (.ptr .w16 0x38 0) w₀ sel off₀ t ∧ nullSel sel = false ∧ fetchDesc sel t = .ok (some g) u ∧
      g.isCallGate = true ∧ (gated user 1).cpl ≤ g.dpl ∧ selRpl sel ≤ g.dpl ∧ g.p = true ∧ nullSel g.gateSel = false ∧
      fetchDesc g.gateSel u = .ok (some c) u' ∧ c.isCode = true ∧ c.p = true ∧ c.conforming = false ∧
      c.dpl < (gated user 1).cpl ∧ g.typ.getLsbD 3 = false ∧ inLimit (c.toSeg g.gateSel) (g.gateOffset false) 1 = true ∧
      innerStackSeg false c.dpl u' = .ok (ssel, sd, sp) x₁ ∧
      newStackRoom ssel sd sp ((g.gateCount + 4) * Width.w16.bytes) x₁ = .ok () x₂ ∧
      readParams .w16 0 g.gateCount x₂ = .ok [ps] x₃ ∧ switchStack ssel sd sp x₃ = .ok () x₄ ∧
      Items false .w16 { x₄ with cpl := c.dpl } ([.sel (gated user 1).ss.sel, .val (gated user 1).regs.esp] ++
        ([ps].reverse.map fun p => .val (p.setWidth 32)) ++
        [.sel (gated user 1).cs.sel, .val (gated user 1).nextEip]) z ∧
      setAccessed g.gateSel c z = .ok () v) ∧
    ∃ rs nss off nsp d sd t t₁ t₂ t₃ t₄ t₅ t₆ t₇, leaving.prot = true ∧ StackItem leaving.begun Width.w16.bytes .w16 rs t ∧
      leaving.cpl < selRpl rs ∧ nullSel rs = false ∧
      t.topOk (4 * Width.w16.bytes + (retCount (some 2)).toNat) = true ∧
      fetchDesc rs t = .ok (some d) t₁ ∧ d.returnOk (selRpl rs) ∧
      StackItem t₁ (2 * Width.w16.bytes + (retCount (some 2)).toNat) .w16 nsp t₂ ∧
      StackItem t₂ (3 * Width.w16.bytes + (retCount (some 2)).toNat) .w16 nss t₃ ∧ nullSel nss = false ∧
      fetchDesc nss t₃ = .ok (some sd) t₄ ∧ selRpl nss = selRpl rs ∧ sd.writableData = true ∧ sd.dpl = selRpl rs ∧
      sd.p = true ∧ StackItem t₄ 0 .w16 off t₅ ∧ inLimit (d.toSeg rs) (off.setWidth 32) 1 = true ∧
      setAccessed rs d t₅ = .ok () t₆ ∧ setAccessed nss sd (t₆.inCode rs d (selRpl rs) (off.setWidth 32)) = .ok () t₇ := by
  refine ⟨?_, ?_, ?_⟩
  · exact ⟨_, _, _, _, _, _, _, _, _, _, _, _, _, _, _, _, by decide +kernel, by decide +kernel,
      .mk _ _ (reach (by decide +kernel)), by decide +kernel, by decide +kernel, by decide +kernel, okD (by decide +kernel),
      ⟨by decide +kernel, by decide +kernel, .inr (by decide +kernel)⟩, .mk _ _ (reach (by decide +kernel)),
      .mk _ _ (reach (by decide +kernel)), by decide +kernel, okD (by decide +kernel), by decide +kernel, by decide +kernel,
      by decide +kernel, by decide +kernel, .mk _ _ (reach (by decide +kernel)), by decide +kernel,
      .mk _ _ (reach (by decide +kernel)), okU (by decide +kernel), okU (by decide +kernel)⟩
  · exact ⟨_, _, _, _, _, _, _, _, _, _, _, 0, _, _, _, _, _, _, by decide +kernel, .ptr _ _ _, by decide +kernel,
      okD (by decide +kernel), by decide +kernel, by decide +kernel, by decide +kernel, by decide +kernel, by decide +kernel,
      okD (by decide +kernel), by decide +kernel, by decide +kernel, by decide +kernel, by decide +kernel, by decide +kernel,
      by decide +kernel, okT (by decide +kernel), okU (by decide +kernel), okA (by decide +kernel) (by decide +kernel),
      okU (by decide +kernel),
      words (by decide +kernel) <| words (by decide +kernel) <| words (by decide +kernel) <| words (by decide +kernel) <|
        words (by decide +kernel) <| .nil _, okU (by decide +kernel)⟩
  · exact ⟨_, _, _, _, _, _, _, _, _, _, _, _, _, _, by decide +kernel, .mk _ _ (reach (by decide +kernel)),
      by decide +kernel, by decide +kernel, by decide +kernel, okD (by decide +kernel),
      ⟨by decide +kernel, by decide +kernel, .inr (by decide +kernel)⟩, .mk _ _ (reach (by decide +kernel)),
      .mk _ _ (reach (by decide +kernel)), by decide +kernel, okD (by decide +kernel), by decide +kernel, by decide +kernel,
      by decide +kernel, by decide +kernel, .mk _ _ (reach (by decide +kernel)), by decide +kernel, okU (by decide +kernel),
      okU (by decide +kernel)⟩

/-- A task at 7000H and an available TSS at 7800H, selector 30H, with segments 8 and 10H and EIP 2000H. -/
def tasking : State :=
  { put (put (put (put (put (put (desc (desc prot 0x30 0x7800 0xFFF 0x89 0) 0x28 0x7000 0xFFF 0x8B 0) 0x7820 [0, 0x20, 0, 0, 2])
      0x7848 [0x10]) 0x784C [8]) 0x7850 [0x10]) 0x7854 [0x10]) 0x7860 [0] with
    tr := { sel := 0x28, base := 0x7000, limit := 0xFFF, is386 := true } }

/-- R261, R270: a CALL writes the back link, with a zero high word over what software had put there. -/
theorem test_back_link : rd (go (put tasking 0x7800 [0xAA, 0xAA, 0xAA, 0xAA]) [0x9A, 0, 0, 0, 0, 0x30, 0]) 0x7800 4 = 0x28 := by
  decide +kernel

/-- A store on the processor's own account without paging. -/
theorem sysPut {s : State} {lin : Dword} {n v : Nat} (h : s.pg = false) :
    SysPut s lin n v (s.storeBytes ((span lin n).map BitVec.toNat) (bytesOf n v)) := .mk _ _ (translateAll_flat h _ _ _)
/-- A read on the processor's own account without paging. -/
theorem sysGet {s : State} {lin : Dword} {n : Nat} (h : s.pg = false) :
    SysGet s lin n (s.numAt ((span lin n).map BitVec.toNat)) (s.afterRead ((span lin n).map BitVec.toNat)) :=
  .mk _ _ (translateAll_flat h _ _ _)

/-- Values written in turn without paging. -/
def putAll (base : Dword) (n : Nat) : State → List (Dword × Dword) → State
  | s, [] => s
  | s, (k, v) :: ks => putAll base n (s.storeBytes ((span (base + k) n).map BitVec.toNat) (bytesOf n v.toNat)) ks
theorem sysPuts {base : Dword} {n : Nat} {s : State} {ks : List (Dword × Dword)} (h : s.pg = false) :
    SysPuts base n s ks (putAll base n s ks) := by
  induction ks generalizing s with
  | nil => exact .nil s
  | cons k ks ih => exact .cons (sysPut h) (ih (by simpa [State.pg] using h))

/-- Numbers read in turn without paging. -/
theorem sysGets {base : Dword} {n : Nat} {s u : State} {k : Dword} {ks : List Dword} {vs : List Nat} (h : s.pg = false)
    (hs : SysGets base n (s.afterRead ((span (base + k) n).map BitVec.toNat)) ks vs u) :
    SysGets base n s (k :: ks) (s.numAt ((span (base + k) n).map BitVec.toNat) :: vs) u := .cons (sysGet h) hs

/-- `tasking` with a task gate at selector 18H and one for vector 13. -/
def gateway : State := put (put tasking 0x4018 [0, 0, 0x30, 0, 0, 0x85, 0, 0]) 0x6068 [0, 0, 0x30, 0, 0, 0x85, 0, 0]
/-- `tasking` nested in the busy task of selector 30H. -/
def nested : State := { put (put tasking 0x4035 [0x8B]) 0x7000 [0x30] with eflags := 0x4002 }
/-- The TSS of selector 30H. -/
def newTask : Desc := (answer (fetchDesc 0x30) tasking).getD default

/-- The state an incoming task has before its selectors are checked. -/
def incoming (s : State) (k : SwitchKind) (i : TssImage) : State :=
  let fl := (i.eflags &&& 0x00037FD5) ||| 2
  { s with
    eip := i.eip
    eflags := (match k with
      | .jmp => fl &&& 0xFFFFBFFF
      | .call | .int => fl ||| 0x00004000
      | .iret => fl)
    regs := i.regs
    ldtr := { s.ldtr with sel := i.ldt, valid := false }
    es := { s.es with sel := i.es, valid := false }
    cs := { s.cs with sel := i.cs, valid := false }
    ss := { s.ss with sel := i.ss, valid := false }
    ds := { s.ds with sel := i.ds, valid := false }
    fs := { s.fs with sel := i.fs, valid := false }
    gs := { s.gs with sel := i.gs, valid := false }
    cpl := if i.eflags.getLsbD 17 then 3 else selRpl i.cs }

theorem witness_TaskSwitch :
    (∃ x₀ x₁ x₂ x₃ x₄, 103 ≤ newTask.limit.toNat ∧ newTask.tss32 = true ∧
      precheckTask .jmp 0x30 newTask tasking = .ok () x₀ ∧ TaskSaved x₀ 0x1000 2 x₁ ∧ BusyCleared x₁ tasking.tr.sel x₂ ∧
      (∃ addr, x₂.descAddr 0x30 = some addr ∧ SysPut x₂ (addr + 5) 1 (newTask.d1.extractLsb' 8 8 ||| 2).toNat x₃) ∧
      x₄ = { x₃ with tr := { sel := 0x30, base := newTask.base, limit := newTask.limit, is386 := newTask.tss32 },
                     cr0 := x₃.cr0 ||| 8 }) ∧
    (∃ x₀ x₁ x₃ x₄ t, precheckTask .int 0x30 newTask tasking = .ok () x₀ ∧ TaskSaved x₀ 0x1000 2 x₁ ∧
      (∃ addr, x₁.descAddr 0x30 = some addr ∧ SysPut x₁ (addr + 5) 1 (newTask.d1.extractLsb' 8 8 ||| 2).toNat x₃) ∧
      x₄ = { x₃ with tr := { sel := 0x30, base := newTask.base, limit := newTask.limit, is386 := newTask.tss32 },
                     cr0 := x₃.cr0 ||| 8 } ∧
      SysPut x₄ newTask.base (if newTask.tss32 then 4 else 2) tasking.tr.sel.toNat t) ∧
    (∃ i x₁ x₃ x₄, tasking.pe = true ∧ ¬(newTask.tss32 = true ∧ tasking.pg = true) ∧ TssIs tasking newTask i x₁ ∧
      LdtLoad (incoming x₁ .call i) i.ldt x₃ ∧ TaskSegs x₃ i x₄) ∧
    (∃ t u, switchOut .call false 0x30 newTask 0x1000 2 tasking = .ok () t ∧ switchIn .call false newTask t = .ok () u) ∧
    (∃ w sel off d t u v v', tasking.prot = true ∧ FarIs tasking.begun (.ptr .w16 0x30 0) w sel off t ∧
      nullSel sel = false ∧ fetchDesc sel t = .ok (some d) u ∧ tasking.cpl ≤ d.dpl ∧ selRpl sel ≤ d.dpl ∧ d.p = true ∧
      selTi sel = false ∧ d.availTss = true ∧ switchTasks .jmp false sel d tasking.nextEip tasking.eflags u = .ok () v ∧
      inLimit v.cs v.eip 1 = true ∧ switchTasks .call false sel d tasking.nextEip tasking.eflags u = .ok () v' ∧
      inLimit v'.cs v'.eip 1 = true) ∧
    (∃ w sel off d new t u u' v, gateway.prot = true ∧ FarIs gateway.begun (.ptr .w16 0x18 0) w sel off t ∧
      nullSel sel = false ∧ fetchDesc sel t = .ok (some d) u ∧ gateway.cpl ≤ d.dpl ∧ selRpl sel ≤ d.dpl ∧ d.p = true ∧
      d.isTaskGate = true ∧ nullSel d.gateSel = false ∧ selTi d.gateSel = false ∧
      fetchDesc d.gateSel u = .ok (some new) u' ∧ new.availTss = true ∧ new.p = true ∧
      switchTasks .call false d.gateSel new gateway.nextEip gateway.eflags u' = .ok () v ∧ inLimit v.cs v.eip 1 = true) ∧
    (∃ g new t u v z, gateway.pe = true ∧ (gp 0x1000).vec.toNat * 8 + 7 ≤ gateway.idtr.limit.toNat ∧
      readDesc (gateway.idtr.base + ((gp 0x1000).vec.setWidth 32 <<< 3)) gateway = .ok g t ∧ g.s = false ∧ g.typ = 5 ∧
      g.p = true ∧ nullSel g.gateSel = false ∧ selTi g.gateSel = false ∧ fetchDesc g.gateSel t = .ok (some new) u ∧
      new.availTss = true ∧ new.p = true ∧ new.tss32 = true ∧
      switchTasks .int (gp 0x1000).kind.ext g.gateSel new (gp 0x1000).ret ((gp 0x1000).image gateway) u = .ok () v ∧
      Items v.user .d32 v ((gp 0x1000).code.map Item.sel).toList z ∧ inLimit z.cs z.eip 1 = true) ∧
    ∃ link new t u v, nested.prot = true ∧ nested.flag .nt = true ∧
      SysGet { nested.begun with nmiMask := false } nested.tr.base 2 link t ∧ nullSel (BitVec.ofNat 16 link) = false ∧
      selTi (BitVec.ofNat 16 link) = false ∧ fetchDesc (BitVec.ofNat 16 link) t = .ok (some new) u ∧
      new.busyTss = true ∧ new.p = true ∧
      switchTasks .iret false (BitVec.ofNat 16 link) new nested.nextEip nested.eflags u = .ok () v ∧
      inLimit v.cs v.eip 1 = true := by
  refine ⟨⟨_, _, _, _, _, by decide +kernel, by decide +kernel, okU (by decide +kernel),
      .tss386 _ (by decide +kernel) (sysPuts (by decide +kernel)),
      .mk 0x4028 _ _ _ (by decide +kernel) (sysGet (by decide +kernel)) (sysPut (by decide +kernel)),
      ⟨0x4030, by decide +kernel, sysPut (by decide +kernel)⟩, rfl⟩,
    ⟨_, _, _, _, _, okU (by decide +kernel), .tss386 _ (by decide +kernel) (sysPuts (by decide +kernel)),
      ⟨0x4030, by decide +kernel, sysPut (by decide +kernel)⟩, rfl, sysPut (by decide +kernel)⟩,
    ⟨_, _, _, _, by decide +kernel, by decide +kernel,
      .tss386 _ _ _ _ _ _ _ _ _ _ _ _ _ _ _ _ _ _ _ _ (by decide +kernel)
        (sysGets (by decide +kernel) <| sysGets (by decide +kernel) <| sysGets (by decide +kernel) <|
          sysGets (by decide +kernel) <| sysGets (by decide +kernel) <| sysGets (by decide +kernel) <|
          sysGets (by decide +kernel) <| sysGets (by decide +kernel) <| sysGets (by decide +kernel) <|
          sysGets (by decide +kernel) <| .nil _)
        (sysGets (by decide +kernel) <| sysGets (by decide +kernel) <| sysGets (by decide +kernel) <|
          sysGets (by decide +kernel) <| sysGets (by decide +kernel) <| sysGets (by decide +kernel) <|
          sysGets (by decide +kernel) <| sysGets (by decide +kernel) <| .nil _), .null (by decide +kernel),
      .prot (by decide +kernel) _ _ _ _ _ _
        (.mk _ _ _ (by decide +kernel) (okD (by decide +kernel)) (by decide +kernel) (.inr (by decide +kernel))
          (by decide +kernel) (okU (by decide +kernel)))
        (.stack (by decide +kernel) rfl (by decide +kernel) _ _ _ (okD (by decide +kernel)) (by decide +kernel)
          (by decide +kernel) (by decide +kernel) (okU (by decide +kernel)))
        (.data (by decide +kernel) (by decide) (by decide +kernel) _ _ _ (okD (by decide +kernel)) (by decide +kernel)
          (by decide +kernel) (by decide +kernel) (okU (by decide +kernel)))
        (.data (by decide +kernel) (by decide) (by decide +kernel) _ _ _ (okD (by decide +kernel)) (by decide +kernel)
          (by decide +kernel) (by decide +kernel) (okU (by decide +kernel)))
        (.null (by decide +kernel) (by decide) (by decide +kernel))
        (.null (by decide +kernel) (by decide) (by decide +kernel))⟩,
    ⟨_, _, okU (by decide +kernel), okU (by decide +kernel)⟩,
    ⟨_, _, _, _, _, _, _, _, by decide +kernel, .ptr _ _ _, by decide +kernel, okD (by decide +kernel),
      by decide +kernel, by decide +kernel, by decide +kernel, by decide +kernel, by decide +kernel, okU (by decide +kernel),
      by decide +kernel, okU (by decide +kernel), by decide +kernel⟩,
    ⟨_, _, _, _, _, _, _, _, _, by decide +kernel, .ptr _ _ _, by decide +kernel, okD (by decide +kernel),
      by decide +kernel, by decide +kernel, by decide +kernel, by decide +kernel, by decide +kernel, by decide +kernel,
      okD (by decide +kernel), by decide +kernel, by decide +kernel, okU (by decide +kernel), by decide +kernel⟩,
    ⟨_, _, _, _, _, _, by decide +kernel, by decide +kernel, okV (by decide +kernel), by decide +kernel, by decide +kernel,
      by decide +kernel, by decide +kernel, by decide +kernel, okD (by decide +kernel), by decide +kernel, by decide +kernel,
      by decide +kernel, okU (by decide +kernel), dwords (by decide +kernel) <| .nil _, by decide +kernel⟩,
    ⟨_, _, _, _, _, by decide +kernel, by decide +kernel, sysGet (by decide +kernel), by decide +kernel, by decide +kernel,
      okD (by decide +kernel), by decide +kernel, by decide +kernel, okU (by decide +kernel), by decide +kernel⟩⟩

theorem witness_RegisterReadWrite : (7 : Nat) < Width.b8.bits ∧ byteHome .edi = .ebx ∧ byteLow .edi = 8 := by decide

/-- What a computation raises. -/
def raised {α : Type} (m : M α) (s : State) : Exc :=
  match m s with
  | .ok _ _ => default
  | .error x _ => x
/-- A computation that raises an exception, by it and the state after it. -/
theorem errV {α : Type} {m : M α} {s : State} (h : isOk m s = false) : m s = .error (raised m s) (after m s) := by
  unfold isOk at h
  unfold raised after
  split at h
  · cases h
  · rename_i e
    rw [e]

/-- Paging: the directory at 10000H; entry 0 to the table at 12000H, whose page 5 is at 55000H for everyone to write, page 6
for everyone to read, page 7 for the supervisor, page 8 not present; entry 1 not present. -/
def paged (s : State) : State :=
  { put (put (put (put (put s 0x10000 [7, 0x20, 1]) 0x12014 [7, 0x50, 5]) 0x12018 [5, 0x60, 5]) 0x1201C [3, 0x70, 5])
      0x12020 [6, 0x80, 5] with cr0 := 0x80000001, cr3 := 0x10000 }

/-- Page 7 in the TLB. -/
def seen (s : State) : State :=
  { s with tlb := s.tlb.set (tlbIndex 0x7000 0) { lin := 7, v := true, d := true, u := false, w := false, phys := 0x57 } }

/-- Both ends of memory; memory of each kind; a doubleword that crosses from the last address to the first, in RAM; an access
that begins in a page that is present and ends in one that is not. -/
theorem witness_MemoryReadWrite : Memory.wf [] = true ∧ 0xFFFFFFFF < 2 ^ 32 ∧
    (mapped.kindAt 0x4FFF = .ram ∧ mapped.kindAt 0x500F = .rom ∧ mapped.kindAt 0x5010 = .nothing ∧
      mapped.kindAt 0x5020 = .device) ∧
    (∃ pas t, prot.mem.wf = true ∧ prot.pg = false ∧ Reach prot prot.user .ds 0xFFFFFFFC 4 true pas t ∧ pas.Nodup ∧
      (∀ a ∈ pas, prot.kindAt a = .ram) ∧ (4 : Nat) = Width.d32.bytes) ∧
    ∃ x t, translateAll true false (span 0x7FFE 4) (seen (paged prot)) = .error x t :=
  ⟨rfl, by decide, by decide +kernel, ⟨_, _, by decide +kernel, by decide +kernel, reach (by decide +kernel),
    by decide +kernel, by decide +kernel, rfl⟩, _, _, errV (by decide +kernel)⟩

/-- The present bit, the user bit and the write bit of the two entries of a page, anded. -/
def pageBits (s : State) (lin : Dword) : Bool × Bool × Bool :=
  let pdeAddr := (s.cr3 &&& 0xFFFFF000) + ((lin.extractLsb' 22 10).setWidth 32 <<< 2)
  let pde := s.physDword pdeAddr
  let pte := (s.afterRead (dwordAt pdeAddr)).physDword ((pde &&& 0xFFFFF000) + ((lin.extractLsb' 12 10).setWidth 32 <<< 2))
  (pde.getLsbD 0 && pte.getLsbD 0, pde.getLsbD 2 && pte.getLsbD 2, pde.getLsbD 1 && pte.getLsbD 1)

/-- The same with page 5 in block 2 of the TLB, for the supervisor, clean or dirty. -/
def cached (d : Bool) : State :=
  { paged prot with
    tlb := prot.tlb.set (tlbIndex 0x5000 2) { lin := 5, v := true, d := d, u := false, w := false, phys := 0x77 } }

theorem witness_PageTranslation : prot.pg = false ∧
    ((cached true).pg = true ∧ (cached true).tlbHits 0x5FFF = [2] ∧
      ((cached true).tlbEntry (tlbIndex 0x5FFF 2)).d = true ∧ ((cached true).tlbEntry (tlbIndex 0x5FFF 2)).u = false) ∧
    ((cached false).pg = true ∧ (cached false).Shaped ∧ (cached false).tlbHits 0x5FFF = [2] ∧
      ((cached false).tlbEntry (tlbIndex 0x5FFF 2)).d = false ∧ pageBits (cached false) 0x5FFF = (true, true, true)) ∧
    (paged prot).pg = true ∧ (paged prot).Shaped ∧
    (paged prot).tlbHits 0x8000 = [] ∧ (paged prot).tlbHits 0x5FFF = [] ∧ (paged prot).tlbHits 0x400000 = [] ∧
    pageBits (paged prot) 0x8000 = (false, true, true) ∧ pageBits (paged prot) 0x400000 = (false, false, false) ∧
    pageBits (paged prot) 0x7000 = (true, false, true) ∧ pageBits (paged prot) 0x6000 = (true, true, false) ∧
    pageBits (paged prot) 0x5FFF = (true, true, true) :=
  ⟨by decide +kernel, by decide +kernel, ⟨by decide +kernel, ⟨by decide +kernel, by decide +kernel⟩, by decide +kernel⟩,
    by decide +kernel, ⟨by decide +kernel, by decide +kernel⟩, by decide +kernel⟩

/-- One byte beyond the limit, through DS and through SS; a write to a code segment; a null segment and an SS that is not
usable; a segment that may be written and not read (a code segment that may only be executed, in real-address mode). -/
theorem witness_SegmentFault :
    ({ prot with ds := { flat with limit := 0x5002 } } : State).segOk (segOf m5) (prot.memEa m5) 4 false = false ∧
    ({ prot with ds := { flat with limit := 0x5003 } } : State).segOk (segOf m5) (prot.memEa m5) 4 false = true ∧
    (({ prot with ss := { flat with limit := 0x5002 } } : State).segOk .ss 0x5000 4 true = false ∧
      ({ prot with ss := { flat with limit := 0x5002 } } : State).mayWrite .ss = true) ∧
    prot.segOk (segOf { m5 with seg := some .cs }) (prot.memEa m5) 1 true = false ∧
    ({ prot with es := { flat with valid := false } } : State).segOk .es 0 1 false = false ∧
    (({ prot with ss := { flat with valid := false } } : State).segOk .ss 0x5000 4 false = false ∧
      ({ prot with ss := { flat with valid := false } } : State).ss.valid = false) ∧
    ({ real with cs := { real.cs with typ := 0b1000 } } : State).segOk .cs 0 4 true = true ∧
    ({ real with cs := { real.cs with typ := 0b1000 } } : State).cs.readable = false := by decide +kernel

theorem witness_EndOfInstruction : (prot.pend = 0 ∧ prot.pendLate = 0 ∧ prot.flag .tf = false) ∧
    ((prot.setFlag .tf true).flag .tf = true ∧ Done.next ≠ .waiting) ∧
    (let t : State := { prot with dr7 := 0x000F0302, pend := 1 }
     t.dr7.getLsbD 8 = true ∧ t.dataDue t.pend = true) := by decide +kernel

/-- A #GP that is delivered; in real-address mode, where an IDT limit of 3CH ends one byte after vector 14's entry, exceptions
raised while vector 13, vector 8 and vector 6, an INT 21H and an NMI are delivered without room on the stack. -/
theorem witness_ExceptionDelivery :
    (∃ u, deliver { vec := 13, kind := .exc, code := some 0, isFault := true, ret := prot.eip } (prot.begun.keep prot) =
      .ok () u) ∧
    doubles 13 12 = true ∧ doubles 14 14 = true ∧ doubles 6 12 = false ∧ doubles 12 14 = false ∧
    (∀ v ∈ ([13, 8, 6] : List Byte), ∃ x t, deliver { vec := v, kind := .exc, code := none, isFault := true, ret := 0 }
        (set real .esp 1) = .error x t ∧ x.vec = 12 ∧ x.committed = false) ∧
    (∃ x t, ¬((set real .esp 1).v86 = true ∧ (set real .esp 1).iopl < 3) ∧
      deliver { vec := 0x21, kind := .soft, code := none, isFault := false, ret := (set real .esp 1).nextEip }
        (set real .esp 1).begun = .error x t ∧ x.committed = false ∧ x.ret = none) ∧
    ∃ x t, deliver { vec := 2, kind := .hw, code := none, isFault := false, ret := 0 } (set real .esp 1) = .error x t ∧
      x.committed = false := by
  refine ⟨⟨_, okU (by decide +kernel)⟩, by decide, by decide, by decide, by decide, ?_,
    ⟨_, _, by decide +kernel, errV (by decide +kernel), by decide +kernel⟩, _, _, errV (by decide +kernel),
    by decide +kernel⟩
  intro v h
  simp only [List.mem_cons, List.not_mem_nil, or_false] at h
  obtain rfl | rfl | rfl := h <;> exact ⟨_, _, errV (by decide +kernel), by decide +kernel, by decide +kernel⟩

/-- An instruction breakpoint at 1000H, enabled. -/
def stopping : State := { gate prot 1 with dr0 := 0x1000, dr7 := 1 }

/-- Each event due, and none. -/
theorem witness_EventsBetweenInstructions : ({ prot with pinReset := true } : State).pinReset = true ∧
    (let s : State := { prot with run := .shutdown, pinNmi := true }; s.sampleNmi.nmiDue = true) ∧
    (let s : State := { prot with pend := 0x4000 }; s.sampleNmi.due = true ∧ s.sampleNmi.inhibit = false) ∧
    (stopping.sampleNmi.due = false ∧ stopping.run = .running ∧ stopping.sampleNmi.instrBreak = true) ∧
    (let s : State := { prot with pinNmi := true }
     s.sampleNmi.due = false ∧ s.sampleNmi.instrBreak = false ∧ s.sampleNmi.nmiDue = true ∧ s.sampleNmi.inhibit = false) ∧
    (let s : State := { prot with run := .halted, eflags := 0x202, intrQueue := [0x20] }
     s.sampleNmi.due = false ∧ s.sampleNmi.nmiDue = false ∧ s.sampleNmi.intrDue = true) ∧
    (let s : State := { prot with run := .halted }
     s.sampleNmi.due = false ∧ s.sampleNmi.nmiDue = false ∧ s.sampleNmi.intrDue = false) ∧
    ((∀ k < 32, (1 : Dword).getLsbD k = true ↔ stopping.dr6.getLsbD k = true ∨ stopping.pend.getLsbD k = true ∨
        (k < 4 ∧ stopping.dr7.extractLsb' (16 + 4 * k) 2 = 0 ∧ stopping.dr7.extractLsb' (18 + 4 * k) 2 = 0 ∧
          stopping.dr k = stopping.cs.base + stopping.eip)) ∧
      ∃ t, deliver { vec := 1, kind := .exc, code := none, isFault := true, ret := stopping.eip }
        { stopping with pend := 0, repActive := false, ranPast := false, dr6 := 1 } = .ok () t) ∧
    (∃ t, deliver { vec := 1, kind := .exc, code := none, isFault := false, ret := real.eip, taskTrap := (0x4000 : Dword).getLsbD 15 }
      { set real .esp 0x100 with pend := 0, repActive := false, ranPast := false, dr6 := real.dr6 ||| 0x4000 } = .ok () t) ∧
    (∃ t, deliver { vec := 2, kind := .hw, code := none, isFault := false, ret := real.eip }
      { set real .esp 0x100 with pend := 0, repActive := false, ranPast := false, nmiPending := false, nmiMask := true } = .ok () t) ∧
    ∃ t, deliver { vec := 0x20, kind := .hw, code := none, isFault := false, ret := real.eip }
      { set real .esp 0x100 with pend := 0, repActive := false, ranPast := false, intrQueue := [] } = .ok () t :=
  ⟨rfl, by decide +kernel, by decide +kernel, by decide +kernel, by decide +kernel, by decide +kernel, by decide +kernel,
    ⟨by decide +kernel, _, okU (by decide +kernel)⟩, ⟨_, okU (by decide +kernel)⟩, ⟨_, okU (by decide +kernel)⟩,
    _, okU (by decide +kernel)⟩

/-- What bytes decode to. -/
theorem decodes {d : Bool} {bs : List Byte} {i : Instr} {n : Nat}
    (h : (match decode d bs with | .ok p => decide (p = (i, n)) | .error _ => false) = true) :
    decode d bs = .ok (i, n) := by
  split at h
  · rename_i e
    rw [e, of_decide_eq_true h]
  · cases h

theorem witness_StepRunsDecoded : ∃ bs t, prot.pinReset = false ∧ prot.run = .running ∧
    (prot.sampleNmi.boundary = none) ∧
    decode prot.code32 prot.sampleNmi.window = .ok (.add (.rmReg .b8 (.mem atEax) .eax), 2) ∧
    fetchBytes 2 0 prot.sampleNmi = .ok bs t :=
  ⟨_, _, by decide +kernel, by decide +kernel, by decide +kernel, decodes (by decide +kernel), okV (by decide +kernel)⟩

/-- A byte that can be fetched, also right after running past FFFFH, one on a page that is not there, and bytes that cannot:
through an invalid CS, beyond the limit, past FFFFH below the limit, past 2^32 - 1, and after running past FFFFH at that limit. -/
theorem witness_StepRunsDecoded_bytes :
    (∃ x w, fetchByte 0 prot = .ok x w) ∧
    (({ wide with eip := 0, ranPast := true } : State).codeByteOk 0 = true ∧
      ∃ x w, fetchByte 0 { wide with eip := 0, ranPast := true } = .ok x w) ∧
    (({ prot with cr0 := 0x80000001, cr3 := 0x10000 } : State).codeByteOk 0 = true ∧
      ∃ x w, fetchByte 0 { prot with cr0 := 0x80000001, cr3 := 0x10000 } = .error x w) ∧
    (∀ p ∈ [({ prot with cs := { prot.cs with valid := false } }, 0), (real, 0xFA00), ({ wide with eip := 0xFFFF }, 1),
        ({ prot with eip := 0xFFFFFFFF }, 1), ({ real with eip := 0, ranPast := true }, 0)],
      State.codeByteOk p.1 p.2 = false) ∧
    wide.codeByteOk 0xF9FF = true ∧ ({ prot with eip := 0xFFFFFFFF } : State).codeByteOk 0 = true :=
  ⟨⟨_, _, okV (by decide +kernel)⟩, ⟨by decide +kernel, _, _, okV (by decide +kernel)⟩,
    ⟨by decide +kernel, _, _, errV (by decide +kernel)⟩, by decide +kernel, by decide +kernel, by decide +kernel⟩

/-- A byte on a page that is not there, and the bytes of a SETcc, also those cut short. -/
theorem witness_SetccResult_page : (∃ x t, memWrite (segOf m5) (({ prot with cr0 := 0x80000001, cr3 := 0x10000 } : State).memEa m5)
      .b8 1 { prot with cr0 := 0x80000001, cr3 := 0x10000 } = .error x t) ∧
    decode false [0x0F, 0x94, 0x06, 0, 0x50] = .ok (.sete (.mem ⟨none, .direct16 0x5000⟩), 5) :=
  ⟨⟨_, _, errV (by decide +kernel)⟩, decodes (by decide +kernel)⟩

/-- R323, R930: in real-address mode MOV AX, 1234H has three bytes, also where CS still holds D = 1. -/
theorem test_real_mode_defaults : let t := go (set { real with cs := { real.cs with db := true } } .eax 0x55550000) [0xB8, 0x34, 0x12]
    val t .eax = 0x55551234 ∧ t.eip = 0x603 := by decide +kernel

/-- A self-test passed, and one failed with signature 5. -/
theorem witness_ResetValues : ({ prot with coproc := .i387, mem := [] } : State).coproc = .i387 ∧
    prot.resetKeeping.eip = 0xFFF0 ∧
    ({ prot with platform := { Platform.reset with selfTest := .passed } } : State).platform.selfTest = .passed ∧
    ({ prot with platform := { Platform.reset with selfTest := .failed 5 } } : State).platform.selfTest = .failed 5 := by
  decide +kernel

/-- The state after reset is legal, and so are the states of these tests. -/
theorem legal {s : State} (h : (decide (fixFlags s.eflags = s.eflags) && decide (s.cr0 &&& ~~~cr0Mask = 0) &&
    decide (s.cr3 &&& ~~~cr3Mask = 0) && decide (s.dr6 &&& ~~~dr6Mask = 0) && decide (s.dr7 &&& ~~~dr7Mask = 0) &&
    decide (s.pend &&& ~~~dr6Mask = 0) && decide (s.pendLate &&& ~~~dr6Mask = 0) &&
    (!s.flag .vm || (s.pe && decide (s.cpl = 3))) && (s.pe || decide (s.cpl = 0)) && (!s.pg || s.pe) && s.mem.wf &&
    decide (s.tlb.length = 32) && (s.code32 || decide (s.eip.toNat ≤ 0xFFFF))) = true) : s.Inv := by
  simp only [Bool.and_eq_true, Bool.or_eq_true, Bool.not_eq_true', decide_eq_true_eq] at h
  obtain ⟨⟨⟨⟨⟨⟨⟨⟨⟨⟨⟨⟨a, b⟩, c⟩, d⟩, e⟩, f⟩, g⟩, i⟩, j⟩, k⟩, l⟩, m⟩, n⟩ := h
  exact ⟨⟨a, b, c, d, e, f, g⟩, ⟨fun x => i.resolve_left (by simp [x]), fun x => j.resolve_left (by simp [x]),
    fun x => k.resolve_left (by simp [x])⟩, ⟨l, m⟩, fun x => n.resolve_left (by simp [x])⟩

theorem witness_ResetInv : State.reset.Inv ∧ v86.Inv := ⟨legal (by decide +kernel), legal (by decide +kernel)⟩

/-- A step that ends, from protected mode and from V86 mode. -/
theorem witness_StepKeepsInv : (prot.Inv ∧ ∃ t, step prot = .next t) ∧ v86.Inv ∧ ∃ t, step v86 = .next t := by
  have next : ∀ {s : State}, (match step s with | .next _ => true | _ => false) = true → ∃ t, step s = .next t := by
    intro s h
    split at h
    · exact ⟨_, by assumption⟩
    · cases h
  exact ⟨⟨legal (by decide +kernel), next (by decide +kernel)⟩, legal (by decide +kernel), next (by decide +kernel)⟩

/-- An instruction of exactly 15 bytes: four lead bytes, opcode, ModR/M, SIB, a displacement and an immediate of four bytes. -/
theorem witness_DecodeEncode :
    wf true (.segES (.segFS (.lock (.lock (.add (.rmImm .d32 (.mem ⟨some .fs, .sib (some .eax) (some .ecx) 3 (.d32 0xFFFFFFFF)⟩)
      0xFFFFFFFF)))))) = true ∧
    (encode (.segES (.segFS (.lock (.lock (.add (.rmImm .d32 (.mem ⟨some .fs, .sib (some .eax) (some .ecx) 3
      (.d32 0xFFFFFFFF)⟩) 0xFFFFFFFF))))))).length = maxInstrBytes := by decide +kernel

theorem witness_DecodedWords : reads false [0x0F, 0x22, 0xC3] (.movToCr 0 .ebx) = true := by decide

/-! ### Witnesses of the clauses about refusals and about the parts that other clauses name -/

/-- A descriptor that is fetched and fails a check. -/
theorem fails {s : State} {sel : Word} {vec v : Byte} {ext : Bool} {faults : Desc → List (Bool × Byte)}
    (h : (match fetchDesc sel s with | .ok (some d) _ => firstFault (faults d) == some v | _ => false) = true) :
    Refused s sel vec ext faults (faultOf v (some (selCode ext sel))) (after (fetchDesc sel) s) := by
  unfold after
  split at h
  · rename_i e
    rw [e]
    exact .fault _ _ _ e (eq_of_beq h)
  · cases h
/-- A selector that names no descriptor. -/
theorem nowhere {s : State} {sel : Word} {vec : Byte} {ext : Bool} {faults : Desc → List (Bool × Byte)}
    (h : (match fetchDesc sel s with | .ok none _ => true | _ => false) = true) :
    Refused s sel vec ext faults (faultOf vec (some (selCode ext sel))) (after (fetchDesc sel) s) := by
  unfold after
  split at h
  · rename_i e
    rw [e]
    exact .outside _ e
  · cases h
/-- A number read on the processor's own account without paging. -/
theorem sysNum {w n : Nat} {s : State} {lin : Dword} (v : BitVec w)
    (h : (!s.pg && s.numAt ((span lin n).map BitVec.toNat) == v.toNat) = true) :
    SysGet s lin n v.toNat (s.afterRead ((span lin n).map BitVec.toNat)) := by
  rw [Bool.and_eq_true, Bool.not_eq_true', beq_iff_eq] at h
  rw [← h.2]
  exact sysGet h.1

/-- A GDT of eight entries, the last one (38H) with access byte `access`. -/
def entry (access : Nat) : State := { desc prot 0x38 0 0xFFF access 4 with gdtr := ⟨0x4000, 0x3F⟩ }

/-- For SS: null, of another RPL, read-only, not present; for a data segment register: the first entry beyond the limit, code
that cannot be read, of a lower privilege, not present. -/
theorem witness_SegmentRegisterMoves_refused :
    (∃ sel x t u, (set prot .eax 3).prot = true ∧ RmIs (set prot .eax 3).begun .w16 (rg .eax) sel t ∧ SregRefused t .ss sel x u) ∧
    (∀ p ∈ ([(0x39, 0x92, 13), (0x38, 0x90, 13), (0x38, 0x12, 12)] : List (Word × Nat × Byte)), ∃ x t,
      SregRefused (entry p.2.1) .ss p.1 x t ∧ x.vec = p.2.2) ∧
    (∀ p ∈ ([(0x38, 0x98, 13), (0x3B, 0x92, 13), (0x38, 0x12, 11)] : List (Word × Nat × Byte)), ∃ x t,
      SregRefused (entry p.2.1) .gs p.1 x t ∧ x.vec = p.2.2) ∧
    (∃ x t, SregRefused (entry 0x92) .ds 0x40 x t) ∧
    ∃ sel off x t u, (put prot 0x5004 [3, 0x10]).prot = true ∧ FarMem (put prot 0x5004 [3, 0x10]).begun .d32 m5 sel off t ∧
      SregRefused t .fs sel x u := by
  refine ⟨⟨_, _, _, _, by decide +kernel, .reg _, .null rfl (by decide +kernel)⟩, fun p h => ?_, fun p h => ?_,
    ⟨_, _, .data (by decide) (by decide) (nowhere (by decide +kernel))⟩,
    _, _, _, _, _, by decide +kernel, .mk _ _ _ _ (reach (by decide +kernel)) (by decide +kernel) (reach (by decide +kernel)),
    .data (by decide) (by decide +kernel) (nowhere (by decide +kernel))⟩
  all_goals
    simp only [List.mem_cons, List.not_mem_nil, or_false] at h
    obtain rfl | rfl | rfl := h
  · exact ⟨_, _, .stack rfl (by decide) (fails (v := 13) (by decide +kernel)), rfl⟩
  · exact ⟨_, _, .stack rfl (by decide) (fails (v := 13) (by decide +kernel)), rfl⟩
  · exact ⟨_, _, .stack rfl (by decide) (fails (v := 12) (by decide +kernel)), rfl⟩
  · exact ⟨_, _, .data (by decide) (by decide) (fails (v := 13) (by decide +kernel)), rfl⟩
  · exact ⟨_, _, .data (by decide) (by decide) (fails (v := 13) (by decide +kernel)), rfl⟩
  · exact ⟨_, _, .data (by decide) (by decide) (fails (v := 11) (by decide +kernel)), rfl⟩

/-- The last entry of a GDT, and the one after it; an entry of the LDT; a descriptor read, and its access byte rewritten. -/
theorem witness_SegmentRegisterMoves_descriptor :
    ((entry 0x92).descAddr 0x38 = some 0x4038 ∧ (entry 0x92).descAddr 0x40 = none) ∧
    ({ prot with ldtr := ⟨0x38, 0x3000, 7, true⟩ } : State).descAddr 4 = some 0x3000 ∧
    ({ prot with ldtr := ⟨0x38, 0x3000, 7, true⟩ } : State).descAddr 0xC = none ∧
    (∃ (x y : Dword) (t u : State), SysGet (entry 0x92) 0x4038 4 x.toNat t ∧ SysGet t (0x4038 + 4) 4 y.toNat u) ∧
    (⟨0xFFF, 0x409200⟩ : Desc).d1.getLsbD 8 = false ∧ (⟨0xFFF, 0x409300⟩ : Desc).d1.getLsbD 8 = true ∧
    ∃ t, SysPut (entry 0x92) (0x4038 + 5) 1 ((⟨0xFFF, 0x409200⟩ : Desc).d1.extractLsb' 8 8 ||| 1).toNat t :=
  ⟨by decide +kernel, by decide +kernel, by decide +kernel,
    ⟨0xFFF, 0x409200, _, _, sysNum _ (by decide +kernel), sysNum _ (by decide +kernel)⟩, by decide, by decide,
    _, sysPut (by decide +kernel)⟩

theorem witness_PopResult_refused : ∃ v t x u, PopFrom prot.begun .d32 v t ∧ prot.prot = true ∧
    SregRefused t .ss (v.setWidth 16) x u :=
  ⟨_, _, _, _, .mk _ _ (reach (by decide +kernel)), by decide +kernel, .null rfl (by decide +kernel)⟩

/-- A null selector; data of level 0 that is no target, an inner code segment, one that is not present, the entry beyond the
limit; a gate with a null selector, to an inner segment (for JMP) and to data. -/
theorem witness_FarTransferSame_refused :
    (∃ w sel off t, prot.prot = true ∧ FarIs prot.begun (.ptr .w16 3 0) w sel off t ∧ nullSel sel = true) ∧
    (∀ p ∈ ([(0x92, 13), (0xFA, 13), (0x1A, 11)] : List (Nat × Byte)), ∃ w sel off t x u, (entry p.1).prot = true ∧
      FarIs (entry p.1).begun (.ptr .w16 0x38 0) w sel off t ∧ nullSel sel = false ∧
      Refused t sel 13 false (fun d => d.farFaults (entry p.1).cpl sel) x u ∧ x.vec = p.2) ∧
    (∃ w sel off t x u, (entry 0x9A).prot = true ∧ FarIs (entry 0x9A).begun (.ptr .w16 0x40 0) w sel off t ∧
      nullSel sel = false ∧ Refused t sel 13 false (fun d => d.farFaults (entry 0x9A).cpl sel) x u) ∧
    ∀ p ∈ ([(0, true), (8, false), (0x10, false)] : List (Nat × Bool)), ∃ (s : State) (w : Width) (sel : Word) (off : Dword)
        (t : State) (g : Desc) (u : State), s = put (gated user 0) 0x403A [p.1] ∧ s.prot = true ∧
      FarIs s.begun (.ptr .w16 0x38 0) w sel off t ∧ nullSel sel = false ∧ fetchDesc sel t = .ok (some g) u ∧
      g.isCallGate = true ∧ s.cpl ≤ g.dpl ∧ selRpl sel ≤ g.dpl ∧ g.p = true ∧ nullSel g.gateSel = p.2 ∧
      (p.2 = false → ∃ x v, Refused u g.gateSel 13 false (fun c => c.throughFaults false s.cpl) x v) ∧
      (p.1 = 0x10 → ∃ x v, Refused u g.gateSel 13 false (fun c => c.throughFaults true s.cpl) x v) := by
  refine ⟨⟨_, _, _, _, by decide +kernel, .ptr _ _ _, by decide⟩, fun p h => ?_,
    ⟨_, _, _, _, _, _, by decide +kernel, .ptr _ _ _, by decide, nowhere (by decide +kernel)⟩, fun p h => ?_⟩
  all_goals
    simp only [List.mem_cons, List.not_mem_nil, or_false] at h
    obtain rfl | rfl | rfl := h
  · exact ⟨_, _, _, _, _, _, by decide +kernel, .ptr _ _ _, by decide, fails (v := 13) (by decide +kernel), rfl⟩
  · exact ⟨_, _, _, _, _, _, by decide +kernel, .ptr _ _ _, by decide, fails (v := 13) (by decide +kernel), rfl⟩
  · exact ⟨_, _, _, _, _, _, by decide +kernel, .ptr _ _ _, by decide, fails (v := 11) (by decide +kernel), rfl⟩
  · exact ⟨_, _, _, _, _, _, _, rfl, by decide +kernel, .ptr _ _ _, by decide, okD (by decide +kernel), by decide +kernel,
      by decide +kernel, by decide +kernel, by decide +kernel, by decide +kernel, fun h => absurd h (by decide),
      fun h => absurd h (by decide)⟩
  · exact ⟨_, _, _, _, _, _, _, rfl, by decide +kernel, .ptr _ _ _, by decide, okD (by decide +kernel), by decide +kernel,
      by decide +kernel, by decide +kernel, by decide +kernel, by decide +kernel,
      fun _ => ⟨_, _, fails (v := 13) (by decide +kernel)⟩, fun h => absurd h (by decide)⟩
  · exact ⟨_, _, _, _, _, _, _, rfl, by decide +kernel, .ptr _ _ _, by decide, okD (by decide +kernel), by decide +kernel,
      by decide +kernel, by decide +kernel, by decide +kernel, by decide +kernel,
      fun _ => ⟨_, _, fails (v := 13) (by decide +kernel)⟩, fun _ => ⟨_, _, fails (v := 13) (by decide +kernel)⟩⟩

/-- A frame of doublewords at 9000H with CS selector `rs`. -/
def framed (s : State) (rs : Nat) : State := put s 0x9004 [rs % 256, rs / 256]

/-- An inner level, a null selector, data. -/
theorem witness_FarReturn_refused :
    (∃ rs t, (framed user 8).prot = true ∧ StackItem (framed user 8).begun Width.d32.bytes .w16 rs t ∧
      selRpl rs < (framed user 8).cpl) ∧
    (∃ rs t, (framed prot 0).prot = true ∧ StackItem (framed prot 0).begun Width.d32.bytes .w16 rs t ∧ selRpl rs = prot.cpl ∧
      nullSel rs = true) ∧
    (∃ rs t x u, (framed prot 0x10).prot = true ∧ StackItem (framed prot 0x10).begun Width.d32.bytes .w16 rs t ∧
      selRpl rs = prot.cpl ∧ nullSel rs = false ∧ Refused t rs 13 false (fun c => c.codeFaults 13 prot.cpl) x u) :=
  ⟨⟨_, _, by decide +kernel, .mk _ _ (reach (by decide +kernel)), by decide +kernel⟩,
    ⟨_, _, by decide +kernel, .mk _ _ (reach (by decide +kernel)), by decide +kernel, by decide +kernel⟩,
    _, _, _, _, by decide +kernel, .mk _ _ (reach (by decide +kernel)), by decide +kernel, by decide +kernel,
    fails (v := 13) (by decide +kernel)⟩

/-- An IDT limit that holds vector 8 to its last byte and not vector 9. -/
theorem witness_DeliveryReal_limit :
    let s : State := { set real .esp 0x100 with idtr := ⟨0, 0x23⟩ }
    let e : Event := { vec := 9, kind := .exc, code := none, isFault := true, ret := 0x600 }
    s.pe = false ∧ s.idtr.limit.toNat < 4 * e.vec.toNat + 3 ∧ ¬(e.kind = .exc ∧ e.vec = 8) ∧
      4 * 8 + 3 ≤ s.idtr.limit.toNat := by decide +kernel

/-- INT 13 from level 3. -/
def soft (v : Byte) : Event := { vec := v, kind := .soft, code := none, isFault := false, ret := 0x1002 }

/-- An IDT limit one short of the entry, and just holding it; an entry of another type, of a DPL below CPL for INT, one that is
not present; a gate with a null selector, to data, to an entry beyond the limit. -/
theorem witness_DeliverySame_refused :
    (prot.pe = true ∧ ({ prot with idtr := ⟨0x6000, 0x6E⟩ } : State).idtr.limit.toNat < (soft 13).vec.toNat * 8 + 7 ∧
      ((soft 13).vec.toNat * 8 + 7 ≤ ({ prot with idtr := ⟨0x6000, 0x6F⟩ } : State).idtr.limit.toNat)) ∧
    (∀ p ∈ ([(0x84, 13), (0x8E, 13), (0x6E, 11)] : List (Nat × Byte)), ∃ g t,
      readDesc ((gate user 13 p.1).idtr.base + ((soft 13).vec.setWidth 32 <<< 3)) (gate user 13 p.1) = .ok g t ∧
      firstFault (g.idtFaults ((soft 13).kind == .soft) (gate user 13 p.1).cpl) = some p.2) ∧
    (∃ g t, readDesc (prot.idtr.base + ((soft 13).vec.setWidth 32 <<< 3)) (put prot 0x606A [0]) = .ok g t ∧
      firstFault (g.idtFaults ((soft 13).kind == .soft) prot.cpl) = none ∧ g.typ ≠ 5 ∧ nullSel g.gateSel = true) ∧
    (∃ g t x u, readDesc (prot.idtr.base + ((soft 13).vec.setWidth 32 <<< 3)) (put prot 0x606A [0x10]) = .ok g t ∧
      firstFault (g.idtFaults ((soft 13).kind == .soft) prot.cpl) = none ∧ g.typ ≠ 5 ∧ nullSel g.gateSel = false ∧
      Refused t g.gateSel 13 false (fun c => c.gateFaults prot.cpl) x u) ∧
    ∃ g t x u, readDesc (prot.idtr.base + ((soft 13).vec.setWidth 32 <<< 3)) (put prot 0x606A [0, 0x10]) = .ok g t ∧
      firstFault (g.idtFaults ((soft 13).kind == .soft) prot.cpl) = none ∧ g.typ ≠ 5 ∧ nullSel g.gateSel = false ∧
      Refused t g.gateSel 13 false (fun c => c.gateFaults prot.cpl) x u := by
  refine ⟨by decide +kernel, fun p h => ?_,
    ⟨_, _, okV (by decide +kernel), by decide +kernel, by decide +kernel, by decide +kernel⟩,
    ⟨_, _, _, _, okV (by decide +kernel), by decide +kernel, by decide +kernel, by decide +kernel,
      fails (v := 13) (by decide +kernel)⟩,
    _, _, _, _, okV (by decide +kernel), by decide +kernel, by decide +kernel, by decide +kernel, nowhere (by decide +kernel)⟩
  simp only [List.mem_cons, List.not_mem_nil, or_false] at h
  obtain rfl | rfl | rfl := h <;> exact ⟨_, _, okV (by decide +kernel), by decide +kernel⟩

/-- In one byte of the map a bit that is 0 and one that is 1; the last byte within the TSS and the first beyond it; a base one
short of the limit, and at it. -/
theorem witness_PortTransfer_map :
    (user.pe = true ∧ user.iopl < user.cpl ∧ user.tr.is386 = true) ∧
    ({ user with tr := { user.tr with is386 := false } } : State).tr.is386 = false ∧
    (∃ (base : Word) (t u : State), SysGet user (user.tr.base + 0x66) 2 base.toNat t ∧ base.toNat < t.tr.limit.toNat ∧
      PortBits base.toNat t [0] true u) ∧
    (∃ (base : Word) (t u : State), SysGet user (user.tr.base + 0x66) 2 base.toNat t ∧ PortBits base.toNat t [0, 1] false u) ∧
    (∃ (base : Word) (t u : State), SysGet user (user.tr.base + 0x66) 2 base.toNat t ∧
      PortBits base.toNat t [0x7CBF, 0x7CC0] false u) ∧
    (∃ (base : Word) (t : State), SysGet (put user 0x7066 [0xFE, 0x0F]) (user.tr.base + 0x66) 2 base.toNat t ∧
      base.toNat < t.tr.limit.toNat) ∧
    ∃ (base : Word) (t : State), SysGet (put user 0x7066 [0xFF, 0x0F]) (user.tr.base + 0x66) 2 base.toNat t ∧
      t.tr.limit.toNat ≤ base.toNat :=
  ⟨by decide +kernel, rfl,
    ⟨0x68, _, _, sysNum _ (by decide +kernel), by decide +kernel,
      .allowed (b := 2) (by decide +kernel) (sysNum _ (by decide +kernel)) (by decide) (.nil _)⟩,
    ⟨0x68, _, _, sysNum _ (by decide +kernel), .allowed (b := 2) (by decide +kernel) (sysNum _ (by decide +kernel)) (by decide)
      (.denied (b := 2) (by decide +kernel) (sysNum _ (by decide +kernel)) (by decide))⟩,
    ⟨0x68, _, _, sysNum _ (by decide +kernel), .allowed (b := 0) (by decide +kernel) (sysNum _ (by decide +kernel)) (by decide)
      (.beyond (by decide +kernel))⟩,
    ⟨0xFFE, _, sysNum _ (by decide +kernel), by decide +kernel⟩, 0xFFF, _, sysNum _ (by decide +kernel), by decide +kernel⟩

/-- IRETD from level 3 to level 0; at one level a frame that ends at the limit of SS and one that ends a byte beyond it, one that
wraps, a null selector, data. -/
theorem witness_InterruptReturn_refused :
    (∃ rs t, (framed user 8).prot = true ∧ (framed user 8).flag .nt = false ∧ (framed user 8).cpl ≠ 0 ∧
      StackItem { (framed user 8).begun with nmiMask := false } Width.d32.bytes .w16 rs t ∧ selRpl rs < (framed user 8).cpl) ∧
    (∀ p ∈ ([(0x9005, true), (0x9004, false)] : List (Dword × Bool)), ∃ (s : State) (rs : Word) (t : State),
      s = { framed prot 8 with ss := { flat with limit := p.1 } } ∧ s.prot = true ∧ s.flag .nt = false ∧
      StackItem { s.begun with nmiMask := false } Width.w16.bytes .w16 rs t ∧ selRpl rs = s.cpl ∧
      t.topOk (3 * Width.w16.bytes) = p.2 ∧ t.ss.readable = true) ∧
    (∃ rs t, StackItem { (set { prot with ss := { flat with db := false } } .esp 0xFFFC).begun with nmiMask := false }
      Width.w16.bytes .w16 rs t ∧ selRpl rs = prot.cpl ∧ t.topOk (3 * Width.w16.bytes) = false ∧ t.ss.readable = true) ∧
    ∀ p ∈ ([(0, true), (0x10, false)] : List (Nat × Bool)), ∃ (s : State) (fl' : Dword) (rs : Word) (t₀ t : State),
      s = framed prot p.1 ∧ s.prot = true ∧ s.flag .nt = false ∧ s.cpl = 0 ∧
      StackItem { s.begun with nmiMask := false } 8 .d32 fl' t₀ ∧ fl'.getLsbD 17 = false ∧
      StackItem t₀ Width.d32.bytes .w16 rs t ∧ selRpl rs = s.cpl ∧ t.topOk (3 * Width.d32.bytes) = true ∧ nullSel rs = p.2 ∧
      (p.2 = false → ∃ x u, Refused t rs 13 false (fun c => c.codeFaults 13 s.cpl) x u) := by
  refine ⟨⟨_, _, by decide +kernel, by decide +kernel, by decide +kernel, .mk _ _ (reach (by decide +kernel)),
      by decide +kernel⟩, fun p h => ?_,
    ⟨_, _, .mk _ _ (reach (by decide +kernel)), by decide +kernel, by decide +kernel, by decide +kernel⟩, fun p h => ?_⟩
  all_goals
    simp only [List.mem_cons, List.not_mem_nil, or_false] at h
    obtain rfl | rfl := h
  · exact ⟨_, _, _, rfl, by decide +kernel, by decide +kernel, .mk _ _ (reach (by decide +kernel)), by decide +kernel,
      by decide +kernel, by decide +kernel⟩
  · exact ⟨_, _, _, rfl, by decide +kernel, by decide +kernel, .mk _ _ (reach (by decide +kernel)), by decide +kernel,
      by decide +kernel, by decide +kernel⟩
  · exact ⟨_, _, _, _, _, rfl, by decide +kernel, by decide +kernel, by decide +kernel, .mk _ _ (reach (by decide +kernel)),
      by decide +kernel, .mk _ _ (reach (by decide +kernel)), by decide +kernel, by decide +kernel, by decide +kernel,
      fun h => absurd h (by decide)⟩
  · exact ⟨_, _, _, _, _, rfl, by decide +kernel, by decide +kernel, by decide +kernel, .mk _ _ (reach (by decide +kernel)),
      by decide +kernel, .mk _ _ (reach (by decide +kernel)), by decide +kernel, by decide +kernel, by decide +kernel,
      fun _ => ⟨_, _, fails (v := 13) (by decide +kernel)⟩⟩

/-- A selector of the LDT; the first entry beyond the limit; another type, and an LDT or a TSS that is not present. -/
theorem witness_TaskRegisterMoves_refused :
    (∃ sel t, (set prot .eax 4).prot = true ∧ (set prot .eax 4).cpl = 0 ∧ RmIs (set prot .eax 4).begun .w16 (rg .eax) sel t ∧
      nullSel sel = false ∧ selTi sel = true) ∧
    (∃ sel t x u, (set (entry 0x92) .eax 0x40).prot = true ∧ RmIs (set (entry 0x92) .eax 0x40).begun .w16 (rg .eax) sel t ∧
      nullSel sel = false ∧ selTi sel = false ∧ Refused t sel 13 false (fun d => d.ldtFaults 13 11) x u) ∧
    (∀ p ∈ ([(0x92, 13), (2, 11)] : List (Nat × Byte)), ∃ sel t x u, (set (entry p.1) .eax 0x38).prot = true ∧
      (set (entry p.1) .eax 0x38).cpl = 0 ∧ RmIs (set (entry p.1) .eax 0x38).begun .w16 (rg .eax) sel t ∧
      nullSel sel = false ∧ selTi sel = false ∧ Refused t sel 13 false (fun d => d.ldtFaults 13 11) x u ∧ x.vec = p.2) ∧
    ∀ p ∈ ([(0x8B, 13), (9, 11)] : List (Nat × Byte)), ∃ sel t x u, (set (entry p.1) .eax 0x38).prot = true ∧
      (set (entry p.1) .eax 0x38).cpl = 0 ∧ RmIs (set (entry p.1) .eax 0x38).begun .w16 (rg .eax) sel t ∧
      nullSel sel = false ∧ selTi sel = false ∧ Refused t sel 13 false (fun d => d.trFaults) x u ∧ x.vec = p.2 := by
  refine ⟨⟨_, _, by decide +kernel, by decide +kernel, .reg _, by decide +kernel, by decide +kernel⟩,
    ⟨_, _, _, _, by decide +kernel, .reg _, by decide +kernel, by decide +kernel, nowhere (by decide +kernel)⟩,
    fun p h => ?_, fun p h => ?_⟩
  all_goals
    simp only [List.mem_cons, List.not_mem_nil, or_false] at h
    obtain rfl | rfl := h
  · exact ⟨_, _, _, _, by decide +kernel, by decide +kernel, .reg _, by decide +kernel, by decide +kernel,
      fails (v := 13) (by decide +kernel), rfl⟩
  · exact ⟨_, _, _, _, by decide +kernel, by decide +kernel, .reg _, by decide +kernel, by decide +kernel,
      fails (v := 11) (by decide +kernel), rfl⟩
  · exact ⟨_, _, _, _, by decide +kernel, by decide +kernel, .reg _, by decide +kernel, by decide +kernel,
      fails (v := 13) (by decide +kernel), rfl⟩
  · exact ⟨_, _, _, _, by decide +kernel, by decide +kernel, .reg _, by decide +kernel, by decide +kernel,
      fails (v := 11) (by decide +kernel), rfl⟩

/-- An RPL in memory that is as high as that of the register. -/
theorem witness_AccessRights_arpl : ∃ u a t, prot.prot = true ∧
    memWriteCheck prot.user (segOf m5) (prot.memEa m5) 2 prot.begun = .ok () u ∧ RmIs u .w16 (.mem m5) a t ∧
      (prot.reg .w16 .ecx).extractLsb' 0 2 ≤ a.extractLsb' 0 2 :=
  ⟨_, _, _, by decide +kernel, okU (by decide +kernel), .mem _ _ _ (reach (by decide +kernel)), by decide +kernel⟩

/-- Level 0 of an 80386 TSS whose limit ends with SS0 and one short of it, level 2 of an 80286 TSS; a null SS0, one that is
refused, one that is accepted. -/
theorem witness_DeliveryInner_stack :
    (user.tr.is386 = true ∧ ({ user with tr := { user.tr with limit := 8 } } : State).tr.limit.toNat < 9 + 8 * (0 : BitVec 2).toNat ∧
      9 + 8 * (0 : BitVec 2).toNat ≤ ({ user with tr := { user.tr with limit := 9 } } : State).tr.limit.toNat) ∧
    (∃ (sp : Dword) (sel : Word) (t u : State), SysGet (put user 0x7008 [0]) (user.tr.base + BitVec.ofNat 32 (4 + 8 * 0)) 4 sp.toNat t ∧
      SysGet t (user.tr.base + BitVec.ofNat 32 (8 + 8 * 0)) 2 sel.toNat u ∧ nullSel sel = true) ∧
    (∃ (sp : Dword) (sel : Word) (t u v : State) (x : Exc),
      SysGet (put user 0x7008 [8]) (user.tr.base + BitVec.ofNat 32 (4 + 8 * 0)) 4 sp.toNat t ∧
      SysGet t (user.tr.base + BitVec.ofNat 32 (8 + 8 * 0)) 2 sel.toNat u ∧ nullSel sel = false ∧
      Refused u sel 10 true (fun d => d.stackFaults 10 0 sel) x v) ∧
    (∃ (sp : Dword) (sel : Word) (t u v : State) (d : Desc),
      SysGet user (user.tr.base + BitVec.ofNat 32 (4 + 8 * 0)) 4 sp.toNat t ∧
      SysGet t (user.tr.base + BitVec.ofNat 32 (8 + 8 * 0)) 2 sel.toNat u ∧ nullSel sel = false ∧
      fetchDesc sel u = .ok (some d) v ∧ firstFault (d.stackFaults 10 0 sel) = none) ∧
    ∃ (sp : Dword) (sel : Word) (t u : State), 5 + 4 * (2 : BitVec 2).toNat ≤ user.tr.limit.toNat ∧
      SysGet user (user.tr.base + BitVec.ofNat 32 (2 + 4 * (2 : BitVec 2).toNat)) 2 sp.toNat t ∧
      SysGet t (user.tr.base + BitVec.ofNat 32 (4 + 4 * (2 : BitVec 2).toNat)) 2 sel.toNat u ∧ sp.toNat < 65536 :=
  ⟨by decide +kernel,
    ⟨0x9800, 0, _, _, sysNum _ (by decide +kernel), sysNum _ (by decide +kernel), by decide⟩,
    ⟨0x9800, 8, _, _, _, _, sysNum _ (by decide +kernel), sysNum _ (by decide +kernel), by decide,
      fails (v := 10) (by decide +kernel)⟩,
    ⟨0x9800, 0x10, _, _, _, _, sysNum _ (by decide +kernel), sysNum _ (by decide +kernel), by decide, okD (by decide +kernel),
      by decide +kernel⟩,
    0, 0, _, _, by decide +kernel, sysNum _ (by decide +kernel), sysNum _ (by decide +kernel), by decide⟩

/-- A stack of 0FFFH bytes: eight bytes end at its limit, or one beyond; a 16-bit stack on which they would wrap; a stack that is
loaded. -/
theorem witness_DeliveryInner_room :
    (let d : Desc := ⟨0x0FFF, 0x409300⟩
     (inLimit (d.toSeg 0x10) (cut d.db (cut d.db 0x1000 - 8)) 8 = true ∧ d.db = true) ∧
       inLimit (d.toSeg 0x10) (cut d.db (cut d.db 0x1001 - 8)) 8 = false) ∧
    (let d : Desc := ⟨0xFFFF, 0x8F9300⟩
     d.db = false ∧ ¬(cut d.db (cut d.db 7 - 8)).toNat + 8 ≤ 65536) ∧
    (∃ pas t, translateAll true false (span ((⟨0x0FFF, 0x409300⟩ : Desc).base + 0xFF8) 8) prot = .ok pas t) ∧
    ∃ t, setAccessed 0x38 ⟨0x0FFF, 0x409200⟩ (entry 0x92) = .ok () t :=
  ⟨by decide +kernel, by decide +kernel, ⟨_, _, translateAll_flat (by decide +kernel) _ _ _⟩, _, okU (by decide +kernel)⟩

/-- From V86 mode a 16-bit gate, and a TSS too small for SS0; from level 3 the same TSS, and an inner stack without room. -/
theorem witness_DeliveryInner_refused :
    (∀ p ∈ ([({ v86gate with mem := (gate user 13 0xE6).mem }, false), ({ v86gate with tr := { user.tr with limit := 8 } }, true)] :
        List (State × Bool)), ∃ g c t u, p.1.pe = true ∧ p.1.flag .vm = true ∧
      readDesc (p.1.idtr.base + ((gp 0x1000).vec.setWidth 32 <<< 3)) p.1 = .ok g t ∧
      firstFault (g.idtFaults ((gp 0x1000).kind == .soft) p.1.cpl) = none ∧ g.typ ≠ 5 ∧ nullSel g.gateSel = false ∧
      fetchDesc g.gateSel t = .ok (some c) u ∧ firstFault (c.gateFaults p.1.cpl) = none ∧ c.conforming = false ∧ c.dpl = 0 ∧
      g.typ.getLsbD 3 = p.2 ∧ (p.2 = true → ∃ x v, innerStackSeg (gp 0x1000).kind.ext 0 u = .error x v)) ∧
    (∃ g c t u x v, ({ user with tr := { user.tr with limit := 8 } } : State).pe = true ∧ user.flag .vm = false ∧
      readDesc (user.idtr.base + ((gp 0x1000).vec.setWidth 32 <<< 3)) { user with tr := { user.tr with limit := 8 } } = .ok g t ∧
      firstFault (g.idtFaults ((gp 0x1000).kind == .soft) user.cpl) = none ∧ g.typ ≠ 5 ∧ nullSel g.gateSel = false ∧
      fetchDesc g.gateSel t = .ok (some c) u ∧ firstFault (c.gateFaults user.cpl) = none ∧ c.conforming = false ∧
      c.dpl < user.cpl ∧ innerStackSeg (gp 0x1000).kind.ext c.dpl u = .error x v) ∧
    ∃ g c t u ssel sd sp v x y, readDesc (user.idtr.base + ((gp 0x1000).vec.setWidth 32 <<< 3)) (desc user 0x10 0 0xFFF 0x92 4) =
        .ok g t ∧
      firstFault (g.idtFaults ((gp 0x1000).kind == .soft) user.cpl) = none ∧ g.typ ≠ 5 ∧ nullSel g.gateSel = false ∧
      fetchDesc g.gateSel t = .ok (some c) u ∧ firstFault (c.gateFaults user.cpl) = none ∧ c.conforming = false ∧
      c.dpl < user.cpl ∧ innerStackSeg (gp 0x1000).kind.ext c.dpl u = .ok (ssel, sd, sp) v ∧
      newStackRoom ssel sd sp ((gp 0x1000).frame (sizeW (g.typ.getLsbD 3)) 5) v = .error x y := by
  refine ⟨fun p h => ?_,
    ⟨_, _, _, _, _, _, by decide +kernel, by decide +kernel, okV (by decide +kernel), by decide +kernel, by decide +kernel,
      by decide +kernel, okD (by decide +kernel), by decide +kernel, by decide +kernel, by decide +kernel,
      errV (by decide +kernel)⟩,
    _, _, _, _, _, _, _, _, _, _, okV (by decide +kernel), by decide +kernel, by decide +kernel, by decide +kernel,
    okD (by decide +kernel), by decide +kernel, by decide +kernel, by decide +kernel, okT (by decide +kernel),
    errV (by decide +kernel)⟩
  simp only [List.mem_cons, List.not_mem_nil, or_false] at h
  obtain rfl | rfl := h
  · exact ⟨_, _, _, _, by decide +kernel, by decide +kernel, okV (by decide +kernel), by decide +kernel, by decide +kernel,
      by decide +kernel, okD (by decide +kernel), by decide +kernel, by decide +kernel, by decide +kernel, by decide +kernel,
      fun h => absurd h (by decide)⟩
  · exact ⟨_, _, _, _, by decide +kernel, by decide +kernel, okV (by decide +kernel), by decide +kernel, by decide +kernel,
      by decide +kernel, okD (by decide +kernel), by decide +kernel, by decide +kernel, by decide +kernel, by decide +kernel,
      fun _ => ⟨_, _, errV (by decide +kernel)⟩⟩

/-- Two parameters; a CALL through a gate under a TSS too small for SS0, and to an inner stack without room. -/
theorem witness_FarTransferAcrossLevels_call :
    (∃ p q t, StackItems .w16 prot ((List.range 2).map fun k => k * Width.w16.bytes) [p, q] t) ∧
    ∀ p ∈ ([({ gated user 0 with tr := { user.tr with limit := 8 } }, false), (gated (desc user 0x10 0 0xFFF 0x92 4) 0, true)] :
        List (State × Bool)), ∃ w sel off t u v g c, p.1.prot = true ∧ FarIs p.1.begun (.ptr .w16 0x38 0) w sel off t ∧
      nullSel sel = false ∧ fetchDesc sel t = .ok (some g) u ∧ g.isCallGate = true ∧ p.1.cpl ≤ g.dpl ∧ selRpl sel ≤ g.dpl ∧
      g.p = true ∧ nullSel g.gateSel = false ∧ fetchDesc g.gateSel u = .ok (some c) v ∧ c.isCode = true ∧ c.p = true ∧
      c.conforming = false ∧ c.dpl < p.1.cpl ∧
      (if p.2 then ∃ ssel sd sp x y z, innerStackSeg false c.dpl v = .ok (ssel, sd, sp) z ∧
        newStackRoom ssel sd sp ((g.gateCount + 4) * (sizeW (g.typ.getLsbD 3)).bytes) z = .error x y
      else ∃ x y, innerStackSeg false c.dpl v = .error x y) := by
  refine ⟨⟨_, _, _, .cons (.mk _ _ (reach (by decide +kernel))) <| .cons (.mk _ _ (reach (by decide +kernel))) <| .nil _⟩,
    fun p h => ?_⟩
  simp only [List.mem_cons, List.not_mem_nil, or_false] at h
  obtain rfl | rfl := h
  · exact ⟨_, _, _, _, _, _, _, _, by decide +kernel, .ptr _ _ _, by decide, okD (by decide +kernel), by decide +kernel,
      by decide +kernel, by decide +kernel, by decide +kernel, by decide +kernel, okD (by decide +kernel), by decide +kernel,
      by decide +kernel, by decide +kernel, by decide +kernel, _, _, errV (by decide +kernel)⟩
  · exact ⟨_, _, _, _, _, _, _, _, by decide +kernel, .ptr _ _ _, by decide, okD (by decide +kernel), by decide +kernel,
      by decide +kernel, by decide +kernel, by decide +kernel, by decide +kernel, okD (by decide +kernel), by decide +kernel,
      by decide +kernel, by decide +kernel, by decide +kernel, _, _, _, _, _, _, okT (by decide +kernel),
      errV (by decide +kernel)⟩

/-- `leaving` with a frame of words: CS `rs`, a parameter, SP 0, SS `nss`, which for IRET stands in the place of SP. -/
def outward (rs nss : Nat) : State := put leaving 0x9802 [rs, 0, 0, 0, 0, 0, nss, 0]

/-- A return to level 3: a stack whose limit ends with the frame, and one byte short of it; a null CS (of RPL 3), data as CS; a
null SS and an SS of level 0. -/
theorem witness_FarTransferAcrossLevels_return :
    (∀ p ∈ ([(0x9809, true), (0x9808, false)] : List (Dword × Bool)), ∃ (s : State) (rs : Word) (t : State),
      s = { outward 0x1B 0x23 with ss := { flat with limit := p.1 } } ∧ s.prot = true ∧ s.flag .nt = false ∧
      StackItem { s.begun with nmiMask := false } Width.w16.bytes .w16 rs t ∧ s.cpl < selRpl rs ∧
      t.topOk (5 * Width.w16.bytes) = p.2 ∧ t.topOk (4 * Width.w16.bytes + (retCount (some 2)).toNat) = p.2 ∧
      t.ss.readable = true) ∧
    (∀ p ∈ ([(3, true), (0x23, false)] : List (Nat × Bool)), ∃ (s : State) (rs : Word) (t : State), s = outward p.1 0x23 ∧
      s.prot = true ∧ StackItem s.begun Width.w16.bytes .w16 rs t ∧ s.cpl < selRpl rs ∧
      t.topOk (4 * Width.w16.bytes + (retCount none).toNat) = true ∧ nullSel rs = p.2 ∧
      (p.2 = false → ∃ x u, Refused t rs 13 false (fun c => c.codeFaults 13 (selRpl rs)) x u)) ∧
    ∀ p ∈ ([(3, true), (0x10, false)] : List (Nat × Bool)), ∃ (s : State) (rs : Word) (d : Desc) (nsp nss : Word)
        (t t₁ t₂ t₃ : State), s = outward 0x1B p.1 ∧ s.prot = true ∧ StackItem s.begun Width.w16.bytes .w16 rs t ∧
      s.cpl < selRpl rs ∧ t.topOk (4 * Width.w16.bytes + (retCount (some 2)).toNat) = true ∧ nullSel rs = false ∧
      fetchDesc rs t = .ok (some d) t₁ ∧ d.returnOk (selRpl rs) ∧
      StackItem t₁ (2 * Width.w16.bytes + (retCount (some 2)).toNat) .w16 nsp t₂ ∧
      StackItem t₂ (2 * Width.w16.bytes + (retCount (some 2)).toNat + Width.w16.bytes) .w16 nss t₃ ∧ nullSel nss = p.2 ∧
      (p.2 = false → ∃ x u, Refused t₃ nss 13 false (fun d => d.stackFaults 13 (selRpl rs) nss) x u) := by
  refine ⟨fun p h => ?_, fun p h => ?_, fun p h => ?_⟩
  all_goals
    simp only [List.mem_cons, List.not_mem_nil, or_false] at h
    obtain rfl | rfl := h
  · exact ⟨_, _, _, rfl, by decide +kernel, by decide +kernel, .mk _ _ (reach (by decide +kernel)), by decide +kernel,
      by decide +kernel, by decide +kernel, by decide +kernel⟩
  · exact ⟨_, _, _, rfl, by decide +kernel, by decide +kernel, .mk _ _ (reach (by decide +kernel)), by decide +kernel,
      by decide +kernel, by decide +kernel, by decide +kernel⟩
  · exact ⟨_, _, _, rfl, by decide +kernel, .mk _ _ (reach (by decide +kernel)), by decide +kernel, by decide +kernel,
      by decide +kernel, fun h => absurd h (by decide)⟩
  · exact ⟨_, _, _, rfl, by decide +kernel, .mk _ _ (reach (by decide +kernel)), by decide +kernel, by decide +kernel,
      by decide +kernel, fun _ => ⟨_, _, fails (v := 13) (by decide +kernel)⟩⟩
  · exact ⟨_, _, _, _, _, _, _, _, _, rfl, by decide +kernel, .mk _ _ (reach (by decide +kernel)), by decide +kernel,
      by decide +kernel, by decide +kernel, okD (by decide +kernel), ⟨by decide +kernel, by decide +kernel, .inr (by decide +kernel)⟩,
      .mk _ _ (reach (by decide +kernel)), .mk _ _ (reach (by decide +kernel)), by decide +kernel,
      fun h => absurd h (by decide)⟩
  · exact ⟨_, _, _, _, _, _, _, _, _, rfl, by decide +kernel, .mk _ _ (reach (by decide +kernel)), by decide +kernel,
      by decide +kernel, by decide +kernel, okD (by decide +kernel), ⟨by decide +kernel, by decide +kernel, .inr (by decide +kernel)⟩,
      .mk _ _ (reach (by decide +kernel)), .mk _ _ (reach (by decide +kernel)), by decide +kernel,
      fun _ => ⟨_, _, fails (v := 13) (by decide +kernel)⟩⟩

/-- Numbers read in turn without paging: there are some. -/
theorem getAll {base : Dword} {n : Nat} : ∀ (ks : List Dword) (s : State), s.pg = false →
    ∃ vs u, vs.length = ks.length ∧ SysGets base n s ks vs u ∧ u.pg = false
  | [], s, h => ⟨[], s, rfl, .nil s, h⟩
  | k :: ks, s, h => by
    obtain ⟨vs, u, hl, hs, hu⟩ := getAll ks (s.afterRead ((span (base + k) n).map BitVec.toNat)) (by simpa [State.pg] using h)
    exact ⟨_ :: vs, u, by simp [hl], sysGets h hs, hu⟩
/-- The new task's TSS read without paging. -/
theorem tssIs {s : State} (h : s.pg = false) : TssIs s newTask (answer (readTss newTask) s) (after (readTss newTask) s) := by
  have hi : ∃ i u, TssIs s newTask i u := by
    obtain ⟨vs, t, hl, hs, ht⟩ := getAll (base := newTask.base) (n := 4)
      [0x20, 0x24, 0x28, 0x2C, 0x30, 0x34, 0x38, 0x3C, 0x40, 0x44] s h
    obtain ⟨ws, u, hl', hs', -⟩ := getAll (base := newTask.base) (n := 2) [0x48, 0x4C, 0x50, 0x54, 0x58, 0x5C, 0x60, 0x64] t ht
    obtain ⟨_, _, _, _, _, _, _, _, _, _, rfl⟩ : ∃ a b c d e f g h i j, vs = [a, b, c, d, e, f, g, h, i, j] := by
      match vs, hl with
      | [_, _, _, _, _, _, _, _, _, _], _ => exact ⟨_, _, _, _, _, _, _, _, _, _, rfl⟩
    obtain ⟨_, _, _, _, _, _, _, _, rfl⟩ : ∃ a b c d e f g h, ws = [a, b, c, d, e, f, g, h] := by
      match ws, hl' with
      | [_, _, _, _, _, _, _, _], _ => exact ⟨_, _, _, _, _, _, _, _, rfl⟩
    exact ⟨_, _, .tss386 _ _ _ _ _ _ _ _ _ _ _ _ _ _ _ _ _ _ _ _ (by decide +kernel) hs hs'⟩
  obtain ⟨i, u, hi⟩ := hi
  have e := readTss_run hi
  unfold answer after
  rw [e]
  exact hi

/-- `tasking` whose new task has byte `v` at offset `k` of its TSS. -/
def taskingWith (k v : Nat) : State := put tasking (0x7800 + k) [v]

/-- A limit of 67H and one less, of an 80386 and of an 80286 TSS. -/
theorem witness_TaskSwitch_limit :
    ((⟨0x78000067, 0x8900⟩ : Desc).limit.toNat = 103 ∧ (⟨0x78000067, 0x8900⟩ : Desc).tss32 = true) ∧
    (⟨0x78000066, 0x8900⟩ : Desc).limit.toNat < (if (⟨0x78000066, 0x8900⟩ : Desc).tss32 then 103 else 43) ∧
    (⟨0x7800002A, 0x8100⟩ : Desc).limit.toNat < (if (⟨0x7800002A, 0x8100⟩ : Desc).tss32 then 103 else 43) := by decide +kernel

/-- A new task whose LDT selector has TI = 1. -/
theorem witness_TaskSwitch_refused : ∃ x₀ x₁ x₂ u i x, x₀.pe = true ∧
    switchOut .jmp false 0x30 newTask 0x1000 2 (taskingWith 0x60 4) = .ok () x₀ ∧ loadTables newTask x₀ = .ok () x₁ ∧
    TssIs x₁ newTask i x₂ ∧ TaskRefused (x₂.loadImage .jmp i) false i x u :=
  ⟨_, _, _, _, _, _, by decide +kernel, okU (by decide +kernel), okU (by decide +kernel), tssIs (by decide +kernel),
    .ldtTi (by decide +kernel) (by decide +kernel)⟩

/-- The image of a task with the given selectors in LDTR, CS, SS and DS, and the state it is loaded into. -/
def selectors (ldt cs ss ds : Word) : TssImage :=
  { (default : TssImage) with ldt := ldt, cs := cs, ss := ss, ds := ds }
def arriving (i : TssImage) : State := prot.loadImage .jmp i

/-- A new task whose LDT selector, CS, SS and DS are refused; whose CS and SS are null. -/
theorem witness_TaskSwitch_selectors :
    (∃ x u, TaskRefused (arriving (selectors 8 8 0x10 0)) false (selectors 8 8 0x10 0) x u) ∧
    (∃ x u, TaskRefused (arriving (selectors 0 0 0x10 0)) false (selectors 0 0 0x10 0) x u) ∧
    (∃ x u, TaskRefused (arriving (selectors 0 0x10 0x10 0)) false (selectors 0 0x10 0x10 0) x u) ∧
    (∃ x u, TaskRefused (arriving (selectors 0 8 0 0)) false (selectors 0 8 0 0) x u) ∧
    (∃ x u, TaskRefused (arriving (selectors 0 8 8 0)) false (selectors 0 8 8 0) x u) ∧
    ∃ x u, TaskRefused (arriving (selectors 0 8 0x10 0x1000)) false (selectors 0 8 0x10 0x1000) x u :=
  ⟨⟨_, _, .ldt (by decide) (by decide) (fails (v := 10) (by decide +kernel))⟩,
    ⟨_, _, .csNull (.null (by decide)) (by decide +kernel) (by decide)⟩,
    ⟨_, _, .cs (.null (by decide)) (by decide +kernel) (by decide) (fails (v := 10) (by decide +kernel))⟩,
    ⟨_, _, .ssNull (.null (by decide)) (by decide +kernel) (.mk _ _ _ (by decide) (okD (by decide +kernel)) (by decide +kernel)
      (.inr (by decide +kernel)) (by decide +kernel) (okU (by decide +kernel))) (by decide)⟩,
    ⟨_, _, .ss (.null (by decide)) (by decide +kernel) (.mk _ _ _ (by decide) (okD (by decide +kernel)) (by decide +kernel)
      (.inr (by decide +kernel)) (by decide +kernel) (okU (by decide +kernel))) (by decide) (fails (v := 10) (by decide +kernel))⟩,
    _, _, .data (.null (by decide)) (by decide +kernel) (.mk _ _ _ (by decide) (okD (by decide +kernel)) (by decide +kernel)
      (.inr (by decide +kernel)) (by decide +kernel) (okU (by decide +kernel)))
      (.stack (by decide +kernel) rfl (by decide) _ _ _ (okD (by decide +kernel)) (by decide +kernel)
        (by decide +kernel) (by decide +kernel) (okU (by decide +kernel))) (.here (by decide) (nowhere (by decide +kernel)))⟩

/-- A task gate with a null selector, with one of the LDT, to a busy TSS, to data, to a TSS that is not present. -/
theorem witness_TaskSwitch_gate :
    nullSel 3 = true ∧ (nullSel 4 = false ∧ selTi 4 = true) ∧
    (∀ p ∈ ([(0x8B, 13), (0x92, 10), (9, 11)] : List (Nat × Byte)), ∃ x t, nullSel 0x38 = false ∧ selTi 0x38 = false ∧
      Refused (entry p.1) 0x38 10 false (fun d => [(d.busyTss, 13), (!d.availTss, 10), (!d.p, 11)]) x t ∧ x.vec = p.2) ∧
    (∃ w sel off d t u v x, (put gateway 0x4018 [0, 0, 0x28]).prot = true ∧
      FarIs (put gateway 0x4018 [0, 0, 0x28]).begun (.ptr .w16 0x18 0) w sel off t ∧ nullSel sel = false ∧
      fetchDesc sel t = .ok (some d) u ∧ gateway.cpl ≤ d.dpl ∧ selRpl sel ≤ d.dpl ∧ d.p = true ∧ d.isTaskGate = true ∧
      gateTaskDesc 13 13 false d.gateSel u = .error x v) ∧
    (∀ p ∈ ([(true, 13), (false, 10)] : List (Bool × Byte)), ∃ (s : State) (e : Event) (g : Desc) (t u : State) (x : Exc),
      s = put tasking 0x6008 [0, 0, 0x28, 0, 0, 0x85, 0, 0] ∧
      e = { vec := 1, kind := .exc, code := none, isFault := false, ret := 0x1000, taskTrap := p.1 } ∧ s.pe = true ∧
      e.vec.toNat * 8 + 7 ≤ s.idtr.limit.toNat ∧ readDesc (s.idtr.base + (e.vec.setWidth 32 <<< 3)) s = .ok g t ∧
      firstFault (g.idtFaults (e.kind == .soft) s.cpl) = none ∧ g.typ = 5 ∧
      (if e.taskTrap = true ∧ g.gateSel.toNat / 4 = t.tr.sel.toNat / 4 then (13 : Byte) else 10) = p.2 ∧
      gateTaskDesc 10 p.2 e.kind.ext g.gateSel t = .error x u) := by
  refine ⟨by decide, by decide, fun p h => ?_,
    ⟨_, _, _, _, _, _, _, _, by decide +kernel, .ptr _ _ _, by decide, okD (by decide +kernel), by decide +kernel,
      by decide +kernel, by decide +kernel, by decide +kernel, errV (by decide +kernel)⟩, fun p h => ?_⟩
  · simp only [List.mem_cons, List.not_mem_nil, or_false] at h
    obtain rfl | rfl | rfl := h
    · exact ⟨_, _, by decide, by decide, fails (v := 13) (by decide +kernel), rfl⟩
    · exact ⟨_, _, by decide, by decide, fails (v := 10) (by decide +kernel), rfl⟩
    · exact ⟨_, _, by decide, by decide, fails (v := 11) (by decide +kernel), rfl⟩
  · simp only [List.mem_cons, List.not_mem_nil, or_false] at h
    obtain rfl | rfl := h <;>
      exact ⟨_, _, _, _, _, _, rfl, rfl, by decide +kernel, by decide +kernel, okV (by decide +kernel), by decide +kernel,
        by decide +kernel, by decide +kernel, errV (by decide +kernel)⟩

/-- A back link that is null, of the LDT, to a TSS that is not busy, to a busy one that is not present. -/
theorem witness_TaskSwitch_link : ∀ p ∈ ([(3, 0x8B), (4, 0x8B), (0x30, 0x89), (0x30, 0x0B)] : List (Nat × Nat)),
    ∃ (s : State) (tss : Word) (t : State), s = put (put nested 0x7000 [p.1]) 0x4035 [p.2] ∧ s.prot = true ∧
      s.flag .nt = true ∧ SysGet { s.begun with nmiMask := false } s.tr.base 2 tss.toNat t ∧ tss.toNat = p.1 ∧
      (p.1 = 3 → nullSel tss = true) ∧ (p.1 = 4 → nullSel tss = false ∧ selTi tss = true) ∧
      (p.1 = 0x30 → nullSel tss = false ∧ selTi tss = false ∧
        ∃ x u, Refused t tss 10 false (fun d => [(!d.busyTss, 10), (!d.p, 11)]) x u) := by
  intro p h
  simp only [List.mem_cons, List.not_mem_nil, or_false] at h
  obtain rfl | rfl | rfl | rfl := h
  · exact ⟨_, 3, _, rfl, by decide +kernel, by decide +kernel, sysNum _ (by decide +kernel), by decide +kernel,
      fun _ => by decide +kernel, fun h => absurd h (by decide), fun h => absurd h (by decide)⟩
  · exact ⟨_, 4, _, rfl, by decide +kernel, by decide +kernel, sysNum _ (by decide +kernel), by decide +kernel,
      fun h => absurd h (by decide), fun _ => by decide +kernel, fun h => absurd h (by decide)⟩
  · exact ⟨_, 0x30, _, rfl, by decide +kernel, by decide +kernel, sysNum _ (by decide +kernel), by decide +kernel,
      fun h => absurd h (by decide), fun h => absurd h (by decide),
      fun _ => ⟨by decide, by decide, _, _, fails (v := 10) (by decide +kernel)⟩⟩
  · exact ⟨_, 0x30, _, rfl, by decide +kernel, by decide +kernel, sysNum _ (by decide +kernel), by decide +kernel,
      fun h => absurd h (by decide), fun h => absurd h (by decide),
      fun _ => ⟨by decide, by decide, _, _, fails (v := 11) (by decide +kernel)⟩⟩

/-- `tasking` with a null SS in the new task and task gates for vectors 2, 6, 8 and 13: each switch commits and then raises #TS. -/
theorem witness_ExceptionDelivery_committed :
    ∀ p ∈ ([(13, .exc), (8, .exc), (6, .exc), (2, .hw)] : List (Byte × EventKind)), ∃ (s : State) (e : Event) (x : Exc) (t : State),
      s = put (taskingWith 0x50 0) (0x6000 + 8 * p.1.toNat) [0, 0, 0x30, 0, 0, 0x85, 0, 0] ∧
      e = { vec := p.1, kind := p.2, code := none, isFault := true, ret := 0x1000 } ∧ deliver e s = .error x t ∧
      x.committed = true ∧ doubles e.vec x.vec = (p.1 == 13) := by
  intro p h
  simp only [List.mem_cons, List.not_mem_nil, or_false] at h
  obtain rfl | rfl | rfl | rfl := h <;>
    exact ⟨_, _, _, _, rfl, rfl, errV (by decide +kernel), by decide +kernel, by decide +kernel⟩

/-- An expand-down segment with limit 0FFFH: the byte after the limit, the limit, the last byte with B = 0 and the byte after it. -/
theorem witness_SegmentFault_down :
    let r : SegReg := { flat with typ := 0b0111, limit := 0xFFF }
    r.typ.getLsbD 3 = false ∧ r.typ.getLsbD 2 = true ∧ inLimit r 0x1000 1 = true ∧ inLimit r 0xFFF 1 = false ∧
      inLimit { r with db := false } 0xFFFF 1 = true ∧ inLimit { r with db := false } 0xFFFF 2 = false := by decide +kernel

/-- Each repeat prefix, with the last count and with another, ZF 0 and 1. -/
theorem witness_StringCompares_repeat : (⟨.d32, none, .rep⟩ : StrAttr).rep = .rep ∧ (⟨.w16, none, .repne⟩ : StrAttr).rep = .repne ∧
    (set prot .ecx 1).idx .d32 .ecx = 1 ∧ (set prot .ecx 0x10002).idx .w16 .ecx = 2 ∧ prot.flag .zf = false ∧
    (prot.setFlag .zf true).flag .zf = true := by decide +kernel

end Sys2Proof.Tests
end

section
/-! SUPPORT. The invariant of a step (`State.Inv`): bits within a mask; the mode a state is in, and the rest of the invariant;
what a tame change of state is, one that keeps both. -/

namespace Sys2Proof.Machine

/-! ### Bits outside a mask -/

/-- Writing a bit of the mask leaves the bits outside it. -/
theorem setBit_outside {mask v : Dword} {n : Nat} {b : Bool} (h : bitOf mask n = true) :
    setBit v n b &&& ~~~mask = v &&& ~~~mask := by
  ext i hi
  have hm : i = n → mask[i] = true := by
    rintro rfl
    rwa [bitOf, BitVec.getLsbD_eq_getElem hi] at h
  have hs := bitOf_setBit v n i b hi
  simp only [bitOf, BitVec.getLsbD_eq_getElem hi] at hs
  simp only [BitVec.getElem_and, BitVec.getElem_not, hs]
  by_cases e : i = n
  · simp [hm e]
  · simp [e]

/-- Two values within a mask make one. -/
theorem or_outside {mask v x : Dword} (hv : v &&& ~~~mask = 0) (hx : x &&& ~~~mask = 0) : (v ||| x) &&& ~~~mask = 0 := by
  rw [BitVec.and_or_distrib_right, hv, hx]
  rfl

/-- Part of a value within a mask lies within it. -/
theorem and_outside {mask v : Dword} (x : Dword) (hv : v &&& ~~~mask = 0) : (v &&& x) &&& ~~~mask = 0 := by
  rw [BitVec.and_assoc, BitVec.and_comm x, ← BitVec.and_assoc, hv]
  simp

/-- What is cut by a mask lies within it. -/
theorem mask_outside (mask v : Dword) : (v &&& mask) &&& ~~~mask = 0 := by
  rw [BitVec.and_assoc, BitVec.and_not_self]
  simp

/-- Bits of a mask set in turn. -/
theorem foldl_setBit_outside {mask : Dword} : ∀ {ns : List Nat} {v : Dword}, (∀ n ∈ ns, bitOf mask n = true) →
    v &&& ~~~mask = 0 → (ns.foldl (fun acc n => setBit acc n true) v) &&& ~~~mask = 0
  | [], _, _, hv => hv
  | n :: ns, _, hn, hv =>
    foldl_setBit_outside (ns := ns) (fun k hk => hn k (List.mem_cons_of_mem _ hk))
      ((setBit_outside (hn n (List.mem_cons_self ..))).trans hv)

/-- Reserved bits of EFLAGS are at their constants when, outside the defined bits, only bit 1 is set (R30). -/
theorem fixFlags_eq_iff (v : Dword) : fixFlags v = v ↔ v &&& ~~~eflagsMask = 2 := by
  unfold fixFlags
  constructor
  · intro h
    rw [← h, BitVec.and_or_distrib_right, mask_outside]
    decide
  · intro h
    rw [← h, ← BitVec.and_or_distrib_left, BitVec.or_not_self, BitVec.and_allOnes]

/-- Writing a defined flag leaves the reserved bits at their constants. -/
theorem setBit_fixed {v : Dword} {n : Nat} (b : Bool) (hn : bitOf eflagsMask n = true) (hv : fixFlags v = v) :
    fixFlags (setBit v n b) = setBit v n b := by
  rw [fixFlags_eq_iff] at hv ⊢
  rw [setBit_outside hn, hv]

theorem fixFlags_fixed (v : Dword) : fixFlags (fixFlags v) = fixFlags v := by
  rw [fixFlags_eq_iff, fixFlags, BitVec.and_or_distrib_right, mask_outside]
  decide


/-! ### Mode and invariant, EIP apart -/

/-- What `State.LegalMode` speaks of. -/
structure Mode where
  pe : Bool
  pg : Bool
  vm : Bool
  cpl : BitVec 2

def State.mode (s : State) : Mode := { pe := s.pe, pg := s.pg, vm := s.flag .vm, cpl := s.cpl }

/-- One of the three modes of R2, at a privilege it allows (R60, R950), paging in protected mode only (R46). -/
structure Mode.Legal (k : Mode) : Prop where
  v86 : k.vm = true → k.pe = true ∧ k.cpl = 3
  real : k.pe = false → k.cpl = 0
  paging : k.pg = true → k.pe = true

/-- Protected mode, VM = 0. -/
structure Mode.Prot (k : Mode) : Prop where
  pe : k.pe = true
  vm : k.vm = false

theorem legalMode_iff {s : State} : s.LegalMode ↔ s.mode.Legal :=
  ⟨fun ⟨a, b, c⟩ => ⟨a, b, c⟩, fun ⟨a, b, c⟩ => ⟨a, b, c⟩⟩

/-- In protected mode every privilege is legal (R60, R950). -/
theorem Mode.Prot.legal {k : Mode} (h : k.Prot) : k.Legal :=
  ⟨fun hv => by simp [h.vm] at hv, fun hp => by simp [h.pe] at hp, fun _ => h.pe⟩

/-- `State.Inv` without the clause about EIP, which the end of a step restores (R118). -/
structure State.Legal (s : State) : Prop where
  reserved : s.Reserved
  shaped : s.Shaped
  mode : s.mode.Legal

theorem inv_iff {s : State} : s.Inv ↔ s.Legal ∧ s.EipFits :=
  ⟨fun ⟨r, m, h, e⟩ => ⟨⟨r, h, legalMode_iff.1 m⟩, e⟩, fun ⟨⟨r, h, m⟩, e⟩ => ⟨r, legalMode_iff.2 m, h, e⟩⟩

/-- The fields that `State.Legal` speaks of. -/
structure Guarded where
  eflags : Dword
  cr0 : Dword
  cr3 : Dword
  dr6 : Dword
  dr7 : Dword
  pend : Dword
  pendLate : Dword
  cpl : BitVec 2
  mem : Memory
  tlb : List TlbEntry

def State.guarded (s : State) : Guarded :=
  { eflags := s.eflags, cr0 := s.cr0, cr3 := s.cr3, dr6 := s.dr6, dr7 := s.dr7, pend := s.pend, pendLate := s.pendLate,
    cpl := s.cpl, mem := s.mem, tlb := s.tlb }

/-! ### Tame changes: the mode stays, and the rest of the invariant is kept -/

/-- `t` is in the mode of `s`, and keeps what else the invariant says of `s`. -/
structure State.Tame (s t : State) : Prop where
  mode : t.mode = s.mode
  reserved : s.Reserved → t.Reserved
  shaped : s.Shaped → t.Shaped

namespace State.Tame

variable {s t u : State}

theorem refl (s : State) : s.Tame s := ⟨rfl, id, id⟩

theorem trans (h : s.Tame t) (h' : t.Tame u) : s.Tame u :=
  ⟨h'.mode.trans h.mode, fun r => h'.reserved (h.reserved r), fun r => h'.shaped (h.shaped r)⟩

theorem legal (h : s.Tame t) (hs : s.Legal) : t.Legal :=
  ⟨h.reserved hs.reserved, h.shaped hs.shaped, h.mode.symm ▸ hs.mode⟩

/-- What touches no field of the invariant is tame. -/
theorem same (h : t.guarded = s.guarded) : s.Tame t := by
  simp only [State.guarded, Guarded.mk.injEq] at h
  obtain ⟨hf, h0, h3, h6, h7, hp, hl, hc, hm, ht⟩ := h
  refine ⟨?_, fun ⟨a, b, c, d, e, f, g⟩ => ⟨?_, ?_, ?_, ?_, ?_, ?_, ?_⟩, fun ⟨a, b⟩ => ⟨?_, ?_⟩⟩
  · simp only [State.mode, State.pe, State.pg, State.flag, hf, h0, hc]
  all_goals simpa only [hf, h0, h3, h6, h7, hp, hl, hm, ht]

/-- Writing registers that hold bits of the mode in such a way that it stays. -/
theorem flags {v : Dword} (hv : bitOf v 17 = s.flag .vm) (hr : fixFlags s.eflags = s.eflags → fixFlags v = v) :
    s.Tame { s with eflags := v } :=
  ⟨congrArg (fun b => ({ s.mode with vm := b } : Mode)) hv, fun ⟨a, b, c, d, e, f, g⟩ => ⟨hr a, b, c, d, e, f, g⟩,
    fun ⟨a, b⟩ => ⟨a, b⟩⟩

end State.Tame

end Sys2Proof.Machine
end

section
/-! SUPPORT. Tame changes of state and tame computations: one lemma per state operation and per way of building a
computation, then the access primitives. -/

namespace Sys2Proof.Machine

variable {α β : Type} {s t : State}

/-! ### Tame changes of state -/

/-- B0 to B3 are bits of DR6 (R54). -/
theorem dr6Mask_b : ∀ n ∈ [0, 1, 2, 3], bitOf dr6Mask n = true := by decide

/-- Writing defined flags alone leaves the reserved bits at their constants (R30). -/
theorem putFlags_fixed {e m : Dword} (v : Dword) (hm : m &&& ~~~eflagsMask = 0) (he : fixFlags e = e) :
    fixFlags ((e &&& ~~~m) ||| (v &&& m)) = (e &&& ~~~m) ||| (v &&& m) := by
  rw [fixFlags_eq_iff] at he ⊢
  have hv : (v &&& m) &&& ~~~eflagsMask = 0 := by rw [BitVec.and_comm v, and_outside v hm]
  have hk : ~~~m &&& ~~~eflagsMask = ~~~eflagsMask := by
    have h := BitVec.and_or_distrib_right (x := m) (y := ~~~m) (z := ~~~eflagsMask)
    rw [hm, BitVec.or_not_self, BitVec.allOnes_and] at h
    exact (h.trans BitVec.zero_or).symm
  rw [BitVec.and_or_distrib_right, BitVec.and_assoc, hk, he, hv]
  rfl

namespace State.Tame

/-- A flag other than VM (R30). -/
theorem setFlag (s : State) {f : Flag} (b : Bool) (hf : f ≠ .vm) : s.Tame (s.setFlag f b) := by
  have hd : bitOf eflagsMask f.bit = true := by cases f <;> decide
  exact flags ((State.flag_setFlag s f .vm b).trans (if_neg (Ne.symm hf))) (setBit_fixed b hd)

/-- Flags taken from an image, defined ones but not VM (R30). -/
theorem putFlags (s : State) {m : Dword} (v : Dword) (hm : m &&& ~~~eflagsMask = 0) (hvm : bitOf m 17 = false) :
    s.Tame (s.putFlags m v) := by
  refine flags ?_ (putFlags_fixed v hm)
  have hb : (~~~m).getLsbD 17 = true := by simpa using hvm
  simp only [bitOf] at hvm
  simp only [State.flag, Flag.bit, bitOf, BitVec.getLsbD_or, BitVec.getLsbD_and, hb, hvm, Bool.and_true, Bool.and_false,
    Bool.or_false]

/-- Memory and the TLB in their shape (log 8, R250). -/
theorem store {mem : Memory} {tlb : List TlbEntry} (hm : s.mem.wf = true → mem.wf = true) (ht : tlb.length = s.tlb.length) :
    s.Tame { s with mem := mem, tlb := tlb } :=
  ⟨rfl, fun ⟨a, b, c, d, e, f, g⟩ => ⟨a, b, c, d, e, f, g⟩, fun ⟨a, b⟩ => ⟨hm a, ht.trans b⟩⟩

/-- An entry of the TLB written. -/
theorem tlbSet (s : State) (i : Nat) (e : TlbEntry) : s.Tame { s with tlb := s.tlb.set i e } := store id (List.length_set ..)

theorem flushTlb (s : State) : s.Tame s.flushTlb := store id (List.length_map ..)

/-- CR3 with its reserved bits 0 (R51). -/
theorem setCr3 (s : State) (v : Dword) : s.Tame { s with cr3 := v &&& cr3Mask } :=
  ⟨rfl, fun ⟨a, b, _, d, e, f, g⟩ => ⟨a, b, mask_outside .., d, e, f, g⟩, fun ⟨a, b⟩ => ⟨a, b⟩⟩

theorem setDr6 (s : State) {v : Dword} (hv : s.Reserved → v &&& ~~~dr6Mask = 0) : s.Tame { s with dr6 := v } :=
  ⟨rfl, fun r => ⟨r.eflags, r.cr0, r.cr3, hv r, r.dr7, r.pend, r.pendLate⟩, fun ⟨a, b⟩ => ⟨a, b⟩⟩

theorem setDr7 (s : State) {v : Dword} (hv : s.Reserved → v &&& ~~~dr7Mask = 0) : s.Tame { s with dr7 := v } :=
  ⟨rfl, fun r => ⟨r.eflags, r.cr0, r.cr3, r.dr6, hv r, r.pend, r.pendLate⟩, fun ⟨a, b⟩ => ⟨a, b⟩⟩

/-- The gathered debug-trap bits (R67). -/
theorem setPend (s : State) {p q : Dword} (hp : s.Reserved → p &&& ~~~dr6Mask = 0)
    (hq : s.Reserved → q &&& ~~~dr6Mask = 0) : s.Tame { s with pend := p, pendLate := q } :=
  ⟨rfl, fun r => ⟨r.eflags, r.cr0, r.cr3, r.dr6, r.dr7, hp r, hq r⟩, fun ⟨a, b⟩ => ⟨a, b⟩⟩

theorem setReg (s : State) (w : Width) (r : Reg) (v : BitVec w.bits) : s.Tame (s.setReg w r v) :=
  same (by simp [State.guarded])

theorem setEsp (s : State) (v : Dword) : s.Tame (s.setEsp v) := same (by simp [State.guarded])

theorem setIdx (s : State) (w : Width) (r : Reg) (v : Dword) : s.Tame (s.setIdx w r v) := same (by simp [State.guarded])

theorem stepIdx (s : State) (w : Width) (r : Reg) (n : Nat) : s.Tame (s.stepIdx w r n) := same (by simp [State.guarded])

theorem setSreg (s : State) (sr : SReg) (v : SegReg) : s.Tame (s.setSreg sr v) := by cases sr <;> exact same rfl

theorem szp {n : Nat} (s : State) (r : BitVec n) : s.Tame (s.szp r) :=
  (setFlag s _ (by decide)).trans <| (setFlag _ _ (by decide)).trans (setFlag _ _ (by decide))

theorem addFlags {n : Nat} (s : State) (a b : BitVec n) (c : Bool) : s.Tame (s.addFlags a b c) :=
  (setFlag s _ (by decide)).trans <| (setFlag _ _ (by decide)).trans <| (setFlag _ _ (by decide)).trans (szp _ _)

theorem subFlags {n : Nat} (s : State) (a b : BitVec n) (c : Bool) : s.Tame (s.subFlags a b c) :=
  (setFlag s _ (by decide)).trans <| (setFlag _ _ (by decide)).trans <| (setFlag _ _ (by decide)).trans (szp _ _)

theorem logicFlags {n : Nat} (s : State) (r : BitVec n) : s.Tame (s.logicFlags r) :=
  (setFlag s _ (by decide)).trans <| (setFlag _ _ (by decide)).trans (szp _ _)

theorem afterRead (s : State) (as : List Nat) : s.Tame (s.afterRead as) := by
  obtain ⟨f, d, l, h⟩ := afterRead_frame s as
  rw [h]
  exact same rfl

/-- A store at addresses of the 2^32 bytes of the space. -/
theorem storeBytes (s : State) {as : List Nat} (vs : List Byte) (ha : ∀ a ∈ as, a < 2 ^ 32) :
    s.Tame (s.storeBytes as vs) := by
  obtain ⟨m, l, h⟩ := storeBytes_frame s as vs
  have hm : s.mem.wf = true → m.wf = true := fun hw => by simpa only [h] using storeBytes_wf (vs := vs) ha hw
  rw [h]
  exact (store hm rfl).trans (same rfl)

/-- The bits of the breakpoints that an access meets are bits of DR6 (R906). -/
theorem noted (s : State) (sr : SReg) (off : Dword) (n : Nat) (w : Bool) : s.Tame (s.noted sr off n w) := by
  refine setPend s (fun r => or_outside r.pend ?_) fun r => r.pendLate
  refine foldl_setBit_outside (fun k hk => ?_) (by simp)
  exact dr6Mask_b k (List.mem_filter.1 hk).1

end State.Tame

/-! ### Tame computations -/

/-- A computation whose change of state is tame, whether it succeeds or raises an exception. -/
structure Tame (m : M α) : Prop where
  keeps : Keeps State.Tame State.Tame m

theorem steady_tame : Steady State.Tame State.Tame := ⟨.refl, .refl, .trans, .trans⟩

namespace Tame

theorem ok {m : M α} (h : Tame m) {a : α} (e : m s = .ok a t) : s.Tame t := h.keeps.ok e
theorem error {m : M α} (h : Tame m) {x : Exc} (e : m s = .error x t) : s.Tame t := h.keeps.error e

theorem pure (a : α) : Tame (pure a : M α) := ⟨keeps_pure steady_tame a⟩
theorem throw (x : Exc) : Tame (throw x : M α) := ⟨keeps_throw steady_tame x⟩
theorem raise (v : Byte) (c : Option Word) : Tame (raise v c : M α) := ⟨keeps_raise steady_tame v c⟩
theorem modify {f : State → State} (h : ∀ s : State, s.Tame (f s)) : Tame (modify f : M PUnit) := ⟨keeps_modify f h⟩
theorem bind {m : M α} {f : α → M β} (hm : Tame m) (hf : ∀ a, Tame (f a)) : Tame (m >>= f) :=
  ⟨keeps_bind steady_tame hm.keeps fun a => (hf a).keeps⟩
theorem get {f : State → M β} (hf : ∀ s, Tame (f s)) : Tame (get >>= f) := bind ⟨keeps_get steady_tame⟩ hf
theorem ite {c : Prop} [Decidable c] {m n : M α} (hm : Tame m) (hn : Tame n) : Tame (if c then m else n) :=
  ⟨keeps_ite (fun _ => hm.keeps) fun _ => hn.keeps⟩
theorem check {b : Bool} {m : M Unit} (h : Tame m) : Tame (when b m) := ⟨keeps_when steady_tame h.keeps⟩
theorem draw : Tame draw := ⟨keeps_draw fun _ => .same rfl⟩
theorem drawBit : Tame drawBit := ⟨keeps_drawBit fun _ => .same rfl⟩

/-- Read off what a run comes to. -/
theorem ofRun {m : M α} (h : ∀ s : State, match m s with | .ok _ t => s.Tame t | .error _ t => s.Tame t) : Tame m where
  keeps s := ⟨fun _ _ e => by simpa only [e] using h s, fun _ _ e => by simpa only [e] using h s⟩

/-- A sequence whose first part answers only values with a property that the rest leans on. -/
theorem bindOf {m : M α} {f : α → M β} {p : α → Prop} (hm : Tame m) (hv : ∀ {s a t}, m s = .ok a t → p a)
    (hf : ∀ a, p a → Tame (f a)) : Tame (m >>= f) := by
  refine .ofRun fun s => ?_
  rw [M_bind]
  cases h : m s with
  | ok a t =>
    have hr := hf a (hv h)
    cases e : f a t with
    | ok b u => simpa only [e] using (hm.ok h).trans (hr.ok e)
    | error x u => simpa only [e] using (hm.ok h).trans (hr.error e)
  | error x t => exact hm.error h

end Tame

/-! ### Translation and linear accesses -/

theorem pageFault_tame (lin : Dword) (p w : Bool) : Tame (pageFault lin p w : M α) :=
  .bind (.modify fun _ => .same rfl) fun _ => .get fun _ => .bind .draw fun _ => .raise _ _

theorem physRead_tame (pas : List Nat) : Tame (physRead pas) :=
  .get fun _ => .bind (.modify fun s => .afterRead s pas) fun _ => .pure _

theorem physRead32_tame (pa : Dword) : Tame (physRead32 pa) := .bind (physRead_tame _) fun _ => .pure _

theorem physWrite32_tame (pa v : Dword) : Tame (physWrite32 pa v) :=
  .modify fun s => .storeBytes s _ (toNat_span_lt pa 4)

theorem choose_tame (xs : List Nat) : Tame (choose xs) := by
  unfold choose
  split
  · exact .pure _
  · exact .pure _
  · exact .bind .draw fun _ => .pure _

theorem freshBlock_tame : ∀ o : Option Nat, Tame (freshBlock o)
  | some b => .pure b
  | none => .bind .draw fun _ => .pure _

theorem walkTables_tame (lin : Dword) (w u : Bool) (o : Option Nat) : Tame (walkTables lin w u o) :=
  .get fun _ => .bind (physRead32_tame _) fun _ => .bind (.check (pageFault_tame ..)) fun _ =>
    .bind (physRead32_tame _) fun _ => .bind (.check (pageFault_tame ..)) fun _ =>
    .bind (.check (pageFault_tame ..)) fun _ => .bind (.check (pageFault_tame ..)) fun _ =>
    .bind (.check (physWrite32_tame ..)) fun _ => .bind (.check (physWrite32_tame ..)) fun _ =>
    .bind (freshBlock_tame o) fun _ => .bind (.modify fun s => .tlbSet s _ _) fun _ => .pure _

theorem tlbUse_tame (lin : Dword) (w u : Bool) (b : Nat) (e : TlbEntry) : Tame (tlbUse lin w u b e) :=
  .ite (walkTables_tame ..) <| .bind (.check (pageFault_tame ..)) fun _ => .bind (.check (pageFault_tame ..)) fun _ => .pure _

theorem translateVia_tame (lin : Dword) (w u : Bool) : ∀ o : Option Nat, Tame (translateVia lin w u o)
  | none => walkTables_tame ..
  | some _ => .get fun _ => tlbUse_tame ..

theorem translate_tame (lin : Dword) (w u : Bool) : Tame (translate lin w u) :=
  .get fun _ => .ite (.get fun _ => .bind (choose_tame _) fun _ => translateVia_tame ..) (.pure _)

theorem translateEach_tame (w u : Bool) : ∀ lins : List Dword, Tame (translateEach w u lins)
  | [] => .pure _
  | lin :: rest => .bind (translate_tame lin w u) fun _ => .bind (translateEach_tame w u rest) fun _ => .pure _

/-- What is undone gives memory and the TLB back as they were. -/
theorem undoing_tame {m : M α} (h : Tame m) : Tame (undoing m) := by
  refine ⟨fun s => ⟨fun a t e => h.ok (undoing_ok.1 e), fun x t e => ?_⟩⟩
  obtain ⟨t', e', rfl⟩ := undoing_error e
  have ht := h.error e'
  exact ⟨ht.mode, fun r => have ⟨a, b, c, d, e, f, g⟩ := ht.reserved r; ⟨a, b, c, d, e, f, g⟩, fun ⟨a, b⟩ => ⟨a, b⟩⟩

theorem translateAll_tame (w u : Bool) (lins : List Dword) : Tame (translateAll w u lins) :=
  undoing_tame (translateEach_tame w u lins)

/-- Physical addresses lie in the 2^32 bytes of the space (R90). -/
theorem translateEach_lt {w u : Bool} : ∀ {lins : List Dword} {s t : State} {pas : List Nat},
    translateEach w u lins s = .ok pas t → ∀ a ∈ pas, a < 2 ^ 32
  | [], _, _, _, h => by
    cases h
    simp
  | lin :: rest, _, _, _, h => by
    obtain ⟨pa, u, -, h⟩ := M_bind_ok_inv h
    obtain ⟨pas, v, h', h⟩ := M_bind_ok_inv h
    cases h
    simpa using ⟨pa.isLt, translateEach_lt h'⟩

theorem translateAll_lt {w u : Bool} {lins : List Dword} {pas : List Nat} (h : translateAll w u lins s = .ok pas t) :
    ∀ a ∈ pas, a < 2 ^ 32 := translateEach_lt (undoing_ok.1 h)

theorem linRead_tame (lin : Dword) (n : Nat) (u : Bool) : Tame (linRead lin n u) :=
  .bind (translateAll_tame ..) fun _ => physRead_tame _

theorem linWrite_tame (lin : Dword) (n v : Nat) (u : Bool) : Tame (linWrite lin n v u) :=
  .bindOf (translateAll_tame ..) translateAll_lt fun _ h => .modify fun s => .storeBytes s _ h

theorem sysRead8_tame (lin : Dword) : Tame (sysRead8 lin) := .bind (linRead_tame ..) fun _ => .pure _
theorem sysRead16_tame (lin : Dword) : Tame (sysRead16 lin) := .bind (linRead_tame ..) fun _ => .pure _
theorem sysRead32_tame (lin : Dword) : Tame (sysRead32 lin) := .bind (linRead_tame ..) fun _ => .pure _
theorem sysRead16z_tame (lin : Dword) : Tame (sysRead16z lin) := .bind (sysRead16_tame _) fun _ => .pure _
theorem sysWrite8_tame (lin : Dword) (v : Byte) : Tame (sysWrite8 lin v) := linWrite_tame ..

/-! ### Accesses through a segment register -/

theorem raiseLimit_tame (sr : SReg) : Tame (raiseLimit sr : M α) := .ite (.raise _ _) (.raise _ _)

theorem noteAccess_tame (sr : SReg) (off : Dword) (n : Nat) (w : Bool) : Tame (noteAccess sr off n w) :=
  .modify fun s => .noted s sr off n w

theorem checkSeg_tame (sr : SReg) (off : Dword) (n : Nat) (w : Bool) : Tame (checkSeg sr off n w) :=
  .get fun _ => .bind (.check (raiseLimit_tame sr)) fun _ => .bind (.check (.raise _ _)) fun _ =>
    .bind (.check (.raise _ _)) fun _ => .check (raiseLimit_tame sr)

theorem memReadN_tame (sr : SReg) (off : Dword) (n : Nat) : Tame (memReadN sr off n) :=
  .bind (checkSeg_tame ..) fun _ => .get fun _ => .bind (noteAccess_tame ..) fun _ => linRead_tame ..

theorem memRead_tame (sr : SReg) (off : Dword) (w : Width) : Tame (memRead sr off w) :=
  .bind (memReadN_tame ..) fun _ => .pure _

theorem memWriteAs_tame (u : Bool) (sr : SReg) (off : Dword) (n v : Nat) : Tame (memWriteAs u sr off n v) :=
  .bind (checkSeg_tame ..) fun _ => .get fun _ => .bind (noteAccess_tame ..) fun _ => linWrite_tame ..

theorem memWrite_tame (sr : SReg) (off : Dword) (w : Width) (v : BitVec w.bits) : Tame (memWrite sr off w v) :=
  .get fun _ => memWriteAs_tame ..

theorem memWriteCheck_tame (u : Bool) (sr : SReg) (off : Dword) (n : Nat) : Tame (memWriteCheck u sr off n) :=
  .bind (checkSeg_tame ..) fun _ => .get fun _ => .bind (translateAll_tame ..) fun _ => .pure _

theorem memUpdate_tame {sr : SReg} {off : Dword} {w : Width} {f : BitVec w.bits → M (BitVec w.bits)}
    (hf : ∀ v, Tame (f v)) : Tame (memUpdate sr off w f) :=
  .bind (checkSeg_tame ..) fun _ => .bind (checkSeg_tame ..) fun _ => .get fun _ => .bind (noteAccess_tame ..) fun _ =>
    .bindOf (translateAll_tame ..) translateAll_lt fun _ h => .bind (physRead_tame _) fun _ =>
    .bind (hf _) fun _ => .modify fun s => .storeBytes s _ h

/-! ### The stack and the I/O space -/

theorem pushAs_tame (u : Bool) (w : Width) (v : BitVec w.bits) : Tame (pushAs u w v) :=
  .get fun _ => .bind (memWriteAs_tame ..) fun _ => .modify fun s => .setEsp s _

theorem push_tame (w : Width) (v : BitVec w.bits) : Tame (push w v) := .get fun _ => pushAs_tame ..

theorem pop_tame (w : Width) : Tame (pop w) :=
  .get fun _ => .bind (memRead_tame ..) fun _ => .bind (.modify fun s => .setEsp s _) fun _ => .pure _

theorem stackRead_tame (k : Nat) (w : Width) : Tame (stackRead k w) := .get fun _ => memRead_tame ..

theorem stackRoom_tame (n : Nat) : Tame (stackRoom n) :=
  .get fun _ => .bind (checkSeg_tame ..) fun _ => .check (.raise _ _)

theorem stackTop_tame (n : Nat) : Tame (stackTop n) :=
  .get fun _ => .bind (checkSeg_tame ..) fun _ => .check (.raise _ _)

theorem selItem_tame (w : Width) (sel : Word) : Tame (selItem w sel) := by
  cases w
  · exact .pure _
  · exact .pure _
  · exact .bind .draw fun _ => .pure _

theorem pushSel_tame (u : Bool) (w : Width) (sel : Word) : Tame (pushSel u w sel) :=
  .bind (selItem_tame ..) fun _ => pushAs_tame ..

theorem ioRead_tame (port : Word) (w : Width) : Tame (ioRead port w) :=
  .get fun _ => .bind (.modify fun _ => .same rfl) fun _ => .pure _

theorem ioWrite_tame (port : Word) (w : Width) (v : BitVec w.bits) : Tame (ioWrite port w v) :=
  .modify fun _ => .same rfl

end Sys2Proof.Machine
end

section
/-! SUPPORT. The instructions that leave the mode alone are tame: flags, operands, arithmetic, logic, near transfers,
strings, data movement, the flags and the coprocessor. -/

namespace Sys2Proof.Machine

variable {α β : Type}

/-! ### Flags -/

theorem freeFlag_tame {f : Flag} (hf : f ≠ .vm) : Tame (freeFlag f) :=
  .bind .drawBit fun _ => .modify fun s => .setFlag s _ hf

theorem freeFlags_tame : ∀ {fs : List Flag}, Flag.vm ∉ fs → Tame (freeFlags fs)
  | [], _ => .pure _
  | _ :: _, h => .bind (freeFlag_tame fun e => h (e ▸ List.mem_cons_self ..)) fun _ =>
    freeFlags_tame fun hm => h (List.mem_cons_of_mem _ hm)

theorem putFlag_tame {f : Flag} (b : Bool) (hf : f ≠ .vm) : Tame (putFlag f b) := .modify fun s => .setFlag s b hf

theorem addF_tame {n : Nat} (a b : BitVec n) (c : Bool) : Tame (addF a b c) :=
  .bind (.modify fun s => .addFlags s a b c) fun _ => .pure _

theorem subF_tame {n : Nat} (a b : BitVec n) (c : Bool) : Tame (subF a b c) :=
  .bind (.modify fun s => .subFlags s a b c) fun _ => .pure _

theorem logicF_tame {n : Nat} (r : BitVec n) : Tame (logicF r) :=
  .bind (.modify fun s => .logicFlags s r) fun _ => .bind (freeFlag_tame (by decide)) fun _ => .pure _

theorem keepCF_tame {m : M α} (h : Tame m) : Tame (keepCF m) :=
  .get fun _ => .bind h fun _ => .bind (putFlag_tame _ (by decide)) fun _ => .pure _

theorem szpF_tame {n : Nat} (r : BitVec n) : Tame (szpF r) := .modify fun s => .szp s r

theorem szpFreeAF_tame {n : Nat} (r : BitVec n) : Tame (szpFreeAF r) :=
  .bind (szpF_tame r) fun _ => freeFlag_tame (by decide)

theorem shiftOF_tame (count : Nat) (b : Bool) : Tame (shiftOF count b) :=
  .ite (putFlag_tame _ (by decide)) (freeFlag_tame (by decide))

theorem shiftF_tame (k : ShiftKind) {n : Nat} (count : Nat) (x : BitVec n) : Tame (shiftF k count x) :=
  .ite (.pure _) <| .get fun _ => .bind (putFlag_tame _ (by decide)) fun _ => .bind (.check (szpFreeAF_tame _)) fun _ =>
    .bind (shiftOF_tame ..) fun _ => .pure _

theorem dshiftF_tame {n : Nat} (count : Nat) (x r : BitVec n) (c : Bool) : Tame (dshiftF count x r c) :=
  .ite (.pure _) <| .ite
    (.bind .draw fun _ => .bind (freeFlags_tame (by decide)) fun _ => .pure _)
    (.bind (.modify fun s => (State.Tame.setFlag s c (by decide)).trans (.szp _ r)) fun _ =>
      .bind (freeFlags_tame (by decide)) fun _ => .pure _)

theorem mulFlags_tame (b : Bool) : Tame (mulFlags b) :=
  .bind (putFlag_tame _ (by decide)) fun _ => .bind (putFlag_tame _ (by decide)) fun _ => freeFlags_tame (by decide)

theorem bitFlags_tame (b : Bool) : Tame (bitFlags b) :=
  .bind (putFlag_tame _ (by decide)) fun _ => freeFlags_tame (by decide)

/-! ### Operands -/

theorem readMem_tame (w : Width) (m : MemRef) : Tame (readMem w m) := .get fun _ => memRead_tame ..

theorem writeMem_tame (w : Width) (m : MemRef) (v : BitVec w.bits) : Tame (writeMem w m v) := .get fun _ => memWrite_tame ..

theorem readReg_tame (w : Width) (r : Reg) : Tame (readReg w r) := .get fun _ => .pure _

theorem writeReg_tame (w : Width) (r : Reg) (v : BitVec w.bits) : Tame (writeReg w r v) := .modify fun s => .setReg s w r v

theorem readRm_tame (w : Width) : ∀ rm : Rm, Tame (readRm w rm)
  | .reg r => readReg_tame w r
  | .mem m => readMem_tame w m

theorem writeRm_tame (w : Width) (rm : Rm) (v : BitVec w.bits) : Tame (writeRm w rm v) := by
  cases rm with
  | reg r => exact writeReg_tame w r v
  | mem m => exact writeMem_tame w m v

theorem updateRm_tame {w : Width} (rm : Rm) {f : BitVec w.bits → M (BitVec w.bits)} (hf : ∀ v, Tame (f v)) :
    Tame (updateRm w rm f) := by
  cases rm with
  | reg r => exact .get fun _ => .bind (hf _) fun _ => writeReg_tame w r _
  | mem m => exact .get fun _ => memUpdate_tame hf

section
variable {f : {n : Nat} → BitVec n → BitVec n → M (BitVec n)} (hf : ∀ {n : Nat} (a b : BitVec n), Tame (f a b))
include hf

theorem aluWrite_tame : ∀ form : AluForm, Tame (aluWrite f form)
  | .rmReg w rm r => .bind (readReg_tame w r) fun _ => updateRm_tame rm fun _ => hf _ _
  | .regRm w r rm => .bind (readRm_tame w rm) fun _ => .bind (readReg_tame w r) fun _ => .bind (hf _ _) fun _ => writeReg_tame ..
  | .accImm w _ => .bind (readReg_tame w .eax) fun _ => .bind (hf _ _) fun _ => writeReg_tame ..
  | .rmImm w rm imm => updateRm_tame rm fun a => hf a (immOf w imm)
  | .rmImm8 w rm imm => updateRm_tame rm fun a => hf a (immSx w imm)

theorem aluRead_tame : ∀ form : AluForm, Tame (aluRead f form)
  | .rmReg w rm r => .bind (readRm_tame w rm) fun _ => .bind (readReg_tame w r) fun _ => .bind (hf _ _) fun _ => .pure _
  | .regRm w r rm => .bind (readRm_tame w rm) fun _ => .bind (readReg_tame w r) fun _ => .bind (hf _ _) fun _ => .pure _
  | .accImm w _ => .bind (readReg_tame w .eax) fun _ => .bind (hf _ _) fun _ => .pure _
  | .rmImm w rm _ => .bind (readRm_tame w rm) fun _ => .bind (hf _ _) fun _ => .pure _
  | .rmImm8 w rm _ => .bind (readRm_tame w rm) fun _ => .bind (hf _ _) fun _ => .pure _

end

theorem incForm_tame {g : {n : Nat} → BitVec n → M (BitVec n)} (hg : ∀ {n : Nat} (a : BitVec n), Tame (g a)) :
    ∀ form : IncForm, Tame (incForm g form)
  | .reg w r => updateRm_tame (w := w) (.reg r) fun a => hg a
  | .rm w rm => updateRm_tame (w := w) rm fun a => hg a

/-! ### Arithmetic -/

theorem setProduct_tame (s : State) (w : Width) (p : Nat) : s.Tame (s.setProduct w p) := by
  cases w
  · exact .setReg s .w16 .eax _
  · exact (State.Tame.setReg s .w16 .eax _).trans (.setReg _ .w16 .edx _)
  · exact (State.Tame.setReg s .d32 .eax _).trans (.setReg _ .d32 .edx _)

theorem setQuotient_tame (s : State) (w : Width) (q r : BitVec w.bits) : s.Tame (s.setQuotient w q r) :=
  (State.Tame.setReg ..).trans (.setReg ..)

theorem imulReg_tame (w : Width) (r : Reg) (a b : BitVec w.bits) : Tame (imulReg w r a b) :=
  .bind (writeReg_tame ..) fun _ => mulFlags_tame _

theorem imulForm_tame : ∀ form : ImulForm, Tame (imulForm form)
  | .acc w rm => .bind (readRm_tame w rm) fun _ => .get fun _ => .bind (.modify fun s => setProduct_tame s w _) fun _ =>
    mulFlags_tame _
  | .reg w r rm => .bind (readRm_tame w rm) fun _ => .bind (readReg_tame w r) fun _ => imulReg_tame ..
  | .imm w _ rm _ => .bind (readRm_tame w rm) fun _ => imulReg_tame ..
  | .imm8 w _ rm _ => .bind (readRm_tame w rm) fun _ => imulReg_tame ..

theorem decimalAdjust_tame (g : Byte → Byte → Byte) : Tame (decimalAdjust g) :=
  .get fun _ => .bind (writeReg_tame ..) fun _ => .bind (putFlag_tame _ (by decide)) fun _ =>
    .bind (putFlag_tame _ (by decide)) fun _ => .bind (szpF_tame _) fun _ => freeFlag_tame (by decide)

theorem asciiAdjust_tame (g : Byte → Byte → Byte) : Tame (asciiAdjust g) :=
  .get fun _ => .bind (writeReg_tame ..) fun _ => .bind (writeReg_tame ..) fun _ =>
    .bind (putFlag_tame _ (by decide)) fun _ => .bind (putFlag_tame _ (by decide)) fun _ => freeFlags_tame (by decide)

/-! ### Logic, shifts and bits -/

theorem testForm_tame : ∀ form : TestForm, Tame (testForm form)
  | .rmReg w rm r => .bind (readRm_tame w rm) fun _ => .bind (readReg_tame w r) fun _ => .bind (logicF_tame _) fun _ => .pure _
  | .accImm w _ => .bind (readReg_tame w .eax) fun _ => .bind (logicF_tame _) fun _ => .pure _
  | .rmImm w rm _ => .bind (readRm_tame w rm) fun _ => .bind (logicF_tame _) fun _ => .pure _

theorem shiftForm_tame (k : ShiftKind) : ∀ form : ShiftForm, Tame (shiftForm k form)
  | .imm _ rm _ => updateRm_tame rm fun _ => shiftF_tame ..
  | .one _ rm => updateRm_tame rm fun _ => shiftF_tame ..
  | .cl _ rm => .get fun _ => updateRm_tame rm fun _ => shiftF_tame ..

theorem dshiftForm_tame {g : {n : Nat} → Nat → BitVec n → BitVec n → M (BitVec n)}
    (hg : ∀ {n : Nat} (k : Nat) (x y : BitVec n), Tame (g k x y)) : ∀ form : DShiftForm, Tame (dshiftForm g form)
  | .imm w rm r _ => .bind (readReg_tame w r) fun _ => updateRm_tame rm fun _ => hg ..
  | .cl w rm r => .bind (readReg_tame w r) fun _ => .get fun _ => updateRm_tame rm fun _ => hg ..

theorem bitUnitRead_tame (w : Width) (rm : Rm) (off : BitVec w.bits) : Tame (bitUnitRead w rm off) := by
  cases rm with
  | reg b => exact readReg_tame w b
  | mem m => exact .get fun _ => memRead_tame ..

theorem bitRead_tame : ∀ form : BtForm, Tame (bitRead form)
  | .imm w rm _ => .bind (readRm_tame w rm) fun _ => .pure _
  | .reg w _ r => .bind (readReg_tame w r) fun _ => .bind (bitUnitRead_tame ..) fun _ => .pure _

theorem bitUpdate_tame (g : {n : Nat} → BitVec n → Nat → BitVec n) (form : BtForm) : Tame (bitUpdate g form) := by
  have put {w : Width} (k : Nat) (v : BitVec w.bits) : Tame (do
      bitFlags (v.getLsbD k)
      pure (g v k) : M (BitVec w.bits)) := .bind (bitFlags_tame _) fun _ => .pure _
  unfold bitUpdate
  cases form with
  | imm w rm n => exact updateRm_tame rm (put _)
  | reg w rm r =>
    refine .bind (readReg_tame w r) fun _ => ?_
    cases rm with
    | reg b => exact updateRm_tame (.reg b) (put _)
    | mem m => exact .get fun _ => memUpdate_tame (put _)

theorem bitIndex_tame (find : {n : Nat} → BitVec n → Nat) {n : Nat} (v : BitVec n) : Tame (bitIndex find v) :=
  .ite (.bind .draw fun _ => .pure _) (.pure _)

theorem bitScan_tame (find : {n : Nat} → BitVec n → Nat) (w : Width) (r : Reg) (rm : Rm) : Tame (bitScan find w r rm) :=
  .bind (readRm_tame w rm) fun _ => .bind (putFlag_tame _ (by decide)) fun _ => .bind (bitIndex_tame find _) fun _ =>
    .bind (writeReg_tame ..) fun _ => freeFlags_tame (by decide)

theorem setByte_tame (rm : Rm) (b : Bool) : Tame (setByte rm b) := writeRm_tame ..

/-! ### Near transfers and stack frames -/

theorem nearTarget_tame (w : Width) (t : Dword) : Tame (nearTarget w t) :=
  .get fun _ => .bind (.check (.raise _ _)) fun _ => .pure _

theorem nearJump_tame (w : Width) (t : Dword) : Tame (nearJump w t) :=
  .bind (nearTarget_tame w t) fun _ => .modify fun _ => .same rfl

theorem jumpIf_tame (b : Bool) (t : RelForm) : Tame (jumpIf b t) :=
  .ite (.get fun _ => .bind (nearJump_tame ..) fun _ => .pure _) (.pure _)

theorem loopIf_tame (b : Bool) (w asz : Width) (d : Byte) : Tame (loopIf b w asz d) :=
  .bind (.modify fun s => .setIdx s ..) fun _ => .get fun _ => jumpIf_tame ..

theorem nearForm_tame : ∀ form : NearForm, Tame (nearForm form)
  | .rel8 _ _ => .get fun _ => .pure _
  | .rel _ _ => .get fun _ => .pure _
  | .rm w rm => .bind (readRm_tame w rm) fun _ => .pure _

theorem enterCopy_tame (w : Width) : ∀ k : Nat, Tame (enterCopy w k)
  | 0 => .pure _
  | k + 1 => .bind (.modify fun s => .setReg s ..) fun _ => .get fun _ => .bind (memRead_tame ..) fun _ =>
    .bind (push_tame ..) fun _ => enterCopy_tame w k

theorem enterFrames_tame (w : Width) (k : Nat) (frame : BitVec w.bits) : Tame (enterFrames w k frame) :=
  .bind (enterCopy_tame w k) fun _ => push_tame ..

/-! ### Strings and the I/O space -/

theorem ioMapAllows_tame (base : Nat) : ∀ (n : Nat) (port : Word), Tame (ioMapAllows base n port)
  | 0, _ => .pure _
  | n + 1, _ => .get fun _ => .ite (.pure _) <| .bind (sysRead8_tame _) fun _ =>
    .ite (.pure _) (ioMapAllows_tame base n _)

theorem ioPermission_tame (port : Word) (n : Nat) : Tame (ioPermission port n) :=
  .get fun _ => .ite (.pure _) <| .bind (sysRead16_tame _) fun _ => .ite (.pure _) (ioMapAllows_tame ..)

theorem checkIo_tame (port : Word) (w : Width) : Tame (checkIo port w) :=
  .get fun _ => .ite (.bind (ioPermission_tame ..) fun _ => .check (.raise _ _)) (.pure _)

theorem checkElement_tame (a : StrAttr) (sr : SReg) (off : Dword) (n : Nat) (w : Bool) : Tame (checkElement a sr off n w) :=
  .bind (checkSeg_tame ..) fun _ => .check (raiseLimit_tame sr)

theorem readSrc_tame (a : StrAttr) (w : Width) : Tame (readSrc a w) :=
  .get fun _ => .bind (checkElement_tame ..) fun _ => memRead_tame ..

theorem readDst_tame (a : StrAttr) (w : Width) : Tame (readDst a w) :=
  .get fun _ => .bind (checkElement_tame ..) fun _ => memRead_tame ..

theorem writeDst_tame (a : StrAttr) (w : Width) (v : BitVec w.bits) : Tame (writeDst a w v) :=
  .get fun _ => .bind (checkElement_tame ..) fun _ => memWrite_tame ..

theorem stepSrc_tame (a : StrAttr) (w : Width) : Tame (stepSrc a w) := .modify fun s => .stepIdx s ..
theorem stepDst_tame (a : StrAttr) (w : Width) : Tame (stepDst a w) := .modify fun s => .stepIdx s ..

theorem movsOnce_tame (w : Width) (a : StrAttr) : Tame (movsOnce w a) :=
  .bind (readSrc_tame a w) fun _ => .bind (writeDst_tame ..) fun _ => .bind (stepSrc_tame a w) fun _ => stepDst_tame a w

theorem cmpsOnce_tame (w : Width) (a : StrAttr) : Tame (cmpsOnce w a) :=
  .bind (readSrc_tame a w) fun _ => .bind (readDst_tame a w) fun _ => .bind (subF_tame ..) fun _ =>
    .bind (stepSrc_tame a w) fun _ => stepDst_tame a w

theorem scasOnce_tame (w : Width) (a : StrAttr) : Tame (scasOnce w a) :=
  .bind (readDst_tame a w) fun _ => .bind (readReg_tame ..) fun _ => .bind (subF_tame ..) fun _ => stepDst_tame a w

theorem lodsOnce_tame (w : Width) (a : StrAttr) : Tame (lodsOnce w a) :=
  .bind (readSrc_tame a w) fun _ => .bind (writeReg_tame ..) fun _ => stepSrc_tame a w

theorem stosOnce_tame (w : Width) (a : StrAttr) : Tame (stosOnce w a) :=
  .bind (readReg_tame ..) fun _ => .bind (writeDst_tame ..) fun _ => stepDst_tame a w

theorem insOnce_tame (w : Width) (a : StrAttr) : Tame (insOnce w a) :=
  .get fun _ => .bind (checkIo_tame ..) fun _ => .bind (checkElement_tame ..) fun _ => .bind (memWriteCheck_tame ..) fun _ =>
    .bind (ioRead_tame ..) fun _ => .bind (writeDst_tame ..) fun _ => stepDst_tame a w

theorem outsOnce_tame (w : Width) (a : StrAttr) : Tame (outsOnce w a) :=
  .get fun _ => .bind (checkIo_tame ..) fun _ => .bind (readSrc_tame a w) fun _ => .bind (ioWrite_tame ..) fun _ =>
    stepSrc_tame a w

theorem strStep_tame (a : StrAttr) (compares : Bool) {m : M Unit} (h : Tame m) : Tame (strStep a compares m) :=
  .ite (.bind h fun _ => .pure _) <| .get fun _ => .ite (.pure _) <| .bind h fun _ =>
    .bind (.modify fun s => .setIdx s ..) fun _ => .get fun _ => .ite (.pure _) (.pure _)

/-! ### Descriptors and segment registers -/

theorem raiseSel_tame (vec : Byte) (sel : Word) (ext : Bool) : Tame (raiseSel vec sel ext : M α) := .raise _ _

theorem readDesc_tame (addr : Dword) : Tame (readDesc addr) :=
  .bind (sysRead32_tame _) fun _ => .bind (sysRead32_tame _) fun _ => .pure _

theorem fetchDesc_tame (sel : Word) : Tame (fetchDesc sel) := by
  refine .get fun s => ?_
  cases s.descAddr sel with
  | none => exact .pure _
  | some addr => exact .bind (readDesc_tame addr) fun _ => .pure _

theorem fetchDescOr_tame (vec : Byte) (ext : Bool) (sel : Word) : Tame (fetchDescOr vec ext sel) :=
  .bind (fetchDesc_tame sel) fun
    | some _ => .pure _
    | none => raiseSel_tame ..

theorem setDescType_tame (sel : Word) (d : Desc) (typ : BitVec 4) : Tame (setDescType sel d typ) := by
  refine .get fun s => ?_
  cases s.descAddr sel with
  | none => exact .pure _
  | some addr => exact sysWrite8_tame ..

theorem setAccessed_tame (sel : Word) (d : Desc) : Tame (setAccessed sel d) := .ite (.pure _) (setDescType_tame ..)

theorem loadDataSeg_tame (vt : Byte) (ext : Bool) (cpl : BitVec 2) (sr : SReg) (sel : Word) :
    Tame (loadDataSeg vt ext cpl sr sel) :=
  .ite (.modify fun s => .setSreg s ..) <| .bind (fetchDescOr_tame ..) fun _ => .bind (.check (raiseSel_tame ..)) fun _ =>
    .bind (.check (raiseSel_tame ..)) fun _ => .bind (.check (raiseSel_tame ..)) fun _ =>
    .bind (.check (raiseSel_tame ..)) fun _ => .bind (setAccessed_tame ..) fun _ => .modify fun s => .setSreg s ..

theorem checkStackSeg_tame (vec : Byte) (ext : Bool) (cpl : BitVec 2) (sel : Word) : Tame (checkStackSeg vec ext cpl sel) :=
  .bind (fetchDescOr_tame ..) fun _ => .bind (.check (raiseSel_tame ..)) fun _ => .bind (.check (raiseSel_tame ..)) fun _ =>
    .bind (.check (raiseSel_tame ..)) fun _ => .bind (.check (raiseSel_tame ..)) fun _ => .pure _

theorem setSS_tame (sel : Word) (d : Desc) : Tame (setSS sel d) :=
  .bind (setAccessed_tame ..) fun _ => .modify fun _ => .same rfl

theorem loadSS_tame (sel : Word) : Tame (loadSS sel) :=
  .bind (.check (.raise _ _)) fun _ => .get fun _ => .bind (checkStackSeg_tame ..) fun _ => setSS_tame ..

theorem loadSreg_tame (sr : SReg) (sel : Word) : Tame (loadSreg sr sel) :=
  .get fun _ => .ite (.modify fun s => .setSreg s ..) <| .ite (.modify fun s => .setSreg s ..) <|
    .ite (loadSS_tame sel) (loadDataSeg_tame ..)

theorem loadLDTR_tame (vec vnp : Byte) (ext : Bool) (sel : Word) : Tame (loadLDTR vec vnp ext sel) :=
  .ite (.modify fun _ => .same rfl) <| .bind (.check (raiseSel_tame ..)) fun _ => .bind (fetchDescOr_tame ..) fun _ =>
    .bind (.check (raiseSel_tame ..)) fun _ => .bind (.check (raiseSel_tame ..)) fun _ => .modify fun _ => .same rfl

theorem loadTR_tame (sel : Word) : Tame (loadTR sel) :=
  .bind (.check (.raise _ _)) fun _ => .bind (.check (raiseSel_tame ..)) fun _ => .bind (fetchDescOr_tame ..) fun _ =>
    .bind (.check (raiseSel_tame ..)) fun _ => .bind (.check (raiseSel_tame ..)) fun _ => .bind (setDescType_tame ..) fun _ =>
    .modify fun _ => .same rfl

/-! ### Data movement -/

theorem movForm_tame : ∀ form : MovForm, Tame (movForm form)
  | .rmReg w _ r => .bind (readReg_tame w r) fun _ => writeRm_tame ..
  | .regRm w _ rm => .bind (readRm_tame w rm) fun _ => writeReg_tame ..
  | .accMoffs w m => .bind (readMem_tame w m) fun _ => writeReg_tame ..
  | .moffsAcc _ _ => .bind (readReg_tame ..) fun _ => writeMem_tame ..
  | .regImm _ _ _ => writeReg_tame ..
  | .rmImm _ _ _ => writeRm_tame ..

theorem inhibitFor_tame (sr : SReg) : Tame (inhibitFor sr) := .ite (.modify fun _ => .same rfl) (.pure _)

theorem xchgForm_tame : ∀ form : XchgForm, Tame (xchgForm form)
  | .acc _ _ => .bind (readReg_tame ..) fun _ => .bind (readReg_tame ..) fun _ => .bind (writeReg_tame ..) fun _ => writeReg_tame ..
  | .rmReg _ (.reg _) _ => .bind (readReg_tame ..) fun _ => .bind (readReg_tame ..) fun _ => .bind (writeReg_tame ..) fun _ =>
    writeReg_tame ..
  | .rmReg _ (.mem _) _ => .bind (readReg_tame ..) fun _ => updateRm_tame _ fun _ => .bind (writeReg_tame ..) fun _ => .pure _

theorem pushForm_tame : ∀ form : PushForm, Tame (pushForm form)
  | .sreg _ _ => .get fun _ => .bind (selItem_tame ..) fun _ => push_tame ..
  | .reg _ _ => .bind (readReg_tame ..) fun _ => push_tame ..
  | .imm _ _ => push_tame ..
  | .imm8 _ _ => push_tame ..
  | .rm _ _ => .bind (readRm_tame ..) fun _ => push_tame ..

theorem popForm_tame : ∀ form : PopForm, Tame (popForm form)
  | .sreg _ _ => .bind (pop_tame _) fun _ => .bind (loadSreg_tame ..) fun _ => inhibitFor_tame _
  | .reg _ _ => .bind (pop_tame _) fun _ => writeReg_tame ..
  | .rm _ _ => .bind (pop_tame _) fun _ => writeRm_tame ..

theorem pushaCheck_tame (off : Dword) (n : Nat) : Tame (pushaCheck off n) :=
  .get fun _ => .bind (.check (.raise _ _)) fun _ => memWriteCheck_tame ..

theorem pushaChecks_tame (n : Nat) : ∀ (k : Nat) (sp : Dword), Tame (pushaChecks n k sp)
  | 0, _ => .pure _
  | k + 1, _ => .get fun _ => .bind (pushaCheck_tame ..) fun _ => pushaChecks_tame n k _

theorem pushAll_tame (w : Width) : Tame (pushAll w) :=
  .get fun _ => .bind (pushaChecks_tame ..) fun _ => .bind (push_tame ..) fun _ => .bind (push_tame ..) fun _ =>
    .bind (push_tame ..) fun _ => .bind (push_tame ..) fun _ => .bind (push_tame ..) fun _ => .bind (push_tame ..) fun _ =>
    .bind (push_tame ..) fun _ => push_tame ..

theorem popAll_tame (w : Width) : Tame (popAll w) :=
  .bind (pop_tame w) fun _ => .bind (pop_tame w) fun _ => .bind (pop_tame w) fun _ => .bind (pop_tame w) fun _ =>
    .bind (pop_tame w) fun _ => .bind (pop_tame w) fun _ => .bind (pop_tame w) fun _ => .bind (pop_tame w) fun _ =>
    .bind (writeReg_tame ..) fun _ => .bind (writeReg_tame ..) fun _ => .bind (writeReg_tame ..) fun _ =>
    .bind (writeReg_tame ..) fun _ => .bind (writeReg_tame ..) fun _ => .bind (writeReg_tame ..) fun _ => writeReg_tame ..

theorem readFar_tame (w : Width) (m : MemRef) : Tame (readFar w m) :=
  .get fun _ => .bind (memRead_tame ..) fun _ => .bind (.check (raiseLimit_tame _)) fun _ => .bind (memRead_tame ..) fun _ =>
    .pure _

theorem loadFar_tame (sr : SReg) (w : Width) (r : Reg) (m : MemRef) : Tame (loadFar sr w r m) :=
  .bind (readFar_tame w m) fun _ => .bind (loadSreg_tame ..) fun _ => writeReg_tame ..

/-! ### Flags as data -/

theorem checkV86Iopl_tame : Tame checkV86Iopl := .get fun _ => .check (.raise _ _)

/-- POPF writes neither a reserved bit nor VM (R712). -/
theorem popfMask_cases (s : State) : s.popfMask &&& ~~~eflagsMask = 0 ∧ bitOf s.popfMask 17 = false := by
  unfold State.popfMask
  split <;> split <;> decide

theorem popFlags_tame (w : Width) : Tame (popFlags w) :=
  .bind checkV86Iopl_tame fun _ => .get fun s => .bind (pop_tame w) fun _ =>
    .bind (.modify fun t => .putFlags t _ (popfMask_cases s).1 (popfMask_cases s).2) fun _ => .pure _

theorem pushFlags_tame (w : Width) : Tame (pushFlags w) :=
  .bind checkV86Iopl_tame fun _ => .get fun _ => push_tame ..

theorem checkCpl0_tame : Tame checkCpl0 := .get fun _ => .check (.raise _ _)

/-! ### System instructions but those that write CR0 -/

theorem checkProt_tame : Tame checkProt := .get fun _ => .check (.raise _ _)

theorem freeStatus_tame : Tame freeStatus := freeFlags_tame (by decide)

theorem readTable_tame (w : Width) (m : MemRef) : Tame (readTable w m) :=
  .get fun _ => .bind (checkSeg_tame ..) fun _ => .bind (memRead_tame ..) fun _ => .bind (memRead_tame ..) fun _ => .pure _

theorem storeTable_tame (w : Width) (m : MemRef) (t : TableReg) : Tame (storeTable w m t) :=
  .get fun _ => .bind (memWriteCheck_tame ..) fun _ => .bind (memWrite_tame ..) fun _ => memWrite_tame ..

theorem mswImage_tame : Tame mswImage := .get fun _ => .ite (.pure _) (.bind .draw fun _ => .pure _)

theorem probe_tame (sel : Word) (ok : Desc → Bool) : Tame (probe sel ok) :=
  .ite (.pure _) <| .bind (fetchDesc_tame sel) fun
    | none => .pure _
    | some _ => .pure _

theorem probeInto_tame (w : Width) (r : Reg) (sel : Word) (types : Desc → Bool) {value : Desc → M Dword}
    (hv : ∀ d, Tame (value d)) : Tame (probeInto w r sel types value) :=
  .get fun _ => .bind (probe_tame ..) fun
    | none => putFlag_tame _ (by decide)
    | some d => .bind (hv d) fun _ => .bind (writeReg_tame ..) fun _ => putFlag_tame _ (by decide)

theorem larValue_tame (d : Desc) : Tame (larValue d) := .bind .draw fun _ => .pure _

theorem arplMem_tame (m : MemRef) (b : Word) : Tame (arplMem m b) :=
  .get fun _ => .bind (memWriteCheck_tame ..) fun _ => .bind (readMem_tame ..) fun _ =>
    .ite (.bind (writeMem_tame ..) fun _ => putFlag_tame _ (by decide)) (putFlag_tame _ (by decide))

theorem arplReg_tame (r : Reg) (b : Word) : Tame (arplReg r b) :=
  .bind (readReg_tame ..) fun _ => .bind (writeReg_tame ..) fun _ => putFlag_tame _ (by decide)

theorem reserved_tame (mask v : Dword) : Tame (reserved mask v) := .bind .draw fun _ => .pure _

theorem readCr_tame (n : BitVec 3) : Tame (readCr n) := by
  refine .get fun s => ?_
  split
  · exact reserved_tame ..
  · exact .pure _
  · exact reserved_tame ..
  · exact .raise _ _

theorem readDr_tame (n : BitVec 3) : Tame (readDr n) := by
  refine .get fun s => ?_
  split
  · exact .raise _ _
  · exact .raise _ _
  · exact reserved_tame ..
  · exact reserved_tame ..
  · exact .pure _

theorem writeDr_tame (n : BitVec 3) (v : Dword) : Tame (writeDr n v) := by
  unfold writeDr
  split
  · exact .modify fun _ => .same rfl
  · exact .modify fun _ => .same rfl
  · exact .modify fun _ => .same rfl
  · exact .modify fun _ => .same rfl
  · exact .modify fun s => .setDr6 s fun _ => mask_outside ..
  · exact .modify fun s => .setDr7 s fun _ => mask_outside ..
  · exact .raise _ _

theorem pairBit_tame (v : Dword) (k : Nat) : Tame (pairBit v k) := by
  unfold pairBit
  split
  · exact .pure _
  · exact .drawBit

theorem freeEntry_tame : Tame freeEntry := .bind .draw fun _ => .bind .draw fun _ => .pure _

theorem tlbWrite_tame (v : Dword) : Tame (tlbWrite v) :=
  .get fun _ => .bind (pairBit_tame ..) fun _ => .bind (pairBit_tame ..) fun _ => .bind (pairBit_tame ..) fun _ =>
    .bind (.ite (.pure _) freeEntry_tame) fun _ => .modify fun s => .tlbSet s _ _

theorem lookupMiss_tame : Tame lookupMiss := .bind .draw fun _ => .modify fun _ => .same rfl

theorem freeLookup_tame (v : Dword) : Tame (freeLookup v) := by
  refine .bind .draw fun r => .bind .draw fun _ => .modify fun s => ?_
  cases bitOf r 4
  · exact .same rfl
  · exact .same rfl

theorem lookupResult_tame (v : Dword) (hits : List Nat) : Tame (lookupResult v hits) := by
  unfold lookupResult
  split
  · exact .modify fun _ => .same rfl
  · exact lookupMiss_tame

theorem tlbLookup_tame (v : Dword) : Tame (tlbLookup v) :=
  .get fun _ => .ite (freeLookup_tame v) <| .bind (.ite (.pure _) .draw) fun _ => lookupResult_tame ..

theorem readTr_tame (n : BitVec 3) : Tame (readTr n) := by
  refine .get fun s => ?_
  split
  · exact .pure _
  · exact .pure _
  · exact .raise _ _

theorem writeTr_tame (n : BitVec 3) (v : Dword) : Tame (writeTr n v) := by
  unfold writeTr
  split
  · exact .bind (.modify fun _ => .same rfl) fun _ => .ite (tlbLookup_tame v) (tlbWrite_tame v)
  · exact .modify fun _ => .same rfl
  · exact .raise _ _

/-! ### The coprocessor interface -/

theorem escCheck_tame (sr : SReg) (w : Bool) (off : Dword) : Tame (escCheck sr w off) :=
  .bind (checkSeg_tame ..) fun _ => .get fun _ => .bind (translate_tame ..) fun _ => .pure _

theorem overrun_tame {m : M α} (h : Tame m) : Tame (overrun m) := by
  refine .ofRun fun s => ?_
  unfold overrun
  cases e : m s with
  | ok a t => exact h.ok e
  | error x t => exact (h.error e).trans (.same rfl)

/-- What an exception leaves is kept when it is caught. -/
theorem tryCatch_tame {m : M α} {f : Exc → M α} (hm : Tame m) (hf : ∀ x, Tame (f x)) : Tame (m.tryCatch f) := by
  refine .ofRun fun s => ?_
  unfold EStateM.tryCatch
  cases e : m s with
  | ok a t => exact hm.ok e
  | error x t =>
    show match f x t with | .ok _ u => s.Tame u | .error _ u => s.Tame u
    cases e' : f x t with
    | ok a u => exact (hm.error e).trans ((hf x).ok e')
    | error y u => exact (hm.error e).trans ((hf x).error e')

theorem escLoad_tame (sr : SReg) : ∀ offs : List Dword, Tame (escLoad sr offs)
  | [] => .pure _
  | _ :: rest => .bind (memRead_tame ..) fun _ => .bind (escLoad_tame sr rest) fun _ => .pure _

theorem escStore_tame (sr : SReg) : ∀ items : List (Dword × Byte), Tame (escStore sr items)
  | [] => .pure _
  | _ :: rest => .bind (memWrite_tame ..) fun _ => escStore_tame sr rest

theorem escReach_tame (sr : SReg) (w : Bool) : ∀ offs : List Dword, Tame (escReach sr w offs)
  | [] => .pure _
  | _ :: rest => .bind (tryCatch_tame (.bind (escCheck_tame ..) fun _ => .pure _) fun _ => .pure _) fun _ =>
    .ite (.bind (escReach_tame sr w rest) fun _ => .pure _) (.pure _)

theorem escPartial_tame (sr : SReg) : ∀ items : List (Dword × Byte), Tame (escPartial sr items)
  | [] => .pure _
  | _ :: rest => .bind .drawBit fun _ => .bind (.check (memWrite_tame ..)) fun _ => escPartial_tame sr rest

theorem escBroken_tame (sr : SReg) (items : List (Dword × Byte)) (ok : Nat) : Tame (escBroken sr items ok) :=
  overrun_tame (.bind (escPartial_tame ..) fun _ => .raise _ _)

theorem escEnds_tame (sr : SReg) (w : Bool) (offs : List Dword) : Tame (escEnds sr w offs) := by
  unfold escEnds
  split
  · exact .pure _
  · exact undoing_tame (.bind (escCheck_tame ..) fun _ => escCheck_tame ..)

theorem escTransfer_tame (asz : Width) (t : CoprocTransfer) : ∀ o : Option (SReg × Dword), Tame (escTransfer asz t o)
  | none => .pure _
  | some (sr, off) => by
    cases t with
    | none => exact .pure _
    | load n => exact overrun_tame (escLoad_tame ..)
    | store bytes =>
      exact .get fun _ => .bind (escReach_tame ..) fun _ => .bind (.modify fun _ => .same rfl) fun _ =>
        .bind (.ite (overrun_tame (escStore_tame ..)) (escBroken_tame ..)) fun _ => .pure _

theorem escCheckEnds_tame (asz : Width) (t : CoprocTransfer) : ∀ o : Option (SReg × Dword), Tame (escCheckEnds asz t o)
  | none => .pure _
  | some (sr, off) => by
    cases t with
    | none => exact .pure _
    | load n => exact escEnds_tame ..
    | store bytes => exact escEnds_tame ..

theorem coprocAx_tame : ∀ o : Option Word, Tame (coprocAx o)
  | none => .pure _
  | some _ => writeReg_tame ..

theorem coprocExec_tame (w asz : Width) (opcode : BitVec 11) (operand : Option (SReg × Dword)) (r : CoprocReply) :
    Tame (coprocExec w asz opcode operand r) :=
  .bind (escCheckEnds_tame ..) fun _ => .bind (.modify fun _ => .same rfl) fun _ => .bind (escTransfer_tame ..) fun _ =>
    .bind (.modify fun _ => .same rfl) fun _ => coprocAx_tame _

end Sys2Proof.Machine
end

section
/-! SUPPORT. Computations that may leave the mode: from a legal state in a mode of one kind they come to a legal state, when
they succeed in a mode of another kind. Task switches and deliveries through a gate. -/

namespace Sys2Proof.Machine

variable {α β : Type} {s t : State} {φ φ' ψ ψ' χ : Mode → Prop}

/-- From a legal state with a mode in `φ`, `m` comes to a legal state; to one with a mode in `ψ` when it succeeds. -/
structure Moves (φ ψ : Mode → Prop) (m : M α) : Prop where
  keeps : Keeps (fun s t => s.Legal → φ s.mode → t.Legal ∧ ψ t.mode) (fun s t => s.Legal → φ s.mode → t.Legal) m

/-- Any mode. -/
def AnyMode (_ : Mode) : Prop := True

/-- Protected mode, V86 mode included. -/
def PeMode (k : Mode) : Prop := k.pe = true

theorem Mode.Prot.peMode {k : Mode} (h : k.Prot) : PeMode k := h.pe

theorem Tame.moves {m : M α} (h : Tame m) : Moves φ φ m where
  keeps _ := ⟨fun _ _ e hs hφ => have ht := h.ok e; ⟨ht.legal hs, ht.mode.symm ▸ hφ⟩, fun _ _ e hs _ => (h.error e).legal hs⟩

namespace Moves

/-- The modes before may be fewer, those after more. -/
theorem weaken {m : M α} (h : Moves φ ψ m) (hφ : ∀ k, φ' k → φ k) (hψ : ∀ k, ψ k → ψ' k) : Moves φ' ψ' m where
  keeps _ := ⟨fun _ _ e hs h' => have r := h.keeps.ok e hs (hφ _ h'); ⟨r.1, hψ _ r.2⟩,
    fun _ _ e hs h' => h.keeps.error e hs (hφ _ h')⟩

/-- From one mode of its kind. -/
theorem inMode {m : M α} (h : Moves φ ψ m) {k : Mode} (hk : φ k) : Moves (· = k) ψ m := h.weaken (fun _ e => e ▸ hk) fun _ => id

theorem any {m : M α} (h : Moves φ ψ m) : Moves φ AnyMode m := h.weaken (fun _ => id) fun _ _ => trivial

theorem bind {m : M α} {f : α → M β} (hm : Moves φ ψ m) (hf : ∀ a, Moves ψ χ (f a)) : Moves φ χ (m >>= f) := by
  refine ⟨fun s => ?_⟩
  rw [M_bind]
  cases h : m s with
  | ok a t =>
    refine ⟨fun b u e hs hφ => ?_, fun x u e hs hφ => ?_⟩
    · have ⟨ht, hψ⟩ := hm.keeps.ok h hs hφ
      exact (hf a).keeps.ok e ht hψ
    · have ⟨ht, hψ⟩ := hm.keeps.ok h hs hφ
      exact (hf a).keeps.error e ht hψ
  | error x t =>
    refine ⟨fun _ _ e => by simp at e, fun _ _ e => ?_⟩
    cases e
    exact hm.keeps.error h

/-- A tame part in front leaves the mode. -/
theorem step {m : M α} {f : α → M β} (hm : Tame m) (hf : ∀ a, Moves φ χ (f a)) : Moves φ χ (m >>= f) := bind hm.moves hf

theorem look {f : State → M β} (hf : ∀ s, Moves φ ψ (f s)) : Moves φ ψ (get >>= f) := step ⟨keeps_get steady_tame⟩ hf

/-- What begins by looking at the state may lean on the mode that it finds. -/
theorem get {f : State → M β} (hf : ∀ s : State, s.Legal → φ s.mode → Moves (· = s.mode) ψ (f s)) :
    Moves φ ψ (get >>= f) where
  keeps s := ⟨fun _ _ e hs hφ => (hf s hs hφ).keeps.ok e hs rfl, fun _ _ e hs hφ => (hf s hs hφ).keeps.error e hs rfl⟩

theorem modify {f : State → State} (h : ∀ s : State, s.Legal → φ s.mode → (f s).Legal ∧ ψ (f s).mode) :
    Moves φ ψ (modify f : M PUnit) := ⟨keeps_modify f h⟩

theorem raise (v : Byte) (c : Option Word) : Moves φ ψ (raise v c : M α) where
  keeps _ := ⟨fun _ _ e => (by cases e), fun _ _ e hs _ => by cases e; exact hs⟩

theorem ite {c : Prop} [Decidable c] {m n : M α} (hm : c → Moves φ ψ m) (hn : ¬c → Moves φ ψ n) :
    Moves φ ψ (if c then m else n) := ⟨keeps_ite (fun h => (hm h).keeps) fun h => (hn h).keeps⟩

/-- Past a check its condition is false. -/
theorem check {b : Bool} {v : Byte} {c : Option Word} {f : Unit → M β} (hf : b = false → Moves φ ψ (f ())) :
    Moves φ ψ (when b (Machine.raise v c) >>= f) := by
  cases b
  · exact hf rfl
  · exact raise v c

/-- Read off what a run comes to. -/
theorem ofRun {m : M α} (h : ∀ s : State, s.Legal → φ s.mode →
    match m s with | .ok _ t => t.Legal ∧ ψ t.mode | .error _ t => t.Legal) : Moves φ ψ m where
  keeps s := ⟨fun _ _ e hs hφ => by simpa only [e] using h s hs hφ, fun _ _ e hs hφ => by simpa only [e] using h s hs hφ⟩

theorem commit {m : M α} (h : Moves φ ψ m) : Moves φ ψ (committed m) := by
  refine .ofRun fun s hs hφ => ?_
  unfold committed
  cases e : m s with
  | ok a t => exact h.keeps.ok e hs hφ
  | error x t => exact h.keeps.error e hs hφ

end Moves

theorem committed_tame {m : M α} (h : Tame m) : Tame (committed m) := by
  refine .ofRun fun s => ?_
  unfold committed
  cases e : m s with
  | ok a t => exact h.ok e
  | error x t => exact h.error e

/-! ### New code segments and flags -/

/-- Writing EFLAGS, CPL and what the invariant says nothing of: legal where the mode that results is. -/
theorem State.Legal.setFlags (hs : s.Legal) {v : Dword} {c : BitVec 2} (hv : fixFlags v = v)
    (hk : ({ s.mode with vm := bitOf v 17, cpl := c } : Mode).Legal) : ({ s with eflags := v, cpl := c } : State).Legal :=
  ⟨have ⟨_, b, c, d, e, f, g⟩ := hs.reserved; ⟨hv, b, c, d, e, f, g⟩, ⟨hs.shaped.mem, hs.shaped.tlb⟩, hk⟩

theorem State.Legal.same (hs : s.Legal) (h : t.guarded = s.guarded) : t.Legal := (State.Tame.same h).legal hs

/-- In protected mode every CPL is legal (R60). -/
theorem setCpl_prot (hs : s.Legal) (hk : s.mode.Prot) (c : BitVec 2) :
    ({ s with cpl := c } : State).Legal ∧ ({ s with cpl := c } : State).mode.Prot :=
  have hp : ({ s with cpl := c } : State).mode.Prot := ⟨hk.pe, hk.vm⟩
  ⟨hs.setFlags hs.reserved.eflags hp.legal, hp⟩

theorem setCS_moves (sel : Word) (d : Desc) (cpl : BitVec 2) : Moves Mode.Prot Mode.Prot (setCS sel d cpl) :=
  .step (setAccessed_tame ..) fun _ => .modify fun s hs hk =>
    have ⟨h, hp⟩ := setCpl_prot hs hk cpl
    have e : ({ s with cpl := cpl } : State).Tame
        { s with cs := d.toSeg ((sel &&& 0xFFFC) ||| cpl.setWidth 16), cpl := cpl } := .same rfl
    ⟨e.legal h, e.mode.symm ▸ hp⟩

theorem setEip_tame (v : Dword) : Tame (modify fun s => { s with eip := v } : M PUnit) := .modify fun _ => .same rfl

theorem enterCode_moves (sel : Word) (d : Desc) (cpl : BitVec 2) (off : Dword) :
    Moves Mode.Prot Mode.Prot (enterCode sel d cpl off) :=
  .bind (setCS_moves ..) fun _ => (setEip_tame off).moves

theorem checkTarget_tame (d : Desc) (sel : Word) (off : Dword) : Tame (checkTarget d sel off) := .ite (.pure _) (.raise _ _)

theorem checkTargetHere_tame (off : Dword) : Tame (checkTargetHere off) := .get fun _ => .check (.raise _ _)

theorem paragraphCS_tame (s : State) (sel : Word) : s.Tame (s.paragraphCS sel) := by
  unfold State.paragraphCS
  split
  · exact .same rfl
  · exact .same rfl

theorem realFar_tame (sel : Word) (off : Dword) : Tame (realFar sel off) :=
  .modify fun s => (paragraphCS_tame s sel).trans (.same rfl)

/-! ### Stacks of inner levels -/

theorem innerStack_tame (ext : Bool) (n : BitVec 2) : Tame (innerStack ext n) :=
  .get fun _ => .ite
    (.bind (.check (raiseSel_tame ..)) fun _ => .bind (sysRead32_tame _) fun _ => .bind (sysRead16_tame _) fun _ => .pure _)
    (.bind (.check (raiseSel_tame ..)) fun _ => .bind (sysRead16_tame _) fun _ => .bind (sysRead16_tame _) fun _ => .pure _)

theorem innerStackSeg_tame (ext : Bool) (n : BitVec 2) : Tame (innerStackSeg ext n) :=
  .bind (innerStack_tame ..) fun _ => .bind (.check (.raise _ _)) fun _ => .bind (checkStackSeg_tame ..) fun _ => .pure _

theorem newStackRoom_tame (sel : Word) (d : Desc) (sp : Dword) (need : Nat) : Tame (newStackRoom sel d sp need) :=
  .bind (.check (.raise _ _)) fun _ => .bind (translateAll_tame ..) fun _ => .pure _

theorem switchStack_tame (sel : Word) (d : Desc) (sp : Dword) : Tame (switchStack sel d sp) := by
  refine .bind (setSS_tame ..) fun _ => .modify fun s => ?_
  split
  · exact .setReg s ..
  · exact .setEsp s _

/-! ### Task switches -/

theorem readTssRegs_tame (lin n : Dword) {item : Dword → M Dword} (hi : ∀ a, Tame (item a)) :
    Tame (readTssRegs lin n item) :=
  .bind (hi _) fun _ => .bind (hi _) fun _ => .bind (hi _) fun _ => .bind (hi _) fun _ => .bind (hi _) fun _ =>
    .bind (hi _) fun _ => .bind (hi _) fun _ => .bind (hi _) fun _ => .pure _

theorem readTss386_tame (b : Dword) : Tame (readTss386 b) :=
  .bind (sysRead32_tame _) fun _ => .bind (sysRead32_tame _) fun _ => .bind (readTssRegs_tame _ _ sysRead32_tame) fun _ =>
    .bind (sysRead16_tame _) fun _ => .bind (sysRead16_tame _) fun _ => .bind (sysRead16_tame _) fun _ =>
    .bind (sysRead16_tame _) fun _ => .bind (sysRead16_tame _) fun _ => .bind (sysRead16_tame _) fun _ =>
    .bind (sysRead16_tame _) fun _ => .bind (sysRead16_tame _) fun _ => .pure _

theorem readTss286_tame (b : Dword) : Tame (readTss286 b) :=
  .bind (sysRead16z_tame _) fun _ => .bind (sysRead16z_tame _) fun _ =>
    .bind (readTssRegs_tame _ _ sysRead16z_tame) fun _ => .bind (sysRead16_tame _) fun _ => .bind (sysRead16_tame _) fun _ =>
    .bind (sysRead16_tame _) fun _ => .bind (sysRead16_tame _) fun _ => .bind (sysRead16_tame _) fun _ => .pure _

theorem readTss_tame (new : Desc) : Tame (readTss new) := .ite (readTss386_tame _) (readTss286_tame _)

theorem loadTables_tame (new : Desc) : Tame (loadTables new) :=
  .get fun _ => .ite
    (.bind (sysRead32_tame _) fun _ => .modify fun s => (State.Tame.setCr3 s _).trans (.flushTlb _)) (.pure _)

theorem writeItems_tame (n : Nat) : ∀ (lin : Dword) (vs : List Dword), Tame (writeItems n lin vs)
  | _, [] => .pure _
  | _, _ :: vs => .bind (linWrite_tame ..) fun _ => writeItems_tame n _ vs

theorem saveTask_tame (eip image : Dword) : Tame (saveTask eip image) :=
  .get fun _ => .ite (writeItems_tame ..) (writeItems_tame ..)

theorem writeBackLink_tame (new : Desc) (old : Word) : Tame (writeBackLink new old) := linWrite_tame ..

/-- CR3 and the TLB are given back as they were. -/
theorem underTables_tame (v : Dword) {m : M Unit} (h : Tame m) : Tame (underTables (v &&& cr3Mask) m) := by
  have back {s t : State} (ht : ({ s with cr3 := v &&& cr3Mask } : State).flushTlb.Tame t) :
      s.Tame { t with cr3 := s.cr3, tlb := s.tlb } := by
    have ht := ((State.Tame.setCr3 s v).trans (.flushTlb _)).trans ht
    exact ⟨ht.mode, fun r => have ⟨a, b, _, d, e, f, g⟩ := ht.reserved r; ⟨a, b, r.cr3, d, e, f, g⟩,
      fun r => ⟨(ht.shaped r).mem, r.tlb⟩⟩
  refine .ofRun fun s => ?_
  unfold underTables
  cases e : m ({ s with cr3 := v &&& cr3Mask } : State).flushTlb with
  | ok a t => exact back (h.ok e)
  | error x t => exact back (h.error e)

theorem precheckType_tame (sel : Word) : Tame (precheckType sel) := by
  refine .get fun s => ?_
  cases s.descAddr sel with
  | none => exact .pure _
  | some addr => exact .bind (translateAll_tame ..) fun _ => .pure _

theorem precheckImage_tame (new : Desc) : Tame (precheckImage new) := .bind (translateAll_tame ..) fun _ => .pure _

theorem precheckNew_tame (new : Desc) : Tame (precheckNew new) :=
  .get fun _ => .ite
    (.bind (translateAll_tame ..) fun _ => .get fun _ => underTables_tame _ (precheckImage_tame new)) (precheckImage_tame new)

theorem precheckTask_tame (k : SwitchKind) (tss : Word) (new : Desc) : Tame (precheckTask k tss new) :=
  .get fun _ => .bind (translateAll_tame ..) fun _ => .bind (.check (precheckType_tame _)) fun _ =>
    .bind (.check (precheckType_tame _)) fun _ => .bind (.check (.bind (translateAll_tame ..) fun _ => .pure _)) fun _ =>
    precheckNew_tame new

theorem clearBusy_tame (sel : Word) : Tame (clearBusy sel) := by
  refine .get fun s => ?_
  cases s.descAddr sel with
  | none => exact .pure _
  | some addr => exact .bind (sysRead8_tame _) fun _ => sysWrite8_tame ..

theorem checkTaskCS_tame (ext : Bool) (sel : Word) : Tame (checkTaskCS ext sel) :=
  .bind (.check (raiseSel_tame ..)) fun _ => .bind (fetchDescOr_tame ..) fun _ => .bind (.check (raiseSel_tame ..)) fun _ =>
    .bind (.check (raiseSel_tame ..)) fun _ => .bind (.check (raiseSel_tame ..)) fun _ =>
    .bind (.check (raiseSel_tame ..)) fun _ => .bind (setAccessed_tame ..) fun _ => .modify fun _ => .same rfl

theorem checkTaskSS_tame (ext : Bool) (sel : Word) : Tame (checkTaskSS ext sel) :=
  .bind (.check (raiseSel_tame ..)) fun _ => .get fun _ => .bind (checkStackSeg_tame ..) fun _ => setSS_tame ..

theorem checkTaskSegs_tame (ext : Bool) (t : TssImage) : Tame (checkTaskSegs ext t) :=
  .bind (loadLDTR_tame ..) fun _ => .get fun _ => .ite (.modify fun _ => .same rfl) <|
    .bind (checkTaskCS_tame ..) fun _ => .bind (checkTaskSS_tame ..) fun _ => .bind (loadDataSeg_tame ..) fun _ =>
    .bind (loadDataSeg_tame ..) fun _ => .bind (loadDataSeg_tame ..) fun _ => loadDataSeg_tame ..

/-- TS is a defined bit of CR0, and no bit of the mode (R44). -/
theorem setTs_tame (s : State) (b : Bool) : s.Tame { s with cr0 := setBit s.cr0 3 b } := by
  refine ⟨?_, fun ⟨a, hb, c, d, e, f, g⟩ => ⟨a, (setBit_outside (by decide)).trans hb, c, d, e, f, g⟩, fun ⟨a, b⟩ => ⟨a, b⟩⟩
  simp only [State.mode, State.pe, State.pg, State.flag, bitOf_setBit _ _ 0 _ (by decide), bitOf_setBit _ _ 31 _ (by decide)]
  rfl

theorem taskSwitched_tame (s : State) (tss : Word) (new : Desc) : s.Tame (s.taskSwitched tss new) :=
  (setTs_tame s true).trans (.same rfl)

/-- The debug registers after a task switch (R276, R917). -/
theorem taskDebug_tame (s : State) (trap : Bool) : s.Tame (s.taskDebug trap) := by
  have h7 := State.Tame.setDr7 s fun r => and_outside 0xFFFFFEAA r.dr7
  cases trap
  · exact h7
  · exact h7.trans (.setPend _ (fun r => (setBit_outside (n := 15) (b := true) (by decide)).trans r.pend) fun r => r.pendLate)

theorem switchOut_tame (k : SwitchKind) (ext : Bool) (tss : Word) (new : Desc) (eip image : Dword) :
    Tame (switchOut k ext tss new eip image) :=
  .bind (.check (raiseSel_tame ..)) fun _ => .bind (precheckTask_tame ..) fun _ => .get fun _ =>
    .bind (saveTask_tame ..) fun _ => .bind (.check (clearBusy_tame _)) fun _ => .bind (.check (setDescType_tame ..)) fun _ =>
    .bind (.modify fun s => taskSwitched_tame s tss new) fun _ => committed_tame (.check (writeBackLink_tame ..))

/-- The incoming task is in V86 mode at CPL 3 or in protected mode (R272, R950); reserved flags are at their constants (R30). -/
theorem loadImage_legal (hs : s.Legal) (hk : PeMode s.mode) (k : SwitchKind) (t : TssImage) :
    (s.loadImage k t).Legal ∧ PeMode (s.loadImage k t).mode := by
  have nt (b : Bool) := setBit_fixed (n := 14) b (by decide) (fixFlags_fixed t.eflags)
  have load (v : Dword) (hv : fixFlags v = v) :
      ({ s with eflags := v, cpl := if bitOf v 17 then 3 else selRpl t.cs } : State).Legal :=
    hs.setFlags hv ⟨fun h => ⟨hk, if_pos h⟩, fun h => absurd (hk.symm.trans h) (by decide), fun _ => hk⟩
  refine ⟨?_, hk⟩
  cases k with
  | jmp => exact (load _ (nt false)).same rfl
  | call => exact (load _ (nt true)).same rfl
  | int => exact (load _ (nt true)).same rfl
  | iret => exact (load _ (fixFlags_fixed t.eflags)).same rfl

theorem switchIn_moves (k : SwitchKind) (ext : Bool) (new : Desc) : Moves PeMode PeMode (switchIn k ext new) :=
  .commit <| .step (loadTables_tame new) fun _ => .step (readTss_tame new) fun t =>
    .bind (.modify fun _ hs hk => loadImage_legal hs hk k t) fun _ => .step (checkTaskSegs_tame ..) fun _ =>
    (Tame.modify fun s => taskDebug_tame s _).moves

theorem switchTasks_moves (k : SwitchKind) (ext : Bool) (tss : Word) (new : Desc) (eip image : Dword) :
    Moves PeMode PeMode (switchTasks k ext tss new eip image) :=
  .step (switchOut_tame ..) fun _ => switchIn_moves ..

theorem checkTaskEip_tame : Tame checkTaskEip := committed_tame (.get fun _ => .check (.raise _ _))

theorem taskDesc_tame (vec : Byte) (ext : Bool) (tss : Word) : Tame (taskDesc vec ext tss) :=
  .bind (.check (.raise _ _)) fun _ => .bind (.check (raiseSel_tame ..)) fun _ => fetchDescOr_tame ..

theorem gateTaskDesc_tame (vec busy : Byte) (ext : Bool) (tss : Word) : Tame (gateTaskDesc vec busy ext tss) :=
  .bind (taskDesc_tame ..) fun _ => .bind (.check (raiseSel_tame ..)) fun _ => .bind (.check (raiseSel_tame ..)) fun _ =>
    .pure _

/-! ### Deliveries -/

theorem deliverReal_tame (e : Event) : Tame (deliverReal e) :=
  .get fun _ => .bind (.check (.throw _)) fun _ => .bind (pushAs_tame ..) fun _ => .bind (pushSel_tame ..) fun _ =>
    .bind (pushAs_tame ..) fun _ => .bind (sysRead16_tame _) fun _ => .bind (sysRead16_tame _) fun _ =>
    .bind (.modify fun s => (State.Tame.setFlag s _ (by decide)).trans <| (State.Tame.setFlag _ _ (by decide)).trans <|
      .setFlag _ _ (by decide)) fun _ => realFar_tame ..

theorem idtGate_tame (e : Event) : Tame (idtGate e) :=
  .get fun _ => .bind (.check (.raise _ _)) fun _ => .bind (readDesc_tame _) fun _ => .bind (.check (.raise _ _)) fun _ =>
    .bind (.check (.raise _ _)) fun _ => .bind (.check (.raise _ _)) fun _ => .pure _

theorem gateCode_tame (ext : Bool) (cs : Word) : Tame (gateCode ext cs) :=
  .bind (.check (.raise _ _)) fun _ => .bind (fetchDescOr_tame ..) fun _ => .bind (.check (raiseSel_tame ..)) fun _ =>
    .bind (.check (raiseSel_tame ..)) fun _ => .get fun _ => .bind (.check (raiseSel_tame ..)) fun _ => .pure _

theorem pushCode_tame (u : Bool) (w : Width) : ∀ o : Option Word, Tame (pushCode u w o)
  | none => .pure _
  | some _ => pushSel_tame ..

theorem pushFrame_tame (u : Bool) (w : Width) (e : Event) (image : Dword) (cs : Word) : Tame (pushFrame u w e image cs) :=
  .bind (pushAs_tame ..) fun _ => .bind (pushSel_tame ..) fun _ => .bind (pushAs_tame ..) fun _ => pushCode_tame ..

theorem deliverSame_moves (e : Event) (w : Width) (cs : Word) (c : Desc) (t : Dword) :
    Moves Mode.Prot Mode.Prot (deliverSame e w cs c t) :=
  .look fun _ => .step (stackRoom_tame _) fun _ => .step (checkTarget_tame ..) fun _ =>
    .step (pushFrame_tame ..) fun _ => .bind (setCS_moves ..) fun _ => (setEip_tame t).moves

theorem deliverInner_moves (e : Event) (w : Width) (cs : Word) (c : Desc) (t : Dword) :
    Moves Mode.Prot Mode.Prot (deliverInner e w cs c t) :=
  .look fun _ => .step (innerStackSeg_tame ..) fun _ => .step (newStackRoom_tame ..) fun _ =>
    .step (checkTarget_tame ..) fun _ => .step (switchStack_tame ..) fun _ =>
    .bind (.modify fun _ hs hk => setCpl_prot hs hk _) fun _ => .step (pushSel_tame ..) fun _ => .step (pushAs_tame ..) fun _ =>
    .step (pushFrame_tame ..) fun _ => .bind (setCS_moves ..) fun _ => (setEip_tame t).moves

/-- V86 mode is left for CPL 0 (R826). -/
theorem leaveV86_legal (hs : s.Legal) (hk : PeMode s.mode) :
    ({ s.setFlag .vm false with cpl := 0 } : State).Legal ∧ ({ s.setFlag .vm false with cpl := 0 } : State).mode.Prot := by
  have hvm : bitOf (setBit s.eflags 17 false) 17 = false := by rw [bitOf_setBit _ _ _ _ (by decide), if_pos rfl]
  exact ⟨hs.setFlags (setBit_fixed false (by decide) hs.reserved.eflags) (Mode.Prot.legal ⟨hk, hvm⟩), ⟨hk, hvm⟩⟩

theorem deliverV86_moves (e : Event) (w : Width) (cs : Word) (c : Desc) (t : Dword) :
    Moves PeMode Mode.Prot (deliverV86 e w cs c t) :=
  .look fun _ => .step (.check (raiseSel_tame ..)) fun _ => .step (.check (raiseSel_tame ..)) fun _ =>
    .step (innerStackSeg_tame ..) fun _ => .step (newStackRoom_tame ..) fun _ => .step (checkTarget_tame ..) fun _ =>
    .bind (.modify fun _ hs hk => leaveV86_legal hs hk) fun _ => .step (switchStack_tame ..) fun _ =>
    .step (pushSel_tame ..) fun _ => .step (pushSel_tame ..) fun _ => .step (pushSel_tame ..) fun _ =>
    .step (pushSel_tame ..) fun _ => .step (pushSel_tame ..) fun _ => .step (pushAs_tame ..) fun _ =>
    .step (pushFrame_tame ..) fun _ => .step (.modify fun _ => .same rfl) fun _ => .bind (setCS_moves ..) fun _ =>
    (setEip_tame t).moves

end Sys2Proof.Machine
end

section
/-! SUPPORT. Deliveries from each mode, the returns from them, far transfers and the writes of CR0. -/

namespace Sys2Proof.Machine

variable {α β : Type} {s t : State} {φ : Mode → Prop}

theorem taskCode_tame (w : Width) (code : Option Word) : Tame (taskCode w code) := .get fun _ => pushCode_tame ..

theorem deliverTask_moves (e : Event) (tss : Word) : Moves PeMode PeMode (deliverTask e tss) :=
  .look fun _ => .step (gateTaskDesc_tame ..) fun _ => .look fun _ => .bind (switchTasks_moves ..) fun _ =>
    .step (committed_tame (taskCode_tame ..)) fun _ => checkTaskEip_tame.moves

theorem deliverTo_moves (e : Event) (w : Width) (cs : Word) (c : Desc) (t : Dword) :
    Moves PeMode Mode.Prot (deliverTo e w cs c t) :=
  .get fun s _ hk => .ite (fun _ => (deliverV86_moves ..).inMode hk) fun hv =>
    have hp : s.mode.Prot := ⟨hk, Bool.eq_false_iff.2 hv⟩
    .ite (fun _ => (deliverInner_moves ..).inMode hp) fun _ =>
      (deliverSame_moves ..).inMode hp

/-- The flags that a gate clears; VM is 0 before (R828). -/
theorem afterGate_prot (hs : s.Legal) (hk : s.mode.Prot) (int : Bool) :
    (s.afterGate int).Legal ∧ (s.afterGate int).mode.Prot := by
  have clear (u : State) (hu : u.Legal) (hp : u.mode.Prot) (f : Flag) :
      (u.setFlag f false).Legal ∧ (u.setFlag f false).mode.Prot := by
    have hvm : (u.setFlag f false).flag .vm = false := by
      rw [State.flag_setFlag]
      split
      · rfl
      · exact hp.vm
    have hm : (u.setFlag f false).mode.Prot := ⟨hp.pe, hvm⟩
    exact ⟨hu.setFlags (setBit_fixed false (by cases f <;> decide) hu.reserved.eflags) hm.legal, hm⟩
  have rest (u : State) (hu : u.Legal) (hp : u.mode.Prot) :=
    have ⟨h1, p1⟩ := clear u hu hp .tf
    have ⟨h2, p2⟩ := clear _ h1 p1 .vm
    have ⟨h3, p3⟩ := clear _ h2 p2 .nt
    clear _ h3 p3 .rf
  cases int
  · exact rest s hs hk
  · have ⟨h, p⟩ := clear s hs hk .iflag
    exact rest _ h p

theorem deliverGate_moves (e : Event) (g : Desc) : Moves PeMode Mode.Prot (deliverGate e g) :=
  .step (gateCode_tame ..) fun _ => .bind (deliverTo_moves ..) fun _ => .modify fun _ hs hk => afterGate_prot hs hk _

/-- A delivery, from whatever mode to whatever mode, keeps the state legal (R820). -/
theorem deliver_moves (e : Event) : Moves φ AnyMode (deliver e) := by
  refine .get fun s _ _ => .ite (fun _ => (deliverReal_tame e).moves.any) fun hp => ?_
  have hk : s.pe = true := by simpa using hp
  refine Moves.inMode (φ := PeMode) ?_ hk
  exact .step (idtGate_tame e) fun _ => .ite (fun _ => (deliverTask_moves ..).any) fun _ => (deliverGate_moves ..).any

/-! ### Returns from an interrupt or exception -/

/-- IRET writes no reserved flag (R641). -/
theorem iretMask_outside (s : State) (w : Width) : s.iretMask w &&& ~~~eflagsMask = 0 := by
  unfold State.iretMask
  refine or_outside (or_outside (or_outside (or_outside ?_ ?_) ?_) ?_) ?_
  · decide
  all_goals split <;> decide

/-- Outside protected mode IRET does not write VM (R641): V86 mode runs at CPL 3. -/
theorem iretMask_vm (hs : s.Legal) (hk : ¬s.mode.Prot) (w : Width) : bitOf (s.iretMask w) 17 = false := by
  have h : ¬(w = .d32 ∧ s.pe ∧ s.cpl = 0) := by
    rintro ⟨-, hp, h0⟩
    refine hk ⟨hp, ?_⟩
    cases hv : s.mode.vm
    · rfl
    · exact absurd (h0.symm.trans (hs.mode.v86 hv).2) (by decide)
  unfold State.iretMask
  rw [if_neg h]
  simp only [bitOf, BitVec.getLsbD_or]
  split <;> split <;> split <;> decide

theorem iretReal_moves (w : Width) : Moves (¬·.Prot) AnyMode (iretReal w) :=
  .get fun s hs hk => Tame.moves (.bind (stackRead_tame ..) fun _ => .bind (stackRead_tame ..) fun _ =>
    .bind (stackRead_tame ..) fun _ => .bind (checkTargetHere_tame _) fun _ => .bind (.modify fun s => .setEsp s _) fun _ =>
    .bind (realFar_tame ..) fun _ => .modify fun t => .putFlags t _ (iretMask_outside s w) (iretMask_vm hs hk w)) |>.any

theorem iretV86_moves : Moves PeMode PeMode iretV86 :=
  .look fun s => .step (stackTop_tame _) fun _ => .step (stackRead_tame ..) fun _ => .step (stackRead_tame ..) fun _ =>
    .step (stackRead_tame ..) fun fl => .step (stackRead_tame ..) fun _ => .step (stackRead_tame ..) fun _ =>
    .step (stackRead_tame ..) fun _ => .step (stackRead_tame ..) fun _ => .step (stackRead_tame ..) fun _ =>
    .step (stackRead_tame ..) fun _ => .step (.check (.raise _ _)) fun _ => .modify fun t ht hk =>
    have h := ht.setFlags (c := 3) (putFlags_fixed fl (iretMask_outside s .d32) ht.reserved.eflags)
      ⟨fun _ => ⟨hk, rfl⟩, fun h => absurd (hk.symm.trans h) (by decide), fun _ => hk⟩
    ⟨h.same rfl, hk⟩

theorem returnCode_tame (sel : Word) (cpl : BitVec 2) : Tame (returnCode sel cpl) :=
  .bind (.check (.raise _ _)) fun _ => .bind (fetchDescOr_tame ..) fun _ => .bind (.check (raiseSel_tame ..)) fun _ =>
    .bind (.check (raiseSel_tame ..)) fun _ => .bind (.check (raiseSel_tame ..)) fun _ =>
    .bind (.check (raiseSel_tame ..)) fun _ => .pure _

theorem returnStack_tame (sel : Word) (cpl : BitVec 2) : Tame (returnStack sel cpl) :=
  .bind (.check (.raise _ _)) fun _ => checkStackSeg_tame ..

theorem returnSP_tame (sel : Word) (d : Desc) (w : Width) (sp : Dword) : Tame (returnSP sel d w sp) := by
  refine .bind (setSS_tame ..) fun _ => .modify fun s => ?_
  split
  · exact .setReg s ..
  · exact .setReg s ..

/-- A return that stays out of V86 mode writes neither a reserved flag nor VM (R640). -/
theorem stayFlags_tame (s : State) (w : Width) (v off : Dword) :
    Tame (modify fun t => { t.putFlags (s.stayMask w) v with eip := off } : M PUnit) := by
  have ho : s.stayMask w &&& ~~~eflagsMask = 0 := (setBit_outside (by decide)).trans (iretMask_outside s w)
  have hv : bitOf (s.stayMask w) 17 = false := by
    unfold State.stayMask
    rw [bitOf_setBit _ _ _ _ (by decide), if_pos rfl]
  exact .modify fun t => (State.Tame.putFlags t v ho hv).trans (.same rfl)

theorem iretSame_moves (w : Width) (rs : Word) : Moves Mode.Prot Mode.Prot (iretSame w rs) :=
  .look fun _ => .step (stackTop_tame _) fun _ => .step (returnCode_tame ..) fun _ => .step (stackRead_tame ..) fun _ =>
    .step (checkTarget_tame ..) fun _ => .step (stackRead_tame ..) fun _ => .bind (setCS_moves ..) fun _ =>
    .step (stayFlags_tame ..) fun _ => Tame.moves (.modify fun s => .setEsp s _)

theorem invalidateDataSegs_tame (cpl : BitVec 2) : Tame (modify fun s => s.invalidateDataSegs cpl : M PUnit) :=
  .modify fun _ => .same rfl

theorem iretOuter_moves (w : Width) (rs : Word) : Moves Mode.Prot Mode.Prot (iretOuter w rs) :=
  .look fun _ => .step (stackTop_tame _) fun _ => .step (returnCode_tame ..) fun _ => .step (stackRead_tame ..) fun _ =>
    .step (stackRead_tame ..) fun _ => .step (returnStack_tame ..) fun _ => .step (stackRead_tame ..) fun _ =>
    .step (checkTarget_tame ..) fun _ => .step (stackRead_tame ..) fun _ => .bind (setCS_moves ..) fun _ =>
    .step (stayFlags_tame ..) fun _ => .step (returnSP_tame ..) fun _ => (invalidateDataSegs_tame _).moves

theorem iretTask_moves : Moves PeMode PeMode iretTask :=
  .look fun _ => .step (sysRead16_tame _) fun _ => .step (taskDesc_tame ..) fun _ => .step (.check (raiseSel_tame ..)) fun _ =>
    .step (.check (raiseSel_tame ..)) fun _ => .step (.check (raiseSel_tame ..)) fun _ => .bind (switchTasks_moves ..) fun _ =>
    checkTaskEip_tame.moves

theorem returnsToV86_tame (w : Width) : Tame (returnsToV86 w) :=
  .get fun _ => .ite (.bind (stackRead_tame ..) fun _ => .pure _) (.pure _)

theorem iretStack_moves (w : Width) : Moves Mode.Prot AnyMode (iretStack w) :=
  .look fun _ => .step (returnsToV86_tame w) fun _ =>
    .ite (fun _ => (iretV86_moves.weaken (fun _ => Mode.Prot.peMode) fun _ => id).any) fun _ =>
    .step (stackRead_tame ..) fun _ => .step (.check (raiseSel_tame ..)) fun _ =>
    .ite (fun _ => (iretOuter_moves ..).any) fun _ => (iretSame_moves ..).any

theorem iretBy_moves (w : Width) : Moves φ AnyMode (iretBy w) := by
  refine .get fun s _ _ => .ite (fun hp => ?_) fun hp => .ite (fun hv => .step (.check (.raise _ _)) fun _ => ?_) fun hv => ?_
  · have hr : ¬s.mode.Prot := fun h => by simp [show s.pe = true from h.pe] at hp
    exact (iretReal_moves w).inMode hr
  · have hr : ¬s.mode.Prot := fun h => Bool.eq_false_iff.1 h.vm hv
    exact (iretReal_moves w).inMode hr
  · have hp : s.pe = true := by simpa using hp
    have hk : s.mode.Prot := ⟨hp, Bool.eq_false_iff.2 hv⟩
    exact .ite (fun _ => (iretTask_moves.inMode hk.peMode).any) fun _ =>
      (iretStack_moves w).inMode hk

theorem ireturn_moves (w : Width) : Moves φ AnyMode (ireturn w) :=
  .step (.modify fun _ => .same rfl) fun _ => .bind (iretBy_moves w) fun _ => (Tame.pure _).moves

/-! ### Far transfers -/

theorem farForm_tame : ∀ form : FarForm, Tame (farForm form)
  | .ptr _ _ _ => .pure _
  | .mem w m => .bind (readFar_tame w m) fun _ => .pure _

theorem directCode_tame (sel : Word) (d : Desc) : Tame (directCode sel d) :=
  .get fun _ => .bind (.check (raiseSel_tame ..)) fun _ => .bind (.check (raiseSel_tame ..)) fun _ =>
    .bind (.check (raiseSel_tame ..)) fun _ => .check (raiseSel_tame ..)

theorem gatePrivilege_tame (sel : Word) (g : Desc) : Tame (gatePrivilege sel g) := .get fun _ => .check (raiseSel_tame ..)

theorem checkGate_tame (sel : Word) (g : Desc) : Tame (checkGate sel g) :=
  .bind (gatePrivilege_tame ..) fun _ => .check (raiseSel_tame ..)

theorem farTss_tame (sel : Word) (d : Desc) : Tame (farTss sel d) :=
  .ite (.bind (checkGate_tame ..) fun _ => .bind (gateTaskDesc_tame ..) fun _ => .pure _)
    (.bind (gatePrivilege_tame ..) fun _ => .bind (.check (raiseSel_tame ..)) fun _ =>
      .bind (.check (raiseSel_tame ..)) fun _ => .pure _)

theorem farTask_moves (k : SwitchKind) (sel : Word) (d : Desc) : Moves PeMode PeMode (farTask k sel d) :=
  .step (farTss_tame sel d) fun _ => .look fun _ => .bind (switchTasks_moves ..) fun _ => .step checkTaskEip_tame fun _ =>
    (Tame.pure _).moves

theorem jmpGate_moves (sel : Word) (g : Desc) : Moves Mode.Prot Mode.Prot (jmpGate sel g) :=
  .step (checkGate_tame ..) fun _ => .step (.check (.raise _ _)) fun _ => .step (fetchDescOr_tame ..) fun _ =>
    .look fun _ => .step (.check (raiseSel_tame ..)) fun _ => .step (.check (raiseSel_tame ..)) fun _ =>
    .step (.check (raiseSel_tame ..)) fun _ => .step (.check (raiseSel_tame ..)) fun _ => .step (checkTarget_tame ..) fun _ =>
    enterCode_moves ..

theorem farTask_any (k : SwitchKind) (sel : Word) (d : Desc) : Moves Mode.Prot AnyMode (farTask k sel d) :=
  ((farTask_moves k sel d).weaken (fun _ => Mode.Prot.peMode) fun _ => id).any

theorem jmpProt_moves (sel : Word) (off : Dword) : Moves Mode.Prot AnyMode (jmpProt sel off) :=
  .step (.check (.raise _ _)) fun _ => .step (fetchDescOr_tame ..) fun _ =>
    .ite (fun _ => .step (directCode_tame ..) fun _ => .step (checkTarget_tame ..) fun _ => .look fun _ =>
      .bind (enterCode_moves ..) fun _ => (Tame.pure _).moves.any) fun _ =>
    .ite (fun _ => .bind (jmpGate_moves ..) fun _ => (Tame.pure _).moves.any) fun _ =>
    .ite (fun _ => farTask_any ..) fun _ => .raise _ _

theorem pushReturn_tame (u : Bool) (w : Width) (cs : Word) (ip : Dword) : Tame (pushReturn u w cs ip) :=
  .bind (pushSel_tame ..) fun _ => pushAs_tame ..

theorem callSame_moves (w : Width) (sel : Word) (d : Desc) (off : Dword) :
    Moves Mode.Prot Mode.Prot (callSame w sel d off) :=
  .look fun _ => .step (stackRoom_tame _) fun _ => .step (checkTarget_tame ..) fun _ => .step (pushReturn_tame ..) fun _ =>
    enterCode_moves ..

theorem readParams_tame (w : Width) : ∀ k n : Nat, Tame (readParams w k n)
  | _, 0 => .pure _
  | _, n + 1 => .bind (stackRead_tame ..) fun _ => .bind (readParams_tame w _ n) fun _ => .pure _

theorem pushParams_tame (w : Width) : ∀ ps : List (BitVec w.bits), Tame (pushParams w ps)
  | [] => .pure _
  | _ :: ps => .bind (pushParams_tame w ps) fun _ => pushAs_tame ..

theorem callInner_moves (w : Width) (g : Desc) (cs : Word) (c : Desc) (t : Dword) :
    Moves Mode.Prot Mode.Prot (callInner w g cs c t) :=
  .look fun _ => .step (innerStackSeg_tame ..) fun _ => .step (newStackRoom_tame ..) fun _ => .step (checkTarget_tame ..) fun _ =>
    .step (readParams_tame ..) fun _ => .step (switchStack_tame ..) fun _ =>
    .bind (.modify fun _ hs hk => setCpl_prot hs hk _) fun _ => .step (pushSel_tame ..) fun _ => .step (pushAs_tame ..) fun _ =>
    .step (pushParams_tame ..) fun _ => .step (pushReturn_tame ..) fun _ => enterCode_moves ..

theorem callGate_moves (sel : Word) (g : Desc) : Moves Mode.Prot Mode.Prot (callGate sel g) :=
  .step (checkGate_tame ..) fun _ => .step (.check (.raise _ _)) fun _ => .step (fetchDescOr_tame ..) fun _ =>
    .look fun _ => .step (.check (raiseSel_tame ..)) fun _ => .step (.check (raiseSel_tame ..)) fun _ =>
    .step (.check (raiseSel_tame ..)) fun _ => .ite (fun _ => callInner_moves ..) fun _ => callSame_moves ..

theorem callProt_moves (w : Width) (sel : Word) (off : Dword) : Moves Mode.Prot AnyMode (callProt w sel off) :=
  .step (.check (.raise _ _)) fun _ => .step (fetchDescOr_tame ..) fun _ =>
    .ite (fun _ => .step (directCode_tame ..) fun _ => .bind (callSame_moves ..) fun _ => (Tame.pure _).moves.any) fun _ =>
    .ite (fun _ => .bind (callGate_moves ..) fun _ => (Tame.pure _).moves.any) fun _ =>
    .ite (fun _ => farTask_any ..) fun _ => .raise _ _

theorem retReal_tame (w : Width) (imm : Dword) : Tame (retReal w imm) :=
  .bind (stackRead_tame ..) fun _ => .bind (stackRead_tame ..) fun _ => .bind (checkTargetHere_tame _) fun _ =>
    .bind (.modify fun s => .setEsp s _) fun _ => realFar_tame ..

theorem retSame_moves (w : Width) (imm : Dword) (rs : Word) : Moves Mode.Prot Mode.Prot (retSame w imm rs) :=
  .look fun _ => .step (returnCode_tame ..) fun _ => .step (stackRead_tame ..) fun _ => .step (checkTarget_tame ..) fun _ =>
    .bind (enterCode_moves ..) fun _ => Tame.moves (.modify fun s => .setEsp s _)

theorem retOuter_moves (w : Width) (imm : Dword) (rs : Word) : Moves Mode.Prot Mode.Prot (retOuter w imm rs) :=
  .step (stackTop_tame _) fun _ => .step (returnCode_tame ..) fun _ => .step (stackRead_tame ..) fun _ =>
    .step (stackRead_tame ..) fun _ => .step (returnStack_tame ..) fun _ => .step (stackRead_tame ..) fun _ =>
    .step (checkTarget_tame ..) fun _ => .bind (enterCode_moves ..) fun _ => .step (returnSP_tame ..) fun _ =>
    (invalidateDataSegs_tame _).moves

theorem retProt_moves (w : Width) (imm : Dword) : Moves Mode.Prot Mode.Prot (retProt w imm) :=
  .look fun _ => .step (stackRead_tame ..) fun _ => .step (.check (raiseSel_tame ..)) fun _ =>
    .ite (fun _ => retOuter_moves ..) fun _ => retSame_moves ..

theorem softInt_moves (v : Byte) : Moves φ AnyMode (softInt v) :=
  .look fun _ => .bind (deliver_moves _) fun _ => (Tame.pure _).moves

/-! ### CR0 -/

/-- CPL 0, which real-address mode has always (R60) and a privileged instruction is held to (R167). -/
def Cpl0 (k : Mode) : Prop := k.cpl = 0

theorem checkCpl0_moves : Moves φ Cpl0 checkCpl0 := by
  refine .get fun s hs _ => ?_
  cases hc : s.pe && s.cpl != 0
  · have h0 : s.cpl = 0 := by
      cases hp : s.pe
      · exact hs.mode.real hp
      · simpa [hp] using hc
    exact (Tame.pure ()).moves.inMode h0
  · exact .raise _ _

/-- CR0 written at CPL 0, where VM = 0: legal where paging is not set without protection (R46, R770). -/
theorem setCr0_legal (hs : s.Legal) (hk : Cpl0 s.mode) {v : Dword} (hv : v &&& ~~~cr0Mask = 0)
    (hp : bitOf v 31 = true → bitOf v 0 = true) : ({ s with cr0 := v } : State).Legal := by
  refine ⟨have ⟨a, _, c, d, e, f, g⟩ := hs.reserved; ⟨a, hv, c, d, e, f, g⟩, ⟨hs.shaped.mem, hs.shaped.tlb⟩, ?_⟩
  refine ⟨fun h => ?_, fun _ => hk, hp⟩
  exact absurd (hk.symm.trans (hs.mode.v86 h).2) (by decide)

theorem writeCr_moves (n : BitVec 3) (v : Dword) : Moves Cpl0 AnyMode (writeCr n v) := by
  unfold writeCr
  split
  · refine .check fun hc => .modify fun s hs hk => ⟨?_, trivial⟩
    have bit (i : Nat) (hi : bitOf cr0Mask i = true) : bitOf (v &&& cr0Mask) i = bitOf v i := by
      simp only [bitOf, BitVec.getLsbD_and] at hi ⊢
      rw [hi, Bool.and_true]
    refine (setCr0_legal hs hk (mask_outside cr0Mask v) fun h => ?_).same rfl
    rw [bit _ (by decide)] at h ⊢
    simpa [h] using hc
  · exact .modify fun s hs _ => ⟨hs.same rfl, trivial⟩
  · exact Tame.moves (.modify fun s => (State.Tame.setCr3 s v).trans (.flushTlb _)) |>.any
  · exact .raise _ _

/-- LMSW can set PE but not clear it, and leaves PG (R747). -/
theorem mswLoaded_legal (hs : s.Legal) (hk : Cpl0 s.mode) (v : Word) :
    ({ s with cr0 := mswLoaded s.cr0 v } : State).Legal := by
  refine setCr0_legal hs hk ?_ fun h => ?_
  · refine or_outside (and_outside _ hs.reserved.cr0) ?_
    rw [BitVec.and_assoc]
    exact (congrArg _ (by decide)).trans BitVec.and_zero
  · have h31 : s.pg = true := by simpa [mswLoaded, bitOf, State.pg] using h
    have h0 : s.pe = true := hs.mode.paging h31
    simp only [State.pe, bitOf] at h0
    simp [mswLoaded, bitOf, h0]

end Sys2Proof.Machine
end

section
/-! SUPPORT. The end of an instruction, an exception that it raises and an event that is taken: each leaves a state that meets
the invariant. -/

namespace Sys2Proof.Machine

variable {s t : State} {φ ψ : Mode → Prop}

/-! ### The end of an instruction (R15, R118, R908) -/

/-- B0 to B3 that pass a test are bits of DR6. -/
theorem dr6_bits_outside (p : Nat → Bool) :
    (([0, 1, 2, 3].filter p).foldl (fun acc n => setBit acc n true) (0 : Dword)) &&& ~~~dr6Mask = 0 :=
  foldl_setBit_outside (fun n hn => dr6Mask_b n (List.mem_filter.1 hn).1) (by simp)

theorem gather_tame (s : State) {kept late : Dword} (hk : kept &&& ~~~dr6Mask = 0) (hl : late &&& ~~~dr6Mask = 0) :
    s.Tame (s.gather kept late) := by
  unfold State.gather
  split
  · exact .setPend s (fun r => or_outside (or_outside hk hl) r.pend) fun r => r.pendLate
  · refine (State.Tame.setPend s (fun r => ?_) fun r => ?_).trans (.same rfl)
    · exact or_outside (or_outside (or_outside (or_outside hk hl) (and_outside _ r.pend)) (dr6_bits_outside _))
        (dr6_bits_outside _)
    · refine or_outside r.pendLate ?_
      split
      · simp
      · exact or_outside (dr6_bits_outside _) (dr6_bits_outside _)

theorem settle_tame (s : State) {kept late : Dword} (hk : kept &&& ~~~dr6Mask = 0) (hl : late &&& ~~~dr6Mask = 0) :
    s.Tame (s.settle kept late) := by
  unfold State.settle
  dsimp only
  split
  · exact gather_tame s hk hl
  · exact (gather_tame s hk hl).trans (.setPend _ (fun _ => by simp) fun r => r.pendLate)

theorem place_tame (hs : s.Reserved) (d : Done) (t : State) : t.Tame (d.place s t) := by
  cases d with
  | next => exact (State.Tame.setFlag t (f := .rf) false (by decide)).trans (.same rfl)
  | nextKeepRf => exact .same rfl
  | went => exact .setFlag t _ (by decide)
  | wentKeepRf => exact .refl t
  | again => exact .same rfl
  | waiting => exact (State.Tame.setPend t (fun r => r.pend) fun _ => hs.pendLate).trans (.same rfl)

theorem trimEip_tame (s : State) : s.Tame s.trimEip := .same rfl

theorem finish_tame (hs : s.Reserved) (d : Done) (t : State) : t.Tame (finish s d t) := by
  have hp : t.Tame (d.place s t).trimEip := (place_tame hs d t).trans (trimEip_tame _)
  have hl : (if d = .waiting then 0 else s.pendLate) &&& ~~~dr6Mask = 0 := by
    split
    · simp
    · exact hs.pendLate
  unfold finish
  dsimp only
  refine State.Tame.trans ?_ (settle_tame _ hs.pend hl)
  split
  · exact hp.trans (.setPend _ (fun r => (setBit_outside (by decide)).trans r.pend) fun r => r.pendLate)
  · exact hp

/-! ### Exceptions and events (R820, R860, R885) -/

/-- An abandoned attempt leaves of what the invariant speaks of only memory and the TLB (R860). -/
theorem keep_legal (hs : s.Legal) (ht : t.Legal) : (s.keep t).Legal :=
  ⟨have ⟨a, b, c, d, e, f, g⟩ := hs.reserved; ⟨a, b, c, d, e, f, g⟩, ⟨ht.shaped.mem, ht.shaped.tlb⟩, hs.mode⟩

theorem clearPend_legal (hs : s.Legal) : ({ s with pend := 0 } : State).Legal :=
  (State.Tame.setPend s (fun _ => by simp) fun r => r.pendLate).legal hs

/-- A delivery with the exceptions that it raises. -/
theorem deliverAll_legal : ∀ (n : Nat) (e : Event) {s : State}, s.Legal → (deliverAll n e s).Legal
  | 0, _, _, hs => hs.same rfl
  | n + 1, e, s, hs => by
    have hd := (deliver_moves (φ := AnyMode) e).keeps
    unfold deliverAll
    cases he : deliver e s with
    | ok _ t => exact (hd.ok he hs trivial).1.same rfl
    | error x t =>
      have ht := hd.error he hs trivial
      have hb : (if x.committed then { t with pend := 0 } else s.keep t).Legal := by
        split
        · exact clearPend_legal ht
        · exact keep_legal hs ht
      dsimp only
      split
      · exact hb.same rfl
      · split
        · exact deliverAll_legal n _ hb
        · exact deliverAll_legal n _ hb

theorem begun_legal (hs : s.Legal) : s.begun.Legal :=
  ((State.Tame.setPend s (p := 0) (q := 0) (fun _ => by simp) fun _ => by simp).legal hs).same rfl

theorem abandon_inv (hs : s.Legal) (x : Exc) (ht : t.Legal) : (abandon s x t).Inv := by
  refine inv_iff.2 ⟨?_, abandon_fits s x t⟩
  have hb : (if x.committed then { t with pend := 0 } else s.begun.keep t).Legal := by
    split
    · exact clearPend_legal ht
    · exact keep_legal (begun_legal hs) ht
  exact (settle_tame _ hs.reserved.pend hs.reserved.pendLate).legal ((trimEip_tame _).legal (deliverAll_legal _ _ hb))

theorem takeEvent_inv (e : Event) (hs : s.Legal) : (takeEvent e s).Inv := by
  refine inv_iff.2 ⟨?_, takeEvent_fits e s⟩
  have hb := (clearPend_legal hs).same (t := { s with pend := 0, repActive := false, ranPast := false }) rfl
  exact (settle_tame _ (by simp) (by simp)).legal ((trimEip_tame _).legal (deliverAll_legal _ e hb))

/-! ### Instructions -/

/-- Whatever state is answered is legal. -/
def Lawful (o : Host.Outcome State Fault Refusal) : Prop := ∀ t, o = .next t → t.Inv

theorem instr_lawful_of {m : M Done} (hs : s.Legal) (hφ : φ s.mode) (hm : Moves φ ψ m) : Lawful (instr m s) := by
  intro t h
  obtain ⟨d, u, e, rfl⟩ | ⟨x, u, e, rfl⟩ := instr_cases h
  · have hu := (hm.keeps.ok e (begun_legal hs) hφ).1
    exact inv_iff.2 ⟨(finish_tame hs.reserved d u).legal hu, finish_fits s d u⟩
  · exact abandon_inv hs x (hm.keeps.error e (begun_legal hs) hφ)

theorem instr_lawful {m : M Done} (hs : s.Legal) (hm : Tame m) : Lawful (instr m s) :=
  instr_lawful_of (φ := AnyMode) hs trivial hm.moves

theorem plain_lawful_of {m : M Unit} (hs : s.Legal) (hm : Moves AnyMode ψ m) : Lawful (plain m s) :=
  instr_lawful_of hs trivial (.bind hm fun _ => (Tame.pure _).moves)

theorem plain_lawful {m : M Unit} (hs : s.Legal) (hm : Tame m) : Lawful (plain m s) := plain_lawful_of hs hm.moves

end Sys2Proof.Machine
end

section
/-! SUPPORT. Instructions whose arm of `exec` is written out. -/

namespace Sys2Proof.Machine

variable {s t : State}

/-! ### Instructions whose meaning is written out in `exec` -/

theorem execDiv_lawful (hs : s.Legal) (w : Width) (rm : Rm) : Lawful (execDiv w rm s) :=
  plain_lawful hs <| .bind (readRm_tame w rm) fun _ => .bind (.check (.raise _ _)) fun _ => .bind (.check (.raise _ _)) fun _ =>
    .bind (.modify fun s => setQuotient_tame s w _ _) fun _ => freeFlags_tame (by decide)

theorem execIdiv_lawful (hs : s.Legal) (w : Width) (rm : Rm) : Lawful (execIdiv w rm s) :=
  plain_lawful hs <| .bind (readRm_tame w rm) fun _ => .bind (.check (.raise _ _)) fun _ => .bind (.check (.raise _ _)) fun _ =>
    .bind (.modify fun s => setQuotient_tame s w _ _) fun _ => freeFlags_tame (by decide)

theorem execMul_lawful (hs : s.Legal) (w : Width) (rm : Rm) : Lawful (execMul w rm s) :=
  plain_lawful hs <| .bind (readRm_tame w rm) fun _ => .bind (.modify fun s => setProduct_tame s w _) fun _ => mulFlags_tame _

theorem execAam_lawful (hs : s.Legal) (base : Byte) : Lawful (execAam base s) :=
  plain_lawful hs <| .bind (.check (.raise _ _)) fun _ => .bind (writeReg_tame ..) fun _ => .bind (writeReg_tame ..) fun _ =>
    .bind (szpF_tame _) fun _ => freeFlags_tame (by decide)

theorem execAad_lawful (hs : s.Legal) (base : Byte) : Lawful (execAad base s) :=
  plain_lawful hs <| .bind (writeReg_tame ..) fun _ => .bind (writeReg_tame ..) fun _ => .bind (szpF_tame _) fun _ =>
    freeFlags_tame (by decide)

theorem execMovToSreg_lawful (hs : s.Legal) (sr : SReg) (rm : Rm) : Lawful (execMovToSreg sr rm s) :=
  plain_lawful hs <| .bind (readRm_tame ..) fun _ => .bind (loadSreg_tame ..) fun _ => inhibitFor_tame sr

theorem execMovFromCr_lawful (hs : s.Legal) (n : BitVec 3) (r : Reg) : Lawful (execMovFromCr n r s) :=
  plain_lawful hs <| .bind checkCpl0_tame fun _ => .bind (readCr_tame n) fun _ => .bind (writeReg_tame ..) fun _ => freeStatus_tame

theorem execMovFromDr_lawful (hs : s.Legal) (n : BitVec 3) (r : Reg) : Lawful (execMovFromDr n r s) :=
  plain_lawful hs <| .bind checkCpl0_tame fun _ => .bind (readDr_tame n) fun _ => .bind (writeReg_tame ..) fun _ => freeStatus_tame

theorem execMovFromTr_lawful (hs : s.Legal) (n : BitVec 3) (r : Reg) : Lawful (execMovFromTr n r s) :=
  plain_lawful hs <| .bind checkCpl0_tame fun _ => .bind (readTr_tame n) fun _ => .bind (writeReg_tame ..) fun _ => freeStatus_tame

theorem execMovToCr_lawful (hs : s.Legal) (n : BitVec 3) (r : Reg) : Lawful (execMovToCr n r s) :=
  plain_lawful_of hs <| .bind checkCpl0_moves fun _ => .bind (writeCr_moves ..) fun _ => freeStatus_tame.moves

theorem execMovToDr_lawful (hs : s.Legal) (n : BitVec 3) (r : Reg) : Lawful (execMovToDr n r s) :=
  plain_lawful hs <| .bind checkCpl0_tame fun _ => .bind (writeDr_tame ..) fun _ => freeStatus_tame

theorem execMovToTr_lawful (hs : s.Legal) (n : BitVec 3) (r : Reg) : Lawful (execMovToTr n r s) :=
  plain_lawful hs <| .bind checkCpl0_tame fun _ => .bind (writeTr_tame ..) fun _ => freeStatus_tame

theorem execJmp_lawful (hs : s.Legal) (t : NearForm) : Lawful (execJmp t s) :=
  instr_lawful hs <| .bind (nearForm_tame t) fun _ => .bind (nearJump_tame ..) fun _ => .pure _

theorem execCall_lawful (hs : s.Legal) (t : NearForm) : Lawful (execCall t s) :=
  instr_lawful hs <| .bind (nearForm_tame t) fun _ => .bind (stackRoom_tame _) fun _ => .bind (nearTarget_tame ..) fun _ =>
    .bind (push_tame ..) fun _ => .bind (setEip_tame _) fun _ => .pure _

theorem execRet_lawful (hs : s.Legal) (w : Width) (n : Option Word) : Lawful (execRet w n s) :=
  instr_lawful hs <| .bind (pop_tame w) fun _ => .bind (.modify fun s => .setEsp s _) fun _ => .bind (nearJump_tame ..) fun _ =>
    .pure _

theorem execEnter_lawful (hs : s.Legal) (w : Width) (size : Word) (level : Byte) : Lawful (execEnter w size level s) :=
  plain_lawful hs <| .bind (push_tame ..) fun _ => .get fun _ => .bind (.check (enterFrames_tame ..)) fun _ =>
    .bind (writeReg_tame ..) fun _ => .get fun _ => .bind (.check (.raise _ _)) fun _ => .modify fun s => .setEsp s _

theorem execLeave_lawful (hs : s.Legal) (w : Width) : Lawful (execLeave w s) :=
  plain_lawful hs <| .bind (.modify fun s => .setEsp s _) fun _ => .bind (pop_tame w) fun _ => writeReg_tame ..

theorem execBound_lawful (hs : s.Legal) (w : Width) (r : Reg) (m : MemRef) : Lawful (execBound w r m s) :=
  plain_lawful hs <| .bind (memRead_tame ..) fun _ => .bind (memRead_tame ..) fun _ => .check (.raise _ _)

/-- A far transfer is one by paragraphs or one of protected mode (R601, R602). -/
theorem prot_of_not_paragraphs (h : ¬s.paragraphs = true) : s.mode.Prot := by
  simp only [State.paragraphs, Bool.or_eq_true, Bool.not_eq_true', not_or, Bool.not_eq_false, Bool.not_eq_true] at h
  exact ⟨h.1, h.2⟩

theorem execJmpFar_lawful (hs : s.Legal) (t : FarForm) : Lawful (execJmpFar t s) := by
  unfold execJmpFar
  by_cases hp : s.paragraphs = true
  · simp only [hp, if_true]
    exact instr_lawful hs <| .bind (farForm_tame t) fun _ => .bind (checkTargetHere_tame _) fun _ =>
      .bind (realFar_tame ..) fun _ => .pure _
  · simp only [hp]
    exact instr_lawful_of hs (prot_of_not_paragraphs hp) <| .step (farForm_tame t) fun _ => jmpProt_moves ..

theorem execCallFar_lawful (hs : s.Legal) (t : FarForm) : Lawful (execCallFar t s) := by
  unfold execCallFar
  by_cases hp : s.paragraphs = true
  · simp only [hp, if_true]
    exact instr_lawful hs <| .bind (farForm_tame t) fun _ => .bind (stackRoom_tame _) fun _ =>
      .bind (checkTargetHere_tame _) fun _ => .bind (pushReturn_tame ..) fun _ => .bind (realFar_tame ..) fun _ => .pure _
  · simp only [hp]
    exact instr_lawful_of hs (prot_of_not_paragraphs hp) <| .step (farForm_tame t) fun _ => callProt_moves ..

theorem execRetFar_lawful (hs : s.Legal) (w : Width) (n : Option Word) : Lawful (execRetFar w n s) := by
  unfold execRetFar
  by_cases hp : s.paragraphs = true
  · simp only [hp, if_true]
    exact instr_lawful hs <| .bind (retReal_tame ..) fun _ => .pure _
  · simp only [hp]
    exact instr_lawful_of hs (prot_of_not_paragraphs hp) <| .bind (retProt_moves ..) fun _ => (Tame.pure _).moves

theorem execIntN_lawful (hs : s.Legal) (n : Byte) : Lawful (execIntN n s) :=
  instr_lawful_of (φ := AnyMode) hs trivial <| .step checkV86Iopl_tame fun _ => softInt_moves n

theorem softInt_lawful (hs : s.Legal) (v : Byte) : Lawful (instr (softInt v) s) :=
  instr_lawful_of (φ := AnyMode) hs trivial (softInt_moves v)

theorem execInto_lawful (hs : s.Legal) : Lawful (execInto s) := by
  unfold execInto
  split
  · exact softInt_lawful hs 4
  · exact instr_lawful hs (.pure _)

theorem ireturn_lawful (hs : s.Legal) (w : Width) : Lawful (instr (ireturn w) s) :=
  instr_lawful_of (φ := AnyMode) hs trivial (ireturn_moves w)

theorem execInp_lawful (hs : s.Legal) (f : IoForm) : Lawful (execInp f s) :=
  plain_lawful hs <| .bind (checkIo_tame ..) fun _ => .bind (ioRead_tame ..) fun _ => writeReg_tame ..

theorem execOut_lawful (hs : s.Legal) (f : IoForm) : Lawful (execOut f s) :=
  plain_lawful hs <| .bind (checkIo_tame ..) fun _ => ioWrite_tame ..

theorem execCli_lawful (hs : s.Legal) : Lawful (execCli s) :=
  plain_lawful hs <| .ite (putFlag_tame _ (by decide)) (.raise _ _)

theorem execSti_lawful (hs : s.Legal) : Lawful (execSti s) :=
  plain_lawful hs <| .ite
    (.modify fun t => (State.Tame.setFlag t (f := .iflag) true (by decide)).trans (.same rfl)) (.raise _ _)

theorem execSahf_lawful (hs : s.Legal) : Lawful (execSahf s) :=
  plain_lawful hs <| .modify fun t => .putFlags t _ (by decide) (by decide)

theorem execHlt_lawful (hs : s.Legal) : Lawful (execHlt s) :=
  plain_lawful hs <| .bind checkCpl0_tame fun _ => .modify fun _ => .same rfl

theorem execWait_lawful (hs : s.Legal) : Lawful (execWait s) :=
  instr_lawful hs <| .bind (.check (.raise _ _)) fun _ => .ite (.pure _) <| .bind (.check (.raise _ _)) fun _ => .pure _

theorem execEsc_lawful (hs : s.Legal) (w asz : Width) (op reg : BitVec 3) (rm : Rm) : Lawful (execEsc w asz op reg rm s) :=
  instr_lawful hs <| .bind (.check (.raise _ _)) fun _ => .bind (.check (.raise _ _)) fun _ => .ite (.pure _) <|
    .bind (.check (coprocExec_tame ..)) fun _ => .pure _

theorem execLgdt_lawful (hs : s.Legal) (w : Width) (m : MemRef) : Lawful (execLgdt w m s) :=
  plain_lawful hs <| .bind checkCpl0_tame fun _ => .bind (readTable_tame w m) fun _ => .modify fun _ => .same rfl

theorem execLidt_lawful (hs : s.Legal) (w : Width) (m : MemRef) : Lawful (execLidt w m s) :=
  plain_lawful hs <| .bind checkCpl0_tame fun _ => .bind (readTable_tame w m) fun _ => .modify fun _ => .same rfl

theorem execLldt_lawful (hs : s.Legal) (rm : Rm) : Lawful (execLldt rm s) :=
  plain_lawful hs <| .bind checkProt_tame fun _ => .bind checkCpl0_tame fun _ => .bind (readRm_tame ..) fun _ => loadLDTR_tame ..

theorem execLtr_lawful (hs : s.Legal) (rm : Rm) : Lawful (execLtr rm s) :=
  plain_lawful hs <| .bind checkProt_tame fun _ => .bind checkCpl0_tame fun _ => .bind (readRm_tame ..) fun _ => loadTR_tame _

theorem execSldt_lawful (hs : s.Legal) (rm : Rm) : Lawful (execSldt rm s) :=
  plain_lawful hs <| .bind checkProt_tame fun _ => writeRm_tame ..

theorem execStr_lawful (hs : s.Legal) (rm : Rm) : Lawful (execStr rm s) :=
  plain_lawful hs <| .bind checkProt_tame fun _ => writeRm_tame ..

theorem execLmsw_lawful (hs : s.Legal) (rm : Rm) : Lawful (execLmsw rm s) :=
  plain_lawful_of (ψ := AnyMode) hs <| .bind checkCpl0_moves fun _ => .step (readRm_tame ..) fun v =>
    .modify fun _ ht hk => ⟨(mswLoaded_legal ht hk v).same rfl, trivial⟩

theorem execSmsw_lawful (hs : s.Legal) (rm : Rm) : Lawful (execSmsw rm s) :=
  plain_lawful hs <| .bind mswImage_tame fun _ => writeRm_tame ..

theorem execClts_lawful (hs : s.Legal) : Lawful (execClts s) :=
  plain_lawful hs <| .bind checkCpl0_tame fun _ => .modify fun s => setTs_tame s false

theorem execLar_lawful (hs : s.Legal) (w : Width) (r : Reg) (rm : Rm) : Lawful (execLar w r rm s) :=
  plain_lawful hs <| .bind checkProt_tame fun _ => .bind (readRm_tame ..) fun _ => probeInto_tame _ _ _ _ larValue_tame

theorem execLsl_lawful (hs : s.Legal) (w : Width) (r : Reg) (rm : Rm) : Lawful (execLsl w r rm s) :=
  plain_lawful hs <| .bind checkProt_tame fun _ => .bind (readRm_tame ..) fun _ => probeInto_tame _ _ _ _ fun _ => .pure _

theorem execVerr_lawful (hs : s.Legal) (rm : Rm) : Lawful (execVerr rm s) :=
  plain_lawful hs <| .bind checkProt_tame fun _ => .bind (readRm_tame ..) fun _ => .bind (probe_tame ..) fun _ =>
    putFlag_tame _ (by decide)

theorem execVerw_lawful (hs : s.Legal) (rm : Rm) : Lawful (execVerw rm s) :=
  plain_lawful hs <| .bind checkProt_tame fun _ => .bind (readRm_tame ..) fun _ => .bind (probe_tame ..) fun _ =>
    putFlag_tame _ (by decide)

theorem execArpl_lawful (hs : s.Legal) (rm : Rm) (r : Reg) : Lawful (execArpl rm r s) := by
  refine plain_lawful hs <| .bind checkProt_tame fun _ => .bind (readReg_tame ..) fun _ => ?_
  cases rm with
  | reg d => exact arplReg_tame ..
  | mem m => exact arplMem_tame ..

theorem execXlat_lawful (hs : s.Legal) (a : StrAttr) : Lawful (execXlat a s) :=
  plain_lawful hs <| .bind (memRead_tame ..) fun _ => writeReg_tame ..

theorem undefined_lawful (hs : s.Legal) : Lawful (undefined s) := instr_lawful hs (.raise _ _)

/-- What stands behind REP, REPNE or LOCK, or #UD. -/
theorem ite_undefined_lawful (hs : s.Legal) {o : Host.Outcome State Fault Refusal} (h : Lawful o) (c : Prop) [Decidable c] :
    Lawful (if c then o else undefined s) := by
  split
  · exact h
  · exact undefined_lawful hs

end Sys2Proof.Machine
end

section
/-! SUPPORT. Every instruction: `runUnder`, arm by arm, and `exec`. -/

namespace Sys2Proof.Machine

variable {s t : State}

/-- Every instruction, also behind lead bytes. -/
theorem runUnder_lawful (hs : s.Legal) : ∀ i : Instr, Lawful (runUnder i s)
  | .add f => plain_lawful hs (aluWrite_tame (fun a b => addF_tame a b _) f)
  | .or f => plain_lawful hs (aluWrite_tame (fun _ _ => logicF_tame _) f)
  | .adc f => plain_lawful hs (aluWrite_tame (fun a b => addF_tame a b _) f)
  | .sbb f => plain_lawful hs (aluWrite_tame (fun a b => subF_tame a b _) f)
  | .and f => plain_lawful hs (aluWrite_tame (fun _ _ => logicF_tame _) f)
  | .sub f => plain_lawful hs (aluWrite_tame (fun a b => subF_tame a b _) f)
  | .xor f => plain_lawful hs (aluWrite_tame (fun _ _ => logicF_tame _) f)
  | .cmp f => plain_lawful hs (aluRead_tame (fun a b => subF_tame a b _) f)
  | .inc f => plain_lawful hs (incForm_tame (fun a => keepCF_tame (addF_tame a _ _)) f)
  | .dec f => plain_lawful hs (incForm_tame (fun a => keepCF_tame (subF_tame a _ _)) f)
  | .not _ rm => plain_lawful hs (updateRm_tame rm fun _ => .pure _)
  | .neg _ rm => plain_lawful hs (updateRm_tame rm fun _ => subF_tame ..)
  | .mul w rm => execMul_lawful hs w rm
  | .imul f => plain_lawful hs (imulForm_tame f)
  | .div w rm => execDiv_lawful hs w rm
  | .idiv w rm => execIdiv_lawful hs w rm
  | .daa => plain_lawful hs (decimalAdjust_tame _)
  | .das => plain_lawful hs (decimalAdjust_tame _)
  | .aaa => plain_lawful hs (asciiAdjust_tame _)
  | .aas => plain_lawful hs (asciiAdjust_tame _)
  | .aam base => execAam_lawful hs base
  | .aad base => execAad_lawful hs base
  | .test f => plain_lawful hs (testForm_tame f)
  | .rol f => plain_lawful hs (shiftForm_tame _ f)
  | .ror f => plain_lawful hs (shiftForm_tame _ f)
  | .rcl f => plain_lawful hs (shiftForm_tame _ f)
  | .rcr f => plain_lawful hs (shiftForm_tame _ f)
  | .shl f => plain_lawful hs (shiftForm_tame _ f)
  | .shr f => plain_lawful hs (shiftForm_tame _ f)
  | .sar f => plain_lawful hs (shiftForm_tame _ f)
  | .shld f => plain_lawful hs (dshiftForm_tame (fun k x _ => dshiftF_tame k x _ _) f)
  | .shrd f => plain_lawful hs (dshiftForm_tame (fun k x _ => dshiftF_tame k x _ _) f)
  | .bt f => plain_lawful hs (.bind (bitRead_tame f) fun _ => bitFlags_tame _)
  | .bts f => plain_lawful hs (bitUpdate_tame _ f)
  | .btr f => plain_lawful hs (bitUpdate_tame _ f)
  | .btc f => plain_lawful hs (bitUpdate_tame _ f)
  | .bsf w r rm => plain_lawful hs (bitScan_tame _ w r rm)
  | .bsr w r rm => plain_lawful hs (bitScan_tame _ w r rm)
  | .seto rm | .setno rm | .setb rm | .setae rm | .sete rm | .setne rm | .setbe rm | .seta rm
  | .sets rm | .setns rm | .setp rm | .setnp rm | .setl rm | .setge rm | .setle rm | .setg rm =>
    plain_lawful hs (setByte_tame rm _)
  | .mov f => plain_lawful hs (movForm_tame f)
  | .movFromSreg _ _ => plain_lawful hs (writeRm_tame ..)
  | .movToSreg sr rm => execMovToSreg_lawful hs sr rm
  | .movFromCr n r => execMovFromCr_lawful hs n r
  | .movToCr n r => execMovToCr_lawful hs n r
  | .movFromDr n r => execMovFromDr_lawful hs n r
  | .movToDr n r => execMovToDr_lawful hs n r
  | .movFromTr n r => execMovFromTr_lawful hs n r
  | .movToTr n r => execMovToTr_lawful hs n r
  | .xchg f => plain_lawful hs (xchgForm_tame f)
  | .push f => plain_lawful hs (pushForm_tame f)
  | .pop f => plain_lawful hs (popForm_tame f)
  | .pusha | .pushad => plain_lawful hs (pushAll_tame _)
  | .popa | .popad => plain_lawful hs (popAll_tame _)
  | .cbw | .cwde | .cwd | .cdq => plain_lawful hs (writeReg_tame ..)
  | .movsx _ _ _ _ | .movzx _ _ _ _ => plain_lawful hs (.bind (readRm_tame ..) fun _ => writeReg_tame ..)
  | .lea _ _ _ => plain_lawful hs (writeReg_tame ..)
  | .les w r m | .lds w r m | .lss w r m | .lfs w r m | .lgs w r m => plain_lawful hs (loadFar_tame _ w r m)
  | .xlat x => execXlat_lawful hs x
  | .jo t | .jno t | .jb t | .jae t | .je t | .jne t | .jbe t | .ja t
  | .js t | .jns t | .jp t | .jnp t | .jl t | .jge t | .jle t | .jg t => instr_lawful hs (jumpIf_tame _ t)
  | .jcxz _ _ _ => instr_lawful hs (jumpIf_tame ..)
  | .loop w asz d | .loope w asz d | .loopne w asz d => instr_lawful hs (loopIf_tame _ w asz d)
  | .jmp t => execJmp_lawful hs t
  | .jmpFar t => execJmpFar_lawful hs t
  | .call t => execCall_lawful hs t
  | .callFar t => execCallFar_lawful hs t
  | .ret w n => execRet_lawful hs w n
  | .retFar w n => execRetFar_lawful hs w n
  | .enter w size level => execEnter_lawful hs w size level
  | .leave w => execLeave_lawful hs w
  | .bound w r m => execBound_lawful hs w r m
  | .intN n => execIntN_lawful hs n
  | .int3 => softInt_lawful hs 3
  | .into => execInto_lawful hs
  | .iret | .iretd => ireturn_lawful hs _
  | .movsb x | .movsw x | .movsd x => instr_lawful hs (strStep_tame x _ (movsOnce_tame _ x))
  | .cmpsb x | .cmpsw x | .cmpsd x => instr_lawful hs (strStep_tame x _ (cmpsOnce_tame _ x))
  | .stosb x | .stosw x | .stosd x => instr_lawful hs (strStep_tame x _ (stosOnce_tame _ x))
  | .lodsb x | .lodsw x | .lodsd x => instr_lawful hs (strStep_tame x _ (lodsOnce_tame _ x))
  | .scasb x | .scasw x | .scasd x => instr_lawful hs (strStep_tame x _ (scasOnce_tame _ x))
  | .insb x | .insw x | .insd x => instr_lawful hs (strStep_tame x _ (insOnce_tame _ x))
  | .outsb x | .outsw x | .outsd x => instr_lawful hs (strStep_tame x _ (outsOnce_tame _ x))
  | .inp f => execInp_lawful hs f
  | .out f => execOut_lawful hs f
  | .stc | .clc | .cmc | .std | .cld => plain_lawful hs (putFlag_tame _ (by decide))
  | .cli => execCli_lawful hs
  | .sti => execSti_lawful hs
  | .lahf => plain_lawful hs (writeReg_tame ..)
  | .sahf => execSahf_lawful hs
  | .popf | .popfd => instr_lawful hs (popFlags_tame _)
  | .pushf | .pushfd => plain_lawful hs (pushFlags_tame _)
  | .nop => plain_lawful hs (.pure _)
  | .hlt => execHlt_lawful hs
  | .wait => execWait_lawful hs
  | .esc w asz op reg rm => execEsc_lawful hs w asz op reg rm
  | .lgdt w m => execLgdt_lawful hs w m
  | .lidt w m => execLidt_lawful hs w m
  | .sgdt w m | .sidt w m => plain_lawful hs (storeTable_tame w m _)
  | .lldt rm => execLldt_lawful hs rm
  | .sldt rm => execSldt_lawful hs rm
  | .ltr rm => execLtr_lawful hs rm
  | .str rm => execStr_lawful hs rm
  | .lmsw rm => execLmsw_lawful hs rm
  | .smsw rm => execSmsw_lawful hs rm
  | .clts => execClts_lawful hs
  | .lar w r rm => execLar_lawful hs w r rm
  | .lsl w r rm => execLsl_lawful hs w r rm
  | .verr rm => execVerr_lawful hs rm
  | .verw rm => execVerw_lawful hs rm
  | .arpl rm r => execArpl_lawful hs rm r
  | .undef _ => undefined_lawful hs
  | .rep i | .repne i => ite_undefined_lawful hs (runUnder_lawful hs i) _
  | .lock i => ite_undefined_lawful hs (runUnder_lawful hs i) _
  | .segES i | .segCS i | .segSS i | .segDS i | .segFS i | .segGS i | .opsize i | .addrsize i => runUnder_lawful hs i

/-- An instruction means alone what it means behind a lead byte that changes nothing. -/
theorem exec_eq_runUnder (i : Instr) (s : State) : exec i s = runUnder i s := by cases i <;> rfl

theorem exec_lawful (hs : s.Legal) (i : Instr) : Lawful (exec i s) := exec_eq_runUnder i s ▸ runUnder_lawful hs i

end Sys2Proof.Machine
end

section
/-! O57 and O58: the fetch, the boundary, RESET, and the step put together. -/

namespace Sys2Proof.Machine

variable {s t : State}

/-! ### The fetch -/

theorem fetchByte_tame (i : Nat) : Tame (fetchByte i) :=
  .get fun _ => .bind (.check (.raise _ _)) fun _ => .bind (linRead_tame ..) fun _ => .pure _

theorem fetchBytes_tame : ∀ n i : Nat, Tame (fetchBytes n i)
  | 0, _ => .pure _
  | n + 1, i => .bind (fetchByte_tame i) fun _ => .bind (fetchBytes_tame n (i + 1)) fun _ => .pure _

/-- The state of an instruction that runs is legal, and that after a fetch that stops meets the invariant. -/
def Fetched.Lawful : Fetched → Prop
  | .run _ t => t.Legal
  | .stop t => t.Inv

theorem fetchFault_lawful (hs : s.Legal) (n : Nat) (vec : Byte) (code : Option Word) :
    (fetchFault n (raise vec code) s).Lawful := by
  unfold fetchFault
  have hm : Tame (fetchBytes n 0 >>= fun _ => (raise vec code : M Done)) :=
    .bind (fetchBytes_tame n 0) fun _ => .raise vec code
  split
  next e =>
    obtain ⟨_, _, _, e⟩ := M_bind_ok_inv e
    cases e
  next e => exact abandon_inv hs _ ((hm.error e).legal hs)

theorem fetchBad_lawful (hs : s.Legal) (e : DecErr) : (fetchBad s e).Lawful := by
  unfold fetchBad
  dsimp only
  split
  · exact fetchFault_lawful hs ..
  · split <;> exact fetchFault_lawful hs ..

theorem fetch_lawful (hs : s.Legal) : (fetch s).Lawful := by
  unfold fetch
  split
  · split
    next e => exact ((fetchBytes_tame _ 0).ok e |>.legal hs).same rfl
    next e => exact abandon_inv hs _ ((fetchBytes_tame _ 0).error e |>.legal hs)
  · exact fetchBad_lawful hs _

theorem runOne_lawful (hs : s.Legal) : Lawful (runOne s) := by
  have hf := fetch_lawful hs
  unfold runOne
  cases e : fetch s with
  | run i u => exact exec_lawful (show u.Legal by rwa [e] at hf) i
  | stop u =>
    rintro _ ⟨⟩
    rwa [e] at hf

/-! ### The boundary -/

theorem takeNmi_inv (hs : s.Legal) : (takeNmi s).Inv := takeEvent_inv _ (hs.same rfl)

theorem takeIntr_inv (hs : s.Legal) : (takeIntr s).Inv := takeEvent_inv _ (hs.same rfl)

/-- The bits that join DR6 are bits of DR6 (R67, R908). -/
theorem takeDebugTrap_inv (hs : s.Legal) : (takeDebugTrap s).Inv :=
  takeEvent_inv _ ((State.Tame.setDr6 s fun r => or_outside r.dr6 r.pend).legal hs)

/-- B0 to B3 are bits of DR6 (R54, R905). -/
theorem takeInstrBreak_inv (hs : s.Legal) : (takeInstrBreak s).Inv := by
  have hits : ∀ n ∈ s.instrHits, bitOf dr6Mask n = true := fun n hn => dr6Mask_b n (List.mem_filter.1 hn).1
  exact takeEvent_inv _ ((State.Tame.setDr6 s fun r => foldl_setBit_outside hits (or_outside r.dr6 r.pend)).legal hs)

/-- Whichever event is taken (R880). -/
theorem boundary_inv (hs : s.Legal) (h : s.boundary = some t) : t.Inv := by
  unfold State.boundary at h
  split at h
  · cases h; exact takeDebugTrap_inv hs
  · split at h
    · cases h; exact takeInstrBreak_inv hs
    · split at h
      · cases h; exact takeNmi_inv hs
      · split at h
        · cases h; exact takeIntr_inv hs
        · cases h

theorem sampleNmi_inv (hs : s.Inv) : s.sampleNmi.Inv := by
  obtain ⟨hl, he⟩ := inv_iff.1 hs
  unfold State.sampleNmi
  split
  · exact inv_iff.2 ⟨hl.same rfl, he⟩
  · exact hs

/-! ### RESET -/

theorem reset_legal : State.reset.Legal :=
  ⟨⟨by decide, by decide, by decide, by decide, by decide, by decide, by decide⟩, ⟨by decide, by decide⟩,
    ⟨by decide, by decide, by decide⟩⟩

/-- The first instruction after RESET lies in 0 to FFFFH (R70, R118). -/
theorem reset_eip : State.reset.eip.toNat ≤ 0xFFFF := by decide

/-- ET follows the coprocessor (R991), and is a bit of CR0. -/
theorem resetKeeping_cr0 (s : State) : s.resetKeeping.cr0 = 0x10 ∨ s.resetKeeping.cr0 = 0 := by
  unfold State.resetKeeping
  by_cases h : s.coproc = .i387
  · exact .inl (if_pos h)
  · exact .inr (if_neg h)

/-- RESET ends in real-address mode at CPL 0 (R70). -/
theorem resetKeeping_mode (s : State) : s.resetKeeping.mode = State.reset.mode := by
  unfold State.mode State.pe State.pg
  obtain h | h := resetKeeping_cr0 s <;> rw [h] <;> rfl

theorem resetKeeping_legal (hs : s.Legal) : s.resetKeeping.Legal := by
  obtain ⟨⟨hf, -, h3, h6, h7, hp, hl⟩, ⟨-, ht⟩, hm⟩ := reset_legal
  refine ⟨⟨hf, ?_, h3, h6, h7, hp, hl⟩, ⟨hs.shaped.mem, ht⟩, resetKeeping_mode s ▸ hm⟩
  obtain h | h := resetKeeping_cr0 s <;> rw [h] <;> decide

theorem resetKeeping_inv (hs : s.Legal) : s.resetKeeping.Inv := inv_iff.2 ⟨resetKeeping_legal hs, fun _ => reset_eip⟩

/-! ### The step -/

/-- An event at the boundary, or else what is done without one. -/
theorem boundary_lawful {o : Host.Outcome State Fault Refusal} (hs : s.Legal) (ho : Lawful o) :
    Lawful (match s.boundary with | some t => .next t | none => o) := by
  cases h : s.boundary with
  | some u =>
    rintro _ ⟨⟩
    exact boundary_inv hs h
  | none => exact ho

theorem next_lawful (h : t.Inv) : Lawful (.next t) := by
  rintro _ ⟨⟩
  exact h

theorem step_lawful (hs : s.Inv) : Lawful (step s) := by
  have hn := sampleNmi_inv hs
  have hl := (inv_iff.1 hn).1
  unfold step
  split
  · exact next_lawful (resetKeeping_inv (inv_iff.1 hs).1)
  · dsimp only
    split
    · split
      · exact next_lawful (takeNmi_inv hl)
      · exact next_lawful hn
    · exact boundary_lawful hl (next_lawful hn)
    · exact boundary_lawful hl (runOne_lawful hl)

/-- Settles O57: the constants of RESET, memory being in canonical form before it. -/
theorem resetInv : Obligations.ResetInv := 
  ⟨inv_iff.2 ⟨reset_legal, fun _ => reset_eip⟩, fun _ hs => resetKeeping_inv (inv_iff.1 hs).1⟩

/-- Settles O58: every computation of the model either is tame (the mode stays and the reserved bits keep their constants) or
moves between modes that are legal, and a step ends by cutting EIP to the code segment that it leaves. -/
theorem stepKeepsInv : Obligations.StepKeepsInv := fun _ t hs h => step_lawful hs t h

end Sys2Proof.Machine
end

section
/-! SUPPORT. Selectors and descriptors in numbers: the fields of R131 and R133 to R139, where a descriptor lies (R143),
how it is read and how its access byte is rewritten (R144). -/

namespace Sys2Proof.Machine

variable {s t u : State} {sel : Word} {d : Desc} {a : Dword}

/-! ### Bit fields as numbers -/

/-- A field of a doubleword is a quotient by a power of two, cut to its length. -/
theorem field_toNat {n : Nat} (v : BitVec n) (i k : Nat) : (v.extractLsb' i k).toNat = v.toNat / 2 ^ i % 2 ^ k := by
  rw [BitVec.extractLsb'_toNat, Nat.shiftRight_eq_div_pow]

/-- Two fields put together: the high one counts multiples of the size of the low one. -/
theorem append_toNat {m n : Nat} (x : BitVec m) (y : BitVec n) : (x ++ y).toNat = x.toNat * 2 ^ n + y.toNat := by
  rw [BitVec.toNat_append, ← Nat.shiftLeft_add_eq_or_of_lt y.isLt, Nat.shiftLeft_eq]

/-- A bit of a field is a bit of the whole. -/
theorem field_bit {n : Nat} (v : BitVec n) (i : Nat) {j k : Nat} (h : j < k) :
    (v.extractLsb' i k).getLsbD j = v.getLsbD (i + j) := by
  rw [BitVec.getLsbD_extractLsb', decide_eq_true h, Bool.true_and]

/-! ### Selectors (R131, R132) -/

theorem selRpl_toNat (sel : Word) : (selRpl sel).toNat = sel.toNat % 4 := by
  rw [selRpl, field_toNat]
  omega

/-- A mask of the bits from `k` on rounds down to a multiple of `2 ^ k`. -/
theorem maskHigh_toNat {n k : Nat} {mask : BitVec n} (hm : ∀ i < n, mask.getLsbD i = decide (k ≤ i)) (v : BitVec n) :
    (v &&& mask).toNat = v.toNat / 2 ^ k * 2 ^ k := by
  apply Nat.eq_of_testBit_eq
  intro i
  rw [Nat.testBit_mul_two_pow, Nat.testBit_div_two_pow, BitVec.testBit_toNat, BitVec.testBit_toNat, BitVec.getLsbD_and]
  by_cases hi : i < n
  · by_cases hk : k ≤ i <;> simp [hm i hi, hk]
  · rw [BitVec.getLsbD_of_ge v i (by omega), BitVec.getLsbD_of_ge v (i - k + k) (by omega), Bool.false_and, Bool.and_false]

theorem selIndex_toNat (sel : Word) : (sel &&& 0xFFF8).toNat = sel.toNat / 8 * 8 :=
  maskHigh_toNat (k := 3) (by decide) sel

theorem nullSel_iff (sel : Word) : nullSel sel = true ↔ sel.toNat < 4 := by
  have h : (sel &&& 0xFFFC).toNat = sel.toNat / 4 * 4 := maskHigh_toNat (k := 2) (by decide) sel
  have hz : (0 : Word).toNat = 0 := rfl
  rw [nullSel, beq_iff_eq, ← BitVec.toNat_inj, h, hz]
  omega

/-! ### Where a descriptor lies (R143) -/

theorem descAddr_eq_some_iff : s.descAddr sel = some a ↔
    (sel.getLsbD 2 = false ∧ sel.toNat / 8 * 8 + 7 ≤ s.gdtr.limit.toNat ∧
      a = s.gdtr.base + BitVec.ofNat 32 (sel.toNat / 8 * 8)) ∨
    (sel.getLsbD 2 = true ∧ s.ldtr.valid = true ∧ sel.toNat / 8 * 8 + 7 ≤ s.ldtr.limit.toNat ∧
      a = s.ldtr.base + BitVec.ofNat 32 (sel.toNat / 8 * 8)) := by
  have hi : (sel &&& 0xFFF8).setWidth 32 = BitVec.ofNat 32 (sel.toNat / 8 * 8) := by
    rw [← selIndex_toNat, BitVec.ofNat_toNat]
  unfold State.descAddr State.descTable selTi
  rw [selIndex_toNat, hi]
  cases sel.getLsbD 2
  · simp [eq_comm (b := a)]
  · cases s.ldtr.valid
    · simp
    · simp [eq_comm (b := a)]

/-! ### Reading and rewriting a descriptor (R143, R144) -/

theorem fetchDesc_outside (h : s.descAddr sel = none) : fetchDesc sel s = .ok none s := by
  unfold fetchDesc
  rw [M_get_bind, h]
  rfl

/-- A descriptor is two doublewords, the low one first. -/
theorem readDesc_run {x y : Dword} (h : SysGet s a 4 x.toNat t) (h' : SysGet t (a + 4) 4 y.toNat u) :
    readDesc a s = .ok ⟨x, y⟩ u := by
  unfold readDesc
  rw [M_bind_ok (sysRead32_run h), M_bind_ok (sysRead32_run h'), BitVec.ofNat_toNat, BitVec.ofNat_toNat,
    BitVec.setWidth_eq, BitVec.setWidth_eq]
  rfl

theorem fetchDesc_run (h : s.descAddr sel = some a) (hr : readDesc a s = .ok d t) : fetchDesc sel s = .ok (some d) t := by
  unfold fetchDesc
  rw [M_get_bind, h]
  exact M_bind_ok hr

/-- The access byte is stored with its new type and the upper half as it was fetched. -/
theorem setDescType_run {typ : BitVec 4} (ha : s.descAddr sel = some a)
    (h : SysPut s (a + 5) 1 (d.d1.extractLsb' 12 4 ++ typ).toNat t) : setDescType sel d typ s = .ok () t := by
  unfold setDescType
  rw [M_get_bind, ha]
  exact linWrite_run h

theorem accessByte_toNat (d1 : Dword) (typ : BitVec 4) :
    (d1.extractLsb' 12 4 ++ typ).toNat = d1.toNat / 4096 % 16 * 16 + typ.toNat :=
  calc (d1.extractLsb' 12 4 ++ typ).toNat
    _ = (d1.extractLsb' 12 4).toNat * 16 + typ.toNat := append_toNat ..
    _ = d1.toNat / 4096 % 16 * 16 + typ.toNat := congrArg (· * 16 + typ.toNat) (field_toNat d1 12 4)

/-- The type bits of a descriptor with bit 0 set are those of its access byte. -/
theorem accessByte_accessed (d1 : Dword) :
    d1.extractLsb' 12 4 ++ (d1.extractLsb' 8 4 ||| 1) = d1.extractLsb' 8 8 ||| (1 : BitVec (4 + 4)) := by
  have one : (1 : BitVec (4 + 4)) = (0 : BitVec 4) ++ (1 : BitVec 4) := rfl
  have whole : d1.extractLsb' 12 4 ++ d1.extractLsb' 8 4 = d1.extractLsb' 8 (4 + 4) :=
    BitVec.extractLsb'_append_extractLsb'_eq_extractLsb' (by rfl)
  rw [one, ← whole, BitVec.or_append]
  exact congrArg (· ++ _) BitVec.or_zero.symm

theorem Desc.typ_accessed (d : Desc) : d.typ.getLsbD 0 = d.d1.getLsbD 8 := field_bit d.d1 8 (by decide)

theorem setAccessed_accessed (h : d.d1.getLsbD 8 = true) : setAccessed sel d s = .ok () s := by
  unfold setAccessed
  rw [d.typ_accessed, if_pos h]
  rfl

theorem setAccessed_run (ha : s.descAddr sel = some a) (h : d.d1.getLsbD 8 = false)
    (hp : SysPut s (a + 5) 1 (d.d1.extractLsb' 8 8 ||| 1).toNat t) : setAccessed sel d s = .ok () t := by
  unfold setAccessed
  rw [d.typ_accessed, h, if_neg Bool.false_ne_true]
  refine setDescType_run ha ?_
  rw [Desc.typ, accessByte_accessed]
  exact hp

/-! ### The fields of a descriptor (R133 to R139) -/

theorem Desc.base_toNat (d : Desc) : d.base.toNat =
    d.d0.toNat / 65536 + 65536 * (d.d1.toNat % 256) + 16777216 * (d.d1.toNat / 16777216) := by
  have h0 := d.d0.isLt
  have h1 := d.d1.isLt
  rw [Desc.base, append_toNat, append_toNat, field_toNat, field_toNat, field_toNat]
  omega

theorem Desc.rawLimit_toNat (d : Desc) :
    d.rawLimit.toNat = d.d0.toNat % 65536 + 65536 * (d.d1.toNat / 65536 % 16) := by
  rw [Desc.rawLimit, append_toNat, field_toNat, field_toNat]
  omega

/-- A limit in pages ends with the last byte of its last page (R136). -/
theorem scaled_toNat (v : BitVec 20) : ((v.setWidth 32 <<< 12) ||| (0xFFF : Dword)).toNat = 4096 * v.toNat + 4095 := by
  have h := v.isLt
  have hv : (v.setWidth 32 <<< 12).toNat = v.toNat <<< 12 := by
    rw [BitVec.toNat_shiftLeft, BitVec.toNat_setWidth, Nat.shiftLeft_eq]
    omega
  have hf : (0xFFF : Dword).toNat = 4095 := rfl
  rw [BitVec.toNat_or, hv, hf, ← Nat.shiftLeft_add_eq_or_of_lt (by decide), Nat.shiftLeft_eq]
  omega

theorem Desc.limit_toNat (d : Desc) : d.limit.toNat =
    if d.d1.getLsbD 23 then 4096 * d.rawLimit.toNat + 4095 else d.rawLimit.toNat := by
  have h := d.rawLimit.isLt
  unfold Desc.limit Desc.g
  split
  · exact scaled_toNat _
  · rw [BitVec.toNat_setWidth]
    omega

theorem Desc.dpl_toNat (d : Desc) : d.dpl.toNat = d.d1.toNat / 8192 % 4 := field_toNat ..

theorem Desc.typ_toNat (d : Desc) : d.typ.toNat = d.d1.toNat / 256 % 16 := field_toNat ..

theorem Desc.tss32_eq (d : Desc) : d.tss32 = d.d1.getLsbD 11 := field_bit d.d1 8 (by decide)

theorem Desc.isCode_eq (d : Desc) : d.isCode = (d.d1.getLsbD 12 && d.d1.getLsbD 11) := by
  rw [Desc.isCode, Desc.typ, field_bit d.d1 8 (by decide)]
  rfl

theorem Desc.isData_eq (d : Desc) : d.isData = (d.d1.getLsbD 12 && !d.d1.getLsbD 11) := by
  rw [Desc.isData, Desc.typ, field_bit d.d1 8 (by decide)]
  rfl

theorem Desc.conforming_eq (d : Desc) :
    d.conforming = (d.d1.getLsbD 12 && d.d1.getLsbD 11 && d.d1.getLsbD 10) := by
  rw [Desc.conforming, d.isCode_eq, Desc.typ, field_bit d.d1 8 (by decide)]

theorem Desc.writableData_eq (d : Desc) :
    d.writableData = (d.d1.getLsbD 12 && !d.d1.getLsbD 11 && d.d1.getLsbD 9) := by
  rw [Desc.writableData, d.isData_eq, Desc.typ, field_bit d.d1 8 (by decide)]

theorem Desc.readable_eq (d : Desc) :
    d.readable = (d.d1.getLsbD 12 && (!d.d1.getLsbD 11 || d.d1.getLsbD 9)) := by
  rw [Desc.readable, d.isData_eq, d.isCode_eq, Desc.typ, field_bit d.d1 8 (by decide)]
  cases d.d1.getLsbD 12 <;> cases d.d1.getLsbD 11 <;> rfl

theorem Desc.gateSel_toNat (d : Desc) : d.gateSel.toNat = d.d0.toNat / 65536 := by
  have h := d.d0.isLt
  rw [Desc.gateSel, field_toNat]
  omega

theorem Desc.gateOffset16_toNat (d : Desc) : (d.gateOffset false).toNat = d.d0.toNat % 65536 := by
  rw [Desc.gateOffset, if_neg (by decide), BitVec.toNat_setWidth, field_toNat]
  omega

theorem Desc.gateOffset32_toNat (d : Desc) :
    (d.gateOffset true).toNat = d.d0.toNat % 65536 + 65536 * (d.d1.toNat / 65536) := by
  have h := d.d1.isLt
  rw [Desc.gateOffset, if_pos rfl, append_toNat, field_toNat, field_toNat]
  omega

theorem Desc.gateCount_eq (d : Desc) : d.gateCount = d.d1.toNat % 32 := by
  rw [Desc.gateCount, field_toNat]
  omega

end Sys2Proof.Machine
end

section
/-! SUPPORT. Instructions that begin with a check of mode or privilege, loads of TR, and far pointers. -/

namespace Sys2Proof.Machine

variable {s t u : State} {sel : Word} {x : Exc}

/-! ### What reaching an operand leaves alone -/

theorem State.Touched.prot (h : s.Touched t) : t.prot = s.prot := by
  obtain ⟨_, _, _, _, _, _, rfl⟩ := h
  rfl

/-! ### Checks of mode and privilege (R167, R740) -/

theorem prot_pe (h : s.prot = true) : s.pe = true := by
  unfold State.prot at h
  rw [Bool.and_eq_true] at h
  exact h.1

/-- An instruction that begins with the check of R740 is undefined outside protected mode. -/
theorem plain_checkProt_error {m : Unit → M Unit} (hp : s.prot = false) :
    plain (checkProt >>= m) s = .next (abandon s (faultOf 6 none) s.begun) :=
  plain_error (M_bind_error (checkProt_error hp))

/-- An instruction that begins with the check of R167 raises #GP(0) at a CPL other than 0. -/
theorem plain_checkCpl0_error {m : Unit → M Unit} (hp : s.pe = true) (hc : s.cpl ≠ 0) :
    plain (checkCpl0 >>= m) s = .next (abandon s (faultOf 13 (some 0)) s.begun) :=
  plain_error (M_bind_error (checkCpl0_error hp hc))

/-- LLDT and LTR: in protected mode it is the second check that fails. -/
theorem plain_checkBoth_error {m : Unit → M Unit} (hp : s.prot = true) (hc : s.cpl ≠ 0) :
    plain (do checkProt; checkCpl0 >>= m) s = .next (abandon s (faultOf 13 (some 0)) s.begun) :=
  plain_error ((M_bind_ok (checkProt_run (s := s.begun) hp)).trans
    (M_bind_error (checkCpl0_error (s := s.begun) (prot_pe hp) hc)))

/-- LLDT and LTR: both checks pass, and the selector is loaded. -/
theorem checked_load {rm : Rm} {load : Word → M Unit} (hp : s.prot = true) (hc : s.cpl = 0)
    (h : RmIs s .w16 rm sel t) :
    (do checkProt; checkCpl0; let v ← readRm .w16 rm; load v : M Unit) s = load sel t := by
  rw [M_bind_ok (checkProt_run hp), M_bind_ok (checkCpl0_run (.inr hc)), M_bind_ok (readRm_run h)]

/-- SLDT and STR: the check passes, and the selector is stored. -/
theorem checked_store {rm : Rm} {put : Word → State} (v : Word) (hp : s.prot = true) (h : RmPut s .w16 rm put) :
    (do checkProt; writeRm .w16 rm v : M Unit) s = .ok () (put v) := by
  exact (M_bind_ok (checkProt_run hp)).trans (writeRm_run (w := .w16) v h)

/-! ### TR (R184) -/

theorem loadTR_null (hn : nullSel sel = true) : loadTR sel s = .error (faultOf 13 (some 0)) s := by
  unfold loadTR
  rw [hn]
  rfl

theorem loadTR_ti (hn : nullSel sel = false) (hi : selTi sel = true) :
    loadTR sel s = .error (faultOf 13 (some (selCode false sel))) s := by
  unfold loadTR
  rw [hn, when_false, M_pure_bind, hi]
  rfl

theorem loadTR_run {d : Desc} (hn : nullSel sel = false) (hi : selTi sel = false)
    (hd : fetchDesc sel s = .ok (some d) t) (hk : d.availTss = true) (hp : d.p = true)
    (hb : setDescType sel d (d.typ ||| 2) t = .ok () u) :
    loadTR sel s = .ok () { u with tr := { sel := sel, base := d.base, limit := d.limit, is386 := d.tss32 } } := by
  unfold loadTR
  rw [hn, when_false, M_pure_bind, hi, when_false, M_pure_bind, M_bind_ok (fetchDescOr_run hd), hk, Bool.not_true,
    when_false, M_pure_bind, hp, Bool.not_true, when_false, M_pure_bind, M_bind_ok hb]
  rfl

/-! ### LES, LDS, LSS, LFS and LGS (R421) -/

section
variable {sr : SReg} {w : Width} {r : Reg} {m : MemRef} {off : BitVec w.bits}

theorem loadFar_run (h : FarMem s w m sel off t) (hl : SregLoad t sr sel u) :
    loadFar sr w r m s = .ok () (u.setReg w r off) := by
  unfold loadFar
  exact (M_bind_ok (readFar_run h)).trans (M_bind_ok (loadSreg_run hl))

/-- Where the selector is refused the general register is not written. -/
theorem loadFar_refused (hp : s.prot = true) (h : FarMem s w m sel off t) (hl : SregRefused t sr sel x u) :
    loadFar sr w r m s = .error x u := by
  unfold loadFar
  exact (M_bind_ok (readFar_run h)).trans (M_bind_error (loadSreg_refused (h.touched.prot.trans hp) hl))

end

theorem inhibitFor_run (sr : SReg) (s : State) :
    inhibitFor sr s = .ok () (if sr = .ss then { s with inhibit := true } else s) := by
  unfold inhibitFor
  split <;> rfl

end Sys2Proof.Machine
end

section
/-! O44, O38 and O15: privileged instructions, the task registers, and the segment registers with their descriptors. -/

namespace Sys2Proof.Machine

/-! ### Privileged instructions -/

/-- Settles O44: every one of these instructions begins with the check that fails. -/
theorem privilegedInstructions : Obligations.PrivilegedInstructions := by
  unfold Obligations.PrivilegedInstructions
  simp only [List.forall_mem_cons, List.not_mem_nil, false_imp_iff, implies_true, and_true]
  refine ⟨fun s hp hc w m rm n r => ?_, fun s w r rm => ⟨fun hp hc => ?_, fun hp => ?_⟩⟩
  · have gp {m : Unit → M Unit} := plain_checkCpl0_error (m := m) hp hc
    exact ⟨gp, gp, gp, gp, gp, gp, gp, gp, gp, gp, gp⟩
  · exact ⟨plain_checkBoth_error hp hc, plain_checkBoth_error hp hc⟩
  · have ud {m : Unit → M Unit} := plain_checkProt_error (m := m) hp
    exact ⟨ud, ud, ud, ud, ud, ud, ud, ud, ud⟩

/-! ### LLDT, LTR, SLDT and STR -/

/-- Settles O38: the checks of mode and privilege pass, so that each instruction comes to its load or store. -/
theorem taskRegisterMoves : Obligations.TaskRegisterMoves := by
  refine ⟨fun s rm sel t hp hc h => ?_, fun s rm put hp h => ?_⟩
  · have run {load : Word → M Unit} := checked_load (load := load) (s := s.begun) hp hc h
    refine ⟨fun hn => ⟨?_, ?_⟩, fun hn hi => ⟨?_, ?_⟩, fun x u hn hi => ⟨fun hr => ?_, fun hr => ?_⟩,
      fun d u hn hi hd hp => ⟨fun hk => ?_, fun hk v hb => ?_⟩⟩
    · exact plain_ok (run.trans (loadLDTR_run (.null hn)))
    · exact plain_error (run.trans (loadTR_null hn))
    · exact plain_error (run.trans (loadLDTR_ti hn hi))
    · exact plain_error (run.trans (loadTR_ti hn hi))
    · exact plain_error (run.trans (loadLDTR_refused hn hi hr))
    · exact plain_error (run.trans (loadTR_refused hn hi hr))
    · exact plain_ok (run.trans (loadLDTR_run (.mk d u hn hi hd hk hp)))
    · exact plain_ok (run.trans (loadTR_run hn hi hd hk hp hb))
  · exact ⟨plain_ok (checked_store _ hp h), plain_ok (checked_store _ hp h)⟩

/-! ### Segment registers -/

theorem exec_movFromSreg {s : State} {rm : Rm} (sr : SReg) {put : Word → State} (h : RmPut s.begun .w16 rm put) :
    exec (.movFromSreg rm sr) s = .next (finish s .next (put (s.sreg sr).sel)) := plain_ok (writeRm_run _ h)

theorem exec_movToSreg {s t u : State} {rm : Rm} {sr : SReg} {sel : Word} (h : RmIs s.begun .w16 rm sel t)
    (hl : SregLoad t sr sel u) :
    exec (.movToSreg sr rm) s = .next (finish s .next (if sr = .ss then { u with inhibit := true } else u)) := by
  refine plain_ok ?_
  rw [M_bind_ok (readRm_run h), M_bind_ok (loadSreg_run hl), inhibitFor_run]

theorem exec_movToSreg_refused {s t u : State} {rm : Rm} {sr : SReg} {sel : Word} {x : Exc} (hp : s.prot = true)
    (h : RmIs s.begun .w16 rm sel t) (hl : SregRefused t sr sel x u) :
    exec (.movToSreg sr rm) s = .next (abandon s x u) := by
  refine plain_error ?_
  rw [M_bind_ok (readRm_run h)]
  exact M_bind_error (loadSreg_refused (h.touched.prot.trans hp) hl)

/-- LES, LDS, LSS, LFS and LGS are one operation, each with its segment register. -/
theorem exec_loadFar {p : (Width → Reg → MemRef → Instr) × SReg}
    (hp : p ∈ ([(.les, .es), (.lds, .ds), (.lss, .ss), (.lfs, .fs), (.lgs, .gs)] :
      List ((Width → Reg → MemRef → Instr) × SReg))) (w : Width) (r : Reg) (m : MemRef) (s : State) :
    exec (p.1 w r m) s = plain (loadFar p.2 w r m) s := by
  simp only [List.mem_cons, List.not_mem_nil, or_false] at hp
  obtain rfl | rfl | rfl | rfl | rfl := hp <;> rfl

/-- Settles O15: each instruction comes to its load or store; what a descriptor is follows field by field. -/
theorem segmentRegisterMoves : Obligations.SegmentRegisterMoves := by
  refine ⟨fun s rm sr put h => exec_movFromSreg sr h, fun s rm sr sel t u h hl => exec_movToSreg h hl,
    fun s w r m sel off t u h p hm => ⟨fun hl => ?_, fun x hp hl => ?_⟩,
    fun s rm sr sel t u x hp h hl => exec_movToSreg_refused hp h hl, fun s sel d typ a x y t u => ?_, fun d sel => ?_⟩
  · exact (exec_loadFar hm ..).trans (plain_ok (loadFar_run h hl))
  · exact (exec_loadFar hm ..).trans (plain_error (loadFar_refused hp h hl))
  · refine ⟨nullSel_iff sel, rfl, selRpl_toNat sel, descAddr_eq_some_iff, fetchDesc_outside, fun h h' => ?_,
      setAccessed_accessed, fun ha => ⟨setAccessed_run ha, fun hp => ?_⟩⟩
    · exact ⟨readDesc_run h h', fun ha => fetchDesc_run ha (readDesc_run h h')⟩
    · exact setDescType_run ha (by rwa [accessByte_toNat])
  · exact ⟨d.base_toNat, d.rawLimit_toNat ▸ d.limit_toNat, rfl, d.dpl_toNat, rfl, d.typ_toNat, rfl, d.isCode_eq,
      d.conforming_eq, d.readable_eq, d.writableData_eq, rfl, rfl, rfl, d.tss32_eq, rfl, rfl, d.gateSel_toNat,
      d.gateOffset16_toNat, d.gateOffset32_toNat, d.gateCount_eq, rfl⟩

end Sys2Proof.Machine
end

section
/-! SUPPORT. Moves to and from the special registers (R770, R774): the privileged frame around a read or a write, the control
registers, and the TLB commands of TR6. -/

namespace Sys2Proof.Machine

variable {s t : State} {v : Dword} {x : Exc}

/-! ### A move to or from a special register at CPL 0 -/

section
variable (h : s.pe = false ∨ s.cpl = 0)
include h

/-- MOV from a special register: what is read goes to the register, and the status flags are free. -/
theorem plain_readSpecial {read : M Dword} (r : Reg) (hr : read s.begun = .ok v t) :
    plain (do checkCpl0; let v ← read; writeReg .d32 r v; freeStatus) s =
      .next (finish s .next ((t.setReg .d32 r v).freed allStatus)) :=
  plain_ok ((M_bind_ok (checkCpl0_run (s := s.begun) h)).trans ((M_bind_ok hr).trans
    ((M_bind_ok (writeReg_run ..)).trans (freeStatus_run _))))

theorem plain_readSpecial_error {read : M Dword} (r : Reg) (hr : read s.begun = .error x t) :
    plain (do checkCpl0; let v ← read; writeReg .d32 r v; freeStatus) s = .next (abandon s x t) :=
  plain_error ((M_bind_ok (checkCpl0_run (s := s.begun) h)).trans (M_bind_error hr))

/-- MOV to a special register: the status flags are free after the write. -/
theorem plain_writeSpecial {write : M Unit} (hw : write s.begun = .ok () t) :
    plain (do checkCpl0; write; freeStatus) s = .next (finish s .next (t.freed allStatus)) :=
  plain_ok ((M_bind_ok (checkCpl0_run (s := s.begun) h)).trans ((M_bind_ok hw).trans (freeStatus_run _)))

theorem plain_writeSpecial_error {write : M Unit} (hw : write s.begun = .error x t) :
    plain (do checkCpl0; write; freeStatus) s = .next (abandon s x t) :=
  plain_error ((M_bind_ok (checkCpl0_run (s := s.begun) h)).trans (M_bind_error hw))

end

/-! ### Control registers (R252, R770) -/

/-- The numbers that name no control register. -/
theorem crNumber_undefined : ∀ n : BitVec 3, n ≠ 0 → n ≠ 2 → n ≠ 3 → n = 1 ∨ n = 4 ∨ n = 5 ∨ n = 6 ∨ n = 7 := by decide

theorem readCr_undefined {n : BitVec 3} (h0 : n ≠ 0) (h2 : n ≠ 2) (h3 : n ≠ 3) :
    readCr n s = .error (faultOf 6 none) s := by
  obtain rfl | rfl | rfl | rfl | rfl := crNumber_undefined n h0 h2 h3 <;> rfl

theorem writeCr_undefined {n : BitVec 3} (h0 : n ≠ 0) (h2 : n ≠ 2) (h3 : n ≠ 3) :
    writeCr n v s = .error (faultOf 6 none) s := by
  obtain rfl | rfl | rfl | rfl | rfl := crNumber_undefined n h0 h2 h3 <;> rfl

/-- CR0 is written where PG does not come without PE. -/
theorem writeCr_zero (h : ¬(v.getLsbD 31 = true ∧ v.getLsbD 0 = false)) :
    writeCr 0 v s = .ok () { s with cr0 := v &&& cr0Mask, mswFresh := false } := by
  have hb : (bitOf v 31 && !bitOf v 0) = false :=
    Bool.eq_false_iff.2 fun e => h (by rwa [Bool.and_eq_true, Bool.not_eq_true'] at e)
  show (when (bitOf v 31 && !bitOf v 0) raiseGP0 >>= _) s = _
  rw [hb, when_false, M_pure_bind, M_modify]

theorem writeCr_zero_error (h31 : v.getLsbD 31 = true) (h0 : v.getLsbD 0 = false) :
    writeCr 0 v s = .error (faultOf 13 (some 0)) s := by
  have hb : (bitOf v 31 && !bitOf v 0) = true := by rw [bitOf, bitOf, h31, h0]; rfl
  show (when (bitOf v 31 && !bitOf v 0) raiseGP0 >>= _) s = _
  rw [hb, when_true]
  exact M_bind_error (raise_run ..)

/-! ### Test registers (R774) -/

/-- The numbers that name no test register. -/
theorem trNumber_undefined : ∀ n : BitVec 3, n ≠ 6 → n ≠ 7 → n = 0 ∨ n = 1 ∨ n = 2 ∨ n = 3 ∨ n = 4 ∨ n = 5 := by decide

theorem readTr_undefined {n : BitVec 3} (h6 : n ≠ 6) (h7 : n ≠ 7) : readTr n s = .error (faultOf 6 none) s := by
  obtain rfl | rfl | rfl | rfl | rfl | rfl := trNumber_undefined n h6 h7 <;> rfl

theorem writeTr_undefined {n : BitVec 3} (h6 : n ≠ 6) (h7 : n ≠ 7) : writeTr n v s = .error (faultOf 6 none) s := by
  obtain rfl | rfl | rfl | rfl | rfl | rfl := trNumber_undefined n h6 h7 <;> rfl

/-- TR6 is stored before its command runs. -/
theorem writeTr_six (v : Dword) (s : State) :
    writeTr 6 v s = (if v.getLsbD 0 then tlbLookup v else tlbWrite v) { s with tr6 := v } := rfl

/-! ### Pairs of TR6 (R56) -/

/-- Writing a bit with its own value changes nothing. -/
theorem setBit_self (v : Dword) (n : Nat) : setBit v n (bitOf v n) = v := by
  apply BitVec.eq_of_getLsbD_eq
  intro i hi
  rw [← bitOf, bitOf_setBit v n i _ hi]
  split
  · next e => rw [e]
  · rfl

section
variable {k : Nat} (h : v.getLsbD k ≠ v.getLsbD (k - 1))
include h

theorem testPair_defined : testPair v k = some (bitOf v k) := if_neg h

theorem pairBit_defined : pairBit v k s = .ok (bitOf v k) s := by
  unfold pairBit
  rw [testPair_defined h]
  rfl

theorem pairMatches_defined (x free : Bool) : pairMatches v k x free = true ↔ x = v.getLsbD k := by
  unfold pairMatches
  rw [testPair_defined h, beq_iff_eq, eq_comm]

/-- A defined pair holds its attribute and the complement, so that writing the attribute back changes nothing. -/
theorem setPair_self : setPair v k (bitOf v k) = v := by
  have hc : (!bitOf v k) = bitOf v (k - 1) := Bool.not_eq.2 h
  unfold setPair
  rw [setBit_self, hc, setBit_self]

end

section
variable (hd : v.getLsbD 10 ≠ v.getLsbD 9) (hu : v.getLsbD 8 ≠ v.getLsbD 7) (hw : v.getLsbD 6 ≠ v.getLsbD 5)
include hd hu hw

theorem pairsDefined_true : pairsDefined v = true := by
  unfold pairsDefined
  rw [testPair_defined (k := 10) hd, testPair_defined (k := 8) hu, testPair_defined (k := 6) hw]
  rfl

/-! ### The TLB write command (R255) -/

theorem tlbWrite_run (ht : s.tr7.getLsbD 4 = true) :
    tlbWrite v s = .ok () { s with
      tlb := s.tlb.set (tlbIndex v (s.tr7.extractLsb' 2 2).toNat)
        { lin := v.extractLsb' 12 20, v := v.getLsbD 11, d := v.getLsbD 10, u := v.getLsbD 8, w := v.getLsbD 6,
          phys := s.tr7.extractLsb' 12 20 } } := by
  unfold tlbWrite
  rw [M_get_bind, M_bind_ok (pairBit_defined (k := 10) hd), M_bind_ok (pairBit_defined (k := 8) hu),
    M_bind_ok (pairBit_defined (k := 6) hw), if_pos ht, M_pure_bind, M_modify]

end

/-! ### The TLB lookup command (R256) -/

/-- Block `k` of the set that TR6 = `v` names holds a valid entry for its page with the attributes of its pairs. -/
def State.BlockMatches (s : State) (v : Dword) (k : Nat) : Prop :=
  let e := s.tlbEntry (tlbIndex v k)
  e.lin = v.extractLsb' 12 20 ∧ e.v = true ∧ e.d = v.getLsbD 10 ∧ e.u = v.getLsbD 8 ∧ e.w = v.getLsbD 6

/-- Bits that are set anyway need not be in the mask that is applied before. -/
theorem and_or_mask_or (v m x : Dword) : (v &&& (m ||| x)) ||| x = (v &&& m) ||| x := by
  ext i
  simp only [BitVec.getElem_or, BitVec.getElem_and]
  cases x[i] <;> simp only [Bool.or_true, Bool.or_false]

/-- TR7 after a hit in block `b`. -/
theorem tr7Result_hit (old : Dword) {b : Nat} (hb : b < 4) (phys : BitVec 20) :
    tr7Result old true (BitVec.ofNat 2 b) phys =
      (old &&& 0x00000FE3) ||| 0x10 ||| (BitVec.ofNat 32 b <<< 2) ||| (phys.setWidth 32 <<< 12) := by
  have hrep : (BitVec.ofNat 2 b).setWidth 32 = BitVec.ofNat 32 b := by
    apply BitVec.eq_of_toNat_eq
    simp only [BitVec.toNat_setWidth, BitVec.toNat_ofNat]
    omega
  have hht : (old &&& 0x00000FF3) ||| 0x10 = (old &&& 0x00000FE3) ||| 0x10 := and_or_mask_or old 0xFE3 0x10
  unfold tr7Result
  rw [hrep]
  show (old &&& (0x00000FF3 : Dword)) ||| _ ||| _ ||| (0x10 : Dword) =
    (old &&& (0x00000FE3 : Dword)) ||| (0x10 : Dword) ||| _ ||| _
  rw [← hht]
  ac_rfl

section
variable (hd : v.getLsbD 10 ≠ v.getLsbD 9) (hu : v.getLsbD 8 ≠ v.getLsbD 7) (hw : v.getLsbD 6 ≠ v.getLsbD 5)
  (hv : v.getLsbD 11 = true)
include hd hu hw hv

theorem tlbMatches_single {b : Nat} (hb : b < 4) (hk : ∀ k < 4, s.BlockMatches v k ↔ k = b) (free : Dword) :
    s.tlbMatches v free = [b] := by
  calc s.tlbMatches v free
    _ = [0, 1, 2, 3].filter (· == b) := by
      refine List.filter_congr fun k hkm => ?_
      have hk4 : k < 4 := by simp only [List.mem_cons, List.not_mem_nil, or_false] at hkm; omega
      rw [Bool.eq_iff_iff, beq_iff_eq, ← hk k hk4]
      simp only [Bool.and_eq_true, beq_iff_eq, pairMatches_defined (k := 10) hd, pairMatches_defined (k := 8) hu,
        pairMatches_defined (k := 6) hw, State.BlockMatches, bitOf, hv, and_assoc]
    _ = [b] := by
      have hcases : b = 0 ∨ b = 1 ∨ b = 2 ∨ b = 3 := by omega
      obtain rfl | rfl | rfl | rfl := hcases <;> rfl

/-- A hit in one block only: TR6 stays as written, for the pairs it takes from the entry are those it holds. -/
theorem tlbLookup_hit {b : Nat} (hb : b < 4) (hk : ∀ k < 4, s.BlockMatches v k ↔ k = b) :
    tlbLookup v s = .ok () { s with
      tr6 := v
      tr7 := (s.tr7 &&& 0x00000FE3) ||| 0x10 ||| (BitVec.ofNat 32 b <<< 2) |||
        ((s.tlbEntry (tlbIndex v b)).phys.setWidth 32 <<< 12) } := by
  obtain ⟨-, -, ed, eu, ew⟩ := (hk b hb).2 rfl
  unfold tlbLookup
  rw [M_get_bind, if_neg (by rw [bitOf, hv]; exact Bool.false_ne_true), if_pos (pairsDefined_true hd hu hw), M_pure_bind,
    tlbMatches_single hd hu hw hv hb hk]
  show EStateM.Result.ok () (s.tlbHit v b _) = _
  unfold State.tlbHit
  rw [ed, eu, ew, setPair_self (k := 10) hd, setPair_self (k := 8) hu, setPair_self (k := 6) hw, tr7Result_hit _ hb]

end

end Sys2Proof.Machine
end


section
/-! O41 and O43: MOV to and from the control registers and the test registers. -/

namespace Sys2Proof.Machine

/-! ### MOV to and from a special register, as a read or a write of it -/

section
variable {s t : State} {v : Dword} {x : Exc} {n : BitVec 3} (r : Reg) (h : s.pe = false ∨ s.cpl = 0)
include h

theorem exec_movFromCr (hr : readCr n s.begun = .ok v t) :
    exec (.movFromCr n r) s = .next (finish s .next ((t.setReg .d32 r v).freed allStatus)) := plain_readSpecial h r hr

theorem exec_movToCr (hw : writeCr n (s.reg .d32 r) s.begun = .ok () t) :
    exec (.movToCr n r) s = .next (finish s .next (t.freed allStatus)) := plain_writeSpecial h hw

theorem exec_movFromTr (hr : readTr n s.begun = .ok v t) :
    exec (.movFromTr n r) s = .next (finish s .next ((t.setReg .d32 r v).freed allStatus)) := plain_readSpecial h r hr

theorem exec_movToTr (hw : writeTr n (s.reg .d32 r) s.begun = .ok () t) :
    exec (.movToTr n r) s = .next (finish s .next (t.freed allStatus)) := plain_writeSpecial h hw

end

/-- Settles O41: what each register reads and takes, and that the other numbers name none. -/
theorem controlRegisterMoves : Obligations.ControlRegisterMoves := by
  refine ⟨fun s r h => ⟨⟨fun hp => ?_, fun h31 h0 => ?_, ?_, ?_⟩, ?_, ?_, ?_⟩, fun s r n h h0 h2 h3 => ⟨?_, ?_⟩⟩
  · exact exec_movToCr r h (writeCr_zero hp)
  · exact plain_writeSpecial_error h (writeCr_zero_error h31 h0)
  · exact exec_movToCr r h rfl
  · exact exec_movToCr r h rfl
  · exact exec_movFromCr r h (reserved_run cr0Mask s.cr0 s.begun)
  · exact exec_movFromCr r h rfl
  · exact exec_movFromCr r h (reserved_run cr3Mask s.cr3 s.begun)
  · exact plain_writeSpecial_error h (writeCr_undefined h0 h2 h3)
  · exact plain_readSpecial_error h r (readCr_undefined h0 h2 h3)

/-- Settles O43: TR6 is stored and its command, of which a write and a hit are spelled out, runs. -/
theorem testRegisterMoves : Obligations.TestRegisterMoves := by
  refine fun s r h => ⟨exec_movFromTr r h rfl, exec_movFromTr r h rfl, ⟨exec_movToTr r h rfl, ?_, ?_, ?_⟩,
    fun n h6 h7 => ⟨?_, ?_⟩⟩
  · rintro h0 ht hd hu hw e rfl
    refine exec_movToTr r h ?_
    rw [writeTr_six, h0]
    exact tlbWrite_run hd hu hw ht
  · intro h0 hv hd hu hw b hb hk
    refine exec_movToTr r h ?_
    rw [writeTr_six, h0]
    exact tlbLookup_hit hd hu hw hv hb hk
  · exact fun t ht => exec_movToTr r h ht
  · exact plain_writeSpecial_error h (writeTr_undefined h6 h7)
  · exact plain_readSpecial_error h r (readTr_undefined h6 h7)

end Sys2Proof.Machine
end

section
/-! SUPPORT. Far JMP and CALL in protected mode (R602 to R606): what each comes to once its operand, its descriptor and its
gate have passed their checks. -/

namespace Sys2Proof.Machine

variable {s t u v z : State} {f : FarForm} {w : Width} {sel : Word} {off : Dword} {d g c : Desc} {x : Exc} {k : Done}

/-- A sequence whose first part does the same as another computation does elsewhere. -/
theorem M_bind_congr {α β : Type} {m m' : M α} (f : α → M β) (h : m s = m' t) : (m >>= f) s = (m' >>= f) t := by
  rw [M_bind, M_bind, h]

/-! ### The operand (R600) -/

section
variable (hp : s.prot = true) (hf : FarIs s.begun f w sel off t)
include hp hf

theorem exec_jmpFar_ok (h : jmpProt sel off t = .ok k u) : exec (.jmpFar f) s = .next (finish s k u) := by
  refine instr_ok ((M_bind_ok (farForm_run hf)).trans ?_)
  rw [State.paragraphs_of_prot hp]
  exact h

theorem exec_jmpFar_error (h : jmpProt sel off t = .error x u) : exec (.jmpFar f) s = .next (abandon s x u) := by
  refine instr_error ((M_bind_ok (farForm_run hf)).trans ?_)
  rw [State.paragraphs_of_prot hp]
  exact h

theorem exec_callFar_ok (h : callProt w sel off t = .ok k u) : exec (.callFar f) s = .next (finish s k u) := by
  refine instr_ok ((M_bind_ok (farForm_run hf)).trans ?_)
  rw [State.paragraphs_of_prot hp]
  exact h

theorem exec_callFar_error (h : callProt w sel off t = .error x u) : exec (.callFar f) s = .next (abandon s x u) := by
  refine instr_error ((M_bind_ok (farForm_run hf)).trans ?_)
  rw [State.paragraphs_of_prot hp]
  exact h

end

/-! ### The descriptor that the selector names -/

theorem jmpProt_null (hn : nullSel sel = true) : jmpProt sel off s = .error (faultOf 13 (some 0)) s := by
  unfold jmpProt
  rw [hn]
  rfl

theorem callProt_null (hn : nullSel sel = true) : callProt w sel off s = .error (faultOf 13 (some 0)) s := by
  unfold callProt
  rw [hn]
  rfl

section
variable (hn : nullSel sel = false) (hd : fetchDesc sel s = .ok (some d) t)
include hn hd

theorem jmpProt_code (hc : d.isCode = true) : jmpProt sel off s =
    (do directCode sel d; checkTarget d sel off; enterCode sel d (← get).cpl off; pure .went : M Done) t := by
  unfold jmpProt
  rw [hn, when_false, M_pure_bind, M_bind_ok (fetchDescOr_run hd), if_pos hc]

theorem callProt_code (hc : d.isCode = true) :
    callProt w sel off s = (do directCode sel d; callSame w sel d off; pure .went : M Done) t := by
  unfold callProt
  rw [hn, when_false, M_pure_bind, M_bind_ok (fetchDescOr_run hd), if_pos hc]

theorem jmpProt_callGate (hg : d.isCallGate = true) :
    jmpProt sel off s = (do jmpGate sel d; pure .went : M Done) t := by
  unfold jmpProt
  rw [hn, when_false, M_pure_bind, M_bind_ok (fetchDescOr_run hd), Desc.isCode_of_isCallGate hg,
    if_neg Bool.false_ne_true, if_pos hg]

theorem callProt_callGate (hg : d.isCallGate = true) :
    callProt w sel off s = (do callGate sel d; pure .went : M Done) t := by
  unfold callProt
  rw [hn, when_false, M_pure_bind, M_bind_ok (fetchDescOr_run hd), Desc.isCode_of_isCallGate hg,
    if_neg Bool.false_ne_true, if_pos hg]

end

/-! ### Entering the code segment -/

/-- An offset beyond the limit of the new code segment (R601). -/
theorem checkTarget_error (h : inLimit (d.toSeg sel) off 1 = false) :
    checkTarget d sel off s = .error (faultOf 13 (some 0)) s := by
  unfold checkTarget
  rw [h]
  rfl

theorem callSame_run (hr : s.roomOk (2 * w.bytes) = true) (hl : inLimit (d.toSeg sel) off 1 = true)
    (hi : Items s.user w s [.sel s.cs.sel, .val s.nextEip] z) (ha : setAccessed sel d z = .ok () v) :
    callSame w sel d off s = .ok () (v.inCode sel d s.cpl off) := by
  unfold callSame
  rw [M_get_bind, M_bind_ok (stackRoom_ok hr), M_bind_ok (checkTarget_run hl), M_bind_ok (pushReturn_run hi)]
  exact enterCode_run ha

theorem callSame_beyond (hr : s.roomOk (2 * w.bytes) = true) (hl : inLimit (d.toSeg sel) off 1 = false) :
    callSame w sel d off s = .error (faultOf 13 (some 0)) s := by
  unfold callSame
  rw [M_get_bind, M_bind_ok (stackRoom_ok hr)]
  exact M_bind_error (checkTarget_error hl)

/-! ### The code segment of a call gate (R603, R606) -/

section
variable (h1 : s.cpl ≤ g.dpl) (h2 : selRpl sel ≤ g.dpl) (h3 : g.p = true)
include h1 h2 h3

theorem jmpGate_null (hn : nullSel g.gateSel = true) : jmpGate sel g s = .error (faultOf 13 (some 0)) s := by
  unfold jmpGate
  rw [M_bind_ok (checkGate_run h1 h2 h3)]
  simp only [hn]
  rfl

theorem callGate_null (hn : nullSel g.gateSel = true) : callGate sel g s = .error (faultOf 13 (some 0)) s := by
  unfold callGate
  rw [M_bind_ok (checkGate_run h1 h2 h3)]
  simp only [hn]
  rfl

variable (hn : nullSel g.gateSel = false) (hd : fetchDesc g.gateSel s = .ok (some c) t) (hc : c.isCode = true)
  (hp : c.p = true) (hk : c.conforming = true ∧ c.dpl ≤ s.cpl ∨ c.conforming = false ∧ c.dpl = s.cpl)
include hn hd hc hp hk

theorem jmpGate_eq : jmpGate sel g s = (do
    checkTarget c g.gateSel (g.gateOffset (g.typ.getLsbD 3))
    enterCode g.gateSel c s.cpl (g.gateOffset (g.typ.getLsbD 3)) : M Unit) t := by
  have e1 : (!c.conforming && c.dpl != s.cpl) = false := by rcases hk with ⟨h, -⟩ | ⟨-, h⟩ <;> simp [h]
  have e2 : (c.conforming && decide (s.cpl < c.dpl)) = false := by
    rcases hk with ⟨-, h⟩ | ⟨h, -⟩ <;> simp [h, BitVec.not_lt.2]
  unfold jmpGate
  rw [M_bind_ok (checkGate_run h1 h2 h3)]
  dsimp only
  rw [hn, when_false, M_pure_bind, M_bind_ok (fetchDescOr_run hd), M_get_bind, fetchDesc_cpl hd, hc, Bool.not_true,
    when_false, M_pure_bind, e1, when_false, M_pure_bind, e2, when_false, M_pure_bind, hp, Bool.not_true, when_false,
    M_pure_bind]

theorem callGate_same : callGate sel g s =
    callSame (sizeW (g.typ.getLsbD 3)) g.gateSel c (g.gateOffset (g.typ.getLsbD 3)) t := by
  have hle : c.dpl ≤ s.cpl := by
    rcases hk with ⟨-, h⟩ | ⟨-, h⟩
    · exact h
    · exact h ▸ BitVec.le_refl _
  have e1 : decide (s.cpl < c.dpl) = false := decide_eq_false (BitVec.not_lt.2 hle)
  have e2 : (!c.conforming && decide (c.dpl < s.cpl)) = false := by rcases hk with ⟨h, -⟩ | ⟨-, h⟩ <;> simp [h]
  unfold callGate
  rw [M_bind_ok (checkGate_run h1 h2 h3)]
  dsimp only
  rw [hn, when_false, M_pure_bind, M_bind_ok (fetchDescOr_run hd), M_get_bind, fetchDesc_cpl hd, hc, Bool.not_true,
    when_false, M_pure_bind, e1, when_false, M_pure_bind, hp, Bool.not_true, when_false, M_pure_bind, e2,
    if_neg Bool.false_ne_true]

end

/-! ### A transfer at the same privilege, directly or through a gate -/

section
variable {w' : Width} {cs : Word} {o : Dword} (hp : s.prot = true) (hf : FarIs s.begun f w sel off t)
include hp hf

theorem exec_jmpFar_enter (hj : jmpProt sel off t =
      (do checkTarget d cs o; enterCode cs d s.cpl o; pure .went : M Done) u) (hl : inLimit (d.toSeg cs) o 1 = true)
    (ha : setAccessed cs d u = .ok () v) :
    exec (.jmpFar f) s = .next (finish s .went (v.inCode cs d s.cpl o)) := by
  refine exec_jmpFar_ok hp hf (hj.trans ?_)
  rw [M_bind_ok (checkTarget_run hl), M_bind_ok (enterCode_run ha)]
  rfl

theorem exec_jmpFar_beyond (hj : jmpProt sel off t =
      (do checkTarget d cs o; enterCode cs d s.cpl o; pure .went : M Done) u) (hl : inLimit (d.toSeg cs) o 1 = false) :
    exec (.jmpFar f) s = .next (abandon s (faultOf 13 (some 0)) u) :=
  exec_jmpFar_error hp hf (hj.trans (M_bind_error (checkTarget_error hl)))

variable (hc : callProt w sel off t = (do callSame w' cs d o; pure .went : M Done) u)
  (hr : u.roomOk (2 * w'.bytes) = true)
include hc hr

theorem exec_callFar_enter (hu : s.begun.Touched u) (hl : inLimit (d.toSeg cs) o 1 = true)
    (hi : Items s.user w' u [.sel s.cs.sel, .val s.nextEip] z) (ha : setAccessed cs d z = .ok () v) :
    exec (.callFar f) s = .next (finish s .went (v.inCode cs d s.cpl o)) := by
  have hcpl : u.cpl = s.cpl := hu.cpl
  have hi : Items u.user w' u [.sel u.cs.sel, .val u.nextEip] z := by
    rw [hu.user, hu.cs, hu.nextEip]
    exact hi
  refine exec_callFar_ok hp hf (hc.trans ?_)
  rw [← hcpl, M_bind_ok (callSame_run hr hl hi ha)]
  rfl

theorem exec_callFar_beyond (hl : inLimit (d.toSeg cs) o 1 = false) :
    exec (.callFar f) s = .next (abandon s (faultOf 13 (some 0)) u) :=
  exec_callFar_error hp hf (hc.trans (M_bind_error (callSame_beyond hr hl)))

end

end Sys2Proof.Machine
end

section
/-! O25: far JMP and CALL at the same privilege. -/

namespace Sys2Proof.Machine

section
variable {s t u u' : State} {f : FarForm} {w : Width} {sel : Word} {off : Dword} {d g c : Desc}

/-- Both instructions have read their operand and a descriptor: the CPL and what CALL pushes are as before. -/
theorem FarIs.fetch_touched (hf : FarIs s.begun f w sel off t) (hd : fetchDesc sel t = .ok (some d) u) :
    s.begun.Touched u := hf.touched.trans (fetchDesc_walked hd).touched

theorem jmpProt_direct (hn : nullSel sel = false) (hd : fetchDesc sel t = .ok (some d) u) (hk : d.directOk sel u.cpl) :
    jmpProt sel off t = (do checkTarget d sel off; enterCode sel d u.cpl off; pure .went : M Done) u := by
  rw [jmpProt_code hn hd hk.1, M_bind_ok (directCode_run hk)]
  cases hl : inLimit (d.toSeg sel) off 1
  · rw [M_bind_error (checkTarget_error hl), M_bind_error (checkTarget_error hl)]
  · rw [M_bind_ok (checkTarget_run hl), M_bind_ok (checkTarget_run hl), M_get_bind]

theorem callProt_direct (hn : nullSel sel = false) (hd : fetchDesc sel t = .ok (some d) u) (hk : d.directOk sel u.cpl) :
    callProt w sel off t = (do callSame w sel d off; pure .went : M Done) u := by
  rw [callProt_code hn hd hk.1, M_bind_ok (directCode_run hk)]

end

/-- Settles O25: each transfer comes, directly or through its gate, to the same entry into a code segment. -/
theorem farTransferSame : Obligations.FarTransferSame := by
  refine ⟨fun s f w sel off t u d hp hf hn hd hk => ?_, fun s f w sel off t hp hf => ⟨fun hn => ?_, fun x u hn hr => ?_,
    fun g u hn hd hg h1 h2 h3 => ?_⟩, fun s f w sel off t u u' g c hp hf hn hd hg h1 h2 h3 hgn hcd hc hcp hk => ?_⟩
  · have hu := hf.fetch_touched hd
    have hcpl : u.cpl = s.cpl := hu.cpl
    rw [← hcpl] at hk
    have hj := jmpProt_direct (off := off) hn hd hk
    have hc := callProt_direct (w := w) (off := off) hn hd hk
    rw [hcpl] at hj
    exact ⟨fun hl => ⟨fun v => exec_jmpFar_enter hp hf hj hl, fun z v hr => exec_callFar_enter hp hf hc hr hu hl⟩,
      fun hl => ⟨exec_jmpFar_beyond hp hf hj hl, fun hr => exec_callFar_beyond hp hf hc hr hl⟩⟩
  · exact ⟨exec_jmpFar_error hp hf (jmpProt_null hn), exec_callFar_error hp hf (callProt_null hn)⟩
  · have hcpl : t.cpl = s.cpl := hf.touched.cpl
    rw [← hcpl] at hr
    obtain ⟨hj, hc⟩ := transfer_refused (w := w) (off := off) hn hr
    exact ⟨exec_jmpFar_error hp hf hj, exec_callFar_error hp hf hc⟩
  · have hcpl : u.cpl = s.cpl := (hf.fetch_touched hd).cpl
    rw [← hcpl] at h1
    have jmp {x v} (h : jmpGate sel g u = .error x v) : exec (.jmpFar f) s = .next (abandon s x v) :=
      exec_jmpFar_error hp hf ((jmpProt_callGate hn hd hg).trans (M_bind_error h))
    have call {x v} (h : callGate sel g u = .error x v) : exec (.callFar f) s = .next (abandon s x v) :=
      exec_callFar_error hp hf ((callProt_callGate hn hd hg).trans (M_bind_error h))
    rw [← hcpl]
    exact ⟨fun hgn => ⟨jmp (jmpGate_null h1 h2 h3 hgn), call (callGate_null h1 h2 h3 hgn)⟩, fun x v hgn =>
      ⟨fun hr => jmp (jmpGate_refused h1 h2 h3 hgn hr), fun hr => call (callGate_refused h1 h2 h3 hgn hr)⟩⟩
  · have hu := hf.fetch_touched hd
    have hcpl : u.cpl = s.cpl := hu.cpl
    rw [← hcpl] at h1 hk
    have hj : jmpProt sel off t = (do
        checkTarget c g.gateSel (g.gateOffset (g.typ.getLsbD 3))
        enterCode g.gateSel c u.cpl (g.gateOffset (g.typ.getLsbD 3)); pure .went : M Done) u' := by
      rw [jmpProt_callGate hn hd hg, M_bind_congr _ (jmpGate_eq h1 h2 h3 hgn hcd hc hcp hk), bind_assoc]
    have hcall : callProt w sel off t = (do
        callSame (sizeW (g.typ.getLsbD 3)) g.gateSel c (g.gateOffset (g.typ.getLsbD 3)); pure .went : M Done) u' := by
      rw [callProt_callGate hn hd hg, M_bind_congr _ (callGate_same h1 h2 h3 hgn hcd hc hcp hk)]
    rw [hcpl] at hj
    have hu' := hu.trans (fetchDesc_walked hcd).touched
    exact ⟨fun hl => ⟨fun v => exec_jmpFar_enter hp hf hj hl, fun z v hr => exec_callFar_enter hp hf hcall hr hu' hl⟩,
      fun hl => ⟨exec_jmpFar_beyond hp hf hj hl, fun hr => exec_callFar_beyond hp hf hcall hr hl⟩⟩

end Sys2Proof.Machine
end

section
/-! SUPPORT. Inner stacks (R607, R824) and deliveries through a gate of the IDT (R821 to R828): what each part answers where
its checks pass and where they fail. -/

namespace Sys2Proof.Machine

variable {s t u v z x₁ x₂ x₃ : State} {w : Width} {sel ssel cs : Word} {d g c sd : Desc} {sp off : Dword} {x : Exc}
  {ext : Bool} {e : Event}

theorem State.Touched.flag (h : s.Touched t) (f : Flag) : t.flag f = s.flag f := by
  obtain ⟨_, _, _, _, _, _, rfl⟩ := h
  rfl

/-! ### Checks that all pass -/

theorem firstFault_cons_none {b : Bool} {vec : Byte} {rest : List (Bool × Byte)} :
    firstFault ((b, vec) :: rest) = none ↔ b = false ∧ firstFault rest = none := by
  cases b
  · exact ⟨fun h => ⟨rfl, h⟩, fun h => h.2⟩
  · exact ⟨fun h => (by cases h), fun h => (by cases h.1)⟩

theorem idtFaults_none {soft : Bool} {cpl : BitVec 2} (h : firstFault (g.idtFaults soft cpl) = none) :
    g.s = false ∧ (g.typ = 5 ∨ g.typ = 6 ∨ g.typ = 7 ∨ g.typ = 14 ∨ g.typ = 15) ∧ (soft = true → cpl ≤ g.dpl) ∧
      g.p = true := by
  unfold Desc.idtFaults at h
  obtain ⟨ht, h⟩ := firstFault_cons_none.1 h
  obtain ⟨hd, h⟩ := firstFault_cons_none.1 h
  obtain ⟨hp, -⟩ := firstFault_cons_none.1 h
  simp only [Bool.or_eq_false_iff, Bool.not_eq_false', Bool.or_eq_true, beq_iff_eq, or_assoc] at ht
  refine ⟨ht.1, ht.2, fun hs => ?_, by simpa using hp⟩
  rw [hs, Bool.true_and, decide_eq_false_iff_not] at hd
  exact BitVec.not_lt.1 hd

theorem gateFaults_none {cpl : BitVec 2} (h : firstFault (c.gateFaults cpl) = none) :
    c.isCode = true ∧ c.p = true ∧ (c.conforming = true ∨ c.dpl ≤ cpl) := by
  unfold Desc.gateFaults at h
  obtain ⟨hc, h⟩ := firstFault_cons_none.1 h
  obtain ⟨hp, h⟩ := firstFault_cons_none.1 h
  obtain ⟨hd, -⟩ := firstFault_cons_none.1 h
  refine ⟨by simpa using hc, by simpa using hp, ?_⟩
  simpa only [Bool.and_eq_false_iff, Bool.not_eq_false', decide_eq_false_iff_not, BitVec.not_lt] using hd

/-- An IDT entry of which no check fails (R821). -/
theorem idtGate_passes (hl : e.vec.toNat * 8 + 7 ≤ s.idtr.limit.toNat)
    (hg : readDesc (s.idtr.base + (e.vec.setWidth 32 <<< 3)) s = .ok g t)
    (h : firstFault (g.idtFaults (e.kind == .soft) s.cpl) = none) : idtGate e s = .ok g t := by
  obtain ⟨hs, ht, hk, hp⟩ := idtFaults_none h
  exact idtGate_run hl hg hs ht (fun hsoft => hk (beq_iff_eq.2 hsoft)) hp

/-- A code segment of which no check fails (R823). -/
theorem gateCode_passes (hn : nullSel cs = false) (h : fetchDesc cs s = .ok (some c) t)
    (hf : firstFault (c.gateFaults s.cpl) = none) : gateCode ext cs s = .ok c t := by
  obtain ⟨hc, hp, hd⟩ := gateFaults_none hf
  rw [← fetchDesc_cpl h] at hd
  exact gateCode_run hn h hc hp hd

/-! ### The inner stack in the TSS (R607, R824) -/

theorem innerStackSeg_outside {n : BitVec 2}
    (h : s.tr.limit.toNat < (if s.tr.is386 then 9 + 8 * n.toNat else 5 + 4 * n.toNat)) :
    innerStackSeg ext n s = .error (faultOf 10 (some (selCode ext s.tr.sel))) s := M_bind_error (innerStack_outside h)

/-- Selector and stack pointer of an inner level as values: an 80286 TSS holds 16 bits of the pointer. -/
theorem innerStack_values {n : BitVec 2}
    (hl : (if s.tr.is386 then 9 + 8 * n.toNat else 5 + 4 * n.toNat) ≤ s.tr.limit.toNat)
    (h : if s.tr.is386 then SysGet s (s.tr.base + BitVec.ofNat 32 (4 + 8 * n.toNat)) 4 sp.toNat t ∧
        SysGet t (s.tr.base + BitVec.ofNat 32 (8 + 8 * n.toNat)) 2 sel.toNat u
      else SysGet s (s.tr.base + BitVec.ofNat 32 (2 + 4 * n.toNat)) 2 sp.toNat t ∧
        SysGet t (s.tr.base + BitVec.ofNat 32 (4 + 4 * n.toNat)) 2 sel.toNat u ∧ sp.toNat < 65536) :
    innerStack ext n s = .ok (sel, sp) u := by
  have hsel : BitVec.ofNat 16 sel.toNat = sel := BitVec.ofNat_toNat ..
  have h32 : BitVec.ofNat 32 sp.toNat = sp := BitVec.ofNat_toNat ..
  cases hk : s.tr.is386 <;> simp only [hk, if_true, if_false, Bool.false_eq_true] at h
  · obtain ⟨h, h', hsp⟩ := h
    have h16 : (BitVec.ofNat 16 sp.toNat).setWidth 32 = sp := by
      apply BitVec.eq_of_toNat_eq
      rw [BitVec.toNat_setWidth, BitVec.toNat_ofNat]
      omega
    rw [innerStack_run hl (by rw [hk]; exact ⟨h, h'⟩), hk, hsel, h16]
    rfl
  · rw [innerStack_run hl (by rw [hk]; exact h), hk, hsel, h32]
    rfl

section
variable {n : BitVec 2} (h : innerStack ext n s = .ok (sel, sp) t)
include h

theorem innerStackSeg_null (hn : nullSel sel = true) :
    innerStackSeg ext n s = .error (faultOf 10 (some (if ext then 1 else 0))) t := by
  refine (M_bind_ok h).trans ?_
  dsimp only
  rw [hn]
  rfl

theorem innerStackSeg_refused (hn : nullSel sel = false)
    (hr : Refused t sel 10 ext (fun d => d.stackFaults 10 n sel) x u) : innerStackSeg ext n s = .error x u := by
  refine (M_bind_ok h).trans ?_
  dsimp only
  rw [hn, when_false, M_pure_bind]
  exact M_bind_error (checkStackSeg_refused hr)

theorem innerStackSeg_run (hn : nullSel sel = false) (hd : fetchDesc sel t = .ok (some d) u)
    (hf : firstFault (d.stackFaults 10 n sel) = none) : innerStackSeg ext n s = .ok (sel, d, sp) u := by
  refine (M_bind_ok h).trans ?_
  dsimp only
  rw [hn, when_false, M_pure_bind]
  exact M_bind_ok (checkStackSeg_run hd hf)

end

/-! ### Room in the new stack, and the switch to it -/

theorem blockFits_iff {is32 : Bool} {n : Nat} : blockFits is32 off n = true ↔ is32 = true ∨ off.toNat + n ≤ 65536 := by
  rw [blockFits, Bool.or_eq_true, decide_eq_true_iff]

/-- The offset at which `need` bytes below `sp` begin in the stack segment of `d`. -/
def newStackOff (d : Desc) (sp : Dword) (need : Nat) : Dword := cut d.db (cut d.db sp - BitVec.ofNat 32 need)

section
variable {need : Nat}

theorem newStackRoom_eq : newStackRoom sel d sp need s = (do
    when (!inLimit (d.toSeg sel) (newStackOff d sp need) need || !blockFits d.db (newStackOff d sp need) need) raiseSS0
    let _ ← translateAll true false (span (d.base + newStackOff d sp need) need)
    pure () : M Unit) s := rfl

/-- The frame has room where it lies within the limit and does not wrap. -/
theorem newStackRoom_check :
    (!inLimit (d.toSeg sel) off need || !blockFits d.db off need) = false ↔
      inLimit (d.toSeg sel) off need = true ∧ (d.db = true ∨ off.toNat + need ≤ 65536) := by
  rw [Bool.or_eq_false_iff, Bool.not_eq_false', Bool.not_eq_false', blockFits_iff]

theorem newStackRoom_error (h : ¬(inLimit (d.toSeg sel) (newStackOff d sp need) need = true ∧
      (d.db = true ∨ (newStackOff d sp need).toNat + need ≤ 65536))) :
    newStackRoom sel d sp need s = .error (faultOf 12 (some 0)) s := by
  rw [← newStackRoom_check, Bool.not_eq_false] at h
  rw [newStackRoom_eq, h]
  rfl

theorem newStackRoom_run {pas : List Nat} (h : inLimit (d.toSeg sel) (newStackOff d sp need) need = true ∧
      (d.db = true ∨ (newStackOff d sp need).toNat + need ≤ 65536))
    (ht : translateAll true false (span (d.base + newStackOff d sp need) need) s = .ok pas t) :
    newStackRoom sel d sp need s = .ok () t := by
  rw [← newStackRoom_check] at h
  rw [newStackRoom_eq, h, when_false, M_pure_bind]
  exact M_bind_ok ht

end

/-- All of ESP is loaded from an 80386 TSS and where the new SS has B = 1, else SP alone. -/
theorem switchStack_run (ha : setAccessed sel d s = .ok () t) :
    switchStack sel d sp s = .ok ()
      (if t.tr.is386 = true ∨ d.db = true then ({ t with ss := d.toSeg sel } : State).setReg .d32 .esp sp
       else ({ t with ss := d.toSeg sel } : State).setReg .w16 .esp (sp.setWidth 16)) := by
  refine (M_bind_ok (setSS_run ha)).trans ?_
  have hdb : ({ t with ss := d.toSeg sel } : State).stack32 = d.db := rfl
  rw [M_modify]
  dsimp only
  unfold State.setEsp
  rw [hdb]
  cases t.tr.is386 <;> cases d.db <;> rfl

/-! ### Which delivery it is (R820, R823) -/

theorem deliver_gate (hp : s.pe = true) (hg : idtGate e s = .ok g t) (ht : g.typ ≠ 5) :
    deliver e s = deliverGate e g t := by
  unfold deliver
  rw [M_get_bind, hp, if_neg (by decide), M_bind_ok hg, if_neg (by rwa [beq_iff_eq])]

theorem deliver_task (hp : s.pe = true) (hg : idtGate e s = .ok g t) (ht : g.typ = 5) :
    deliver e s = deliverTask e g.gateSel t := by
  unfold deliver
  rw [M_get_bind, hp, if_neg (by decide), M_bind_ok hg, if_pos (beq_iff_eq.2 ht)]

section
variable (hc : gateCode e.kind.ext g.gateSel s = .ok c t)
include hc

theorem deliverGate_run
    (h : deliverTo e (sizeW (g.typ.getLsbD 3)) g.gateSel c (g.gateOffset (g.typ.getLsbD 3)) t = .ok () u) :
    deliverGate e g s = .ok () (u.afterGate (!g.typ.getLsbD 0)) := by
  refine (M_bind_ok hc).trans ?_
  rw [M_bind_ok h]
  rfl

theorem deliverGate_error
    (h : deliverTo e (sizeW (g.typ.getLsbD 3)) g.gateSel c (g.gateOffset (g.typ.getLsbD 3)) t = .error x u) :
    deliverGate e g s = .error x u := (M_bind_ok hc).trans (M_bind_error h)

end

theorem deliverTo_v86 (hv : s.flag .vm = true) : deliverTo e w cs c off s = deliverV86 e w cs c off s := by
  unfold deliverTo
  rw [M_get_bind, if_pos hv]

theorem deliverTo_inner (hv : s.flag .vm = false) (hc : c.conforming = false) (hd : c.dpl < s.cpl) :
    deliverTo e w cs c off s = deliverInner e w cs c off s := by
  unfold deliverTo
  rw [M_get_bind, hv, if_neg Bool.false_ne_true, hc, if_pos (by simpa using hd)]

/-! ### Delivery to an inner level (R824) -/

theorem deliverInner_stack (h : innerStackSeg e.kind.ext c.dpl s = .error x v) :
    deliverInner e w cs c off s = .error x v := by
  unfold deliverInner
  rw [M_get_bind]
  exact M_bind_error h

section
variable (hs : innerStackSeg e.kind.ext c.dpl s = .ok (ssel, sd, sp) x₁)
include hs

theorem deliverInner_room (h : newStackRoom ssel sd sp (e.frame w 5) x₁ = .error x v) :
    deliverInner e w cs c off s = .error x v := (M_bind_ok hs).trans (M_bind_error h)

theorem deliverInner_run (hr : newStackRoom ssel sd sp (e.frame w 5) x₁ = .ok () x₂)
    (hl : inLimit (c.toSeg cs) off 1 = true) (hsw : switchStack ssel sd sp x₂ = .ok () x₃)
    (hi : Items false w { x₃ with cpl := c.dpl } ([.sel s.ss.sel, .val s.regs.esp] ++
      ([.val (e.image s), .sel s.cs.sel, .val e.ret] ++ (e.code.map Item.sel).toList)) z)
    (ha : setAccessed cs c z = .ok () v) : deliverInner e w cs c off s = .ok () (v.inCode cs c c.dpl off) := by
  refine (M_bind_ok hs).trans ?_
  dsimp only
  rw [M_bind_ok hr, M_bind_ok (checkTarget_run hl), M_bind_ok hsw, M_modify_bind]
  obtain ⟨_, e1, hi⟩ := pushSel_bind hi
  refine e1.trans ?_
  obtain ⟨_, e2, hi⟩ := pushVal_bind hi
  refine e2.trans ?_
  rw [M_bind_ok (pushFrame_run hi)]
  exact enterCode_run ha

end

/-! ### Delivery from V86 mode (R826) -/

/-- The gate must have 32 bits and lead to nonconforming code of level 0. -/
theorem deliverV86_refused (h : c.conforming = true ∨ c.dpl ≠ 0 ∨ w = .w16) :
    deliverV86 e w cs c off s = .error (faultOf 13 (some (selCode e.kind.ext cs))) s := by
  unfold deliverV86
  rw [M_get_bind]
  dsimp only
  by_cases hk : (c.conforming || c.dpl != 0) = true
  · rw [hk]
    rfl
  · rw [Bool.not_eq_true] at hk
    rw [hk, when_false, M_pure_bind]
    rw [Bool.or_eq_false_iff, bne_eq_false_iff_eq] at hk
    have hw : w = .w16 := by simpa [hk] using h
    rw [decide_eq_true hw]
    rfl

section
variable (hc : c.conforming = false) (hd : c.dpl = 0)
include hc hd

theorem deliverV86_stack (h : innerStackSeg e.kind.ext 0 s = .error x v) :
    deliverV86 e .d32 cs c off s = .error x v := by
  unfold deliverV86
  rw [M_get_bind]
  dsimp only
  rw [hc, hd]
  show (innerStackSeg e.kind.ext 0 >>= _) s = _
  exact M_bind_error h

theorem deliverV86_run (hs : innerStackSeg e.kind.ext 0 s = .ok (ssel, sd, sp) x₁)
    (hr : newStackRoom ssel sd sp (e.frame .d32 9) x₁ = .ok () x₂) (hl : inLimit (c.toSeg cs) off 1 = true)
    (hsw : switchStack ssel sd sp { x₂.setFlag .vm false with cpl := 0 } = .ok () x₃)
    (hi : Items false .d32 x₃ ([.sel s.gs.sel, .sel s.fs.sel, .sel s.ds.sel, .sel s.es.sel, .sel s.ss.sel,
      .val s.regs.esp] ++ ([.val (e.image s), .sel s.cs.sel, .val e.ret] ++ (e.code.map Item.sel).toList)) z)
    (ha : setAccessed cs c z.nullDataSegs = .ok () v) :
    deliverV86 e .d32 cs c off s = .ok () (v.inCode cs c 0 off) := by
  unfold deliverV86
  rw [M_get_bind]
  dsimp only
  rw [hc, hd]
  refine (M_bind_ok hs).trans ?_
  dsimp only
  rw [M_bind_ok hr, M_bind_ok (checkTarget_run hl), M_modify_bind, M_bind_ok hsw]
  obtain ⟨_, e1, hi⟩ := pushSel_bind hi
  refine e1.trans ?_
  obtain ⟨_, e2, hi⟩ := pushSel_bind hi
  refine e2.trans ?_
  obtain ⟨_, e3, hi⟩ := pushSel_bind hi
  refine e3.trans ?_
  obtain ⟨_, e4, hi⟩ := pushSel_bind hi
  refine e4.trans ?_
  obtain ⟨_, e5, hi⟩ := pushSel_bind hi
  refine e5.trans ?_
  obtain ⟨_, e6, hi⟩ := pushVal_bind hi
  rw [show (s.regs.esp.setWidth Width.d32.bits : BitVec Width.d32.bits) = s.regs.esp from BitVec.setWidth_eq _] at e6
  refine e6.trans ?_
  rw [M_bind_ok (pushFrame_run hi), M_modify_bind]
  exact enterCode_run ha

end

end Sys2Proof.Machine
end

section
/-! O45: deliveries to an inner privilege level. -/

namespace Sys2Proof.Machine

/-- What is read on the way to the code segment of a gate changes nothing that a delivery pushes or compares. -/
theorem gateDesc_touched {s t u : State} {a : Dword} {sel : Word} {g : Desc} {c : Option Desc}
    (hg : readDesc a s = .ok g t) (hc : fetchDesc sel t = .ok c u) : s.Touched u :=
  ((readDesc_walked hg).trans (fetchDesc_walked hc)).touched

/-- Settles O45: the parts that clauses name run or fail as they say; a delivery is the pushes on the stack they give. -/
theorem deliveryInner : Obligations.DeliveryInner := by
  refine ⟨fun s ext n => ⟨innerStackSeg_outside, fun sp sel t u hl h => ?_⟩, fun s sel d sp need => ⟨newStackRoom_error,
    fun pas t => newStackRoom_run, fun t => switchStack_run⟩, fun s e g c t u hp hl hg hgf ht hn hc hcf => ?_,
    fun s e g c sd ssel sp t u x₁ x₂ x₃ z v hv hl hg hs ht hk hp hn hc hcc hcp hcf hcd hss hr hlim hsw hi ha => ?_,
    fun s e g c sd ssel sp t u x₁ x₂ x₃ z v hv hl hg hs ht hk hp hn hc hcc hcp hcf hcd hss hr hlim hsw hi ha => ?_⟩
  · have hst := innerStack_values (ext := ext) hl h
    exact ⟨innerStackSeg_null hst, fun x v => innerStackSeg_refused hst, fun d v => innerStackSeg_run hst⟩
  · have hcpl : t.cpl = s.cpl := (readDesc_walked hg).touched.cpl
    rw [← hcpl] at hcf
    have run {x v} (h : deliverTo e (sizeW (g.typ.getLsbD 3)) g.gateSel c (g.gateOffset (g.typ.getLsbD 3)) u = .error x v) :
        deliver e s = .error x v :=
      (deliver_gate hp (idtGate_passes hl hg hgf) ht).trans (deliverGate_error (gateCode_passes hn hc hcf) h)
    have hu := gateDesc_touched hg hc
    refine ⟨fun hv => ⟨fun h => run ?_, fun h1 h2 h3 x v h => run ?_⟩, fun hv h1 h2 => ⟨fun x v h => run ?_,
      fun ssel sd sp v x y h h' => run ?_⟩⟩
    · rw [deliverTo_v86 ((hu.flag .vm).trans hv)]
      refine deliverV86_refused (h.imp_right fun h => h.imp_right fun h => ?_)
      rw [h]
      rfl
    · rw [deliverTo_v86 ((hu.flag .vm).trans hv), h3]
      exact deliverV86_stack h1 h2 h
    · rw [deliverTo_inner ((hu.flag .vm).trans hv) h1 (hu.cpl ▸ h2)]
      exact deliverInner_stack h
    · rw [deliverTo_inner ((hu.flag .vm).trans hv) h1 (hu.cpl ▸ h2)]
      exact deliverInner_room h h'
  · obtain ⟨hpe, hvm⟩ : s.pe = true ∧ s.flag .vm = true := by rwa [State.v86, Bool.and_eq_true] at hv
    obtain ⟨ht5, ht3, ht⟩ : g.typ ≠ 5 ∧ g.typ.getLsbD 3 = true ∧
        (g.typ = 5 ∨ g.typ = 6 ∨ g.typ = 7 ∨ g.typ = 14 ∨ g.typ = 15) := by
      rcases ht with h | h <;> rw [h] <;> decide
    have hu := gateDesc_touched hg hc
    have hle : c.dpl ≤ u.cpl := hcd ▸ BitVec.le_def.2 (Nat.zero_le _)
    rw [deliver_gate hpe (idtGate_run hl hg hs ht hk hp) ht5]
    refine deliverGate_run (gateCode_run hn hc hcc hcp (.inr hle)) ?_
    rw [ht3, deliverTo_v86 ((hu.flag .vm).trans hvm)]
    refine deliverV86_run hcf hcd hss hr hlim hsw ?_ ha
    obtain ⟨_, _, _, _, _, _, rfl⟩ := hu
    exact hi
  · obtain ⟨ht5, ht⟩ : g.typ ≠ 5 ∧ (g.typ = 5 ∨ g.typ = 6 ∨ g.typ = 7 ∨ g.typ = 14 ∨ g.typ = 15) := by
      rcases ht with h | h | h | h <;> rw [h] <;> decide
    have hu := gateDesc_touched hg hc
    rw [← hu.cpl] at hcd
    rw [deliver_gate (State.pe_of_prot hv) (idtGate_run hl hg hs ht hk hp) ht5]
    refine deliverGate_run (gateCode_run hn hc hcc hcp (.inr (BitVec.le_of_lt hcd))) ?_
    rw [deliverTo_inner ((hu.flag .vm).trans (State.vm_of_prot hv)) hcf hcd]
    refine deliverInner_run hss hr hlim hsw ?_ ha
    obtain ⟨_, _, _, _, _, _, rfl⟩ := hu
    exact hi

end Sys2Proof.Machine
end

section
/-! SUPPORT. Task switches: what the checks before the first store change, the two halves of a switch, the descriptors of
a TSS, and what makes a switch (R268 to R273, R604, R608, R645, R825). -/

namespace Sys2Proof.Machine

variable {s t u v z : State} {k : SwitchKind} {ext : Bool} {tss sel : Word} {new d g : Desc} {eip image : Dword}
  {x : Exc} {vec busy : Byte}

/-! ### The checks before the first store (R279) -/

/-- CR3 and the TLB are given back as they were. -/
theorem underTables_keeps {m : M Unit} (cr3 : Dword) (h : Keeps State.Walked State.Faulted m) :
    Keeps State.Walked State.Faulted (underTables cr3 m) := by
  have back {s t : State} {c : Dword} (ht : ({ ({ s with cr3 := cr3 } : State).flushTlb with cr2 := c } : State).Walked t) :
      ({ s with cr2 := c } : State).Walked { t with cr3 := s.cr3, tlb := s.tlb } := by
    obtain ⟨_, _, _, _, _, rfl⟩ := ht
    exact ⟨_, _, _, _, _, rfl⟩
  intro s
  unfold underTables
  cases e : m ({ s with cr3 := cr3 } : State).flushTlb with
  | ok a t => exact ⟨fun _ _ e' => by cases e'; exact back (c := s.cr2) (h.ok e), fun _ _ e' => nomatch e'⟩
  | error x t =>
    obtain ⟨c, ht⟩ := h.error e
    exact ⟨fun _ _ e' => (nomatch e'), fun _ _ e' => by cases e'; exact ⟨c, back ht⟩⟩

/-- Addresses that are translated for nothing but the exception. -/
theorem translateOnly_keeps (w u : Bool) (lins : List Dword) :
    Keeps State.Walked State.Faulted (do let _ ← translateAll w u lins; pure () : M Unit) :=
  keeps_bind steady_walked (translateAll_keeps w u lins) fun _ => keeps_pure steady_walked _

theorem precheckType_keeps (sel : Word) : Keeps State.Walked State.Faulted (precheckType sel) := by
  refine keeps_bind steady_walked (keeps_get steady_walked) fun s => ?_
  cases s.descAddr sel with
  | none => exact keeps_pure steady_walked _
  | some addr => exact translateOnly_keeps true false [addr + 5]

theorem precheckImage_keeps (new : Desc) : Keeps State.Walked State.Faulted (precheckImage new) :=
  translateOnly_keeps _ _ _

theorem precheckNew_keeps (new : Desc) : Keeps State.Walked State.Faulted (precheckNew new) := by
  refine keeps_bind steady_walked (keeps_get steady_walked) fun s => keeps_ite (fun _ => ?_) fun _ => precheckImage_keeps new
  exact keeps_bind steady_walked (translateAll_keeps _ _ _) fun _ =>
    keeps_bind steady_walked (keeps_get steady_walked) fun _ => underTables_keeps _ (precheckImage_keeps new)

/-- All that `precheckTask` changes is what translation changes. -/
theorem precheckTask_keeps (k : SwitchKind) (tss : Word) (new : Desc) :
    Keeps State.Walked State.Faulted (precheckTask k tss new) :=
  keeps_bind steady_walked (keeps_get steady_walked) fun _ =>
    keeps_bind steady_walked (translateAll_keeps _ _ _) fun _ =>
    keeps_bind steady_walked (keeps_when steady_walked (precheckType_keeps _)) fun _ =>
    keeps_bind steady_walked (keeps_when steady_walked (precheckType_keeps _)) fun _ =>
    keeps_bind steady_walked (keeps_when steady_walked (translateOnly_keeps _ _ _)) fun _ => precheckNew_keeps new

theorem State.Touched.tr (h : s.Touched t) : t.tr = s.tr := by
  obtain ⟨_, _, _, _, _, _, rfl⟩ := h
  rfl

theorem State.Touched.eflags (h : s.Touched t) : t.eflags = s.eflags := by
  obtain ⟨_, _, _, _, _, _, rfl⟩ := h
  rfl

/-! ### Out of a task (R270, R271) -/

/-- A TSS that is too short is refused in the old task. -/
theorem switchOut_short (h : new.limit.toNat < (if new.tss32 then 103 else 43)) :
    switchOut k ext tss new eip image s = .error (faultOf 10 (some (selCode ext tss))) s := by
  unfold switchOut
  rw [decide_eq_true h]
  rfl

theorem nt_cleared (v : Dword) : setBit v 14 false = v &&& 0xFFFFBFFF := rfl

theorem nests_iff : k.nests = true ↔ k = .call ∨ k = .int := by cases k <;> decide

theorem nests_false_iff : k.nests = false ↔ k = .jmp ∨ k = .iret := by cases k <;> decide

/-- JMP and IRET leave their task, so that its busy bit is cleared; CALL and an interrupt nest in it. -/
theorem clearBusyUnlessNested_run {old : Word} (h : if k = .jmp ∨ k = .iret then BusyCleared s old t else t = s) :
    when (!k.nests) (clearBusy old) s = .ok () t := by
  simp only [← nests_false_iff] at h
  cases hk : k.nests
  · rw [if_pos hk] at h
    exact clearBusy_run h
  · rw [if_neg (by simp [hk])] at h
    rw [h]
    rfl

theorem setBusyUnlessIret_run (h : if k = .iret then t = s
      else ∃ addr, s.descAddr tss = some addr ∧ SysPut s (addr + 5) 1 (new.d1.extractLsb' 8 8 ||| 2).toNat t) :
    when (k ≠ .iret) (setDescType tss new (new.typ ||| 2)) s = .ok () t := by
  by_cases hk : k = .iret
  · rw [if_pos hk] at h
    rw [h, hk]
    rfl
  · rw [if_neg hk] at h
    obtain ⟨addr, ha, h⟩ := h
    rw [decide_eq_true hk]
    exact setBusy_run ha h

theorem linkIfNested_run {old : Word} (h : if k = .call ∨ k = .int then
      SysPut s new.base (if new.tss32 then 4 else 2) old.toNat t else t = s) :
    when k.nests (writeBackLink new old) s = .ok () t := by
  simp only [← nests_iff] at h
  cases hk : k.nests
  · rw [if_neg (by simp [hk])] at h
    rw [h]
    rfl
  · rw [if_pos hk] at h
    exact writeBackLink_run h

/-- The old task is saved, the busy bits, TR, TS and the back link are written. -/
theorem switchOut_run {x₀ x₁ x₂ x₃ : State} (hl : (if new.tss32 then 103 else 43) ≤ new.limit.toNat)
    (hp : precheckTask k tss new s = .ok () x₀)
    (hs : TaskSaved x₀ eip (if k = .iret then image &&& 0xFFFFBFFF else image) x₁)
    (hc : if k = .jmp ∨ k = .iret then BusyCleared x₁ s.tr.sel x₂ else x₂ = x₁)
    (hb : if k = .iret then x₃ = x₂
      else ∃ addr, x₂.descAddr tss = some addr ∧ SysPut x₂ (addr + 5) 1 (new.d1.extractLsb' 8 8 ||| 2).toNat x₃)
    (hk : if k = .call ∨ k = .int then
        SysPut (x₃.taskSwitched tss new) new.base (if new.tss32 then 4 else 2) s.tr.sel.toNat t
      else t = x₃.taskSwitched tss new) :
    switchOut k ext tss new eip image s = .ok () t := by
  have htr : x₀.tr = s.tr := ((precheckTask_keeps _ _ _).ok hp).touched.tr
  unfold switchOut
  rw [when_pos_false (Nat.not_lt.2 hl), M_pure_bind, M_bind_ok hp, M_get_bind, nt_cleared,
    M_bind_ok (saveTask_run hs), htr, M_bind_ok (clearBusyUnlessNested_run hc),
    M_bind_ok (setBusyUnlessIret_run hb), M_modify_bind]
  exact committed_ok (linkIfNested_run hk)

/-! ### Into a task (R272, R273) -/

/-- CR3 is read from an 80386 TSS under paging, and the TLB emptied. -/
theorem loadTables_run (h : if new.tss32 = true ∧ s.pg = true then ∃ v x, SysGet s (new.base + 0x1C) 4 v x ∧
      t = { x with cr3 := BitVec.ofNat 32 v &&& cr3Mask, tlb := x.tlb.map fun e => { e with v := false } }
    else t = s) : loadTables new s = .ok () t := by
  unfold loadTables
  rw [M_get_bind]
  by_cases hc : new.tss32 = true ∧ s.pg = true
  · rw [if_pos hc] at h
    obtain ⟨v, x, hg, rfl⟩ := h
    rw [if_pos (by rw [hc.1, hc.2]; rfl), M_bind_ok (sysRead32_run hg)]
    rfl
  · rw [if_neg hc] at h
    rw [if_neg (by rwa [Bool.and_eq_true]), h]
    rfl

theorem fixFlags_vm (v : Dword) : bitOf (fixFlags v) 17 = v.getLsbD 17 := by
  simp [fixFlags, eflagsMask, bitOf]

/-- VM decides the CPL of a task, whatever its switch does to NT. -/
theorem loadImage_cpl (s : State) (k : SwitchKind) (i : TssImage) :
    (s.loadImage k i).cpl = if i.eflags.getLsbD 17 then 3 else selRpl i.cs := by
  have hnt (b : Bool) : bitOf (setBit (fixFlags i.eflags) 14 b) 17 = bitOf (fixFlags i.eflags) 17 :=
    bitOf_setBit _ _ _ _ (by decide)
  rw [← fixFlags_vm]
  cases k with
  | jmp => rw [← hnt false]; rfl
  | call => rw [← hnt true]; rfl
  | int => rw [← hnt true]; rfl
  | iret => rfl

theorem committed_error {α : Type} {m : M α} (h : m s = .error x t) :
    committed m s = .error { x with committed := true } t := by
  unfold committed
  rw [h]

/-- Neither CR3 nor what is read from the TSS says whether this is protected mode. -/
theorem incoming_pe {i : TssImage} (ht : loadTables new s = .ok () t) (hi : TssIs t new i u) : u.pe = s.pe :=
  congrArg Mode.pe (((loadTables_tame new).ok ht).trans ((readTss_tame new).ok (readTss_run hi))).mode

section
variable {i : TssImage} (hp : s.pe = true) (ht : loadTables new s = .ok () t) (hi : TssIs t new i u)
include hp ht hi

theorem switchIn_run (hl : LdtLoad (u.loadImage k i) i.ldt v) (hs : TaskSegs v i z) :
    switchIn k ext new s = .ok () (z.taskDebug i.trap) := by
  have hpe : (u.loadImage k i).pe = true := (incoming_pe ht hi).trans hp
  refine committed_ok ?_
  rw [M_bind_ok ht, M_bind_ok (readTss_run hi), M_modify_bind, M_bind_ok (checkTaskSegs_run hpe hl hs)]
  rfl

theorem switchIn_refused (hr : TaskRefused (u.loadImage k i) ext i x v) :
    switchIn k ext new s = .error { x with committed := true } v := by
  have hpe : (u.loadImage k i).pe = true := (incoming_pe ht hi).trans hp
  refine committed_error ?_
  rw [M_bind_ok ht, M_bind_ok (readTss_run hi), M_modify_bind]
  exact M_bind_error (checkTaskSegs_refused hpe hr)

end

/-- The end of a switch: EIP lies within the limit of the new CS (R270). -/
theorem checkTaskEip_run (h : inLimit s.cs s.eip 1 = true) : checkTaskEip s = .ok () s := by
  refine committed_ok ?_
  rw [M_get_bind, h]
  rfl

/-! ### TSS descriptors (R268) -/

theorem gateTaskDesc_null (h : nullSel tss = true) :
    gateTaskDesc vec busy ext tss s = .error (faultOf vec (some 0)) s := M_bind_error (taskDesc_null h)

theorem gateTaskDesc_ti (h : nullSel tss = false) (hi : selTi tss = true) :
    gateTaskDesc vec busy ext tss s = .error (faultOf vec (some (selCode ext tss))) s := M_bind_error (taskDesc_ti h hi)

theorem taskDesc_run (h : nullSel tss = false) (hi : selTi tss = false) (hd : fetchDesc tss s = .ok (some d) t) :
    taskDesc vec ext tss s = .ok d t := by
  rw [taskDesc_eq h hi]
  exact fetchDescOr_run hd

theorem gateTaskDesc_run (h : nullSel tss = false) (hi : selTi tss = false) (hd : fetchDesc tss s = .ok (some d) t)
    (ha : d.availTss = true) (hp : d.p = true) : gateTaskDesc vec busy ext tss s = .ok d t := by
  unfold gateTaskDesc
  rw [M_bind_ok (taskDesc_run h hi hd), ha, Bool.not_true, when_false, M_pure_bind, hp]
  rfl

/-! ### JMP and CALL (R268, R604, R608) -/

theorem Desc.isTaskGate_iff : d.isTaskGate = true ↔ d.s = false ∧ d.typ = 5 := by
  rw [Desc.isTaskGate, Bool.and_eq_true, Bool.not_eq_true', beq_iff_eq]

theorem Desc.availTss_iff : d.availTss = true ↔ d.s = false ∧ (d.typ = 1 ∨ d.typ = 9) := by
  rw [Desc.availTss, Bool.and_eq_true, Bool.not_eq_true', Bool.or_eq_true, beq_iff_eq, beq_iff_eq]

/-- A task gate or a TSS is neither code nor a call gate. -/
theorem Desc.switches_kind (h : d.isTaskGate = true ∨ d.availTss = true) : d.isCode = false ∧ d.isCallGate = false := by
  rw [Desc.isTaskGate_iff, Desc.availTss_iff] at h
  rcases h with ⟨hs, ht⟩ | ⟨hs, ht | ht⟩ <;> exact ⟨isCode_false hs, by rw [Desc.isCallGate, ht]; simp⟩

theorem farTss_tss (h1 : s.cpl ≤ d.dpl) (h2 : selRpl sel ≤ d.dpl) (h3 : d.p = true) (hi : selTi sel = false)
    (ha : d.availTss = true) : farTss sel d s = .ok (sel, d) s := by
  have hg : d.isTaskGate = false := by
    obtain ⟨-, ht | ht⟩ := Desc.availTss_iff.1 ha <;> rw [Desc.isTaskGate, ht] <;> simp
  have hp : (decide (d.dpl < s.cpl) || decide (d.dpl < selRpl sel)) = false := by
    simp [BitVec.not_lt.2 h1, BitVec.not_lt.2 h2]
  unfold farTss
  rw [hg, if_neg Bool.false_ne_true, gatePrivilege_bind, hp, when_false, M_pure_bind, hi, ha, h3]
  rfl

section
variable (h1 : s.cpl ≤ d.dpl) (h2 : selRpl sel ≤ d.dpl) (h3 : d.p = true) (hg : d.isTaskGate = true)
include h1 h2 h3 hg

theorem farTss_gate (h : gateTaskDesc 13 13 false d.gateSel s = .ok new t) : farTss sel d s = .ok (d.gateSel, new) t := by
  unfold farTss
  rw [if_pos hg, M_bind_ok (checkGate_run h1 h2 h3), M_bind_ok h]
  rfl

theorem farTss_gate_error (h : gateTaskDesc 13 13 false d.gateSel s = .error x t) : farTss sel d s = .error x t := by
  unfold farTss
  rw [if_pos hg, M_bind_ok (checkGate_run h1 h2 h3)]
  exact M_bind_error h

end

theorem farTask_run (hd : farTss sel d s = .ok (tss, new) t)
    (hs : switchTasks k false tss new t.nextEip t.eflags t = .ok () u) (hl : inLimit u.cs u.eip 1 = true) :
    farTask k sel d s = .ok .wentKeepRf u := by
  refine (M_bind_ok hd).trans ?_
  dsimp only
  rw [M_get_bind, M_bind_ok hs, M_bind_ok (checkTaskEip_run hl)]
  rfl

theorem farTask_error (h : farTss sel d s = .error x t) : farTask k sel d s = .error x t := M_bind_error h

section
variable {w : Width} {off : Dword} (hn : nullSel sel = false) (hd : fetchDesc sel s = .ok (some d) t)
  (hk : d.isTaskGate = true ∨ d.availTss = true)
include hn hd hk

theorem jmpProt_task : jmpProt sel off s = farTask .jmp sel d t := by
  obtain ⟨hc, hg⟩ := Desc.switches_kind hk
  have hs : (d.isTaskGate || d.availTss || d.busyTss) = true := by rcases hk with h | h <;> simp [h]
  unfold jmpProt
  rw [hn, when_false, M_pure_bind, M_bind_ok (fetchDescOr_run hd), hc, if_neg Bool.false_ne_true, hg,
    if_neg Bool.false_ne_true, if_pos hs]

theorem callProt_task : callProt w sel off s = farTask .call sel d t := by
  obtain ⟨hc, hg⟩ := Desc.switches_kind hk
  have hs : (d.isTaskGate || d.availTss || d.busyTss) = true := by rcases hk with h | h <;> simp [h]
  unfold callProt
  rw [hn, when_false, M_pure_bind, M_bind_ok (fetchDescOr_run hd), hc, if_neg Bool.false_ne_true, hg,
    if_neg Bool.false_ne_true, if_pos hs]

end

/-! ### Interrupts and exceptions (R825, R917) -/

/-- Two selectors name the same descriptor where they differ in RPL only. -/
theorem selBase_eq_iff (a b : Word) : a &&& 0xFFFC = b &&& 0xFFFC ↔ a.toNat / 4 = b.toNat / 4 := by
  have mask (v : Word) : (v &&& 0xFFFC).toNat = v.toNat / 4 * 4 := maskHigh_toNat (k := 2) (by decide) v
  rw [← BitVec.toNat_inj, mask, mask]
  omega

theorem busyVec_eq (e : Event) (s : State) (tss : Word) : e.busyVec s tss =
    if e.taskTrap = true ∧ tss.toNat / 4 = s.tr.sel.toNat / 4 then 13 else 10 := by
  unfold Event.busyVec
  simp only [selBase_eq_iff]

theorem taskCode_run {w : Width} {code : Option Word} (h : Items s.user w s (code.map Item.sel).toList z) :
    taskCode w code s = .ok () z := by
  unfold taskCode
  rw [M_get_bind]
  unfold pushCode
  cases code with
  | none =>
    obtain rfl := Items_nil h
    rfl
  | some c =>
    obtain ⟨_, e, h⟩ := pushSel_bind (f := pure) h
    obtain rfl := Items_nil h
    simpa using e

section
variable {e : Event}

theorem deliverTask_error (h : gateTaskDesc 10 (e.busyVec s tss) e.kind.ext tss s = .error x t) :
    deliverTask e tss s = .error x t := by
  unfold deliverTask
  rw [M_get_bind]
  exact M_bind_error h

theorem deliverTask_run (hd : gateTaskDesc 10 (e.busyVec s tss) e.kind.ext tss s = .ok new t)
    (hs : switchTasks .int e.kind.ext tss new e.ret (e.image t) t = .ok () u)
    (hi : Items u.user (sizeW new.tss32) u (e.code.map Item.sel).toList z) (hl : inLimit z.cs z.eip 1 = true) :
    deliverTask e tss s = .ok () z := by
  unfold deliverTask
  rw [M_get_bind]
  refine (M_bind_ok hd).trans ?_
  rw [M_get_bind, M_bind_ok hs, M_bind_ok (committed_ok (taskCode_run hi))]
  exact checkTaskEip_run hl

end

/-! ### IRET with NT = 1 (R645) -/

section
variable {link : Nat} (hg : SysGet s s.tr.base 2 link t) (htss : BitVec.ofNat 16 link = tss)
include hg htss

theorem iretTask_link : iretTask s = (do
    let d ← taskDesc 10 false tss
    when (!(d.availTss || d.busyTss)) (raiseSel 10 tss false)
    when (!d.busyTss) (raiseSel 10 tss false)
    when (!d.p) (raiseSel 11 tss false)
    switchTasks .iret false tss d s.nextEip s.eflags
    checkTaskEip : M Unit) t := by
  unfold iretTask
  rw [M_get_bind, M_bind_ok (sysRead16_run hg), htss]

theorem iretTask_null (hn : nullSel tss = true) : iretTask s = .error (faultOf 10 (some 0)) t := by
  rw [iretTask_link hg htss]
  exact M_bind_error (taskDesc_null hn)

variable (hn : nullSel tss = false)
include hn

theorem iretTask_ti (hi : selTi tss = true) : iretTask s = .error (faultOf 10 (some (selCode false tss))) t := by
  rw [iretTask_link hg htss]
  exact M_bind_error (taskDesc_ti hn hi)

variable (hi : selTi tss = false)
include hi

theorem iretTask_refused (hr : Refused t tss 10 false (fun d => [(!d.busyTss, 10), (!d.p, 11)]) x u) :
    iretTask s = .error x u := by
  rw [iretTask_link hg htss, taskDesc_eq hn hi]
  refine fetch_refused hr fun d v u _ hv => ?_
  have hv : firstFault [(!(d.availTss || d.busyTss), 10), (!d.busyTss, 10), (!d.p, 11)] = some v := by
    rw [← hv]
    cases d.availTss <;> cases d.busyTss <;> rfl
  exact fault_first hv fun hv => fault_first hv fun hv => fault_first hv fault_none

theorem iretTask_run (hd : fetchDesc tss t = .ok (some new) u) (hb : new.busyTss = true) (hp : new.p = true)
    (hs : switchTasks .iret false tss new s.nextEip s.eflags u = .ok () v) (hl : inLimit v.cs v.eip 1 = true) :
    iretTask s = .ok () v := by
  rw [iretTask_link hg htss, M_bind_ok (taskDesc_run hn hi hd), hb, hp, Bool.or_true, Bool.not_true, when_false, M_pure_bind,
    M_pure_bind, when_false, M_pure_bind, M_bind_ok hs]
  exact checkTaskEip_run hl

end

section
variable {i : Instr} (hi : i = .iret ∨ i = .iretd) (hp : s.prot = true) (hnt : s.flag .nt = true)
include hi hp hnt

/-- In protected mode with NT = 1 either IRET returns to the task of the back link (R640). -/
theorem exec_iret_task : exec i s =
    instr (do modify (fun s => { s with nmiMask := false }); iretTask; pure .wentKeepRf) s := by
  have hby (w : Width) : iretBy w { s.begun with nmiMask := false } = iretTask { s.begun with nmiMask := false } := by
    have hpe : ({ s.begun with nmiMask := false } : State).pe = true := State.pe_of_prot hp
    have hvm : ({ s.begun with nmiMask := false } : State).flag .vm = false := State.vm_of_prot hp
    have hnt : ({ s.begun with nmiMask := false } : State).flag .nt = true := hnt
    unfold iretBy
    simp only [M_get_bind, hpe, hvm, hnt, Bool.not_true, Bool.false_eq_true, if_false, if_true]
  have hret (w : Width) : runM (ireturn w) s =
      runM (do modify (fun s => { s with nmiMask := false }); iretTask; pure .wentKeepRf) s := by
    unfold runM ireturn
    rw [M_modify_bind, M_modify_bind, M_bind_congr _ (hby w)]
  rcases hi with rfl | rfl
  · exact congrArg Host.Outcome.next (hret .w16)
  · exact congrArg Host.Outcome.next (hret .d32)

theorem exec_iret_task_ok (h : iretTask { s.begun with nmiMask := false } = .ok () t) :
    exec i s = .next (finish s .wentKeepRf t) := by
  rw [exec_iret_task hi hp hnt]
  exact instr_ok ((M_modify_bind ..).trans ((M_bind_ok h).trans rfl))

theorem exec_iret_task_error (h : iretTask { s.begun with nmiMask := false } = .error x t) :
    exec i s = .next (abandon s x t) := by
  rw [exec_iret_task hi hp hnt]
  exact instr_error ((M_modify_bind ..).trans (M_bind_error h))

end

end Sys2Proof.Machine
end

section
/-! O47: the task switch. -/

namespace Sys2Proof.Machine

/-- Settles O47: the two halves of a switch, what refuses it in the old and in the new task, and what makes one. -/
theorem taskSwitch : Obligations.TaskSwitch := by
  refine ⟨fun s k ext tss new eip image x₀ x₁ x₂ x₃ x₄ t hl hp hs hc hb h4 hk => ?_,
    fun s k ext new i x₀ x₁ x₂ x₃ x₄ hp ht hi h2 hl hs => ?_,
    fun s t u k ext tss new eip image ho hi => (M_bind_ok ho).trans hi,
    fun s k ext tss new eip image h => M_bind_error (switchOut_short h),
    fun s k ext tss new eip image i x₀ x₁ x₂ u x hp ho ht hi hr => (M_bind_ok ho).trans (switchIn_refused hp ht hi hr),
    fun s vec busy ext tss => ⟨gateTaskDesc_null, gateTaskDesc_ti, fun x t => gateTaskDesc_refused⟩,
    fun s f w sel off d t u v x hp hf hn hd h1 h2 h3 hg h => ?_,
    fun s e g t u x hp hl hg hgf ht h => ?_,
    fun s i tss t hi hp hnt hg => ?_,
    fun s f w sel tss off d new t u u' v hp hf hn hd h1 h2 h3 hk hl => ?_,
    fun s e g new t u v z hp hl hg hs ht hk hgp hn hi hd ha hnp hsw hit hlim => ?_,
    fun s i link new t u v hi hp hnt hg hn hti hd hb hnp hsw hl => ?_⟩
  · obtain rfl : x₄ = x₃.taskSwitched tss new := h4
    exact switchOut_run hl hp hs hc hb hk
  · obtain rfl : x₂ = x₁.loadImage k i := by
      rw [h2, ← loadImage_cpl x₁ k i]
      cases k <;> rfl
    exact switchIn_run hp (loadTables_run ht) hi hl hs
  · have h1 : u.cpl ≤ d.dpl := (hf.fetch_touched hd).cpl ▸ h1
    have herr (k : SwitchKind) : farTask k sel d u = .error x v := farTask_error (farTss_gate_error h1 h2 h3 hg h)
    exact ⟨exec_jmpFar_error hp hf ((jmpProt_task hn hd (.inl hg)).trans (herr .jmp)),
      exec_callFar_error hp hf ((callProt_task hn hd (.inl hg)).trans (herr .call))⟩
  · rw [deliver_task hp (idtGate_passes hl hg hgf) ht]
    exact deliverTask_error ((busyVec_eq e t g.gateSel).symm ▸ h)
  · have htss : BitVec.ofNat 16 tss.toNat = tss := BitVec.ofNat_toNat ..
    exact ⟨fun hn => exec_iret_task_error hi hp hnt (iretTask_null hg htss hn),
      fun hn hti => exec_iret_task_error hi hp hnt (iretTask_ti hg htss hn hti),
      fun x u hn hti hr => exec_iret_task_error hi hp hnt (iretTask_refused hg htss hn hti hr)⟩
  · have hu := hf.fetch_touched hd
    have h1 : u.cpl ≤ d.dpl := hu.cpl ▸ h1
    obtain ⟨hkind, hfar, hu'⟩ : (d.isTaskGate = true ∨ d.availTss = true) ∧ farTss sel d u = .ok (tss, new) u' ∧
        s.begun.Touched u' := by
      rcases hk with ⟨hti, ha, rfl, rfl, rfl⟩ | ⟨hg, rfl, hn', hti, hd', ha, hnp⟩
      · exact ⟨.inr ha, farTss_tss h1 h2 h3 hti ha, hu⟩
      · exact ⟨.inl hg, farTss_gate h1 h2 h3 hg (gateTaskDesc_run hn' hti hd' ha hnp),
          hu.trans (fetchDesc_walked hd').touched⟩
    have hrun {k : SwitchKind} (hs : switchTasks k false tss new s.nextEip s.eflags u' = .ok () v) :
        farTask k sel d u = .ok .wentKeepRf v := by
      refine farTask_run hfar ?_ hl
      rw [hu'.nextEip, hu'.eflags]
      exact hs
    exact ⟨fun hs => exec_jmpFar_ok hp hf ((jmpProt_task hn hd hkind).trans (hrun hs)),
      fun hs => exec_callFar_ok hp hf ((callProt_task hn hd hkind).trans (hrun hs))⟩
  · rw [deliver_task hp (idtGate_run hl hg hs (.inl ht) hk hgp) ht]
    refine deliverTask_run (gateTaskDesc_run hn hi hd ha hnp) ?_ hit hlim
    rw [Event.image, (gateDesc_touched hg hd).eflags]
    exact hsw
  · exact exec_iret_task_ok hi hp hnt (iretTask_run hg rfl hn hti hd hb hnp hsw hl)

end Sys2Proof.Machine
end

section
/-! SUPPORT. Ports: the byte ports of an operand and the bytes at them (R300), what the permission map changes and answers
(R307), and one element of INS and OUTS (R672, R673). -/

namespace Sys2Proof.Machine

variable {s t u : State} {w : Width} {port : Word} {a : StrAttr}

/-! ### Byte ports and their bytes (R300, R301) -/

/-- The byte ports of an operand follow its port, modulo 2^16. -/
theorem ports_eq_map (port : Word) (n : Nat) : ports port n = (List.range n).map fun i => port + BitVec.ofNat 16 i := by
  induction n generalizing port with
  | zero => rfl
  | succ n ih =>
    have next (i : Nat) : port + 1#16 + BitVec.ofNat 16 i = port + BitVec.ofNat 16 (i + 1) := by
      rw [Nat.add_comm i 1, BitVec.ofNat_add, BitVec.add_assoc]
    rw [ports, ih, List.range_succ_eq_map]
    simp [next]

/-- Byte `i` of a value is its bits from `8 * i` on (R91). -/
theorem bytesOf_toNat {m : Nat} (v : BitVec m) (n : Nat) :
    bytesOf n v.toNat = (List.range n).map fun i => v.extractLsb' (8 * i) 8 := by
  have bytes (k : Nat) : bytesOf n k = (List.range n).map fun i => BitVec.ofNat 8 (k / 256 ^ i) := by
    induction n generalizing k with
    | zero => rfl
    | succ n ih =>
      rw [bytesOf, ih, List.range_succ_eq_map, List.map_cons, List.map_map]
      simp [Function.comp_def, Nat.div_div_eq_div_mul, Nat.pow_succ, Nat.mul_comm]
  rw [bytes]
  refine List.map_congr_left fun i _ => BitVec.eq_of_toNat_eq ?_
  rw [BitVec.toNat_ofNat, field_toNat, Nat.pow_mul]

theorem natOfBytes_lt (bs : List Byte) : natOfBytes bs < 256 ^ bs.length := by
  induction bs with
  | nil => decide
  | cons b bs ih =>
    have hb := b.isLt
    rw [natOfBytes, List.length_cons, Nat.pow_succ]
    omega

/-- Bytes come back from the number they make (R91). -/
theorem bytesOf_natOfBytes (bs : List Byte) : bytesOf bs.length (natOfBytes bs) = bs := by
  induction bs with
  | nil => rfl
  | cons b bs ih =>
    have hb := b.isLt
    have low : BitVec.ofNat 8 (b.toNat + 256 * natOfBytes bs) = b := BitVec.eq_of_toNat_eq (by
      rw [BitVec.toNat_ofNat]
      omega)
    have high : (b.toNat + 256 * natOfBytes bs) / 256 = natOfBytes bs := by omega
    rw [List.length_cons, natOfBytes, bytesOf, low, high, ih]

/-! ### Transfers (R300, D36) -/

/-- Whether in one access or several, every byte goes to its byte port, the lowest first. -/
theorem portTransfers_flatten (port : Word) (w : Width) (v : BitVec w.bits) :
    (portTransfers port (bytesOf w.bytes v.toNat)).flatten =
      (List.range w.bytes).map fun i => (port + BitVec.ofNat 16 i, v.extractLsb' (8 * i) 8) := by
  have items : (ports port (bytesOf w.bytes v.toNat).length).zip (bytesOf w.bytes v.toNat) =
      (List.range w.bytes).map fun i => (port + BitVec.ofNat 16 i, v.extractLsb' (8 * i) 8) := by
    rw [bytesOf_length, ports_eq_map, bytesOf_toNat, List.zip_map']
  unfold portTransfers
  dsimp only
  rw [items]
  split
  · exact List.flatten_singleton
  · rw [← List.flatMap_def, List.flatMap_singleton']

theorem portTransfers_aligned {bs : List Byte} (h : port.toNat % bs.length = 0) : (portTransfers port bs).length = 1 := by
  unfold portTransfers
  rw [if_pos h]
  rfl

theorem portTransfers_unaligned {bs : List Byte} (h : port.toNat % bs.length ≠ 0) :
    ∀ x ∈ portTransfers port bs, x.length = 1 := by
  unfold portTransfers
  rw [if_neg h]
  intro x hx
  obtain ⟨_, -, rfl⟩ := List.mem_map.1 hx
  rfl

/-! ### What the ports answer (R301) -/

/-- Each byte port answers the byte placed for it, or what answers there else. -/
theorem portAnswers_getElem? (k : Nat) (given : List Byte) (ps : List Word) (i : Nat) :
    (portAnswers k given ps)[i]? = ps[i]?.map fun p => given[i]?.getD (Config.ioNothing k p) := by
  induction ps generalizing given i with
  | nil => cases given <;> rfl
  | cons p ps ih => cases given <;> cases i <;> simp [portAnswers, ih]

theorem portAnswers_length (k : Nat) (given : List Byte) (ps : List Word) : (portAnswers k given ps).length = ps.length := by
  induction ps generalizing given with
  | nil => cases given <;> rfl
  | cons p ps ih => cases given <;> simp [portAnswers, ih]

theorem ioNext_length (s : State) (port : Word) (w : Width) : (s.ioNext port w).length = w.bytes := by
  rw [State.ioNext, portAnswers_length, ports_eq_map, List.length_map, List.length_range]

theorem ioNext_getElem? {i : Nat} (hi : i < w.bytes) : (s.ioNext port w)[i]? =
    some ((s.ioInput[i]?).getD (Config.ioNothing s.ioLog.length (port + BitVec.ofNat 16 i))) := by
  rw [State.ioNext, portAnswers_getElem?, ports_eq_map, List.getElem?_map, List.getElem?_range hi]
  rfl

/-- The bytes found are those of the value read. -/
theorem bytesOf_ioValue (s : State) (port : Word) (w : Width) : bytesOf w.bytes (s.ioValue port w).toNat = s.ioNext port w := by
  have fits : natOfBytes (s.ioNext port w) < 2 ^ w.bits := by
    have h := natOfBytes_lt (s.ioNext port w)
    rw [ioNext_length] at h
    cases w <;> exact h
  rw [State.ioValue, BitVec.toNat_ofNat, Nat.mod_eq_of_lt fits, ← ioNext_length s port w, bytesOf_natOfBytes]

theorem ioValue_byte {i : Nat} (hi : i < w.bytes) : (s.ioValue port w).extractLsb' (8 * i) 8 =
    (s.ioInput[i]?).getD (Config.ioNothing s.ioLog.length (port + BitVec.ofNat 16 i)) := by
  have h := ioNext_getElem? (s := s) (port := port) hi
  rw [← bytesOf_ioValue, bytesOf_toNat, List.getElem?_map, List.getElem?_range hi] at h
  exact Option.some.inj h

/-! ### The permission map (R307, R309) -/

theorem ioMapped_iff (s : State) : s.ioMapped = true ↔ s.pe = true ∧ (s.flag .vm = true ∨ s.iopl < s.cpl) := by
  simp only [State.ioMapped, Bool.and_eq_true, Bool.or_eq_true, decide_eq_true_eq]

theorem ioMapAllows_run {base n : Nat} {r : Bool} (h : PortBits base s (ports port n) r u) :
    ioMapAllows base n port s = .ok r u := by
  induction n generalizing s port with
  | zero =>
    cases h
    rfl
  | succ n ih =>
    unfold ioMapAllows
    rw [M_get_bind]
    cases h with
    | beyond h =>
      rw [if_pos h]
      rfl
    | denied h hg hb =>
      rw [if_neg (by omega), M_bind_ok (sysRead8_run hg), BitVec.ofNat_toNat, BitVec.setWidth_eq, if_pos hb]
      rfl
    | allowed h hg hb hs =>
      rw [if_neg (by omega), M_bind_ok (sysRead8_run hg), BitVec.ofNat_toNat, BitVec.setWidth_eq,
        if_neg (Bool.eq_false_iff.1 hb)]
      exact ih hs

/-- An 80286 TSS has no map. -/
theorem ioPermission_tss286 (n : Nat) (h : s.tr.is386 = false) : ioPermission port n s = .ok false s := by
  unfold ioPermission
  rw [M_get_bind, h]
  rfl

section
variable {base : Word} {n : Nat} (hk : s.tr.is386 = true) (hg : SysGet s (s.tr.base + 0x66) 2 base.toNat t)
include hk hg

/-- With the base of the map read, its place in the TSS decides, or its bits do. -/
theorem ioPermission_based : ioPermission port n s =
    (if t.tr.limit.toNat ≤ base.toNat then pure false else ioMapAllows base.toNat n port : M Bool) t := by
  unfold ioPermission
  rw [M_get_bind, hk, if_neg (by decide), M_bind_ok (sysRead16_run hg), BitVec.ofNat_toNat, BitVec.setWidth_eq, hg.touched.tr]

theorem ioPermission_beyond (hl : t.tr.limit.toNat ≤ base.toNat) : ioPermission port n s = .ok false t := by
  rw [ioPermission_based hk hg, if_pos hl]
  rfl

theorem ioPermission_bits {r : Bool} (hl : base.toNat < t.tr.limit.toNat) (hb : PortBits base.toNat t (ports port n) r u) :
    ioPermission port n s = .ok r u := by
  rw [ioPermission_based hk hg, if_neg (by omega)]
  exact ioMapAllows_run hb
end

/-- A port denied by the map (R309). -/
theorem checkIo_denied (hm : s.ioMapped = true) (hp : ioPermission port w.bytes s = .ok false t) :
    checkIo port w s = .error (faultOf 13 (some 0)) t := by
  unfold checkIo
  rw [M_get_bind, hm, if_pos rfl, M_bind_ok hp]
  rfl

/-! ### What the permission map and the checks of a write change -/

theorem linRead_keeps (lin : Dword) (n : Nat) (u : Bool) : Keeps State.Walked State.Faulted (linRead lin n u) :=
  keeps_bind steady_walked (translateAll_keeps _ _ _) fun _ => physRead_keeps _

theorem sysRead8_keeps (lin : Dword) : Keeps State.Walked State.Faulted (sysRead8 lin) :=
  keeps_bind steady_walked (linRead_keeps _ _ _) fun _ => keeps_pure steady_walked _

theorem sysRead16_keeps (lin : Dword) : Keeps State.Walked State.Faulted (sysRead16 lin) :=
  keeps_bind steady_walked (linRead_keeps _ _ _) fun _ => keeps_pure steady_walked _

theorem ioMapAllows_keeps (base n : Nat) (port : Word) : Keeps State.Walked State.Faulted (ioMapAllows base n port) := by
  induction n generalizing port with
  | zero => exact keeps_pure steady_walked _
  | succ n ih =>
    exact keeps_bind steady_walked (keeps_get steady_walked) fun _ => keeps_ite (fun _ => keeps_pure steady_walked _) fun _ =>
      keeps_bind steady_walked (sysRead8_keeps _) fun _ => keeps_ite (fun _ => keeps_pure steady_walked _) fun _ => ih _

theorem ioPermission_keeps (port : Word) (n : Nat) : Keeps State.Walked State.Faulted (ioPermission port n) :=
  keeps_bind steady_walked (keeps_get steady_walked) fun _ => keeps_ite (fun _ => keeps_pure steady_walked _) fun _ =>
    keeps_bind steady_walked (sysRead16_keeps _) fun _ =>
    keeps_ite (fun _ => keeps_pure steady_walked _) fun _ => ioMapAllows_keeps _ _ _

theorem State.Touched.idx (h : s.Touched t) (asz : Width) (r : Reg) : t.idx asz r = s.idx asz r := by
  obtain ⟨_, _, _, _, _, _, rfl⟩ := h
  rfl

theorem PortOk.touched (h : PortOk s port w t) : s.Touched t := by
  cases h with
  | free h => exact .refl s
  | mapped t h hp => exact ((ioPermission_keeps _ _).ok hp).touched

/-- Where the checks of a write pass, those of its segment do. -/
theorem memWriteCheck_segOk {priv : Bool} {sr : SReg} {off : Dword} {n : Nat}
    (h : memWriteCheck priv sr off n s = .ok () t) : s.segOk sr off n true = true := by
  cases hs : s.segOk sr off n true with
  | true => rfl
  | false =>
    unfold memWriteCheck at h
    rw [M_bind_error (checkSeg_error hs)] at h
    cases h

theorem memWriteCheck_touched {priv : Bool} {sr : SReg} {off : Dword} {n : Nat}
    (h : memWriteCheck priv sr off n s = .ok () t) : s.Touched t := by
  have hs := memWriteCheck_segOk h
  unfold memWriteCheck at h
  rw [M_bind_ok (checkSeg_ok hs), M_get_bind] at h
  obtain ⟨_, _, hp, h⟩ := M_bind_ok_inv h
  cases h
  exact ((translateAll_keeps _ _ _).ok hp).touched

/-! ### One element of INS and OUTS (R672, R673) -/

/-- The destination's checks come before the port is read; the read changes nothing that they look at. -/
theorem insOnce_run {put : BitVec w.bits → State} (hp : PortOk s (s.reg .w16 .edx) w t)
    (hc : memWriteCheck s.user .es (s.idx a.asz .edi) w.bytes t = .ok () u)
    (h : StrPut (u.ioTook (s.reg .w16 .edx) w) w a put) :
    insOnce w a s = .ok () ((put (u.ioValue (s.reg .w16 .edx) w)).stepIdx a.asz .edi w.bytes) := by
  have hi : u.idx a.asz .edi = s.idx a.asz .edi := (hp.touched.trans (memWriteCheck_touched hc)).idx _ _
  have hf : blockFits (a.asz = .d32) (s.idx a.asz .edi) w.bytes = true := by
    cases h with
    | mk pas t hf h => exact hi ▸ hf
  unfold insOnce
  rw [M_get_bind, M_bind_ok (checkIo_run hp), M_bind_ok (checkElement_run (memWriteCheck_segOk hc) hf), M_bind_ok hc,
    M_bind_ok (ioRead_run ..), M_bind_ok (writeDst_run _ h), stepDst_run]

theorem outsOnce_run {x : BitVec w.bits} (hp : PortOk s (s.reg .w16 .edx) w t) (h : StrSrc t w a x u) :
    outsOnce w a s = .ok () ((u.ioGave (s.reg .w16 .edx) w x).stepIdx a.asz .esi w.bytes) := by
  unfold outsOnce
  rw [M_get_bind, M_bind_ok (checkIo_run hp), M_bind_ok (readSrc_run h)]
  rfl

section
variable (hm : s.ioMapped = true) (hp : ioPermission (s.reg .w16 .edx) w.bytes s = .ok false t)
include hm hp

theorem insOnce_denied : insOnce w a s = .error (faultOf 13 (some 0)) t := by
  unfold insOnce
  rw [M_get_bind]
  exact M_bind_error (checkIo_denied hm hp)

theorem outsOnce_denied : outsOnce w a s = .error (faultOf 13 (some 0)) t := by
  unfold outsOnce
  rw [M_get_bind]
  exact M_bind_error (checkIo_denied hm hp)
end

/-- A primitive of a string instruction that raises an exception, where one iteration is made (R690). -/
theorem strStep_error {compares : Bool} {m : M Unit} {x : Exc} (h : m s.begun = .error x t)
    (hr : a.rep = .none ∨ s.idx a.asz .ecx ≠ 0) : instr (strStep a compares m) s = .next (abandon s x t) := by
  refine instr_error ?_
  unfold strStep
  by_cases hn : a.rep = .none
  · rw [if_pos hn]
    exact M_bind_error h
  · rw [if_neg hn, M_get_bind, State.begun_idx, if_neg (hr.resolve_left hn)]
    exact M_bind_error h

end Sys2Proof.Machine
end

section
/-! O33: IN, OUT, INS and OUTS. -/

namespace Sys2Proof.Machine

variable {s t : State} {f : IoForm} {w : Width} {port : Word}

theorem exec_inp_eq (hf : s.ioForm f = (w, port)) : exec (.inp f) s =
    plain (do checkIo port w; writeReg w .eax (← ioRead port w)) s := by
  change execInp f s = _
  unfold execInp
  rw [hf]

theorem exec_out_eq (hf : s.ioForm f = (w, port)) : exec (.out f) s =
    plain (do checkIo port w; ioWrite port w (s.reg w .eax)) s := by
  change execOut f s = _
  unfold execOut
  rw [hf]

/-- INSB, INSW and INSD are one operation, each with its width. -/
theorem exec_ins {p : Width × (StrAttr → Instr)}
    (hp : p ∈ ([(.b8, .insb), (.w16, .insw), (.d32, .insd)] : List (Width × (StrAttr → Instr)))) (a : StrAttr) (s : State) :
    exec (p.2 a) s = instr (strStep a false (insOnce p.1 a)) s := by
  simp only [List.mem_cons, List.not_mem_nil, or_false] at hp
  obtain rfl | rfl | rfl := hp <;> rfl

/-- OUTSB, OUTSW and OUTSD are one operation, each with its width. -/
theorem exec_outs {p : Width × (StrAttr → Instr)}
    (hp : p ∈ ([(.b8, .outsb), (.w16, .outsw), (.d32, .outsd)] : List (Width × (StrAttr → Instr)))) (a : StrAttr) (s : State) :
    exec (p.2 a) s = instr (strStep a false (outsOnce p.1 a)) s := by
  simp only [List.mem_cons, List.not_mem_nil, or_false] at hp
  obtain rfl | rfl | rfl := hp <;> rfl

/-- Settles O33: each instruction is the check of its port, which passes or fails, and then its transfer; the transfers and
the permission map go byte port by byte port. -/
theorem portTransfer : Obligations.PortTransfer := by
  refine ⟨fun s port w => ⟨fun v => ?_, ?_, fun i hi => ioValue_byte hi⟩,
    fun s port n => ⟨ioMapped_iff s, ioPermission_tss286 n, fun base t hk hg => ⟨ioPermission_beyond hk hg, fun r u hl hb => ?_⟩⟩,
    fun s f w port hf => ⟨fun t hp => ⟨?_, ?_⟩, fun t hm hd => ⟨?_, ?_⟩⟩,
    fun s w a hr => ⟨fun t hp => ⟨fun u put hc h => ?_, fun x u h => ?_⟩, fun t hm hd p hmem hw => ?_⟩⟩
  · have hl : (bytesOf w.bytes v.toNat).length = w.bytes := bytesOf_length ..
    exact ⟨_, rfl, portTransfers_flatten port w v, fun h => portTransfers_aligned (hl.symm ▸ h),
      fun h => portTransfers_unaligned (hl.symm ▸ h)⟩
  · have hl := ioNext_length s port w
    exact ⟨_, rfl, bytesOf_ioValue s port w ▸ portTransfers_flatten port w (s.ioValue port w),
      fun h => portTransfers_aligned (hl.symm ▸ h), fun h => portTransfers_unaligned (hl.symm ▸ h)⟩
  · exact ioPermission_bits hk hg hl (ports_eq_map port n ▸ hb)
  · rw [exec_inp_eq hf]
    refine plain_ok ?_
    rw [M_bind_ok (checkIo_run hp), M_bind_ok (ioRead_run ..), writeReg_run]
  · rw [exec_out_eq hf]
    refine plain_ok ?_
    rw [M_bind_ok (checkIo_run hp)]
    rfl
  · exact (exec_inp_eq hf).trans (plain_error (M_bind_error (checkIo_denied hm hd)))
  · exact (exec_out_eq hf).trans (plain_error (M_bind_error (checkIo_denied hm hd)))
  · rintro p hmem rfl
    rw [exec_ins hmem, ← State.begun_reg]
    rw [← State.begun_reg] at hp h
    exact strStep_run (insOnce_run hp hc h) hr
  · rintro p hmem rfl
    rw [exec_outs hmem, ← State.begun_reg]
    rw [← State.begun_reg] at hp
    exact strStep_run (outsOnce_run hp h) hr
  · subst hw
    rw [← State.begun_reg] at hd
    obtain hmem | hmem := List.mem_append.1 (show p ∈ [(.b8, .insb), (.w16, .insw), (.d32, .insd)] ++
      [(.b8, .outsb), (.w16, .outsw), (.d32, .outsd)] from hmem)
    · exact (exec_ins hmem a s).trans (strStep_error (insOnce_denied hm hd) hr)
    · exact (exec_outs hmem a s).trans (strStep_error (outsOnce_denied hm hd) hr)

end Sys2Proof.Machine
end

section
/-! SUPPORT. Effective addresses, their segments, and the type conversions, in the terms of the rules R333 to R339 and
R416 to R422. -/

namespace Sys2Proof.Machine

/-! ### Effective addresses and their segments (R333 to R339) -/

/-- The scale of an index is a factor of 1, 2, 4 or 8 (R337). -/
theorem regOr0_scaled (s : State) (index : Option Reg) (scale : BitVec 2) :
    s.regOr0 index <<< scale.toNat = match index with
      | none => 0
      | some r => s.reg .d32 r * BitVec.ofNat 32 (2 ^ scale.toNat) := by
  cases index with
  | none => exact BitVec.zero_shiftLeft _
  | some r =>
    have power : BitVec.twoPow 32 scale.toNat = BitVec.ofNat 32 (2 ^ scale.toNat) := BitVec.eq_of_toNat_eq (by simp)
    exact (BitVec.shiftLeft_eq_mul_twoPow _ _).trans (congrArg (s.reg .d32 r * ·) power)

/-- The registers that select SS as a base are ESP and EBP. -/
theorem frameReg_iff (r : Reg) : frameReg r = true ↔ r = .esp ∨ r = .ebp := by cases r <;> decide

/-- A base register selects SS where it is ESP or EBP, else DS (R334). -/
theorem addrSegment_based32 (r : Reg) (d : Disp) :
    addrSegment (.based32 r d) = if r = .esp ∨ r = .ebp then .ss else .ds := by
  simp only [addrSegment, frameReg_iff]

/-- In a SIB form it is the base that selects the segment, whatever the index (R337). -/
theorem addrSegment_sib (base index : Option Reg) (scale : BitVec 2) (d : Disp) :
    addrSegment (.sib base index scale d) = if base = some .esp ∨ base = some .ebp then .ss else .ds := by
  cases base with
  | none => rfl
  | some r => simp only [addrSegment, frameReg_iff, Option.some.injEq]

/-! ### The sign of the accumulator (R417) -/

/-- The upper half of a value extended to twice its width is its sign, repeated. -/
theorem extractLsb'_signExtend_high {n : Nat} (x : BitVec n) :
    (x.signExtend (n + n)).extractLsb' n n = if x.msb then BitVec.allOnes n else 0 := by
  ext i hi
  rw [BitVec.getElem_extractLsb', BitVec.getLsbD_signExtend, if_neg (by omega), decide_eq_true (by omega), Bool.true_and]
  cases x.msb <;> simp

/-! ### Type conversion, LEA and XLAT -/

theorem exec_movsx {s t : State} {src : Width} {rm : Rm} {v : BitVec src.bits} (w : Width) (r : Reg)
    (h : RmIs s.begun src rm v t) :
    exec (.movsx w r src rm) s = .next (finish s .next (t.setReg w r (v.signExtend w.bits))) :=
  plain_ok (M_bind_ok (readRm_run h))

theorem exec_movzx {s t : State} {src : Width} {rm : Rm} {v : BitVec src.bits} (w : Width) (r : Reg)
    (h : RmIs s.begun src rm v t) :
    exec (.movzx w r src rm) s = .next (finish s .next (t.setReg w r (v.setWidth w.bits))) :=
  plain_ok (M_bind_ok (readRm_run h))

theorem exec_cwd (s : State) : exec .cwd s = .next (finish s .next (s.begun.setReg .w16 .edx
    ((BitVec.signExtend 32 (s.reg .w16 .eax)).extractLsb' 16 16))) := by
  have upper : (BitVec.signExtend 32 (s.reg .w16 .eax)).extractLsb' 16 16 = if (s.reg .w16 .eax).msb then 0xFFFF else 0 :=
    extractLsb'_signExtend_high (n := 16) _
  rw [upper]
  exact plain_ok rfl

theorem exec_cdq (s : State) : exec .cdq s = .next (finish s .next (s.begun.setReg .d32 .edx
    ((BitVec.signExtend 64 (s.reg .d32 .eax)).extractLsb' 32 32))) := by
  have upper : (BitVec.signExtend 64 (s.reg .d32 .eax)).extractLsb' 32 32 =
      if (s.reg .d32 .eax).msb then 0xFFFFFFFF else 0 := extractLsb'_signExtend_high (n := 32) _
  rw [upper]
  exact plain_ok rfl

theorem exec_xlat {s t : State} {a : StrAttr} {pas : List Nat}
    (h : Reach s.begun s.user (a.seg.getD .ds) (cut (a.asz = .d32) (s.idx a.asz .ebx + (s.reg .b8 .eax).setWidth 32)) 1
      false pas t) :
    exec (.xlat a) s = .next (finish s .next ((t.afterRead pas).setReg .b8 .eax (t.valueAt .b8 pas))) :=
  plain_ok (M_bind_ok (memRead_run (w := .b8) h))

end Sys2Proof.Machine
end

section
/-! O14 and O60: type conversion, LEA, XLAT and the effective address; words of the opcode maps. -/

namespace Sys2Proof.Machine

/-- Settles O14: each meaning reads its operand and writes its register. Of the addresses only the scaled index and the
segments of the 32-bit bases need a lemma; the other forms are the definitions'. -/
theorem extendResult : Obligations.ExtendResult := by
  refine ⟨fun s w src r rm v t h => ⟨exec_movsx w r h, exec_movzx w r h⟩,
    fun s => ⟨plain_ok rfl, plain_ok rfl, exec_cwd s, exec_cdq s⟩, rfl,
    fun s seg d v x r base index scale => ⟨?_, rfl, rfl, rfl, rfl, rfl, ?_, ?_, ?_⟩,
    fun s w r m => plain_ok rfl, fun s a pas t h => exec_xlat h⟩
  · simp only [List.forall_mem_cons, List.not_mem_nil, false_imp_iff, implies_true, and_true]
    exact ⟨⟨rfl, rfl⟩, ⟨rfl, rfl⟩, ⟨rfl, rfl⟩, ⟨rfl, rfl⟩, ⟨rfl, rfl⟩, ⟨rfl, rfl⟩, ⟨rfl, rfl⟩, ⟨rfl, rfl⟩⟩
  · exact congrArg seg.getD (addrSegment_based32 r d)
  · exact congrArg (s.regOr0 base + · + dispVal d) (regOr0_scaled s index scale)
  · exact congrArg seg.getD (addrSegment_sib base index scale d)

/-- Settles O60: the decoder run on each word, fourteen that stand for an instruction and four that stand for none. -/
theorem decodedWords : Obligations.DecodedWords :=
  ⟨rfl, rfl, rfl, rfl, rfl, rfl, rfl, rfl, rfl, rfl, rfl, rfl, rfl, rfl, rfl, rfl, rfl, rfl⟩

end Sys2Proof.Machine
end

section
/-! SUPPORT. What the forms of MOV and XCHG, PUSHA and POPA do where their operands and their stack items can be reached
(R401 to R403, R406, R414, R415). -/

namespace Sys2Proof.Machine

variable {s t u : State} {w : Width} {rm : Rm} {m : MemRef} {v : BitVec w.bits}

/-- In the state in which a meaning runs, a register reads as before the instruction. -/
theorem readReg_begun (w : Width) (r : Reg) (s : State) : readReg w r s.begun = .ok (s.reg w r) s.begun := by
  rw [readReg_run, State.begun_reg]

/-! ### MOV -/

section
variable {put : BitVec w.bits → State}

theorem exec_mov_rmReg (h : RmPut s.begun w rm put) (r : Reg) :
    exec (.mov (.rmReg w rm r)) s = .next (finish s .next (put (s.reg w r))) :=
  plain_ok ((M_bind_ok (readReg_begun w r s)).trans (writeRm_run _ h))

theorem exec_mov_rmImm (h : RmPut s.begun w rm put) (imm : Dword) :
    exec (.mov (.rmImm w rm imm)) s = .next (finish s .next (put (immOf w imm))) := plain_ok (writeRm_run _ h)

/-- The accumulator is stored at a bare offset as a register is in an r/m operand that is memory. -/
theorem exec_mov_moffsAcc (h : RmPut s.begun w (.mem m) put) :
    exec (.mov (.moffsAcc w m)) s = .next (finish s .next (put (s.reg w .eax))) := exec_mov_rmReg h .eax

end

theorem exec_mov_regRm (h : RmIs s.begun w rm v t) (r : Reg) :
    exec (.mov (.regRm w r rm)) s = .next (finish s .next (t.setReg w r v)) := plain_ok (M_bind_ok (readRm_run h))

/-- The accumulator is loaded from a bare offset as a register is from an r/m operand that is memory. -/
theorem exec_mov_accMoffs (h : RmIs s.begun w (.mem m) v t) :
    exec (.mov (.accMoffs w m)) s = .next (finish s .next (t.setReg w .eax v)) := exec_mov_regRm h .eax

/-! ### XCHG -/

theorem exec_xchg_acc (s : State) (w : Width) (r : Reg) : exec (.xchg (.acc w r)) s =
    .next (finish s .next ((s.begun.setReg w .eax (s.reg w r)).setReg w r (s.reg w .eax))) :=
  plain_ok ((M_bind_ok (readReg_begun w .eax s)).trans (M_bind_ok (readReg_begun w r s)))

theorem exec_xchg_reg (s : State) (w : Width) (b r : Reg) : exec (.xchg (.rmReg w (.reg b) r)) s =
    .next (finish s .next ((s.begun.setReg w r (s.reg w b)).setReg w b (s.reg w r))) :=
  plain_ok ((M_bind_ok (readReg_begun w r s)).trans (M_bind_ok (readReg_begun w b s)))

/-- The register is written between the read and the write of the memory operand. -/
theorem exec_xchg_mem {put : BitVec w.bits → State → State} (h : RmAt s.begun w (.mem m) v t put) (r : Reg) :
    exec (.xchg (.rmReg w (.mem m) r)) s = .next (finish s .next (put (s.reg w r) (t.setReg w r v))) :=
  plain_ok ((M_bind_ok (readReg_begun w r s)).trans (updateRm_run h (M_bind_ok (writeReg_run w r v t))))

/-! ### PUSHA and POPA -/

/-- Once the checks of the eight items have passed, they are pushed with the values from before the first push. -/
theorem pushAll_run (hc : pushaChecks w.bytes 8 s.esp s = .ok () u) (h : Pushes w u [s.reg w .eax, s.reg w .ecx,
    s.reg w .edx, s.reg w .ebx, s.reg w .esp, s.reg w .ebp, s.reg w .esi, s.reg w .edi] t) : pushAll w s = .ok () t := by
  obtain _ | ⟨hax, _ | ⟨hcx, _ | ⟨hdx, _ | ⟨hbx, _ | ⟨hsp, _ | ⟨hbp, _ | ⟨hsi, _ | ⟨hdi, _ | _⟩⟩⟩⟩⟩⟩⟩⟩ := h
  unfold pushAll
  rw [M_get_bind, M_bind_ok hc, M_bind_ok (push_run _ hax), M_bind_ok (push_run _ hcx), M_bind_ok (push_run _ hdx),
    M_bind_ok (push_run _ hbx), M_bind_ok (push_run _ hsp), M_bind_ok (push_run _ hbp), M_bind_ok (push_run _ hsi),
    push_run _ hdi]

/-- The registers are written when the last item has been popped. -/
theorem popAll_run {di si bp sp bx dx cx ax : BitVec w.bits} (h : Pops w s [di, si, bp, sp, bx, dx, cx, ax] t) :
    popAll w s = .ok () (((((((t.setReg w .edi di).setReg w .esi si).setReg w .ebp bp).setReg w .ebx bx).setReg w .edx
      dx).setReg w .ecx cx).setReg w .eax ax) := by
  obtain _ | ⟨hdi, _ | ⟨hsi, _ | ⟨hbp, _ | ⟨hsp, _ | ⟨hbx, _ | ⟨hdx, _ | ⟨hcx, _ | ⟨hax, _ | _⟩⟩⟩⟩⟩⟩⟩⟩ := h
  unfold popAll
  rw [M_bind_ok (pop_run hdi), M_bind_ok (pop_run hsi), M_bind_ok (pop_run hbp), M_bind_ok (pop_run hsp),
    M_bind_ok (pop_run hbx), M_bind_ok (pop_run hdx), M_bind_ok (pop_run hcx), M_bind_ok (pop_run hax)]
  rfl

end Sys2Proof.Machine
end

section
/-! O13 and O18: MOV and XCHG; PUSHA, PUSHAD, POPA and POPAD. -/

namespace Sys2Proof.Machine

/-- Settles O13: each form of MOV reads its source and writes its destination; XCHG reads both operands before it writes
either. -/
theorem movResult : Obligations.MovResult :=
  ⟨fun _ _ => ⟨fun _ _ h => ⟨exec_mov_rmReg h, exec_mov_rmImm h⟩, fun _ _ _ r h => exec_mov_regRm h r,
      fun _ _ _ h => exec_mov_accMoffs h, fun _ _ h => exec_mov_moffsAcc h, fun _ _ => plain_ok rfl⟩,
    fun s w r => ⟨exec_xchg_acc s w r, fun b => exec_xchg_reg s w b r, fun _ _ _ _ h => exec_xchg_mem h r⟩⟩

/-- Settles O18: the pushes run from the state after the checks; the two operand sizes differ in the width alone. -/
theorem pushAllPopAll : Obligations.PushAllPopAll := by
  rintro s w i j (⟨rfl, rfl, rfl⟩ | ⟨rfl, rfl, rfl⟩)
  all_goals
    exact ⟨fun u t hc h => plain_ok (pushAll_run hc (by simpa only [State.begun_reg] using h)),
      fun _ _ _ _ _ _ _ _ _ h => plain_ok (popAll_run h)⟩

end Sys2Proof.Machine
end

section
/-! SUPPORT. What multiplication, division and decimal adjustment do where their operand can be reached (R460 to R471). -/

namespace Sys2Proof.Machine

variable {s t : State} {w : Width} {rm : Rm}

/-! ### Multiplication (R460 to R463) -/

section
variable {b : BitVec w.bits} (h : RmIs s.begun w rm b t)
include h

theorem exec_mul {p : Nat} (hp : p = (s.reg w .eax).toNat * b.toNat) : exec (.mul w rm) s =
    .next (finish s .next ((((t.setProduct w p).setFlag .cf (decide (2 ^ w.bits ≤ p))).setFlag .of
      (decide (2 ^ w.bits ≤ p))).freed [.sf, .zf, .af, .pf])) := by
  subst hp
  refine plain_ok ?_
  rw [M_bind_ok (readRm_run h), M_modify_bind, mulFlags_run]

theorem exec_imul_acc {p : Int} (hp : p = (t.reg w .eax).toInt * b.toInt) : exec (.imul (.acc w rm)) s =
    .next (finish s .next ((((t.setProduct w (BitVec.ofInt (2 * w.bits) p).toNat).setFlag .cf (misfits w.bits p)).setFlag .of
      (misfits w.bits p)).freed [.sf, .zf, .af, .pf])) := by
  subst hp
  refine plain_ok ?_
  unfold imulForm
  dsimp only
  rw [M_bind_ok (readRm_run h), M_get_bind, M_modify_bind, mulFlags_run]

end

section
variable {b : BitVec w.bits} (h : RmIs s w rm b t)
include h

theorem imulForm_reg (r : Reg) : imulForm (.reg w r rm) s = imulReg w r (t.reg w r) b t :=
  (M_bind_ok (readRm_run h)).trans (M_bind_ok (readReg_run w r t))

theorem imulForm_imm (r : Reg) (v : Dword) : imulForm (.imm w r rm v) s = imulReg w r b (immOf w v) t :=
  M_bind_ok (readRm_run h)

theorem imulForm_imm8 (r : Reg) (v : Byte) : imulForm (.imm8 w r rm v) s = imulReg w r b (immSx w v) t :=
  M_bind_ok (readRm_run h)

end

/-- The forms of IMUL with a register destination read their factors `a` and `b` and are then one operation. -/
theorem plain_imulReg {m : M Unit} {r : Reg} {a b : BitVec w.bits} (h : m s.begun = imulReg w r a b t) {p : Int}
    (hp : p = a.toInt * b.toInt) : plain m s =
      .next (finish s .next ((((t.setReg w r (BitVec.ofInt w.bits p)).setFlag .cf (misfits w.bits p)).setFlag .of
        (misfits w.bits p)).freed [.sf, .zf, .af, .pf])) := by
  subst hp
  exact plain_ok (h.trans (imulReg_run w r a b t))

/-! ### Division (R464, R465, R830) -/

/-- DIV and IDIV: a divisor of 0 and one for which the quotient is too large (`large`) raise #DE; for another, `put` writes
quotient and remainder, and every status flag is free. -/
def divideBy (w : Width) (rm : Rm) (large : BitVec w.bits → Bool) (put : BitVec w.bits → State → State) : M Unit := do
  let d ← readRm w rm
  when (d == 0) raiseDE
  when (large d) raiseDE
  modify (put d)
  freeFlags allStatus

theorem exec_div_eq (s : State) (w : Width) (rm : Rm) : exec (.div w rm) s =
    plain (divideBy w rm (fun d => decide (2 ^ w.bits ≤ (s.dividend w).toNat / d.toNat)) fun d u =>
      u.setQuotient w (BitVec.ofNat w.bits ((s.dividend w).toNat / d.toNat))
        (BitVec.ofNat w.bits ((s.dividend w).toNat % d.toNat))) s := rfl

theorem exec_idiv_eq (s : State) (w : Width) (rm : Rm) : exec (.idiv w rm) s =
    plain (divideBy w rm (fun d => misfits w.bits ((s.dividend w).toInt.tdiv d.toInt)) fun d u =>
      u.setQuotient w (BitVec.ofInt w.bits ((s.dividend w).toInt.tdiv d.toInt))
        (BitVec.ofInt w.bits ((s.dividend w).toInt.tmod d.toInt))) s := rfl

/-- A check that raises #DE, and what runs after it. -/
theorem checkDE_bind (b : Bool) (f : Unit → M Unit) (s : State) :
    (when b raiseDE >>= f) s = if b then .error (faultOf 0 none) s else f () s := by
  cases b <;> rfl

section
variable {d : BitVec w.bits} {large : BitVec w.bits → Bool} {put : BitVec w.bits → State → State} (h : RmIs s w rm d t)
include h

theorem divideBy_eq : divideBy w rm large put s =
    if d = 0 ∨ large d = true then .error (faultOf 0 none) t else .ok () ((put d t).freed allStatus) := by
  unfold divideBy
  rw [M_bind_ok (readRm_run h), checkDE_bind, checkDE_bind, M_modify_bind, freeFlags_run]
  by_cases hd : d = 0
  · rw [if_pos (beq_iff_eq.2 hd), if_pos (.inl hd)]
  · rw [if_neg (mt beq_iff_eq.1 hd)]
    simp only [hd, false_or]

theorem divideBy_run (hd : d ≠ 0) (hq : large d = false) :
    divideBy w rm large put s = .ok () ((put d t).freed allStatus) := by
  rw [divideBy_eq h, if_neg (not_or.2 ⟨hd, Bool.eq_false_iff.1 hq⟩)]

theorem divideBy_error (hd : d = 0 ∨ large d = true) : divideBy w rm large put s = .error (faultOf 0 none) t := by
  rw [divideBy_eq h, if_pos hd]

end

/-! ### Decimal adjustment (R466 to R471) -/

theorem decimalAdjust_run (g : Byte → Byte → Byte) {al₁ al₂ : Byte}
    (h₁ : al₁ = if s.lowAdjust then g (s.reg .b8 .eax) 6 else s.reg .b8 .eax)
    (h₂ : al₂ = if 0x9F < al₁.toNat ∨ s.flag .cf = true then g al₁ 0x60 else al₁) :
    decimalAdjust g s = .ok () (((((s.setReg .b8 .eax al₂).setFlag .af s.lowAdjust).setFlag .cf
      (decide (0x9F < al₁.toNat) || s.flag .cf)).szp al₂).freed [.of]) := by
  have e : (if (decide (0x9F < al₁.toNat) || s.flag .cf) then g al₁ 0x60 else al₁) = al₂ := by
    simp only [h₂, Bool.or_eq_true, decide_eq_true_eq]
  unfold decimalAdjust
  simp only [M_get_bind, ← h₁, e]
  rw [M_bind_ok (writeReg_run ..), M_bind_ok (putFlag_run ..), M_bind_ok (putFlag_run ..), M_bind_ok (szpF_run ..),
    freeFlag_run]

theorem asciiAdjust_run (g : Byte → Byte → Byte) {al ah : Byte}
    (hl : al = if s.lowAdjust then g (s.reg .b8 .eax) 6 else s.reg .b8 .eax)
    (hh : ah = if s.lowAdjust then g (s.reg .b8 .esp) 1 else s.reg .b8 .esp) :
    asciiAdjust g s = .ok () (((((s.setReg .b8 .eax (al &&& 0x0F)).setReg .b8 .esp ah).setFlag .af
      s.lowAdjust).setFlag .cf s.lowAdjust).freed [.of, .sf, .zf, .pf]) := by
  unfold asciiAdjust
  simp only [M_get_bind, ← hl, ← hh]
  rw [M_bind_ok (writeReg_run ..), M_bind_ok (writeReg_run ..), M_bind_ok (putFlag_run ..), M_bind_ok (putFlag_run ..),
    freeFlags_run]

theorem exec_aam {base : Byte} (hb : base ≠ 0) {al : Byte} (ha : al = s.reg .b8 .eax) : exec (.aam base) s =
    .next (finish s .next ((((s.begun.setReg .b8 .esp (al / base)).setReg .b8 .eax (al % base)).szp (al % base)).freed
      [.of, .af, .cf])) := by
  subst ha
  refine plain_ok ?_
  rw [checkDE_bind, if_neg (mt beq_iff_eq.1 hb)]
  rw [M_bind_ok (writeReg_run ..), M_bind_ok (writeReg_run ..), M_bind_ok (szpF_run ..), freeFlags_run]

/-- AAM with base 0 raises #DE before it writes a register (R470). -/
theorem exec_aam_zero (s : State) : exec (.aam 0) s = .next (abandon s (faultOf 0 none) s.begun) := plain_error rfl

theorem exec_aad {base al : Byte} (ha : al = s.reg .b8 .esp * base + s.reg .b8 .eax) : exec (.aad base) s =
    .next (finish s .next ((((s.begun.setReg .b8 .eax al).setReg .b8 .esp 0).szp al).freed [.of, .af, .cf])) := by
  subst ha
  refine plain_ok ?_
  rw [M_bind_ok (writeReg_run ..), M_bind_ok (writeReg_run ..), M_bind_ok (szpF_run ..), freeFlags_run]

end Sys2Proof.Machine
end

section
/-! O1, O3 to O7: binary arithmetic, logic, multiplication, division and decimal adjustment. O7 stands a namespace higher: the
model has a `decimalAdjust` of its own. -/

namespace Sys2Proof.Machine

/-- Settles O1: a form whose operands are reached runs `addF` or `subF` between its reads and its write. -/
theorem addSubResult : Obligations.AddSubResult := fun _ _ _ _ _ _ _ h =>
  ⟨plain_ok (aluWrite_run h (addF_run ..)), plain_ok (aluWrite_run h (addF_run ..)),
    plain_ok (aluWrite_run h (subF_run ..)), plain_ok (aluWrite_run h (subF_run ..))⟩

/-- Settles O3: the logic instructions share the forms of ADD; CMP and TEST only read their operands. -/
theorem logicResult : Obligations.LogicResult :=
  ⟨fun _ _ _ _ _ _ _ h => ⟨plain_ok (aluWrite_run h (logicF_run ..)), plain_ok (aluWrite_run h (logicF_run ..)),
      plain_ok (aluWrite_run h (logicF_run ..))⟩,
    fun _ _ _ _ _ _ h => plain_ok (aluRead_run h (subF_run ..)), fun _ _ _ _ _ _ h => plain_ok (testForm_run h)⟩

/-- Settles O4: INC and DEC are an addition and a subtraction of 1 under `keepCF`. -/
theorem oneOperandResult : Obligations.OneOperandResult :=
  ⟨fun _ _ _ _ _ _ h => ⟨plain_ok (incForm_run h (keepCF_run (addF_run ..))),
      plain_ok (incForm_run h (keepCF_run (subF_run ..)))⟩,
    fun _ _ _ _ _ _ h => ⟨plain_ok (updateRm_run h (subF_run ..)), plain_ok (updateRm_run h (M_pure ..))⟩⟩

/-- Settles O5: the forms with a register destination differ in where their factors come from. -/
theorem multiplyResult : Obligations.MultiplyResult :=
  ⟨fun _ _ _ _ _ h => ⟨exec_mul h rfl, exec_imul_acc h rfl⟩,
    fun _ _ r _ _ _ h => ⟨plain_imulReg (imulForm_reg h r) rfl, fun v => plain_imulReg (imulForm_imm h r v) rfl,
      fun v => plain_imulReg (imulForm_imm8 h r v) rfl⟩⟩

/-- Settles O6: DIV and IDIV are one operation (`divideBy`), whose two checks pass, or one of them raises #DE. -/
theorem divideResult : Obligations.DivideResult := by
  refine ⟨fun s w rm d t h hd => ⟨fun hq => ?_, fun hq => ?_⟩,
    fun s w rm d t h => ⟨fun hd => ?_, fun hd => ?_, exec_aam_zero s⟩⟩
  · exact (exec_div_eq s w rm).trans (plain_ok (divideBy_run h hd (decide_eq_false (Nat.not_le.2 hq))))
  · exact (exec_idiv_eq s w rm).trans (plain_ok (divideBy_run h hd hq))
  · exact (exec_div_eq s w rm).trans (plain_error (divideBy_error h (hd.imp_right decide_eq_true)))
  · exact (exec_idiv_eq s w rm).trans (plain_error (divideBy_error h hd))

end Sys2Proof.Machine

namespace Sys2Proof

open Machine

/-- Settles O7: the adjustments read AL, AH and the flags in the state in which they run, where they are as before the
instruction. -/
theorem decimalAdjust : Obligations.DecimalAdjust := by
  refine ⟨?_, ?_, fun s base => ⟨fun hb => exec_aam hb rfl, exec_aad rfl⟩⟩
  · rintro s i g (⟨rfl, rfl⟩ | ⟨rfl, rfl⟩) al₁ al₂ h₁ h₂
    all_goals exact plain_ok (decimalAdjust_run _ h₁ h₂)
  · rintro s i g (⟨rfl, rfl⟩ | ⟨rfl, rfl⟩) al ah hl hh
    all_goals exact plain_ok (asciiAdjust_run _ hl hh)

end Sys2Proof
end

section
/-! SUPPORT. Rotations of a bit vector as single-bit steps, and what the steps of each shift and rotate come to (R511 to
R517). -/

namespace Sys2Proof.Machine

variable {n i : Nat}

/-! ### Shifts and rotations by one bit -/

/-- What a shift to the left by 1 brings in stands below the other bits, which have moved up by one. -/
theorem getMsbD_shiftIn (x : BitVec n) (b : Bool) (hi : i < n) :
    (x <<< 1 ||| lowBit n b).getMsbD i = if i + 1 = n then b else x.getMsbD (i + 1) := by
  have low : (lowBit n b).getMsbD i = (decide (i + 1 = n) && b) := by
    have last : n - 1 - i = 0 ↔ i + 1 = n := by omega
    cases b <;> simp [lowBit, BitVec.getMsbD, hi, last, Nat.zero_lt_of_lt hi]
  rw [BitVec.getMsbD_or, BitVec.getMsbD_shiftLeft, low]
  split
  · rw [BitVec.getMsbD_of_ge x (i + 1) (by omega), decide_eq_true ‹_›, Bool.true_and, Bool.false_or]
  · rw [decide_eq_false ‹_›, Bool.false_and, Bool.or_false]

/-- What a shift to the right by 1 brings in stands above the other bits, which have moved down by one. -/
theorem getLsbD_shiftIn (x : BitVec n) (b : Bool) (hi : i < n) :
    (x >>> 1 ||| highBit n b).getLsbD i = if i + 1 = n then b else x.getLsbD (i + 1) := by
  have high : (highBit n b).getLsbD i = (decide (i + 1 = n) && b) := by
    rw [highBit, BitVec.getLsbD_shiftLeft]
    by_cases e : i + 1 = n
    · rw [decide_eq_true hi, decide_eq_false (by omega), decide_eq_true e, show i - (n - 1) = 0 by omega]
      cases b <;> simp [lowBit, Nat.zero_lt_of_lt hi]
    · simp [e, show i < n - 1 by omega]
  rw [BitVec.getLsbD_or, BitVec.getLsbD_ushiftRight, high, Nat.add_comm 1]
  split
  · rw [BitVec.getLsbD_of_ge x (i + 1) (by omega), decide_eq_true ‹_›, Bool.true_and, Bool.false_or]
  · rw [decide_eq_false ‹_›, Bool.false_and, Bool.or_false]

/-! A rotation adds to the index of a bit modulo the width: one to the left counted from the top, one to the right counted
from the bottom. -/

theorem getMsbD_rotateLeft_mod (x : BitVec n) (a : Nat) (hi : i < n) :
    (x.rotateLeft a).getMsbD i = x.getMsbD ((a + i) % n) := by
  rw [BitVec.getMsbD_rotateLeft, decide_eq_true hi, Bool.true_and]

theorem getLsbD_rotateRight_mod (x : BitVec n) (a : Nat) (hi : i < n) :
    (x.rotateRight a).getLsbD i = x.getLsbD ((a + i) % n) := by
  have hm : a % n < n := Nat.mod_lt _ (Nat.zero_lt_of_lt hi)
  rw [BitVec.getLsbD_rotateRight, ← Nat.mod_add_mod]
  generalize a % n = a at hm ⊢
  by_cases h : i < n - a
  · rw [decide_eq_true h, cond_true, Nat.mod_eq_of_lt (by omega)]
  · rw [decide_eq_false h, cond_false, decide_eq_true hi, Bool.true_and, Nat.mod_eq_sub_mod (by omega),
      Nat.mod_eq_of_lt (by omega), show i - (n - a) = a + i - n by omega]

theorem rotateLeft_add (x : BitVec n) (a b : Nat) : x.rotateLeft (a + b) = (x.rotateLeft a).rotateLeft b := by
  refine BitVec.eq_of_getMsbD_eq fun i hi => ?_
  rw [getMsbD_rotateLeft_mod _ _ hi, getMsbD_rotateLeft_mod _ _ hi,
    getMsbD_rotateLeft_mod _ _ (Nat.mod_lt _ (Nat.zero_lt_of_lt hi)), Nat.add_mod_mod, Nat.add_assoc]

theorem rotateRight_add (x : BitVec n) (a b : Nat) : x.rotateRight (a + b) = (x.rotateRight a).rotateRight b := by
  refine BitVec.eq_of_getLsbD_eq fun i hi => ?_
  rw [getLsbD_rotateRight_mod _ _ hi, getLsbD_rotateRight_mod _ _ hi,
    getLsbD_rotateRight_mod _ _ (Nat.mod_lt _ (Nat.zero_lt_of_lt hi)), Nat.add_mod_mod, Nat.add_assoc]

theorem rotateLeft_zero (x : BitVec n) : x.rotateLeft 0 = x :=
  BitVec.eq_of_getMsbD_eq fun i hi => by rw [getMsbD_rotateLeft_mod _ _ hi, Nat.zero_add, Nat.mod_eq_of_lt hi]

theorem rotateRight_zero (x : BitVec n) : x.rotateRight 0 = x :=
  BitVec.eq_of_getLsbD_eq fun i hi => by rw [getLsbD_rotateRight_mod _ _ hi, Nat.zero_add, Nat.mod_eq_of_lt hi]

/-- The index after `i`, cyclically. -/
theorem one_add_mod (hi : i < n) : (1 + i) % n = if i + 1 = n then 0 else i + 1 := by
  rw [Nat.add_comm]
  split
  · rw [‹i + 1 = n›, Nat.mod_self]
  · rw [Nat.mod_eq_of_lt (by omega)]

/-! One bit at a time, alone and with a carry above the value. -/

theorem rotateLeft_one (x : BitVec n) : x.rotateLeft 1 = x <<< 1 ||| lowBit n x.msb := by
  refine BitVec.eq_of_getMsbD_eq fun i hi => ?_
  rw [getMsbD_rotateLeft_mod _ _ hi, one_add_mod hi, getMsbD_shiftIn _ _ hi, apply_ite x.getMsbD,
    BitVec.msb_eq_getMsbD_zero]

theorem rotateRight_one (x : BitVec n) : x.rotateRight 1 = x >>> 1 ||| highBit n (x.getLsbD 0) := by
  refine BitVec.eq_of_getLsbD_eq fun i hi => ?_
  rw [getLsbD_rotateRight_mod _ _ hi, one_add_mod hi, getLsbD_shiftIn _ _ hi, apply_ite x.getLsbD]

theorem getLsbD_rotateLeft_one (x : BitVec n) (h : 0 < n) : (x.rotateLeft 1).getLsbD 0 = x.msb := by
  rw [BitVec.getLsbD_eq_getMsbD, decide_eq_true h, Bool.true_and, getMsbD_rotateLeft_mod _ _ (by omega),
    show 1 + (n - 1 - 0) = n by omega, Nat.mod_self, BitVec.msb_eq_getMsbD_zero]

theorem msb_rotateRight_one (x : BitVec n) (h : 0 < n) : (x.rotateRight 1).msb = x.getLsbD 0 := by
  rw [BitVec.msb_eq_getLsbD_last, getLsbD_rotateRight_mod _ _ (by omega), show 1 + (n - 1) = n by omega, Nat.mod_self]

theorem cons_rotateLeft_one (c : Bool) (x : BitVec n) (h : 0 < n) :
    (BitVec.cons c x).rotateLeft 1 = BitVec.cons x.msb (x <<< 1 ||| lowBit n c) := by
  refine BitVec.eq_of_getMsbD_eq fun i hi => ?_
  rw [getMsbD_rotateLeft_mod _ _ hi, one_add_mod hi]
  cases i with
  | zero => rw [if_neg (by omega), BitVec.getMsbD_cons_succ, ← BitVec.msb_eq_getMsbD_zero, ← BitVec.msb_eq_getMsbD_zero,
      BitVec.msb_cons]
  | succ j =>
    rw [BitVec.getMsbD_cons_succ, getMsbD_shiftIn _ _ (by omega), apply_ite (BitVec.cons c x).getMsbD]
    simp

theorem cons_rotateRight_one (c : Bool) (x : BitVec n) (h : 0 < n) :
    (BitVec.cons c x).rotateRight 1 = BitVec.cons (x.getLsbD 0) (x >>> 1 ||| highBit n c) := by
  refine BitVec.eq_of_getLsbD_eq fun i hi => ?_
  rw [getLsbD_rotateRight_mod _ _ hi, one_add_mod hi]
  by_cases e : i = n
  · rw [if_pos (congrArg (· + 1) e), BitVec.getLsbD_cons, BitVec.getLsbD_cons, if_neg (Nat.ne_of_lt h), if_pos e]
  · rw [if_neg (by omega), BitVec.getLsbD_cons, BitVec.getLsbD_cons, if_neg e, getLsbD_shiftIn _ _ (by omega)]

theorem sshiftRight_one (x : BitVec n) : x.sshiftRight 1 = x >>> 1 ||| highBit n x.msb := by
  refine BitVec.eq_of_getLsbD_eq fun i hi => ?_
  rw [BitVec.getLsbD_sshiftRight, getLsbD_shiftIn _ _ hi, decide_eq_false (by omega), Bool.not_false, Bool.true_and,
    Nat.add_comm]
  by_cases e : i + 1 = n
  · rw [if_neg (by omega), if_pos e]
  · rw [if_pos (by omega), if_neg e]

/-! ### Repeated single-bit steps -/

/-- The last of several steps. -/
theorem ShiftKind.steps_succ (k : ShiftKind) (m : Nat) (x : BitVec n) (c : Bool) :
    k.steps (m + 1) x c = k.step (k.steps m x c).1 (k.steps m x c).2 := by
  induction m generalizing x c with
  | zero => rfl
  | succ m ih => exact ih (k.step x c).1 (k.step x c).2

/-- Where a step does not depend on the carry: the values `f` it runs through, and the bit `out` that each step shifts out. -/
theorem ShiftKind.steps_eq {k : ShiftKind} {f : Nat → BitVec n} {out : Nat → Bool}
    (h : ∀ m c, k.step (f m) c = (f (m + 1), out m)) {x : BitVec n} (h₀ : f 0 = x) (c : Bool) (m : Nat) :
    k.steps (m + 1) x c = (f (m + 1), out m) := by
  induction m with
  | zero => exact h₀ ▸ h 0 c
  | succ m ih => rw [steps_succ, ih, h]

section
variable (x : BitVec n) (c : Bool) (m : Nat)

theorem kindShl_steps :
    kindShl.steps (m + 1) x c = (x <<< (m + 1), decide (m + 1 ≤ n) && x.getLsbD (n - (m + 1))) := by
  have step (m : Nat) (c : Bool) : kindShl.step (x <<< m) c = (x <<< (m + 1), x.getMsbD m) :=
    Prod.ext (BitVec.shiftLeft_add x m 1).symm BitVec.msb_shiftLeft
  rw [ShiftKind.steps_eq step (BitVec.shiftLeft_zero x), BitVec.getMsbD, Nat.sub_sub, Nat.add_comm 1]
  rfl

theorem kindShr_steps : kindShr.steps (m + 1) x c = (x >>> (m + 1), x.getLsbD m) := by
  have step (m : Nat) (c : Bool) : kindShr.step (x >>> m) c = (x >>> (m + 1), x.getLsbD m) :=
    Prod.ext (BitVec.shiftRight_add x m 1).symm (BitVec.getLsbD_ushiftRight x m 0)
  exact ShiftKind.steps_eq step (BitVec.ushiftRight_zero x) c m

theorem kindSar_steps : kindSar.steps (m + 1) x c = (x.sshiftRight (m + 1), (x.sshiftRight m).getLsbD 0) := by
  have step (m : Nat) (c : Bool) :
      kindSar.step (x.sshiftRight m) c = (x.sshiftRight (m + 1), (x.sshiftRight m).getLsbD 0) := by
    rw [BitVec.sshiftRight_add, sshiftRight_one]
    rfl
  exact ShiftKind.steps_eq step BitVec.sshiftRight_zero c m

variable (hn : 0 < n)
include hn

theorem kindRol_steps : kindRol.steps (m + 1) x c = (x.rotateLeft (m + 1), (x.rotateLeft (m + 1)).getLsbD 0) := by
  have step (m : Nat) (c : Bool) :
      kindRol.step (x.rotateLeft m) c = (x.rotateLeft (m + 1), (x.rotateLeft (m + 1)).getLsbD 0) := by
    rw [rotateLeft_add, getLsbD_rotateLeft_one _ hn, rotateLeft_one]
    rfl
  exact ShiftKind.steps_eq step (rotateLeft_zero x) c m

theorem kindRor_steps : kindRor.steps (m + 1) x c = (x.rotateRight (m + 1), (x.rotateRight (m + 1)).msb) := by
  have step (m : Nat) (c : Bool) :
      kindRor.step (x.rotateRight m) c = (x.rotateRight (m + 1), (x.rotateRight (m + 1)).msb) := by
    rw [rotateRight_add, msb_rotateRight_one _ hn, rotateRight_one]
    rfl
  exact ShiftKind.steps_eq step (rotateRight_zero x) c m

theorem kindRcl_steps :
    BitVec.cons (kindRcl.steps m x c).2 (kindRcl.steps m x c).1 = (BitVec.cons c x).rotateLeft m := by
  induction m with
  | zero => exact (rotateLeft_zero _).symm
  | succ m ih =>
    rw [ShiftKind.steps_succ, rotateLeft_add, ← ih, cons_rotateLeft_one _ _ hn]
    rfl

theorem kindRcr_steps :
    BitVec.cons (kindRcr.steps m x c).2 (kindRcr.steps m x c).1 = (BitVec.cons c x).rotateRight m := by
  induction m with
  | zero => exact (rotateRight_zero _).symm
  | succ m ih =>
    rw [ShiftKind.steps_succ, rotateRight_add, ← ih, cons_rotateRight_one _ _ hn]
    rfl

end

end Sys2Proof.Machine
end

section
/-! SUPPORT. Double shifts by 0 and bit scans that find a bit (R518, R519, R545, R546). -/

namespace Sys2Proof.Machine

theorem width_bits_pos (w : Width) : 0 < w.bits := by cases w <;> decide

theorem dshiftF_zero {n : Nat} (x r : BitVec n) (c : Bool) (s : State) : dshiftF 0 x r c s = .ok x s := rfl

section
variable {s t : State} {w : Width} {rm : Rm} {v : BitVec w.bits} {k : Nat} (h : RmIs s.begun w rm v t)
  (hk : v.getLsbD k = true) (r : Reg)
include h hk

/-- A scan that finds a set bit of its operand writes the number of the bit. -/
theorem plain_bitScan {find : {n : Nat} → BitVec n → Nat} (found : find v = k) : plain (bitScan find w r rm) s =
    .next (finish s .next (((t.setFlag .zf false).setReg w r (BitVec.ofNat w.bits k)).freed
      [.of, .sf, .af, .pf, .cf])) := by
  have hv : v ≠ 0 := by
    rintro rfl
    simp at hk
  exact plain_ok (found ▸ bitScan_run find h hv)

theorem exec_bsf (low : ∀ j, j < k → v.getLsbD j = false) : exec (.bsf w r rm) s =
    .next (finish s .next (((t.setFlag .zf false).setReg w r (BitVec.ofNat w.bits k)).freed
      [.of, .sf, .af, .pf, .cf])) :=
  plain_bitScan h hk r (find := fun {n} v => lowestBit v n 0)
    (lowestBit_eq hk (fun j _ => low j) (Nat.zero_le k) (by simpa using BitVec.lt_of_getLsbD hk))

theorem exec_bsr (high : ∀ j, k < j → v.getLsbD j = false) : exec (.bsr w r rm) s =
    .next (finish s .next (((t.setFlag .zf false).setReg w r (BitVec.ofNat w.bits k)).freed
      [.of, .sf, .af, .pf, .cf])) :=
  plain_bitScan h hk r (find := fun {n} v => highestBit v n) (highestBit_eq hk high (BitVec.lt_of_getLsbD hk))

end

end Sys2Proof.Machine
end

section
/-! SUPPORT. The encoding of SETcc, `0F 90+cc /r` (R345, R550). -/

namespace Sys2Proof

/-! ### After the opcode -/

/-- What follows the opcode bytes of a SETcc with subcode `cc`: its r/m operand, and nothing of the reg field (R345). -/
def Dec.setcc (c : Ctx) (cc : BitVec 4) : Dec Instr := do
  let (_, rm) ← Dec.modrm c
  pure (setccOf cc rm)

/-- Row 9 of the two-byte map. -/
theorem decodeTwo_setcc (c : Ctx) (cc : BitVec 4) : decodeTwo c ((9 : BitVec 4) ++ cc) = Dec.setcc c cc := by
  have row : ∀ cc : BitVec 4, ¬ ((9 : BitVec 4) ++ cc : Byte) < 0x80 ∧ ¬ ((9 : BitVec 4) ++ cc : Byte) < 0x90 ∧
      ((9 : BitVec 4) ++ cc : Byte) < 0xA0 := by decide
  obtain ⟨h8, h9, hA⟩ := row cc
  unfold decodeTwo
  rw [if_neg h8, if_neg h9, if_pos hA, BitVec.extractLsb'_append_eq_right]
  rfl

theorem decodeFrom_setcc (d : Bool) (l : Lead) (cc : BitVec 4) (bs : List Byte) :
    decodeFrom d l (0x0F :: ((9 : BitVec 4) ++ cc) :: bs) = (Dec.setcc (l.ctx d) cc).run bs := by
  rw [← decodeTwo_setcc]
  rfl

theorem Dec.setcc_run (c : Ctx) (cc : BitVec 4) (b : Byte) (bs : List Byte) :
    (Dec.setcc c cc).run (b :: bs) = (setccOf cc <$> Dec.rm c (ModRm.ofByte b)).run bs := by
  have operand : (Dec.modrm c).run (b :: bs) = ((ModRm.ofByte b, ·) <$> Dec.rm c (ModRm.ofByte b)).run bs := rfl
  unfold Dec.setcc
  rw [StateT.run_bind, operand]
  simp

theorem Dec.setcc_ok {c : Ctx} {cc : BitVec 4} {bs rest : List Byte} {i : Instr}
    (h : (Dec.setcc c cc).run bs = .ok (i, rest)) : ∃ operand, i = setccOf cc operand := by
  unfold Dec.setcc at h
  rw [StateT.run_bind] at h
  cases hm : (Dec.modrm c).run bs with
  | error e =>
    rw [hm] at h
    cases h
  | ok p =>
    rw [hm] at h
    cases h
    exact ⟨_, rfl⟩

theorem ModRm.ofByte_append (mod : BitVec 2) (reg rm : BitVec 3) : ModRm.ofByte (mod ++ reg ++ rm) = ⟨mod, reg, rm⟩ := by
  unfold ModRm.ofByte
  congr 1
  · exact (BitVec.extractLsb'_append_eq_of_le (by decide)).trans (BitVec.extractLsb'_append_eq_left (a := mod))
  · exact (BitVec.extractLsb'_append_eq_of_le (by decide)).trans (BitVec.extractLsb'_append_eq_right (b := reg))
  · exact BitVec.extractLsb'_append_eq_right

theorem Dec.rm_reg_irrel (c : Ctx) (mod : BitVec 2) (reg reg' rm : BitVec 3) :
    Dec.rm c ⟨mod, reg, rm⟩ = Dec.rm c ⟨mod, reg', rm⟩ := rfl

/-! `decode` looks at the first 15 bytes through `decodeFrom`, and at their number. -/

theorem decode_ok {d : Bool} {bs rest : List Byte} {i : Instr}
    (h : decodeFrom d Lead.start (bs.take maxInstrBytes) = .ok (i, rest)) :
    decode d bs = .ok (i, (bs.take maxInstrBytes).length - rest.length) := by
  unfold decode
  simp only [h]

theorem decode_ok_inv {d : Bool} {bs : List Byte} {i : Instr} {n : Nat} (h : decode d bs = .ok (i, n)) :
    ∃ rest, decodeFrom d Lead.start (bs.take maxInstrBytes) = .ok (i, rest) := by
  unfold decode at h
  dsimp only at h
  split at h
  · cases h
    exact ⟨_, ‹_›⟩
  · split at h <;> cases h
  · cases h

theorem decode_congr {d : Bool} {bs bs' : List Byte}
    (h : decodeFrom d Lead.start (bs.take maxInstrBytes) = decodeFrom d Lead.start (bs'.take maxInstrBytes))
    (hl : bs.length = bs'.length) : decode d bs = decode d bs' := by
  unfold decode
  simp only [h, List.length_take, hl]

section
variable (d : Bool) (cc : BitVec 4) (bs : List Byte)

theorem decode_setcc_reg (reg rm : BitVec 3) :
    decode d (0x0F :: ((9 : BitVec 4) ++ cc) :: ((3 : BitVec 2) ++ reg ++ rm) :: bs) =
      .ok (setccOf cc (.reg (Reg.ofCode rm)), 3) := by
  have h : decodeFrom d Lead.start (0x0F :: ((9 : BitVec 4) ++ cc) :: ((3 : BitVec 2) ++ reg ++ rm) :: bs.take 12) =
      .ok (setccOf cc (.reg (Reg.ofCode rm)), bs.take 12) := by
    rw [decodeFrom_setcc, Dec.setcc_run, ModRm.ofByte_append]
    rfl
  refine (decode_ok h).trans ?_
  simp only [maxInstrBytes, List.take_succ_cons, List.length_cons]
  rw [Nat.add_assoc, Nat.add_assoc, Nat.add_sub_cancel_left]

theorem decode_setcc_reg_irrel (mod : BitVec 2) (reg reg' rm : BitVec 3) :
    decode d (0x0F :: ((9 : BitVec 4) ++ cc) :: (mod ++ reg ++ rm) :: bs) =
      decode d (0x0F :: ((9 : BitVec 4) ++ cc) :: (mod ++ reg' ++ rm) :: bs) := by
  refine decode_congr ?_ rfl
  simp only [maxInstrBytes, List.take_succ_cons, decodeFrom_setcc, Dec.setcc_run, ModRm.ofByte_append]
  rw [Dec.rm_reg_irrel]

variable {d cc bs}

theorem decode_setcc_ok {i : Instr} {n : Nat} (h : decode d (0x0F :: ((9 : BitVec 4) ++ cc) :: bs) = .ok (i, n)) :
    ∃ operand, i = setccOf cc operand := by
  obtain ⟨rest, h⟩ := decode_ok_inv h
  rw [maxInstrBytes, List.take_succ_cons, List.take_succ_cons, decodeFrom_setcc] at h
  exact Dec.setcc_ok h

end

end Sys2Proof
end

section
/-! SUPPORT. SETcc as the store of a byte, and what its memory operand raises where the segment refuses it (R101, R170,
R550). -/

namespace Sys2Proof.Machine

/-! ### Writes that the segment refuses (R170) -/

@[simp] theorem State.begun_mayWrite (s : State) (sr : SReg) : s.begun.mayWrite sr = s.mayWrite sr := by
  unfold State.mayWrite
  rw [State.begun_sreg, State.begun_paragraphs]

@[simp] theorem State.begun_segOk (s : State) (sr : SReg) (off : Dword) (n : Nat) (w : Bool) :
    s.begun.segOk sr off n w = s.segOk sr off n w := by
  unfold State.segOk
  rw [State.begun_sreg, State.begun_mayWrite]

/-- A write that the segment refuses raises #SS(0) where SS is unusable or its limit violated, and #GP(0) else. -/
theorem memWrite_segError {s : State} {sr : SReg} {off : Dword} {w : Width} (v : BitVec w.bits)
    (h : s.segOk sr off w.bytes true = false) :
    memWrite sr off w v s = .error (faultOf (if sr = .ss ∧ ((s.sreg .ss).valid = false ∨ s.mayWrite .ss = true)
      then 12 else 13) (some 0)) s :=
  (M_get_bind _ s).trans (M_bind_error (checkSeg_error h))

/-! ### The store of a byte (R550) -/

section
variable {s : State} {m : MemRef} {b : Bool}

theorem plain_setByte {rm : Rm} {put : Byte → State} (h : RmPut s.begun .b8 rm put) :
    plain (setByte rm b) s = .next (finish s .next (put (if b then 1 else 0))) := plain_ok (writeRm_run _ h)

theorem plain_setByte_error {x : Exc} {t : State}
    (h : memWrite (segOf m) (s.memEa m) .b8 (if b then 1 else 0) s.begun = .error x t) :
    plain (setByte (.mem m) b) s = .next (abandon s x t) := plain_error (writeRm_error (by rwa [State.begun_memEa]))

theorem plain_setByte_segError (h : s.segOk (segOf m) (s.memEa m) 1 true = false) : plain (setByte (.mem m) b) s =
    .next (abandon s (faultOf (if segOf m = .ss ∧ ((s.sreg .ss).valid = false ∨ s.mayWrite .ss = true) then 12 else 13)
      (some 0)) s.begun) := by
  rw [← State.begun_segOk] at h
  rw [← State.begun_sreg, ← State.begun_mayWrite]
  exact plain_setByte_error (memWrite_segError (w := .b8) _ h)

theorem plain_setByte_invalid (hv : (s.sreg (segOf m)).valid = false) (hs : segOf m ≠ .ss) :
    plain (setByte (.mem m) b) s = .next (abandon s (faultOf 13 (some 0)) s.begun) := by
  have refused : s.segOk (segOf m) (s.memEa m) 1 true = false := by simp [State.segOk, hv]
  rw [plain_setByte_segError refused, if_neg fun h => hs h.1]

theorem plain_setByte_readOnly (hv : (s.sreg (segOf m)).valid = true) (hp : s.prot = true)
    (hw : (s.sreg (segOf m)).writable = false) :
    plain (setByte (.mem m) b) s = .next (abandon s (faultOf 13 (some 0)) s.begun) := by
  have real : s.paragraphs = false := by
    simp only [State.prot, Bool.and_eq_true, Bool.not_eq_true'] at hp
    simp [State.paragraphs, hp]
  have noWrite : s.mayWrite (segOf m) = false := by simp [State.mayWrite, hw, real]
  have refused : s.segOk (segOf m) (s.memEa m) 1 true = false := by simp [State.segOk, noWrite]
  rw [plain_setByte_segError refused, if_neg]
  rintro ⟨e, h⟩
  rw [e] at hv noWrite
  simp [hv, noWrite] at h

theorem plain_setByte_beyond (hw : (s.sreg (segOf m)).writable = true)
    (hl : inLimit (s.sreg (segOf m)) (s.memEa m) 1 = false) : plain (setByte (.mem m) b) s =
      .next (abandon s (faultOf (if segOf m = .ss then 12 else 13) (some 0)) s.begun) := by
  have refused : s.segOk (segOf m) (s.memEa m) 1 true = false := by simp [State.segOk, hl]
  have mayWrite : s.mayWrite (segOf m) = true := by simp [State.mayWrite, hw]
  rw [plain_setByte_segError refused]
  congr 4
  exact propext ⟨fun h => h.1, fun e => ⟨e, .inr (e ▸ mayWrite)⟩⟩

end

/-! ### The sixteen conditions (R570) -/

/-- `p` is a subcode, the SETcc that stands there in the opcode map, and the truth of its condition in `s`. -/
structure IsSetcc (s : State) (p : BitVec 4 × (Rm → Instr) × Bool) : Prop where
  inMap : ∀ rm, setccOf p.1 rm = p.2.1 rm
  meaning : ∀ rm, exec (p.2.1 rm) s = plain (setByte rm p.2.2) s

end Sys2Proof.Machine
end

section
/-! O8 to O12: shifts and rotates, double shifts, bit tests and scans, SETcc. -/

namespace Sys2Proof.Machine

/-- Settles O8: the seven instructions are one operation, of the kind that stands beside each. -/
theorem shiftResult : Obligations.ShiftResult := by
  intro s f w x n t put h p hp
  have meaning : exec (p.1 f) s = plain (shiftForm p.2 f) s := by
    simp only [List.mem_cons, List.not_mem_nil, or_false] at hp
    rcases hp with rfl | rfl | rfl | rfl | rfl | rfl | rfl <;> rfl
  rw [meaning]
  refine ⟨?_, fun hn r c t₁ t₂ hs h₁ h₂ => plain_ok (shiftForm_run h (shiftF_run hn hs h₁ h₂))⟩
  rintro rfl
  exact plain_ok (shiftForm_run h (shiftF_zero ..))

/-- Settles O9: by induction on the number of steps, kind by kind. -/
theorem shiftMeaning : Obligations.ShiftMeaning := by
  rintro w x c (_ | m) hk -
  · exact absurd hk (Nat.lt_irrefl 0)
  have hw := width_bits_pos w
  refine ⟨kindShl_steps x c m, kindShr_steps x c m, kindSar_steps x c m, kindRol_steps x c m hw,
    kindRor_steps x c m hw, ?_, ?_⟩
  · rintro _ rfl
    exact kindRcl_steps x c (m + 1) hw
  · rintro _ rfl
    exact kindRcr_steps x c (m + 1) hw

/-- Settles O10: the three ranges of the count are the three branches of `dshiftF`. -/
theorem doubleShiftResult : Obligations.DoubleShiftResult := by
  intro s f w x y k t put h
  refine ⟨?_, fun h₀ hk => ?_, fun hk => ?_⟩
  · rintro rfl
    exact ⟨plain_ok (dshiftForm_run h (dshiftF_zero ..)), plain_ok (dshiftForm_run h (dshiftF_zero ..))⟩
  · have hk₀ := Nat.ne_of_gt h₀
    exact ⟨plain_ok (dshiftForm_run h (dshiftF_run hk₀ hk)), plain_ok (dshiftForm_run h (dshiftF_run hk₀ hk))⟩
  · have hk₀ : k ≠ 0 := Nat.ne_of_gt (Nat.lt_of_lt_of_le (width_bits_pos w) hk)
    exact ⟨plain_ok (dshiftForm_run h (dshiftF_free hk₀ hk)), plain_ok (dshiftForm_run h (dshiftF_free hk₀ hk))⟩

/-- Settles O11: BT reads its unit, BTS, BTR and BTC rewrite it; the scans find a bit, or their operand is 0. -/
theorem bitTestResult : Obligations.BitTestResult := by
  refine ⟨⟨fun s f w v k t h => ?_, fun s f w v k t put h u hu => ?_⟩,
    fun s w r rm v t h => ⟨fun hv => ?_, fun k hk => ⟨exec_bsf h hk r, exec_bsr h hk r⟩⟩⟩
  · exact plain_ok ((M_bind_ok (bitRead_run h)).trans (bitFlags_run ..))
  · subst hu
    exact ⟨plain_ok (bitUpdate_run h), plain_ok (bitUpdate_run h), plain_ok (bitUpdate_run h)⟩
  · exact ⟨plain_ok (bitScan_zero _ h hv), plain_ok (bitScan_zero _ h hv)⟩

/-- Settles O12: the sixteen differ in subcode and condition alone; each stores its byte, and the decoder finds each at its
subcode without a look at the reg field. -/
theorem setccResult : Obligations.SetccResult := by
  intro s cf zf lt p hp
  obtain ⟨inMap, meaning⟩ : IsSetcc s p := by
    simp only [List.mem_cons, List.not_mem_nil, or_false] at hp
    rcases hp with rfl | rfl | rfl | rfl | rfl | rfl | rfl | rfl | rfl | rfl | rfl | rfl | rfl | rfl | rfl | rfl <;>
      exact ⟨fun _ => rfl, fun _ => rfl⟩
  simp only [← inMap] at meaning ⊢
  simp only [meaning]
  refine ⟨fun _ _ h => plain_setByte h, fun m => ?_, fun d mod reg reg' rm bs => ?_⟩
  · exact ⟨plain_setByte_invalid, plain_setByte_readOnly, fun _ => plain_setByte_beyond,
      fun _ _ h => plain_setByte_error h⟩
  · exact ⟨decode_setcc_reg d p.1 bs reg rm, decode_setcc_reg_irrel d p.1 bs mod reg reg' rm,
      fun _ _ h => decode_setcc_ok h⟩

end Sys2Proof.Machine
end

section
/-! SUPPORT. Near transfers, stack frames and BOUND: how a conditional jump ends, what CALL and RET do with target and stack,
the frames of ENTER, and the bounds as integers (R560 to R582). -/

namespace Sys2Proof.Machine

variable {s t u : State} {w : Width} {off d : Dword}

/-! ### Conditional jumps and loops (R570 to R576) -/

/-- `m`, run for an instruction that began in `s`, is a jump to the relative target of `f` where `b` holds, made in state `u`,
which has the code segment and the next offset of `s`. -/
structure IsJump (s : State) (m : M Done) (f : RelForm) (u : State) (b : Bool) : Prop where
  run : m s.begun = jumpIf b f u
  cs : u.cs = s.cs
  next : u.nextEip = s.nextEip

/-- The three ends of a jump: the condition fails, the target lies within the CS limit, or beyond it. -/
theorem IsJump.ends {m : M Done} {f : RelForm} {b : Bool} (h : IsJump s m f u b) (hf : relForm f = (w, d)) :
    (b = false → instr m s = .next (finish s .next u)) ∧
    (b = true → inLimit s.cs (cut (w = .d32) (s.nextEip + d)) 1 = true →
      instr m s = .next (finish s .went { u with eip := cut (w = .d32) (s.nextEip + d) })) ∧
    (b = true → inLimit s.cs (cut (w = .d32) (s.nextEip + d)) 1 = false →
      instr m s = .next (abandon s (faultOf 13 (some 0)) u)) := by
  obtain ⟨run, hcs, hn⟩ := h
  rw [← hcs, ← hn]
  refine ⟨?_, ?_, ?_⟩ <;> rintro rfl
  · exact instr_ok run
  · exact fun hl => instr_ok (run.trans (jumpIf_run hf hl))
  · exact fun hl => instr_error (run.trans (jumpIf_error hf hl))

/-! ### Near JMP, CALL and RET (R562 to R566) -/

theorem NearIs.touched {f : NearForm} (h : NearIs s f w off t) : s.Touched t := by
  cases h with
  | rel8 => exact .refl _
  | rel => exact .refl _
  | rm h => exact h.touched

section
variable {f : NearForm} (h : NearIs s.begun f w off t)
include h

theorem exec_jmp (hl : inLimit t.cs (cut (w = .d32) off) 1 = true) :
    exec (.jmp f) s = .next (finish s .went { t with eip := cut (w = .d32) off }) :=
  instr_ok ((M_bind_ok (nearForm_run h)).trans (M_bind_ok (nearJump_run hl)))

theorem exec_jmp_beyond (hl : inLimit t.cs (cut (w = .d32) off) 1 = false) :
    exec (.jmp f) s = .next (abandon s (faultOf 13 (some 0)) t) :=
  instr_error ((M_bind_ok (nearForm_run h)).trans (M_bind_error (nearJump_error hl)))

/-- CALL pushes the offset of the next instruction, which reaching its operand has not changed. -/
theorem exec_call {put : BitVec w.bits → State} (hr : t.roomOk w.bytes = true)
    (hl : inLimit t.cs (cut (w = .d32) off) 1 = true) (hp : PushTo t w put) :
    exec (.call f) s =
      .next (finish s .went { put (t.nextEip.setWidth w.bits) with eip := cut (w = .d32) off }) := by
  have hn : t.nextEip = s.nextEip := h.touched.nextEip
  rw [hn]
  refine instr_ok ((M_bind_ok (nearForm_run h)).trans ?_)
  dsimp only
  rw [M_bind_ok (stackRoom_ok hr), M_bind_ok (nearTarget_run hl), M_bind_ok (push_run _ hp)]
  rfl

theorem exec_call_beyond (hr : t.roomOk w.bytes = true) (hl : inLimit t.cs (cut (w = .d32) off) 1 = false) :
    exec (.call f) s = .next (abandon s (faultOf 13 (some 0)) t) :=
  instr_error ((M_bind_ok (nearForm_run h)).trans ((M_bind_ok (stackRoom_ok hr)).trans
    (M_bind_error (nearTarget_error hl))))

theorem exec_call_noRoom (hr : t.roomOk w.bytes = false) (hw : t.ss.valid = true → t.mayWrite .ss = true) :
    exec (.call f) s = .next (abandon s (faultOf 12 (some 0)) t) :=
  instr_error ((M_bind_ok (nearForm_run h)).trans (M_bind_error (stackRoom_error hr hw)))

end

section
variable {n : Option Word} {ip : BitVec w.bits} (h : PopFrom s.begun w ip t)
include h

theorem exec_ret (hl : inLimit (t.setEsp (t.esp + retCount n)).cs (cut (w = .d32) (ip.setWidth 32)) 1 = true) :
    exec (.ret w n) s =
      .next (finish s .went { t.setEsp (t.esp + retCount n) with eip := cut (w = .d32) (ip.setWidth 32) }) :=
  instr_ok ((M_bind_ok (pop_run h)).trans ((M_modify_bind _ _ _).trans (M_bind_ok (nearJump_run hl))))

theorem exec_ret_beyond (hl : inLimit (t.setEsp (t.esp + retCount n)).cs (cut (w = .d32) (ip.setWidth 32)) 1 = false) :
    exec (.ret w n) s = .next (abandon s (faultOf 13 (some 0)) (t.setEsp (t.esp + retCount n))) :=
  instr_error ((M_bind_ok (pop_run h)).trans ((M_modify_bind _ _ _).trans (M_bind_error (nearJump_error hl))))

end

/-! ### ENTER and LEAVE (R580, R581) -/

/-- The display of ENTER at level `n`: nothing at level 0, else the frame pointers of the outer levels and its own. -/
theorem enterDisplay_run {n : Nat} {frame : BitVec w.bits} (h0 : n = 0 → u = t)
    (h1 : n ≠ 0 → ∃ x put, FrameCopies w (n - 1) t x ∧ PushTo x w put ∧ u = put frame) :
    when (0 < n) (enterFrames w (n - 1) frame) t = .ok () u := by
  by_cases hn : n = 0
  · rw [h0 hn, when_pos_false (Nat.not_lt.2 (Nat.le_of_eq hn))]
    rfl
  · obtain ⟨x, put, hc, hp, rfl⟩ := h1 hn
    rw [decide_eq_true (Nat.pos_of_ne_zero hn), when_true]
    exact (M_bind_ok (enterCopy_run hc)).trans (push_run _ hp)

/-- ENTER once its display has been made: eBP takes the frame pointer, and the storage is reserved within the limit. -/
theorem exec_enter {size : Word} {level : Byte} {put : BitVec w.bits → State} {z : State} {sp : Dword}
    (hp : PushTo s.begun w put) (ht : put (s.reg w .ebp) = t)
    (hd : when (0 < (level &&& 0x1F).toNat) (enterFrames w ((level &&& 0x1F).toNat - 1) (t.esp.setWidth w.bits)) t =
      .ok () u)
    (hz : u.setReg w .ebp (t.esp.setWidth w.bits) = z) (hsp : cut z.stack32 (z.esp - size.setWidth 32) = sp)
    (hl : inLimit z.ss sp 1 = true) : exec (.enter w size level) s = .next (finish s .next (z.setEsp sp)) := by
  subst ht hz hsp
  refine plain_ok ((M_bind_ok (push_run _ hp)).trans ?_)
  rw [M_get_bind]
  dsimp only
  rw [M_bind_ok hd, M_bind_ok (writeReg_run ..), M_get_bind, hl]
  rfl

theorem exec_leave {bp : BitVec w.bits} (h : PopFrom (s.begun.setEsp s.regs.ebp) w bp t) :
    exec (.leave w) s = .next (finish s .next (t.setReg w .ebp bp)) :=
  plain_ok ((M_modify_bind _ _ _).trans (M_bind_ok (pop_run h)))

/-! ### BOUND (R582) -/

section
variable {r : Reg} {m : MemRef} {pas pas' : List Nat}
  (h : Reach s.begun s.user (segOf m) (s.memEa m) w.bytes false pas t)
  (h' : Reach (t.afterRead pas) s.user (segOf m) (nextOff m (s.memEa m) w.bytes) w.bytes false pas' u)
include h h'

/-- BOUND reads its two bounds and compares the register with them as integers. -/
theorem bound_reads : (do
      let lower ← memRead (segOf m) (s.memEa m) w
      let upper ← memRead (segOf m) (nextOff m (s.memEa m) w.bytes) w
      when ((s.reg w r).slt lower || upper.slt (s.reg w r)) (raise 5 none) : M Unit) s.begun =
    when (decide ((s.reg w r).toInt < (t.valueAt w pas).toInt) || decide ((u.valueAt w pas').toInt < (s.reg w r).toInt))
      (raise 5 none) (u.afterRead pas') := by
  have hu : (t.afterRead pas).user = s.user := h.read.user
  exact (M_bind_ok (memRead_run h)).trans (M_bind_ok (memRead_run (hu.symm ▸ h')))

theorem exec_bound_inside (hl : (t.valueAt w pas).toInt ≤ (s.reg w r).toInt)
    (hu : (s.reg w r).toInt ≤ (u.valueAt w pas').toInt) :
    exec (.bound w r m) s = .next (finish s .next (u.afterRead pas')) := by
  refine plain_ok ((bound_reads h h').trans ?_)
  rw [decide_eq_false (Int.not_lt.2 hl), decide_eq_false (Int.not_lt.2 hu)]
  rfl

theorem exec_bound_outside
    (ho : (s.reg w r).toInt < (t.valueAt w pas).toInt ∨ (u.valueAt w pas').toInt < (s.reg w r).toInt) :
    exec (.bound w r m) s = .next (abandon s (faultOf 5 none) (u.afterRead pas')) := by
  refine plain_error ((bound_reads h h').trans ?_)
  rw [← Bool.decide_or, decide_eq_true ho]
  rfl

end

end Sys2Proof.Machine
end

section
/-! O20 to O23: conditional jumps and loops, near transfers, stack frames and BOUND. -/

namespace Sys2Proof.Machine

/-- Settles O20: the sixteen jumps and the four loops are one jump, under the condition and from the state beside each. -/
theorem conditionalJump : Obligations.ConditionalJump := by
  constructor
  · intro s f w d hf cf zf lt dest p hp
    have meaning : exec (p.1 f) s = instr (jumpIf p.2 f) s := by
      simp only [List.mem_cons, List.not_mem_nil, or_false] at hp
      rcases hp with rfl | rfl | rfl | rfl | rfl | rfl | rfl | rfl | rfl | rfl | rfl | rfl | rfl | rfl | rfl | rfl <;> rfl
    rw [meaning]
    exact IsJump.ends ⟨rfl, rfl, rfl⟩ hf
  · intro s w asz d dest u more p hp
    have hcs : u.cs = s.cs := State.setIdx_cs ..
    have hn : u.nextEip = s.nextEip := State.setIdx_nextEip ..
    obtain ⟨m, meaning, jump⟩ : ∃ m, exec (p.1 w asz d) s = instr m s ∧ IsJump s m (.rel8 w d) p.2.1 p.2.2 := by
      simp only [List.mem_cons, List.not_mem_nil, or_false] at hp
      obtain rfl | rfl | rfl | rfl := hp
      · exact ⟨_, rfl, rfl, rfl, rfl⟩
      · exact ⟨_, rfl, rfl, hcs, hn⟩
      · exact ⟨_, rfl, rfl, hcs, hn⟩
      · exact ⟨_, rfl, rfl, hcs, hn⟩
    rw [meaning]
    exact jump.ends rfl

/-- Settles O21: each transfer reads its target and makes its checks before it stores anything. -/
theorem nearTransfer : Obligations.NearTransfer := by
  refine ⟨fun s f w off t h => ⟨fun hl => ⟨exec_jmp h hl, fun put hr hp => exec_call h hr hl hp⟩,
    fun hl => ⟨exec_jmp_beyond h hl, fun hr => exec_call_beyond h hr hl⟩, exec_call_noRoom h⟩, ?_⟩
  rintro s w n v t _ h rfl
  exact ⟨exec_ret h, exec_ret_beyond h⟩

/-- Settles O22: the display of ENTER is made in one of two ways; the rest is the same at every level. -/
theorem frameInstructions : Obligations.FrameInstructions := by
  refine ⟨?_, fun s w v t h => exec_leave h⟩
  intro s w size level put u hp t frame h0 h1 z sp hl
  have hlevel : (level &&& 0x1F).toNat = 0 ↔ level &&& 0x1F = 0 := BitVec.toNat_inj (y := 0)
  exact exec_enter hp rfl (enterDisplay_run (fun h => h0 (hlevel.1 h)) fun h => h1 (mt hlevel.2 h)) rfl rfl hl

/-- Settles O23: both bounds are read before the comparison. -/
theorem boundResult : Obligations.BoundResult := fun _ _ _ _ _ _ _ _ h h' =>
  ⟨fun hi => exec_bound_inside h h' hi.1 hi.2, exec_bound_outside h h'⟩

end Sys2Proof.Machine
end

section
/-! SUPPORT. Far transfers by paragraph number (R601, R602, R605) and far returns to the same privilege (R612). -/

namespace Sys2Proof.Machine

variable {s t u v z : State} {w : Width} {off : Dword} {sel rs : Word} {d : Desc} {x : Exc}

/-! ### Far JMP and CALL by paragraph number (R602, R605) -/

/-- An offset beyond the CS limit (R601). -/
theorem checkTargetHere_error (h : inLimit s.cs off 1 = false) :
    checkTargetHere off s = .error (faultOf 13 (some 0)) s := by
  unfold checkTargetHere
  rw [M_get_bind, h]
  rfl

section
variable {f : FarForm} (hp : s.paragraphs = true) (hf : FarIs s.begun f w sel off t)
include hp hf

theorem exec_jmpFar_paragraph (hl : inLimit t.cs off 1 = true) :
    exec (.jmpFar f) s = .next (finish s .went { t.paragraphCS sel with eip := off }) :=
  instr_ok ((M_bind_ok (farForm_run hf)).trans ((congrFun (if_pos hp) t).trans (M_bind_ok (checkTargetHere_run hl))))

theorem exec_jmpFar_paragraph_beyond (hl : inLimit t.cs off 1 = false) :
    exec (.jmpFar f) s = .next (abandon s (faultOf 13 (some 0)) t) :=
  instr_error ((M_bind_ok (farForm_run hf)).trans ((congrFun (if_pos hp) t).trans
    (M_bind_error (checkTargetHere_error hl))))

theorem exec_callFar_paragraph (hr : t.roomOk (2 * w.bytes) = true) (hl : inLimit t.cs off 1 = true)
    (hi : Items s.user w t [.sel s.cs.sel, .val s.nextEip] u) :
    exec (.callFar f) s = .next (finish s .went { u.paragraphCS sel with eip := off }) :=
  instr_ok ((M_bind_ok (farForm_run hf)).trans ((congrFun (if_pos hp) t).trans ((M_bind_ok (stackRoom_ok hr)).trans
    ((M_bind_ok (checkTargetHere_run hl)).trans (M_bind_ok (pushReturn_run hi))))))

theorem exec_callFar_paragraph_beyond (hr : t.roomOk (2 * w.bytes) = true) (hl : inLimit t.cs off 1 = false) :
    exec (.callFar f) s = .next (abandon s (faultOf 13 (some 0)) t) :=
  instr_error ((M_bind_ok (farForm_run hf)).trans ((congrFun (if_pos hp) t).trans ((M_bind_ok (stackRoom_ok hr)).trans
    (M_bind_error (checkTargetHere_error hl)))))

theorem exec_callFar_paragraph_noRoom (hr : t.roomOk (2 * w.bytes) = false)
    (hw : t.ss.valid = true → t.mayWrite .ss = true) :
    exec (.callFar f) s = .next (abandon s (faultOf 12 (some 0)) t) :=
  instr_error ((M_bind_ok (farForm_run hf)).trans ((congrFun (if_pos hp) t).trans (M_bind_error (stackRoom_error hr hw))))

end

/-! ### Far RET (R612) -/

theorem exec_retFar_paragraph {n : Option Word} (hp : s.paragraphs = true) (h : retReal w (retCount n) s.begun = .ok () t) :
    exec (.retFar w n) s = .next (finish s .went t) := by
  refine instr_ok (M_bind_ok (a := ()) ?_)
  rwa [if_pos hp]

section
variable {n : Option Word} (hp : s.prot = true)
include hp

theorem exec_retFar_prot (h : retProt w (retCount n) s.begun = .ok () t) :
    exec (.retFar w n) s = .next (finish s .went t) := by
  refine instr_ok (M_bind_ok (a := ()) ?_)
  rwa [State.paragraphs_of_prot hp, if_neg Bool.false_ne_true]

theorem exec_retFar_prot_error (h : retProt w (retCount n) s.begun = .error x t) :
    exec (.retFar w n) s = .next (abandon s x t) := by
  refine instr_error (M_bind_error ?_)
  rwa [State.paragraphs_of_prot hp, if_neg Bool.false_ne_true]

end

theorem retReal_run {ip csv : BitVec w.bits} {imm : Dword} (h : StackItem s 0 w ip t) (h' : StackItem t w.bytes w csv u)
    (hl : inLimit u.cs (ip.setWidth 32) 1 = true) : retReal w imm s = .ok ()
      { (u.setEsp (u.esp + BitVec.ofNat 32 (2 * w.bytes) + imm)).paragraphCS (csv.setWidth 16) with
        eip := ip.setWidth 32 } := by
  unfold retReal
  rw [M_bind_ok (stackRead_run h), M_bind_ok (stackRead_run h'), M_bind_ok (checkTargetHere_run hl)]
  rfl

section
variable {imm : Dword} (h : StackItem s w.bytes .w16 rs t)
include h

/-- A selector of an inner level (R612). -/
theorem retProt_inner (hr : selRpl rs < s.cpl) :
    retProt w imm s = .error (faultOf 13 (some (selCode false rs))) t := by
  unfold retProt
  rw [M_get_bind, M_bind_ok (stackRead_run h), decide_eq_true hr]
  rfl

theorem retProt_same (hr : selRpl rs = s.cpl) : retProt w imm s = retSame w imm rs t := by
  unfold retProt
  rw [M_get_bind, M_bind_ok (stackRead_run h), hr, decide_eq_false (BitVec.lt_irrefl _), when_false, M_pure_bind,
    if_neg (BitVec.lt_irrefl _)]

end

theorem returnCode_null {cpl : BitVec 2} (hn : nullSel rs = true) :
    returnCode rs cpl s = .error (faultOf 13 (some 0)) s := by
  unfold returnCode
  rw [hn]
  rfl

theorem retSame_error {imm : Dword} (h : returnCode rs s.cpl s = .error x t) : retSame w imm rs s = .error x t := by
  unfold retSame
  rw [M_get_bind]
  exact M_bind_error h

theorem retSame_run {imm : Dword} {ip : BitVec w.bits} (hc : returnCode rs s.cpl s = .ok d u)
    (hi : StackItem u 0 w ip v) (hl : inLimit (d.toSeg rs) (ip.setWidth 32) 1 = true)
    (ha : setAccessed rs d v = .ok () z) (ht : z.inCode rs d s.cpl (ip.setWidth 32) = t) :
    retSame w imm rs s = .ok () (t.setEsp (t.esp + BitVec.ofNat 32 (2 * w.bytes) + imm)) := by
  subst ht
  unfold retSame
  rw [M_get_bind, M_bind_ok hc, M_bind_ok (stackRead_run hi), M_bind_ok (checkTarget_run hl),
    M_bind_ok (enterCode_run ha)]
  rfl

end Sys2Proof.Machine
end

section
/-! O24 and O26: far JMP and CALL by paragraph number, and far RET. -/

namespace Sys2Proof.Machine

/-- Settles O24: the operand is read first; CALL looks at the stack before the target. -/
theorem farTransferByParagraph : Obligations.FarTransferByParagraph := fun _ _ _ _ _ _ hp hf =>
  ⟨fun hl => ⟨exec_jmpFar_paragraph hp hf hl, fun _ hr hi => exec_callFar_paragraph hp hf hr hl hi⟩,
    fun hl => ⟨exec_jmpFar_paragraph_beyond hp hf hl, fun hr => exec_callFar_paragraph_beyond hp hf hr hl⟩,
    exec_callFar_paragraph_noRoom hp hf⟩

/-- Settles O26: in protected mode the privilege of the selector decides before its descriptor is looked at. -/
theorem farReturn : Obligations.FarReturn := by
  refine ⟨fun s w n off csv t u hp h h' hl => exec_retFar_paragraph hp (retReal_run h h' hl), fun s w n rs t hp h => ?_,
    fun s w n rs off t u v z d hp h hr hn hd hk hi hl ha => ?_⟩
  · have hcpl : t.cpl = s.cpl := h.touched.cpl
    have refused {x u} (hr : selRpl rs = s.cpl) (hc : returnCode rs s.cpl t = .error x u) :
        exec (.retFar w n) s = .next (abandon s x u) :=
      exec_retFar_prot_error hp ((retProt_same h hr).trans (retSame_error (hcpl ▸ hc)))
    exact ⟨fun hr => exec_retFar_prot_error hp (retProt_inner h hr), fun hr hn => refused hr (returnCode_null hn),
      fun x u hr hn hf => refused hr (returnCode_refused hn hf)⟩
  · have hcpl : t.cpl = s.cpl := h.touched.cpl
    rw [← hcpl] at hk
    rw [← hcpl]
    exact exec_retFar_prot hp ((retProt_same h hr).trans (retSame_run (returnCode_run hn hd hk) hi hl ha rfl))

end Sys2Proof.Machine
end

section
/-! SUPPORT. Software interrupts (R630 to R632), deliveries in real-address mode and what follows when they fail (R870, R885,
R936), and deliveries through a gate to the current privilege level (R823). -/

namespace Sys2Proof.Machine

variable {s t u v z : State} {w : Width} {off : Dword} {cs : Word} {g c : Desc} {e : Event} {x : Exc}

/-! ### Software interrupts (R630 to R632, R957) -/

theorem checkV86Iopl_run (h : ¬(s.v86 = true ∧ s.iopl < 3)) : checkV86Iopl s = .ok () s := by
  have hb : (s.v86 && decide (s.iopl < 3)) = false := by
    simpa only [Bool.eq_false_iff, ne_eq, Bool.and_eq_true, decide_eq_true_eq] using h
  unfold checkV86Iopl
  rw [M_get_bind, hb]
  rfl

theorem checkV86Iopl_error (hv : s.v86 = true) (hi : s.iopl < 3) :
    checkV86Iopl s = .error (faultOf 13 (some 0)) s := by
  unfold checkV86Iopl
  rw [M_get_bind, hv, decide_eq_true hi]
  rfl

/-- The event of a software interrupt that began in `s`: it returns to the next instruction (R827). -/
def softEvent (s : State) (v : Byte) : Event :=
  { vec := v, kind := .soft, code := none, isFault := false, ret := s.nextEip }

theorem softInt_run {v : Byte} (h : deliver (softEvent s v) s = .ok () t) : softInt v s = .ok .wentKeepRf t :=
  M_bind_ok h

/-! ### Real-address mode (R936) -/

theorem deliver_real (h : s.pe = false) : deliver e s = deliverReal e s := by
  unfold deliver
  rw [M_get_bind, h]
  rfl

/-- In real-address mode CS keeps its attributes (R932). -/
theorem paragraphCS_real {sel : Word} (h : s.pe = false) : s.paragraphCS sel = { s with cs := s.cs.loadReal sel } := by
  unfold State.paragraphCS
  rw [h]
  rfl

/-- The abort that an IDT limit too small for the vector raises (R936). -/
def idtAbort : Exc := { vec := 8, code := none, isFault := false, ret := none, committed := false }

theorem deliverReal_beyond (h : s.idtr.limit.toNat < 4 * e.vec.toNat + 3) : deliverReal e s = .error idtAbort s := by
  unfold deliverReal
  rw [M_get_bind, decide_eq_true h]
  rfl

theorem deliverReal_run {ip seg : Word} (hl : 4 * e.vec.toNat + 3 ≤ s.idtr.limit.toNat)
    (hi : Items s.user .w16 s [.val s.eflags, .sel s.cs.sel, .val e.ret] t)
    (h : sysRead16 (s.idtr.base + BitVec.ofNat 32 (4 * e.vec.toNat)) t = .ok ip u)
    (h' : sysRead16 (s.idtr.base + BitVec.ofNat 32 (4 * e.vec.toNat + 2)) u = .ok seg z) (hz : z.pe = false) :
    deliverReal e s = .ok () { ((z.setFlag .iflag false).setFlag .tf false).setFlag .rf false with
      cs := z.cs.loadReal seg, eip := ip.setWidth 32 } := by
  unfold deliverReal
  rw [M_get_bind, when_pos_false (Nat.not_lt.2 hl), M_pure_bind]
  obtain ⟨_, e1, hi⟩ := pushVal_bind hi
  refine e1.trans ?_
  obtain ⟨_, e2, hi⟩ := pushSel_bind hi
  refine e2.trans ?_
  rw [M_bind_ok (pushVal_last hi), M_bind_ok h, M_bind_ok h', M_modify_bind]
  exact congrArg (fun y : State => EStateM.Result.ok () { y with eip := ip.setWidth 32 })
    (paragraphCS_real (s := ((z.setFlag .iflag false).setFlag .tf false).setFlag .rf false) hz)

/-! ### Deliveries that fail (R870, R885) -/

/-- An exception 8 whose delivery raises an exception shuts the processor down. -/
theorem deliverAll_shutdown {n : Nat} (h : deliver e s = .error x s) (hx : x.committed = false)
    (he : e.kind = .exc ∧ e.vec = 8) : deliverAll (n + 1) e s = { s with run := .shutdown } := by
  simp only [deliverAll, h, hx, if_pos he]
  rfl

/-- The abort of a small IDT limit makes no double fault: exception 8 is delivered as an exception of its own. -/
theorem deliverAll_idtAbort {n : Nat} (h : deliver e s = .error idtAbort s) (he : ¬(e.kind = .exc ∧ e.vec = 8)) :
    deliverAll (n + 1) e s =
      deliverAll n { vec := 8, kind := .exc, code := none, isFault := false, ret := e.ret } s := by
  have hc : contributory idtAbort.vec = false := rfl
  have hd : doubles e.vec idtAbort.vec = false := by
    rw [doubles, hc, Bool.and_false]
    exact Bool.and_false _
  have hk : ¬(e.kind = .exc ∧ doubles e.vec idtAbort.vec = true) := fun hk => Bool.eq_false_iff.1 hd hk.2
  simp only [deliverAll, h, if_neg he, if_neg hk]
  rfl

/-! ### Delivery to the current privilege level (R823) -/

theorem deliverTo_same (hv : s.flag .vm = false) (h : c.conforming = true ∨ s.cpl ≤ c.dpl) :
    deliverTo e w cs c off s = deliverSame e w cs c off s := by
  have hk : (!c.conforming && decide (c.dpl < s.cpl)) = false := by rcases h with h | h <;> simp [h, BitVec.not_lt.2]
  unfold deliverTo
  rw [M_get_bind, hv, if_neg Bool.false_ne_true, hk, if_neg Bool.false_ne_true]

theorem deliverSame_run (hr : s.roomOk (e.frame w 3) = true) (hl : inLimit (c.toSeg cs) off 1 = true)
    (hi : Items s.user w s ([.val (e.image s), .sel s.cs.sel, .val e.ret] ++ (e.code.map Item.sel).toList) z)
    (ha : setAccessed cs c z = .ok () v) : deliverSame e w cs c off s = .ok () (v.inCode cs c s.cpl off) := by
  unfold deliverSame
  rw [M_get_bind, M_bind_ok (stackRoom_ok hr), M_bind_ok (checkTarget_run hl), M_bind_ok (pushFrame_run hi)]
  exact enterCode_run ha

theorem gateCode_null {ext : Bool} (hn : nullSel cs = true) :
    gateCode ext cs s = .error (faultOf 13 (some (if ext then 1 else 0))) s := by
  unfold gateCode
  rw [hn]
  rfl

/-- Through a gate whose entry in the IDT raises an exception. -/
theorem deliver_idtGate_error (hp : s.pe = true) (h : idtGate e s = .error x t) : deliver e s = .error x t := by
  unfold deliver
  rw [M_get_bind, hp]
  exact M_bind_error h

end Sys2Proof.Machine
end

section
/-! O27 to O29: deliveries in real-address mode and through a gate to the same privilege level, and software interrupts. -/

namespace Sys2Proof.Machine

/-- Settles O27: where the limit holds the entry nothing else can fail; where it does not, exception 8 comes in place of the
event, and for exception 8 itself shutdown. -/
theorem deliveryReal : Obligations.DeliveryReal := by
  refine ⟨fun s e off seg t u z hp hl hi h h' => ?_, fun s n e hp hl => ?_⟩
  · have hz : z.pe = false := by
      obtain ⟨_, _, _, _, _, hu⟩ := (sysRead16_walked h).trans (sysRead16_walked h')
      rw [State.pe, hu]
      exact (congrArg (bitOf · 0) (Items_cr0 hi)).trans hp
    exact (deliver_real hp).trans (deliverReal_run hl hi h h' hz)
  · have fails {e : Event} (hl : s.idtr.limit.toNat < 4 * e.vec.toNat + 3) : deliver e s = .error idtAbort s :=
      (deliver_real hp).trans (deliverReal_beyond hl)
    refine ⟨fails hl, deliverAll_idtAbort (fails hl), fun h8 => ?_⟩
    have stops : deliverAll (n + 2) e s = { s with run := .shutdown } := by
      by_cases he : e.kind = .exc ∧ e.vec = 8
      · exact deliverAll_shutdown (fails hl) rfl he
      · rw [deliverAll_idtAbort (fails hl) he]
        exact deliverAll_shutdown (fails h8) rfl ⟨rfl, rfl⟩
    rw [stops]
    exact ⟨rfl, rfl, rfl⟩

/-- Settles O28: the entry of the IDT, the code segment of its gate and the frame on the current stack, in that order. -/
theorem deliverySame : Obligations.DeliverySame := by
  constructor
  · intro s e hp code
    have hcode : idtCode e.vec e.kind.ext = code := idtCode_eq ..
    refine ⟨fun h => by rw [h]; rfl, fun h => by rw [h]; rfl, fun hl => ?_, fun g t hl hg => ⟨fun v hv => ?_,
      fun hf ht => ?_⟩⟩
    · exact hcode ▸ deliver_idtGate_error hp (idtGate_outside hl)
    · exact hcode ▸ deliver_idtGate_error hp (idtGate_refused hl hg hv)
    · have hcpl : t.cpl = s.cpl := (readDesc_walked hg).touched.cpl
      have refused {x u} (h : gateCode e.kind.ext g.gateSel t = .error x u) : deliver e s = .error x u :=
        (deliver_gate hp (idtGate_passes hl hg hf) ht).trans (M_bind_error h)
      exact ⟨fun hn => refused (gateCode_null hn), fun x u hn hr => refused (gateCode_refused hn (hcpl.symm ▸ hr))⟩
  · intro s e g c t u z v hp hl hg hs ht hk hgp hn hc hcc hcp hkc is32 w off hr hlim hi ha
    obtain ⟨ht5, ht⟩ : g.typ ≠ 5 ∧ (g.typ = 5 ∨ g.typ = 6 ∨ g.typ = 7 ∨ g.typ = 14 ∨ g.typ = 15) := by
      rcases ht with h | h | h | h <;> rw [h] <;> decide
    have hu := gateDesc_touched hg hc
    have hcpl : u.cpl = s.cpl := hu.cpl
    rw [← hcpl] at hkc
    have hle : c.conforming = true ∨ c.dpl ≤ u.cpl := hkc.imp And.left fun h => BitVec.le_of_eq h.2
    have hge : c.conforming = true ∨ u.cpl ≤ c.dpl := hkc.imp And.left fun h => BitVec.le_of_eq h.2.symm
    have himage : e.image u = e.image s := by
      obtain ⟨_, _, _, _, _, _, rfl⟩ := hu
      rfl
    rw [← himage, ← hu.user, ← hu.cs] at hi
    rw [deliver_gate (State.pe_of_prot hp) (idtGate_run hl hg hs ht hk hgp) ht5, ← hcpl]
    refine deliverGate_run (gateCode_run hn hc hcc hcp hle) ?_
    rw [deliverTo_same ((hu.flag .vm).trans (State.vm_of_prot hp)) hge]
    exact deliverSame_run hr hlim hi ha

/-- Settles O29: the three instructions deliver one kind of event. -/
theorem softwareInterrupt : Obligations.SoftwareInterrupt := by
  refine fun s => ⟨fun v i hi t h => ?_, fun ho => ?_, fun hv hi v => ?_⟩
  · have run : softInt v s.begun = .ok .wentKeepRf t := softInt_run h
    obtain ⟨rfl, hn⟩ | ⟨rfl, rfl⟩ | ⟨rfl, rfl, ho⟩ := hi
    · exact instr_ok ((M_bind_ok (checkV86Iopl_run (s := s.begun) hn)).trans run)
    · exact instr_ok run
    · exact instr_ok ((congrFun (if_pos ho) _).trans run)
  · exact instr_ok (congrFun (if_neg (Bool.eq_false_iff.1 ho)) _)
  · exact instr_error (M_bind_error (checkV86Iopl_error (s := s.begun) hv hi))

end Sys2Proof.Machine
end

section
/-! SUPPORT. Index and count registers by address size (R660), one element of MOVS, LODS, STOS, CMPS and SCAS (R662 to R666),
and when a repeated string instruction goes on (R690). -/

namespace Sys2Proof.Machine

variable {s t u : State} {w : Width} {a : StrAttr}

/-! ### Index and count registers (R660) -/

/-- The low 16 bits, by masking. -/
theorem and_low16 (v : Dword) : v &&& 0xFFFF = (v.extractLsb' 0 16).setWidth 32 := by
  apply BitVec.eq_of_toNat_eq
  rw [BitVec.toNat_and, BitVec.toNat_setWidth, BitVec.extractLsb'_toNat, Nat.shiftRight_zero]
  show v.toNat &&& (2 ^ 16 - 1) = _
  rw [Nat.and_two_pow_sub_one_eq_mod]
  omega

theorem State.idx_eq (s : State) (asz : Width) (r : Reg) :
    s.idx asz r = if asz = .d32 then s.reg .d32 r else (s.reg .w16 r).setWidth 32 := by
  unfold State.idx cut
  simp only [decide_eq_true_eq]
  split
  · rfl
  · exact and_low16 _

theorem getLsbD_low16 : ∀ i < 16, ((1 : Dword) <<< 16 - 1).getLsbD i = true := by decide

/-- A word put in the low half of a doubleword is its low half. -/
theorem low16_putBits (v : Dword) (x : Word) : (putBits v 0 16 (x.setWidth 32)).extractLsb' 0 16 = x := by
  apply BitVec.eq_of_getLsbD_eq
  intro i hi
  have hm := getLsbD_low16 i hi
  have h32 : i < 32 := by omega
  simp only [putBits, BitVec.getLsbD_extractLsb', BitVec.getLsbD_or, BitVec.getLsbD_and, BitVec.getLsbD_not, hm,
    Nat.zero_add, BitVec.shiftLeft_zero, BitVec.getLsbD_setWidth, hi, h32, decide_true, Bool.true_and, Bool.not_true,
    Bool.and_false, Bool.false_or, Bool.and_true]

theorem State.reg_setReg_w16 (s : State) (r : Reg) (v : Word) : (s.setReg .w16 r v).reg .w16 r = v := by
  simp only [State.reg, State.setReg, Regs.get_set, if_true]
  exact low16_putBits _ v

/-- A count that is decremented comes to 0 where it was 1: one of 0 wraps to the greatest of the address size. -/
theorem State.idx_pred_eq_zero (s : State) (asz : Width) (r : Reg) :
    (s.setIdx asz r (s.idx asz r - 1)).idx asz r = 0 ↔ s.idx asz r = 1 := by
  by_cases h : asz = .d32
  · subst h
    have hr : (s.setIdx .d32 r (s.idx .d32 r - 1)).idx .d32 r = s.idx .d32 r - 1 := by
      simp [State.idx_eq, State.setIdx]
    rw [hr]
    bv_omega
  · have hr : (s.setIdx asz r (s.idx asz r - 1)).idx asz r = ((s.idx asz r - 1).setWidth 16).setWidth 32 := by
      rw [State.idx_eq, if_neg h, State.setIdx, if_neg h, State.reg_setReg_w16]
    have hq : (s.idx asz r).toNat < 2 ^ 16 := by
      rw [State.idx_eq, if_neg h, BitVec.toNat_setWidth]
      have h16 : (s.reg .w16 r).toNat < 2 ^ 16 := (s.reg .w16 r).isLt
      omega
    rw [hr]
    bv_omega

theorem State.flag_setIdx (s : State) (asz : Width) (r : Reg) (v : Dword) (f : Flag) :
    (s.setIdx asz r v).flag f = s.flag f := by
  unfold State.flag
  rw [State.setIdx_eflags]

/-! ### The end of a string instruction (R690) -/

/-- The state after an iteration, in which the count is one less. -/
def State.counted (s : State) (asz : Width) : State := s.setIdx asz .ecx (s.idx asz .ecx - 1)

/-- A choice is that of the opposite condition with its ends exchanged. -/
theorem ite_swap {α : Type} {p q : Prop} [Decidable p] [Decidable q] {x y : α} (h : q ↔ ¬p) :
    (if p then x else y) = if q then y else x := by
  simp only [h, ite_not]

theorem strDone_once {compares : Bool} (h : a.rep = .none) : strDone a compares s t = finish s .next t := if_pos h

/-- A repeated instruction ends with its count, or with a comparison that says so. -/
theorem strDone_repeated {compares : Bool} (h : a.rep ≠ .none) : strDone a compares s t =
    finish s (if t.idx a.asz .ecx = 1 ∨ (compares = true ∧ t.repEnds a.rep = true) then .next else .again)
      (t.counted a.asz) := by
  have hz : (t.counted a.asz).idx a.asz .ecx = 0 ↔ t.idx a.asz .ecx = 1 := t.idx_pred_eq_zero ..
  have hf : (t.counted a.asz).repEnds a.rep = t.repEnds a.rep := by
    cases h : a.rep
    · rfl
    · exact congrArg (!·) (State.flag_setIdx ..)
    · exact State.flag_setIdx ..
  unfold strDone
  rw [if_neg h]
  show (if (decide ((t.counted a.asz).idx a.asz .ecx = 0) || (compares && (t.counted a.asz).repEnds a.rep)) = true
    then finish s .next (t.counted a.asz) else finish s .again (t.counted a.asz)) = _
  simp only [Bool.or_eq_true, decide_eq_true_eq, Bool.and_eq_true, hz, hf]
  split <;> rfl

/-! ### One element (R662 to R666) -/

theorem movsOnce_run {v : BitVec w.bits} {put : BitVec w.bits → State} (h : StrSrc s w a v t) (h' : StrPut t w a put) :
    movsOnce w a s = .ok () (((put v).stepIdx a.asz .esi w.bytes).stepIdx a.asz .edi w.bytes) := by
  unfold movsOnce
  rw [M_bind_ok (readSrc_run h), M_bind_ok (writeDst_run v h'), M_bind_ok stepSrc_run, stepDst_run]

theorem lodsOnce_run {v : BitVec w.bits} (h : StrSrc s w a v t) :
    lodsOnce w a s = .ok () ((t.setReg w .eax v).stepIdx a.asz .esi w.bytes) := by
  unfold lodsOnce
  rw [M_bind_ok (readSrc_run h), M_bind_ok (writeReg_run ..), stepSrc_run]

theorem stosOnce_run {put : BitVec w.bits → State} (h : StrPut s w a put) :
    stosOnce w a s = .ok () ((put (s.reg w .eax)).stepIdx a.asz .edi w.bytes) := by
  unfold stosOnce
  rw [M_bind_ok (readReg_run ..), M_bind_ok (writeDst_run _ h), stepDst_run]

theorem cmpsOnce_run {x y : BitVec w.bits} (h : StrSrc s w a x t) (h' : StrDst t w a y u) : cmpsOnce w a s =
    .ok () (((u.subFlags x y false).stepIdx a.asz .esi w.bytes).stepIdx a.asz .edi w.bytes) := by
  unfold cmpsOnce
  rw [M_bind_ok (readSrc_run h), M_bind_ok (readDst_run h'), M_bind_ok (subF_run ..), M_bind_ok stepSrc_run, stepDst_run]

theorem scasOnce_run {y : BitVec w.bits} (h : StrDst s w a y t) :
    scasOnce w a s = .ok () ((t.subFlags (t.reg w .eax) y false).stepIdx a.asz .edi w.bytes) := by
  unfold scasOnce
  rw [M_bind_ok (readDst_run h), M_bind_ok (readReg_run ..), M_bind_ok (subF_run ..), stepDst_run]

end Sys2Proof.Machine
end

section
/-! O31 and O32: MOVS, LODS, STOS, CMPS and SCAS. -/

namespace Sys2Proof.Machine

/-! ### Each string instruction as its primitive, repeated -/

/-- One iteration of a string instruction of any width: `b`, `w` and `d` are its three mnemonics, `once` its primitive. -/
theorem exec_iteration {s t : State} {a : StrAttr} {compares : Bool} {once : Width → StrAttr → M Unit}
    {b w d : StrAttr → Instr} {p : Width × (StrAttr → Instr)} (hp : p ∈ [(Width.b8, b), (.w16, w), (.d32, d)])
    (hb : exec (b a) s = instr (strStep a compares (once .b8 a)) s)
    (hw : exec (w a) s = instr (strStep a compares (once .w16 a)) s)
    (hd : exec (d a) s = instr (strStep a compares (once .d32 a)) s) (hr : a.rep = .none ∨ s.idx a.asz .ecx ≠ 0)
    (h : once p.1 a s.begun = .ok () t) : exec (p.2 a) s = .next (strDone a compares s t) := by
  have meaning : exec (p.2 a) s = instr (strStep a compares (once p.1 a)) s := by
    simp only [List.mem_cons, List.not_mem_nil, or_false] at hp
    obtain rfl | rfl | rfl := hp
    · exact hb
    · exact hw
    · exact hd
  exact meaning.trans (strStep_run h hr)

/-- Every string instruction repeats a primitive. -/
theorem exec_string {i : StrAttr → Instr} (hi : i ∈ ([.movsb, .movsw, .movsd, .cmpsb, .cmpsw, .cmpsd, .stosb, .stosw,
      .stosd, .lodsb, .lodsw, .lodsd, .scasb, .scasw, .scasd, .insb, .insw, .insd, .outsb, .outsw, .outsd] :
      List (StrAttr → Instr))) (a : StrAttr) (s : State) :
    ∃ compares m, exec (i a) s = instr (strStep a compares m) s := by
  simp only [List.mem_cons, List.not_mem_nil, or_false] at hi
  rcases hi with rfl | rfl | rfl | rfl | rfl | rfl | rfl | rfl | rfl | rfl | rfl | rfl | rfl | rfl | rfl | rfl | rfl |
    rfl | rfl | rfl | rfl <;> exact ⟨_, _, rfl⟩

/-- Settles O31: an element is one primitive; the count decides what follows it, or that it is not made. -/
theorem stringMoves : Obligations.StringMoves := by
  refine ⟨?_, fun s w a hr => ⟨?_, ?_, ?_⟩, fun s a hr hz i hi => ?_⟩
  · intro s t a r n q put
    have hq : ∀ r, q r = t.idx a.asz r := fun r => (t.idx_eq a.asz r).symm
    refine ⟨(hq r).symm, rfl, by rw [hq]; rfl, strDone_once, fun hr => ?_⟩
    rw [strDone_repeated hr, hq]
    simp only [Bool.false_eq_true, false_and, or_false]
    rfl
  · rintro v t put h h' p hp rfl
    exact exec_iteration hp rfl rfl rfl hr (movsOnce_run h h')
  · rintro v t h p hp rfl
    exact exec_iteration hp rfl rfl rfl hr (lodsOnce_run h)
  · rintro put h p hp rfl
    rw [← State.begun_reg]
    exact exec_iteration hp rfl rfl rfl hr (stosOnce_run h)
  · obtain ⟨compares, m, meaning⟩ := exec_string hi a s
    exact meaning.trans (strStep_zero hr hz)

/-- Settles O32: the elements are compared for the flags, and ZF decides with the count whether the instruction goes on. -/
theorem stringCompares : Obligations.StringCompares := by
  refine ⟨?_, fun s w a hr => ⟨?_, ?_⟩⟩
  · intro s t a count u
    refine ⟨strDone_once, fun hr => ?_, fun hr => ?_⟩ <;> rw [strDone_repeated (by rw [hr]; decide), hr]
    · exact congrArg (finish s · u) (ite_swap (by simp [State.repEnds, count]))
    · exact congrArg (finish s · u) (ite_swap (by simp [State.repEnds, count]))
  · rintro x y t u h h' p hp rfl
    exact exec_iteration hp rfl rfl rfl hr (cmpsOnce_run h h')
  · rintro y t h p hp rfl
    exact exec_iteration hp rfl rfl rfl hr (scasOnce_run h)

end Sys2Proof.Machine
end

section
/-! SUPPORT. Flags as data (R710 to R713), the interrupt flag (R705, R706), and what WAIT and ESC come to for each state of the
coprocessor (R726, R727, R990 to R997). -/

namespace Sys2Proof.Machine

variable {s t u : State} {w : Width} {x : Exc}

/-! ### Flags as data (R710 to R713) -/

/-- The bits of a mask are taken from the image, the others stay. -/
theorem getLsbD_masked (v mask image : Dword) (k : Nat) :
    ((v &&& ~~~mask) ||| (image &&& mask)).getLsbD k = if mask.getLsbD k then image.getLsbD k else v.getLsbD k := by
  rw [BitVec.getLsbD_or, BitVec.getLsbD_and, BitVec.getLsbD_and, BitVec.getLsbD_not]
  by_cases hk : k < 32
  · rw [decide_eq_true hk]
    cases mask.getLsbD k <;> simp
  · simp [BitVec.getLsbD_of_ge _ k (Nat.le_of_not_lt hk)]

theorem mayWriteIF_iff : s.mayWriteIF = true ↔ s.pe = false ∨ s.cpl ≤ s.iopl := by
  simp [State.mayWriteIF]

theorem mayWriteIF_false (hp : s.pe = true) (h : s.iopl < s.cpl) : s.mayWriteIF = false := by
  simp [State.mayWriteIF, hp, h]

/-- The bits of a constant, as the list of their numbers. -/
theorem getLsbD_iff_mem {m : Dword} {bits : List Nat} (h : ∀ k < 32, m.getLsbD k = true ↔ k ∈ bits)
    (hb : ∀ k ∈ bits, k < 32) (k : Nat) : m.getLsbD k = true ↔ k ∈ bits :=
  ⟨fun hk => (h k (BitVec.lt_of_getLsbD hk)).1 hk, fun hk => (h k (hb k hk)).2 hk⟩

/-- A bit of a mask that is there under a condition. -/
theorem getLsbD_ite_zero {c : Prop} [Decidable c] (m : Dword) (k : Nat) :
    (if c then m else 0).getLsbD k = true ↔ m.getLsbD k = true ∧ c := by
  split <;> simp [*]

theorem popfMask_iff (s : State) (k : Nat) : s.popfMask.getLsbD k = true ↔
    k ∈ [0, 2, 4, 6, 7, 8, 10, 11, 14] ∨ (k = 9 ∧ (s.pe = false ∨ s.cpl ≤ s.iopl)) ∨
      ((k = 12 ∨ k = 13) ∧ (s.pe = false ∨ s.cpl = 0)) := by
  have always : (0x4DD5 : Dword).getLsbD k = true ↔ k ∈ [0, 2, 4, 6, 7, 8, 10, 11, 14] :=
    getLsbD_iff_mem (by decide) (by decide) k
  have intr : (0x200 : Dword).getLsbD k = true ↔ k = 9 :=
    (getLsbD_iff_mem (bits := [9]) (by decide) (by decide) k).trans List.mem_singleton
  have iopl : (0x3000 : Dword).getLsbD k = true ↔ k = 12 ∨ k = 13 :=
    (getLsbD_iff_mem (bits := [12, 13]) (by decide) (by decide) k).trans
      (List.mem_cons.trans (or_congr Iff.rfl List.mem_singleton))
  unfold State.popfMask
  rw [BitVec.getLsbD_or, BitVec.getLsbD_or, Bool.or_eq_true, Bool.or_eq_true, getLsbD_ite_zero, getLsbD_ite_zero,
    always, intr, iopl, mayWriteIF_iff, Bool.not_eq_true', or_assoc]

section
variable (h : ¬(s.v86 = true ∧ s.iopl < 3))
include h

theorem pushFlags_run {put : BitVec w.bits → State} (hp : PushTo s w put) :
    pushFlags w s = .ok () (put ((s.eflags &&& 0x00FCFFFF).setWidth w.bits)) := by
  unfold pushFlags
  rw [M_bind_ok (checkV86Iopl_run h), M_get_bind]
  exact push_run _ hp

theorem popFlags_run {v : BitVec w.bits} (hp : PopFrom s w v t) :
    popFlags w s = .ok .nextKeepRf (t.putFlags s.popfMask (v.setWidth 32)) := by
  unfold popFlags
  rw [M_bind_ok (checkV86Iopl_run h), M_get_bind, M_bind_ok (pop_run hp)]
  rfl

end

section
variable (hv : s.v86 = true) (hi : s.iopl < 3)
include hv hi

theorem pushFlags_error : pushFlags w s = .error (faultOf 13 (some 0)) s := M_bind_error (checkV86Iopl_error hv hi)

theorem popFlags_error : popFlags w s = .error (faultOf 13 (some 0)) s := M_bind_error (checkV86Iopl_error hv hi)

end

/-! ### BUSY# and ERROR# (R726, R990) -/

theorem busy_without (h : s.coproc = .none) : s.busy = false := by simp [State.busy, h]

theorem exec_wait_unavailable (hm : s.mp = true) (ht : s.tsw = true) :
    exec .wait s = .next (abandon s (faultOf 7 none) s.begun) := by
  refine instr_error (M_bind_error ?_)
  rw [hm, ht]
  rfl

/-- WAIT once #NM is not raised. -/
theorem wait_checked (h : ¬(s.mp = true ∧ s.tsw = true)) : exec .wait s = instr (if s.busy then pure .waiting else do
      when s.coprocError raiseMF
      pure .next) s := by
  have hb : (s.mp && s.tsw) = false := Bool.eq_false_iff.2 (mt Bool.and_eq_true_iff.1 h)
  show instr (do when (s.mp && s.tsw) raiseNM; _) s = _
  rw [hb]
  rfl

/-! ### ESC (R727) -/

theorem State.Touched.sreg (h : s.Touched t) (sr : SReg) : t.sreg sr = s.sreg sr := by
  obtain ⟨_, _, _, _, _, _, rfl⟩ := h
  cases sr <;> rfl

theorem EscEnds.touched {sr : SReg} {wr : Bool} {offs : List Dword} (h : EscEnds sr wr s offs t) : s.Touched t := by
  cases h with
  | nil => exact .refl _
  | cons h => exact h.walked.touched

theorem EscLoads.touched {sr : SReg} {offs : List Dword} {bs : List Byte} (h : EscLoads sr s offs bs t) :
    s.Touched t := by
  induction h with
  | nil => exact .refl _
  | cons h _ ih => exact h.read.trans ih

theorem EscStores.touched {sr : SReg} {items : List (Dword × Byte)} (h : EscStores sr s items t) : s.Touched t := by
  induction h with
  | nil => exact .refl _
  | cons h _ ih => exact (h.touched.trans (State.Walked.ofStore _ _ _).touched).trans ih

theorem EscMoves.touched {asz : Width} {sr : SReg} {off : Dword} {tr : CoprocTransfer} {bs : List Byte}
    (h : EscMoves asz sr off s tr bs t) : s.Touched t := by
  cases h with
  | none => exact .refl _
  | load n bs t h => exact h.touched
  | store bytes t u h hs => exact h.walked.touched.trans hs.touched

/-- The reply `r` has been taken: the replies that are left, and the pins. -/
def State.replied (s : State) (r : CoprocReply) : State :=
  { s with coprocReplies := s.coprocReplies.tail, pinBusy := r.busy, pinError := r.error }

/-- One ESC instruction has been handed over. -/
def State.handedOver (s : State) (c : CoprocSent) : State := { s with coprocSent := s.coprocSent ++ [c] }

/-- AX takes the status word, when there is one. -/
def State.axAnswered (s : State) : Option Word → State
  | none => s
  | some v => s.setReg .w16 .eax v

theorem coprocAx_run (ax : Option Word) (s : State) : coprocAx ax s = .ok () (s.axAnswered ax) := by
  cases ax <;> rfl

/-- `CoprocExec` where both ends pass and the transfer is made (R990). -/
theorem coprocExec_run {asz : Width} {opcode : BitVec 11} {operand : Option (SReg × Dword)} {r : CoprocReply}
    {bytes : List Byte} {sel : Option (Word × Dword)} (hc : escCheckEnds asz r.transfer operand s = .ok () t)
    (hm : escTransfer asz r.transfer operand (t.replied r) = .ok bytes u)
    (hsel : (operand.map fun p => ((u.sreg p.1).sel, p.2)) = sel) :
    coprocExec w asz opcode operand r s = .ok () ((u.handedOver
      { opcode := opcode, operand := sel, opsize := w.bits, addrsize := asz.bits, loaded := bytes }).axAnswered r.ax) := by
  subst hsel
  unfold coprocExec
  rw [M_bind_ok hc, M_modify_bind]
  refine (M_bind_ok hm).trans ?_
  rw [M_modify_bind]
  exact coprocAx_run _ _

section
variable {asz : Width} {op reg : BitVec 3} {rm : Rm}

theorem exec_esc_unavailable (h : s.em = true ∨ s.tsw = true) :
    exec (.esc w asz op reg rm) s = .next (abandon s (faultOf 7 none) s.begun) := by
  have hb : (s.em || s.tsw) = true := by simpa using h
  refine instr_error (M_bind_error ?_)
  rw [hb]
  rfl

variable (he : s.em = false) (ht : s.tsw = false)
include he ht

theorem exec_esc_error (hc : s.coprocError = true) (hk : Config.escTestsError (escOpcode op reg rm) = true) :
    exec (.esc w asz op reg rm) s = .next (abandon s (faultOf 16 none) s.begun) := by
  have hb : (s.em || s.tsw) = false := by rw [he, ht]; rfl
  refine instr_error ?_
  rw [hb, when_false, M_pure_bind, hc, hk]
  rfl

/-- ESC once neither #NM nor #MF is raised. -/
theorem esc_checked (hc : s.coprocError = false ∨ Config.escTestsError (escOpcode op reg rm) = false) :
    exec (.esc w asz op reg rm) s = instr (if s.busy then pure .waiting else do
      when (s.coproc != .none) (coprocExec w asz (escOpcode op reg rm) (s.escOperand rm) s.nextReply)
      pure .next) s := by
  have hb : (s.em || s.tsw) = false := by rw [he, ht]; rfl
  have hk : (s.coprocError && Config.escTestsError (escOpcode op reg rm)) = false := Bool.and_eq_false_iff.2 hc
  show instr (do
    when (s.em || s.tsw) raiseNM
    when (s.coprocError && Config.escTestsError (escOpcode op reg rm)) raiseMF
    _) s = _
  rw [hb, hk]
  rfl

end

end Sys2Proof.Machine
end

section
/-! O19, O34 and O35: flags as data, the flag-control instructions, HLT, WAIT and ESC. -/

namespace Sys2Proof.Machine

/-- Settles O19: the two operand sizes differ in the width alone; of the mask of POPF each bit has its condition. -/
theorem flagTransfer : Obligations.FlagTransfer := by
  refine ⟨fun s => ⟨plain_ok rfl, plain_ok rfl⟩, fun s mask image => ⟨_, rfl, getLsbD_masked _ _ _⟩, popfMask_iff, ?_⟩
  rintro s w i j (⟨rfl, rfl, rfl⟩ | ⟨rfl, rfl, rfl⟩)
  all_goals
    exact ⟨fun hv hi => ⟨plain_error (pushFlags_error (s := s.begun) hv hi),
        instr_error (popFlags_error (s := s.begun) hv hi)⟩,
      fun h => ⟨fun put hp => plain_ok (pushFlags_run (s := s.begun) h hp),
        fun v t hp => instr_ok (popFlags_run (s := s.begun) h hp)⟩⟩

/-- Settles O34: CLI and STI ask first whether IF may be written; the others write their flag at once. -/
theorem flagControl : Obligations.FlagControl := by
  refine ⟨fun s => ⟨plain_ok rfl, plain_ok rfl, plain_ok rfl, plain_ok rfl, plain_ok rfl, plain_ok rfl⟩, rfl,
    fun s => ⟨fun h => ?_, fun h => ?_⟩⟩
  · have hw := mayWriteIF_iff.2 h
    exact ⟨plain_ok (congrFun (if_pos hw) _), plain_ok (congrFun (if_pos hw) _)⟩
  · have hw := Bool.eq_false_iff.1 (mayWriteIF_false h.1 h.2)
    exact ⟨plain_error (congrFun (if_neg hw) _), plain_error (congrFun (if_neg hw) _)⟩

/-- Settles O35: WAIT and ESC make their checks in turn; the transfer of an ESC is that of its operand, from the state in
which the reply has been taken. -/
theorem haltWaitEscape : Obligations.HaltWaitEscape := by
  refine ⟨fun s => ⟨fun h => ?_, fun hm ht => ?_, fun h => ⟨fun hb => ?_, fun hb he => ?_, fun hb he => ?_⟩⟩,
    fun s w asz op reg rm => ⟨exec_esc_unavailable, exec_esc_error, fun he ht hc => ⟨fun hb => ?_, fun hn => ?_, ?_⟩⟩⟩
  · exact plain_ok (M_bind_ok (checkCpl0_run (s := s.begun) h))
  · exact exec_wait_unavailable hm ht
  · rw [wait_checked h, hb]
    exact instr_ok rfl
  · rw [wait_checked h, hb, he]
    exact instr_error rfl
  · rw [wait_checked h, hb, he]
    exact instr_ok rfl
  · rw [esc_checked he ht hc]
    exact instr_ok (congrFun (if_pos hb) _)
  · rw [esc_checked he ht hc, busy_without hn, hn]
    exact instr_ok rfl
  · intro hb hn answered replied
    have run {t} (h : coprocExec w asz (escOpcode op reg rm) (s.escOperand rm) s.nextReply s.begun = .ok () t) :
        exec (.esc w asz op reg rm) s = .next (finish s .next t) := by
      rw [esc_checked he ht hc, hb, bne_iff_ne.2 hn]
      exact instr_ok (M_bind_ok h)
    have ends (u : State) (c : CoprocSent) : finish s .next ((u.handedOver c).axAnswered s.nextReply.ax) =
        finish s .next (match s.nextReply.ax with
          | none => u.handedOver c
          | some v => (u.handedOver c).setReg .w16 .eax v) := by
      cases s.nextReply.ax <;> rfl
    refine ⟨?_, ?_⟩
    · rintro r rfl
      rw [run (coprocExec_run rfl rfl rfl), ends]
      rfl
    · rintro m t u bytes rfl hends hmoves
      have ht := hends.touched
      have hr : replied t = t.replied s.nextReply := by
        obtain ⟨_, _, _, _, _, _, rfl⟩ := ht
        rfl
      have hsel : (s.escOperand (.mem m)).map (fun p => ((u.sreg p.1).sel, p.2)) =
          some ((s.sreg (segOf m)).sel, s.memEa m) :=
        congrArg (fun r : SegReg => some (r.sel, s.memEa m)) ((hmoves.touched.sreg _).trans (ht.sreg _))
      rw [run (coprocExec_run (escCheckEnds_run hends) (escTransfer_run (hr ▸ hmoves)) hsel), ends]
      rfl

end Sys2Proof.Machine
end

section
/-! SUPPORT. LAR, LSL, VERR, VERW and ARPL once their operand and the descriptor have been read (R750 to R754); debug
registers: what an access gathers and when a trap is due (R903, R906, R908), and the registers by number (R772). -/

namespace Sys2Proof.Machine

variable {s t u z : State} {w : Width} {r : Reg} {rm : Rm} {sel : Word} {d : Desc}

/-- An instruction of protected mode whose effect after the check of R740 succeeds. -/
theorem plain_checkProt_ok {m : Unit → M Unit} (hp : s.prot = true) (h : m () s.begun = .ok () t) :
    plain (checkProt >>= m) s = .next (finish s .next t) := plain_ok ((M_bind_ok (checkProt_run (s := s.begun) hp)).trans h)

/-! ### LAR and LSL (R750, R751) -/

theorem visible_iff {cpl : BitVec 2} : d.visible cpl sel true = true ↔
    d.conforming = true ∨ (cpl ≤ d.dpl ∧ selRpl sel ≤ d.dpl) := by
  simp [Desc.visible]

section
variable {types : Desc → Bool} {value : Desc → M Dword}

theorem probeInto_null (hn : nullSel sel = true) : probeInto w r sel types value s = .ok () (s.setFlag .zf false) := by
  unfold probeInto
  rw [M_get_bind, M_bind_ok (probe_null hn)]
  rfl

theorem probeInto_outside (hn : nullSel sel = false) (hd : fetchDesc sel s = .ok none t) :
    probeInto w r sel types value s = .ok () (t.setFlag .zf false) := by
  unfold probeInto
  rw [M_get_bind, M_bind_ok (probe_none hn hd)]
  rfl

variable (hn : nullSel sel = false) (hd : fetchDesc sel s = .ok (some d) t)
include hn hd

/-- A descriptor of an accepted type that is visible: its value is written, and ZF is set. -/
theorem probeInto_seen {v : Dword} (ht : types d = true)
    (hv : d.conforming = true ∨ (s.cpl ≤ d.dpl ∧ selRpl sel ≤ d.dpl)) (hval : value d t = .ok v u) :
    probeInto w r sel types value s = .ok () ((u.setReg w r (v.setWidth w.bits)).setFlag .zf true) := by
  unfold probeInto
  rw [M_get_bind, M_bind_ok (probe_some hn hd), ht, visible_iff.2 hv]
  exact (M_bind_ok hval).trans rfl

/-- Another descriptor: ZF is cleared, and nothing is written. -/
theorem probeInto_unseen
    (h : types d = false ∨ ¬(d.conforming = true ∨ (s.cpl ≤ d.dpl ∧ selRpl sel ≤ d.dpl))) :
    probeInto w r sel types value s = .ok () (t.setFlag .zf false) := by
  have hok : (types d && d.visible s.cpl sel true) = false := by
    rw [← visible_iff, Bool.not_eq_true] at h
    exact Bool.and_eq_false_iff.2 h
  unfold probeInto
  rw [M_get_bind, M_bind_ok (probe_some hn hd), hok]
  rfl

end

theorem larValue_run (d : Desc) (s : State) : larValue d s =
    .ok ((d.d1 &&& 0x00F0FF00) ||| (Config.freeBits s.free &&& 0x000F0000)) { s with free := s.free + 1 } := rfl

section
variable {v : BitVec w.bits} (hp : s.prot = true) (h : RmIs s.begun w rm v t)
include hp h

theorem exec_lar (hr : probeInto w r (v.setWidth 16) Desc.larType larValue t = .ok () u) :
    exec (.lar w r rm) s = .next (finish s .next u) :=
  plain_checkProt_ok hp ((M_bind_ok (readRm_run h)).trans hr)

theorem exec_lsl (hr : probeInto w r (v.setWidth 16) Desc.lslType (fun d => pure d.limit) t = .ok () u) :
    exec (.lsl w r rm) s = .next (finish s .next u) :=
  plain_checkProt_ok hp ((M_bind_ok (readRm_run h)).trans hr)

end

/-! ### VERR and VERW (R752, R753) -/

section
variable {b : Option Desc} {zf : Bool} (hp : s.prot = true) (h : RmIs s.begun .w16 rm sel t)
include hp h

theorem exec_verr (hr : probe sel (fun d => d.s && d.readable && d.visible s.cpl sel true) t = .ok b u)
    (hb : b.isSome = zf) :
    exec (.verr rm) s = .next (finish s .next (u.setFlag .zf zf)) :=
  plain_checkProt_ok hp ((M_bind_ok (readRm_run h)).trans ((M_bind_ok hr).trans (hb ▸ rfl)))

theorem exec_verw (hr : probe sel (fun d => d.writableData && d.visible s.cpl sel false) t = .ok b u)
    (hb : b.isSome = zf) :
    exec (.verw rm) s = .next (finish s .next (u.setFlag .zf zf)) :=
  plain_checkProt_ok hp ((M_bind_ok (readRm_run h)).trans ((M_bind_ok hr).trans (hb ▸ rfl)))

end

theorem isSome_ite {b : Bool} : (if b then some d else none : Option Desc).isSome = b := by cases b <;> rfl

theorem verrOk_eq (d : Desc) (cpl : BitVec 2) (sel : Word) : (d.s && d.readable && d.visible cpl sel true) =
    (d.readable && (d.conforming || (decide (cpl ≤ d.dpl) && decide (selRpl sel ≤ d.dpl)))) := by
  have hs : (d.s && d.readable) = d.readable := by
    cases h : d.readable
    · exact Bool.and_false _
    · rw [readable_s h]
      rfl
  rw [hs]
  rfl

theorem verwOk_eq (d : Desc) (cpl : BitVec 2) (sel : Word) : (d.writableData && d.visible cpl sel false) =
    (d.writableData && decide (cpl ≤ d.dpl) && decide (selRpl sel ≤ d.dpl)) := by
  rw [Bool.and_assoc]
  rfl

/-! ### ARPL (R754) -/

theorem arplVal_raised {a b : Word} (h : selRpl a < selRpl b) : arplVal a b = (a &&& 0xFFFC) ||| (b &&& 3) := if_pos h

theorem arplVal_kept {a b : Word} (h : selRpl b ≤ selRpl a) : arplVal a b = a := if_neg (BitVec.not_lt.2 h)

section
variable {m : MemRef} {a b : Word} (hc : memWriteCheck s.user (segOf m) (s.memEa m) 2 s = .ok () u)
  (h : RmIs u .w16 (.mem m) a t)
include hc h

theorem arplMem_raised {put : Word → State} (hr : selRpl a < selRpl b) (hp : RmPut t .w16 (.mem m) put) :
    arplMem m b s = .ok () ((put ((a &&& 0xFFFC) ||| (b &&& 3))).setFlag .zf true) := by
  unfold arplMem
  rw [M_get_bind, M_bind_ok hc]
  refine (M_bind_ok (readRm_run h)).trans ?_
  rw [if_pos hr, arplVal_raised hr]
  exact M_bind_ok (writeRm_run (w := .w16) _ hp)

theorem arplMem_kept (hr : selRpl b ≤ selRpl a) : arplMem m b s = .ok () (t.setFlag .zf false) := by
  unfold arplMem
  rw [M_get_bind, M_bind_ok hc]
  refine (M_bind_ok (readRm_run h)).trans ?_
  rw [if_neg (BitVec.not_lt.2 hr)]
  rfl

end

section
variable {q : Reg} {a b : Word} (ha : s.reg .w16 q = a)
include ha

theorem arplReg_raised (hr : selRpl a < selRpl b) :
    arplReg q b s = .ok () ((s.setReg .w16 q ((a &&& 0xFFFC) ||| (b &&& 3))).setFlag .zf true) := by
  subst ha
  rw [← arplVal_raised hr, ← decide_eq_true hr]
  rfl

theorem arplReg_kept (hr : selRpl b ≤ selRpl a) : arplReg q b s = .ok () ((s.setReg .w16 q a).setFlag .zf false) := by
  have hv := arplVal_kept hr
  subst ha
  rw [← decide_eq_false (BitVec.not_lt.2 hr)]
  exact congrArg (fun v => EStateM.Result.ok () ((s.setReg .w16 q v).setFlag .zf _)) hv

end

section
variable (hp : s.prot = true)
include hp

theorem exec_arpl_reg {q : Reg} (h : arplReg q (s.reg .w16 r) s.begun = .ok () t) :
    exec (.arpl (.reg q) r) s = .next (finish s .next t) := plain_checkProt_ok hp h

theorem exec_arpl_mem {m : MemRef} (h : arplMem m (s.reg .w16 r) s.begun = .ok () t) :
    exec (.arpl (.mem m) r) s = .next (finish s .next t) := plain_checkProt_ok hp h

end

/-! ### What an access gathers (R903, R906) -/

/-- The linear addresses of an access one by one. -/
theorem span_eq_map (lin : Dword) (n : Nat) : span lin n = (List.range n).map fun i => lin + BitVec.ofNat 32 i := by
  induction n generalizing lin with
  | zero => rfl
  | succ n ih =>
    rw [span, ih, List.range_succ_eq_map, List.map_cons, List.map_map]
    congr 1
    · exact (BitVec.add_zero lin).symm
    · refine List.map_congr_left fun i _ => ?_
      rw [Function.comp_apply, BitVec.add_assoc]
      congr 1
      apply BitVec.eq_of_toNat_eq
      simp [Nat.add_comm]

/-- Bits set one after the other. -/
theorem bitOf_foldl_setBit {m : Nat} (hm : m < 32) : ∀ (ns : List Nat) (v : Dword),
    bitOf (ns.foldl (fun acc n => setBit acc n true) v) m = true ↔ m ∈ ns ∨ bitOf v m = true
  | [], v => by simp
  | n :: ns, v => by
    rw [List.foldl_cons, bitOf_foldl_setBit hm ns, bitOf_setBit _ _ _ _ hm, List.mem_cons]
    by_cases h : m = n <;> simp [h]

/-- Two addresses lie in one field, aligned to its length, when they have one quotient. -/
theorem aligned_field_iff {len a b : Nat} :
    (b / len * len ≤ a ∧ a < b / len * len + len) ↔ len ≠ 0 ∧ a / len = b / len := by
  rcases Nat.eq_zero_or_pos len with rfl | h
  · simp
  · rw [Nat.div_eq_iff h]
    omega

theorem drHit_iff {k n : Nat} {lin : Dword} : s.drHit k lin n = true ↔ drBytes (s.drLen k) ≠ 0 ∧
    ∃ i < n, (lin + BitVec.ofNat 32 i).toNat / drBytes (s.drLen k) = (s.dr k).toNat / drBytes (s.drLen k) := by
  unfold State.drHit
  simp only [List.any_eq_true, Bool.and_eq_true, decide_eq_true_eq, aligned_field_iff, span_eq_map, List.mem_map,
    List.mem_range]
  constructor
  · rintro ⟨_, ⟨i, hi, rfl⟩, h0, h⟩
    exact ⟨h0, i, hi, h⟩
  · rintro ⟨h0, i, hi, h⟩
    exact ⟨_, ⟨i, hi, rfl⟩, h0, h⟩

theorem dataHits_iff {k n : Nat} {lin : Dword} {wr : Bool} (hk : k < 32) : (s.dataHits lin n wr).getLsbD k = true ↔
    k < 4 ∧ (s.drRw k = 3 ∨ (s.drRw k = 1 ∧ wr = true)) ∧ s.drHit k lin n = true := by
  have h4 : k ∈ [0, 1, 2, 3] ↔ k < 4 := List.mem_range (n := 4)
  refine (bitOf_foldl_setBit hk _ _).trans ?_
  simp only [List.mem_filter, h4, Bool.and_eq_true, Bool.or_eq_true, beq_iff_eq]
  simp

theorem due_iff : s.due = true ↔ s.pend.getLsbD 14 = true ∨ s.pend.getLsbD 15 = true ∨
    ∃ k < 4, s.pend.getLsbD k = true ∧ (s.dr7.getLsbD (2 * k) = true ∨ s.dr7.getLsbD (2 * k + 1) = true) := by
  have h4 (k : Nat) : k ∈ [0, 1, 2, 3] ↔ k < 4 := List.mem_range (n := 4)
  unfold State.due State.dataDue State.drEnabled
  simp only [Bool.or_eq_true, or_assoc, List.any_eq_true, Bool.and_eq_true, h4]

/-! ### Debug registers by number (R772) -/

/-- The numbers of the breakpoint address registers. -/
theorem drNumber_address : ∀ n : BitVec 3, n.toNat < 4 → n = 0 ∨ n = 1 ∨ n = 2 ∨ n = 3 := by decide

theorem readDr_address {n : BitVec 3} (h : n.toNat < 4) : readDr n s = .ok (s.dr n.toNat) s := by
  obtain rfl | rfl | rfl | rfl := drNumber_address n h <;> rfl

/-- Of DR6 and DR7 the reserved bits read as free values. -/
theorem readDr_status {n : BitVec 3} (h : n = 6 ∨ n = 7) : readDr n s = .ok
    (if n = 6 then (s.dr6 &&& dr6Mask) ||| (Config.freeBits s.free &&& ~~~dr6Mask)
     else (s.dr7 &&& dr7Mask) ||| (Config.freeBits s.free &&& ~~~dr7Mask)) { s with free := s.free + 1 } := by
  obtain rfl | rfl := h
  · exact reserved_run dr6Mask s.dr6 s
  · exact reserved_run dr7Mask s.dr7 s

theorem readDr_undefined {n : BitVec 3} (h : n = 4 ∨ n = 5) : readDr n s = .error (faultOf 6 none) s := by
  obtain rfl | rfl := h <;> rfl

theorem writeDr_undefined {n : BitVec 3} {v : Dword} (h : n = 4 ∨ n = 5) : writeDr n v s = .error (faultOf 6 none) s := by
  obtain rfl | rfl := h <;> rfl

section
variable {n : BitVec 3} {v : Dword} (r : Reg) (h : s.pe = false ∨ s.cpl = 0)
include h

theorem exec_movFromDr (hr : readDr n s.begun = .ok v t) :
    exec (.movFromDr n r) s = .next (finish s .next ((t.setReg .d32 r v).freed allStatus)) := plain_readSpecial h r hr

theorem exec_movToDr (hw : writeDr n (s.reg .d32 r) s.begun = .ok () t) :
    exec (.movToDr n r) s = .next (finish s .next (t.freed allStatus)) := plain_writeSpecial h hw

end

end Sys2Proof.Machine
end

section
/-! O40 and O42: access rights, and the debug registers. -/

namespace Sys2Proof.Machine

/-- Settles O40: the descriptor is looked for once, and each instruction asks of it what it asks; nothing that is read on the
way changes the CPL. -/
theorem accessRights : Obligations.AccessRights := by
  refine ⟨⟨?_, ?_⟩, ?_⟩
  · intro s w r rm v t hp h sel
    have hcpl : t.cpl = s.cpl := h.touched.cpl
    refine ⟨fun hn => ⟨exec_lar hp h (probeInto_null hn), exec_lsl hp h (probeInto_null hn)⟩,
      fun u hn hd => ⟨exec_lar hp h (probeInto_outside hn hd), exec_lsl hp h (probeInto_outside hn hd)⟩, ?_⟩
    intro d u hn hd seen
    have hseen : seen = (d.conforming = true ∨ (t.cpl ≤ d.dpl ∧ selRpl sel ≤ d.dpl)) := by rw [hcpl]
    rw [hseen]
    exact ⟨fun ht hv => exec_lar hp h (probeInto_seen hn hd ht hv (larValue_run d u)),
      fun ht hv => exec_lsl hp h (probeInto_seen hn hd ht hv (M_pure d.limit u)),
      fun ho => exec_lar hp h (probeInto_unseen hn hd ho), fun ho => exec_lsl hp h (probeInto_unseen hn hd ho)⟩
  · intro s rm sel t hp h
    exact ⟨fun hn => ⟨exec_verr hp h (probe_null hn) rfl, exec_verw hp h (probe_null hn) rfl⟩,
      fun u hn hd => ⟨exec_verr hp h (probe_none hn hd) rfl, exec_verw hp h (probe_none hn hd) rfl⟩,
      fun d u hn hd => ⟨exec_verr hp h (probe_some hn hd) (isSome_ite.trans (verrOk_eq d s.cpl sel)),
        exec_verw hp h (probe_some hn hd) (isSome_ite.trans (verwOk_eq d s.cpl sel))⟩⟩
  · intro s r hp b
    refine ⟨?_, ?_⟩
    · intro q a
      have ha : s.begun.reg .w16 q = a := State.begun_reg s .w16 q
      exact ⟨fun hr => exec_arpl_reg hp (arplReg_raised ha hr), fun hr => exec_arpl_reg hp (arplReg_kept ha hr)⟩
    · intro m u a t hc h
      rw [← State.begun_memEa] at hc
      exact ⟨fun hr put hput => exec_arpl_mem hp (arplMem_raised hc h hr hput),
        fun hr => exec_arpl_mem hp (arplMem_kept hc h hr)⟩

/-- Settles O42: a gathered bit is that of a breakpoint whose field has the quotient of an address of the access; each register
is read and written by its number. -/
theorem debugRegisters : Obligations.DebugRegisters := by
  constructor
  · intro s sr off n w hit
    refine ⟨rfl, fun k hk => ?_, due_iff⟩
    have hhit : hit k ↔ (s.drRw k = 3 ∨ (s.drRw k = 1 ∧ w = true)) ∧ s.drHit k (s.linOf sr off) n = true :=
      and_congr_right' drHit_iff.symm
    rw [hhit, ← dataHits_iff hk, ← Bool.or_eq_true, ← BitVec.getLsbD_or]
    rfl
  · intro s r h
    refine ⟨⟨exec_movToDr r h rfl, exec_movToDr r h rfl, exec_movToDr r h rfl, exec_movToDr r h rfl,
      exec_movToDr r h rfl, exec_movToDr r h rfl⟩, fun n => ⟨fun hn => ?_, fun hn => ?_, fun hn => ⟨?_, ?_⟩⟩⟩
    · rw [exec_movFromDr r h (readDr_address hn)]
      obtain rfl | rfl | rfl | rfl := drNumber_address n hn <;> rfl
    · exact exec_movFromDr r h (readDr_status hn)
    · exact plain_writeSpecial_error h (writeDr_undefined hn)
    · exact plain_readSpecial_error h r (readDr_undefined hn)

end Sys2Proof.Machine
end

section
/-! SUPPORT. The forms of PUSH and POP (R408 to R413), and the two parts of LGDT, LIDT, SGDT and SIDT (R741 to R744). -/

namespace Sys2Proof.Machine

variable {s t u : State} {w : Width}

/-! ### PUSH and POP -/

/-- A popped item changes neither the mode nor the segment registers. -/
theorem PopFrom.prot {v : BitVec w.bits} (h : PopFrom s w v t) : t.prot = s.prot := by
  obtain ⟨pas, t, h⟩ := h
  rw [← h.read.prot]
  simp only [State.prot, State.pe, State.flag, State.setEsp_cr0, State.setEsp_eflags]

theorem exec_push_rm {rm : Rm} {v : BitVec w.bits} {put : BitVec w.bits → State} (h : RmIs s.begun w rm v t)
    (hp : PushTo t w put) : exec (.push (.rm w rm)) s = .next (finish s .next (put v)) :=
  plain_ok ((M_bind_ok (readRm_run h)).trans (push_run v hp))

theorem exec_push_sreg {sr : SReg} {v : BitVec w.bits} {put : BitVec w.bits → State}
    (hv : selItem w (s.sreg sr).sel s.begun = .ok v t) (hp : PushTo t w put) :
    exec (.push (.sreg w sr)) s = .next (finish s .next (put v)) := by
  refine plain_ok ?_
  change (selItem w (s.begun.sreg sr).sel >>= push w) s.begun = _
  rw [State.begun_sreg, M_bind_ok hv]
  exact push_run v hp

theorem exec_pop_sreg {v : BitVec w.bits} {sr : SReg} (h : PopFrom s.begun w v t)
    (hl : SregLoad t sr (v.setWidth 16) u) :
    exec (.pop (.sreg w sr)) s = .next (finish s .next (if sr = .ss then { u with inhibit := true } else u)) := by
  refine plain_ok ?_
  change (pop w >>= fun v => loadSreg sr (v.setWidth 16) >>= fun _ => inhibitFor sr) s.begun = _
  rw [M_bind_ok (pop_run h), M_bind_ok (loadSreg_run hl)]
  exact inhibitFor_run sr u

theorem exec_pop_sreg_refused {v : BitVec w.bits} {sr : SReg} {x : Exc} (hp : s.prot = true) (h : PopFrom s.begun w v t)
    (hl : SregRefused t sr (v.setWidth 16) x u) : exec (.pop (.sreg w sr)) s = .next (abandon s x u) := by
  refine plain_error ?_
  change (pop w >>= fun v => loadSreg sr (v.setWidth 16) >>= fun _ => inhibitFor sr) s.begun = _
  rw [M_bind_ok (pop_run h)]
  exact M_bind_error (loadSreg_refused (h.prot.trans hp) hl)

/-! ### SGDT and SIDT -/

/-- A store leaves the privilege of later accesses. -/
theorem Reach.storeAt_user {priv : Bool} {sr : SReg} {off : Dword} {n : Nat} {pas : List Nat}
    (h : Reach s priv sr off n true pas t) (v : BitVec w.bits) : (t.storeAt w pas v).user = s.user :=
  (congrArg (· == 3) (State.storeBytes_cpl ..)).trans h.touched.user

/-- Both parts of the operand are written after the check of all six bytes (R96, R743). -/
theorem storeTable_run {m : MemRef} {r : TableReg} {x : State} {pas pas' : List Nat}
    (hc : memWriteCheck s.user (segOf m) (s.memEa m) 6 s = .ok () x) (hx : x.user = s.user)
    (h : Reach x s.user (segOf m) (s.memEa m) 2 true pas t)
    (h' : Reach (t.storeAt .w16 pas r.limit) s.user (segOf m) (s.memEa m + 2) 4 true pas' u) :
    storeTable w m r s = .ok () (u.storeAt .d32 pas' (tableBase w r.base)) := by
  have hu := (h.storeAt_user (w := .w16) r.limit).trans hx
  unfold storeTable
  rw [M_get_bind, M_bind_ok hc, M_bind_ok (memWrite_run (w := .w16) r.limit (hx ▸ h))]
  exact memWrite_run (w := .d32) _ (hu ▸ h')

/-- A check of a write changes what translation changes. -/
theorem memWriteCheck_walked {priv : Bool} {sr : SReg} {off : Dword} {n : Nat}
    (h : memWriteCheck priv sr off n s = .ok () t) : s.Walked t := by
  unfold memWriteCheck at h
  obtain ⟨_, v, hc, h⟩ := M_bind_ok_inv h
  obtain ⟨_, _, hg, h⟩ := M_bind_ok_inv h
  cases hg
  obtain ⟨_, _, ht, h⟩ := M_bind_ok_inv h
  cases h
  cases hk : s.segOk sr off n true
  · rw [checkSeg_error hk] at hc
    cases hc
  · rw [checkSeg_ok hk] at hc
    cases hc
    exact (translateAll_keeps _ _ _).ok ht

/-! ### LMSW and SMSW -/

theorem mswImage_fresh (h : s.mswFresh = true) : mswImage s = .ok (s.cr0.extractLsb' 0 16) s := by
  unfold mswImage
  rw [M_get_bind]
  exact congrFun (if_pos h) s

theorem mswImage_written (h : s.mswFresh = false) : mswImage s =
    .ok (s.cr0.extractLsb' 0 16 ||| ((Config.freeBits s.free).extractLsb' 0 16 &&& 0xFFE0))
      { s with free := s.free + 1 } := by
  unfold mswImage
  rw [M_get_bind]
  exact congrFun (if_neg (Bool.not_eq_true _ ▸ h)) s

end Sys2Proof.Machine
end

section
/-! O16, O17, O37 and O39: PUSH and POP; the table registers; the machine status word. -/

namespace Sys2Proof.Machine

/-- Settles O16: the operand is read in the state before the push; a segment register pushed as a doubleword draws its padding
first. -/
theorem pushResult : Obligations.PushResult := by
  refine ⟨fun s w put h => ⟨fun r => ?_, fun v => plain_ok (push_run _ h), fun v => plain_ok (push_run _ h)⟩,
    fun _ _ _ _ _ _ h hp => exec_push_rm h hp, fun s sr put h => ?_, fun s sr put h => ?_⟩
  · rw [← State.begun_reg]
    exact plain_ok ((M_bind_ok (readReg_run w r s.begun)).trans (push_run _ h))
  · exact exec_push_sreg (w := .w16) rfl h
  · have hv : selItem .d32 (s.sreg sr).sel s.begun =
        .ok ((Config.freeBits s.free).extractLsb' 16 16 ++ (s.sreg sr).sel : Dword) { s.begun with free := s.free + 1 } :=
      rfl
    exact exec_push_sreg hv h

/-- Settles O17: the destination is written, or the segment register loaded, in the state after the pop. -/
theorem popResult : Obligations.PopResult := fun _ _ v _ h =>
  ⟨fun _ => plain_ok (M_bind_ok (pop_run h)), fun _ _ hp => plain_ok ((M_bind_ok (pop_run h)).trans (writeRm_run v hp)),
    fun _ _ hl => exec_pop_sreg h hl, fun _ _ _ hp hl => exec_pop_sreg_refused hp h hl⟩

/-- Settles O37: LGDT and LIDT read the operand as `readTable`, SGDT and SIDT store it as `storeTable`. -/
theorem tableRegisterMoves : Obligations.TableRegisterMoves := by
  intro s w m pas pas' t u ea
  have hea : s.begun.memEa m = ea := s.begun_memEa m
  refine ⟨fun hp hs h h' r hr => ?_, fun x hc h p hm h' => ?_⟩
  · have hu : (t.afterRead pas).user = s.user := h.read.user
    have hs' : s.begun.segOk (segOf m) ea 6 false = true := by
      rwa [State.begun_segOk]
    have hread : readTable w m s.begun = .ok r (u.afterRead pas') := by
      rw [readTable_run (hea ▸ hs') (hea ▸ h) (hea.symm ▸ hu.symm ▸ h'), hr]
      rfl
    have hc := checkCpl0_run (s := s.begun) hp
    exact ⟨plain_ok ((M_bind_ok hc).trans (M_bind_ok hread)), plain_ok ((M_bind_ok hc).trans (M_bind_ok hread))⟩
  · have hrun := storeTable_run (w := w) (r := p.2) (hea.symm ▸ hc) (memWriteCheck_walked hc).touched.user (hea.symm ▸ h)
      (hea.symm ▸ h')
    simp only [List.mem_cons, List.not_mem_nil, or_false] at hm
    obtain rfl | rfl := hm
    · exact plain_ok hrun
    · exact plain_ok hrun

/-- Settles O39: the MSW image of SMSW draws a free value only once the MSW has been written. -/
theorem machineStatusWord : Obligations.MachineStatusWord := by
  refine ⟨fun s rm v t hp h => ?_, fun s rm put hf h => ?_, fun s rm put hf h => ?_, fun s => ⟨fun hp => ?_, fun hp hc => ?_⟩,
    rfl⟩
  · exact plain_ok ((M_bind_ok (checkCpl0_run (s := s.begun) hp)).trans (M_bind_ok (readRm_run h)))
  · exact plain_ok ((M_bind_ok (mswImage_fresh (s := s.begun) hf)).trans (writeRm_run _ h))
  · exact plain_ok ((M_bind_ok (mswImage_written (s := s.begun) hf)).trans (writeRm_run _ h))
  · exact plain_ok (M_bind_ok (checkCpl0_run (s := s.begun) hp))
  · exact plain_error (M_bind_error (checkCpl0_error (s := s.begun) hp hc))

end Sys2Proof.Machine
end

section
/-! SUPPORT. The status flags as integers (R450, R500): signed overflow, parity, and the bits of EFLAGS that a flag leaves. -/

namespace Sys2Proof.Machine

variable {s : State} {n : Nat}

/-- PF counts the ones among the low eight bits. -/
theorem parity_iff (r : BitVec n) : parity r = true ↔ evenOnes r := by
  unfold parity evenOnes
  simp only [List.range_succ, List.range_zero, List.nil_append, List.filter_append, List.length_append, List.filter_cons,
    List.filter_nil, beq_iff_eq]
  generalize r.getLsbD 0 = b0, r.getLsbD 1 = b1, r.getLsbD 2 = b2, r.getLsbD 3 = b3, r.getLsbD 4 = b4,
    r.getLsbD 5 = b5, r.getLsbD 6 = b6, r.getLsbD 7 = b7
  revert b0 b1 b2 b3 b4 b5 b6 b7
  decide

/-- A flag written leaves the bits of a mask without its own. -/
theorem setFlag_eflags_and (f : Flag) (b : Bool) {mask : Dword} (h : mask.getLsbD f.bit = false) :
    (s.setFlag f b).eflags &&& mask = s.eflags &&& mask := by
  refine BitVec.eq_of_getLsbD_eq fun i hi => ?_
  have hb := bitOf_setBit s.eflags f.bit i b hi
  rw [BitVec.getLsbD_and, BitVec.getLsbD_and]
  by_cases e : i = f.bit
  · rw [e, h, Bool.and_false, Bool.and_false]
  · exact congrArg (· && _) (hb.trans (if_neg e))

/-- Nothing but EFLAGS changes in two steps, if in neither. -/
theorem sameButFlags_step {t u : State} (h : t = { s with eflags := t.eflags }) (h' : u = { t with eflags := u.eflags }) :
    u = { s with eflags := u.eflags } := by
  rw [h', h]

/-! ### `SZP` -/

/-- SF, ZF and PF describe the result, and no other flag changes. -/
theorem flag_szp (r : BitVec n) (f : Flag) : (s.szp r).flag f =
    match f with
    | .sf => r.msb
    | .zf => r == 0
    | .pf => parity r
    | f => s.flag f := by
  cases f <;> simp [State.szp]

theorem szp_eflags_and (r : BitVec n) {mask : Dword} (hs : mask.getLsbD 7 = false) (hz : mask.getLsbD 6 = false)
    (hp : mask.getLsbD 2 = false) : (s.szp r).eflags &&& mask = s.eflags &&& mask :=
  (setFlag_eflags_and .pf _ hp).trans ((setFlag_eflags_and .zf _ hz).trans (setFlag_eflags_and .sf _ hs))

/-- What SF, ZF and PF say of the result of a width. -/
theorem szp_meaning (t : State) (r : BitVec n) : ((t.szp r).flag .zf = true ↔ r = 0) ∧
    ((t.szp r).flag .sf = true ↔ r.toInt < 0) ∧ ((t.szp r).flag .pf = true ↔ evenOnes r) := by
  simp only [flag_szp, beq_iff_eq, parity_iff, BitVec.msb_eq_toInt, decide_eq_true_eq, and_true]

/-! ### Signed overflow (R18) -/

theorem addVal_eq (a b : BitVec n) (c : Bool) : addVal a b c = a + b + BitVec.ofNat n c.toNat := by
  refine BitVec.eq_of_toNat_eq ?_
  simp [addVal, BitVec.toNat_add]

/-- A sum of two numbers of one sign with the other sign lies outside the signed range, and every sum that lies outside is
one. -/
theorem addOverflow_iff (w : Width) (a b : BitVec w.bits) (c : Bool) :
    (a.msb == b.msb && (addVal a b c).msb != a.msb) = true ↔
      a.toInt + b.toInt + c.toNat < -2 ^ (w.bits - 1) ∨ 2 ^ (w.bits - 1) ≤ a.toInt + b.toInt + c.toNat := by
  have ha := a.isLt
  have hb := b.isLt
  have hc := c.toNat_lt
  have hr : (addVal a b c).toNat = (a.toNat + b.toNat + c.toNat) % 2 ^ w.bits := BitVec.toNat_ofNat ..
  simp only [Bool.and_eq_true, beq_iff_eq, bne_iff_ne, ne_eq, BitVec.msb_eq_decide, decide_eq_decide, hr,
    BitVec.toInt_eq_toNat_cond]
  cases w
  all_goals
    simp only [Width.bits] at *
    omega

/-- The same of a difference of two numbers of different signs. -/
theorem subOverflow_iff (w : Width) (a b : BitVec w.bits) (c : Bool) :
    (a.msb != b.msb && (subVal a b c).msb != a.msb) = true ↔
      a.toInt - b.toInt - c.toNat < -2 ^ (w.bits - 1) ∨ 2 ^ (w.bits - 1) ≤ a.toInt - b.toInt - c.toNat := by
  have ha := a.isLt
  have hb := b.isLt
  have hc := c.toNat_lt
  have hr : (subVal a b c).toNat = (2 ^ w.bits - c.toNat % 2 ^ w.bits + (2 ^ w.bits - b.toNat + a.toNat) % 2 ^ w.bits) % 2 ^ w.bits := by
    simp only [subVal, BitVec.toNat_sub, BitVec.toNat_ofNat]
  simp only [Bool.and_eq_true, bne_iff_ne, ne_eq, BitVec.msb_eq_decide, decide_eq_decide, hr, BitVec.toInt_eq_toNat_cond]
  cases w
  all_goals
    simp only [Width.bits] at *
    omega

end Sys2Proof.Machine
end

section
/-! O2: the status flags of an addition, a subtraction and a logical operation. -/

namespace Sys2Proof.Machine

/-- Settles O2: SF, ZF and PF are those of `SZP`; CF and AF compare the integers, OF the signs. -/
theorem arithmeticFlags : Obligations.ArithmeticFlags := by
  refine ⟨fun s w a b c => ?_, fun s w a b c => ?_, fun s w r => ?_⟩
  · obtain ⟨hz, hs, hp⟩ := szp_meaning (((s.setFlag .cf _).setFlag .af _).setFlag .of _) (addVal a b c)
    refine ⟨addVal_eq a b c, ?_, ?_, ?_, hz, hs, hp, ?_, sameButFlags_step (sameButFlags_step (sameButFlags_step rfl rfl) rfl) rfl⟩
    · simp [State.addFlags, flag_szp]
    · rw [← addOverflow_iff]
      simp [State.addFlags, flag_szp]
    · simp [State.addFlags, flag_szp]
    · refine (szp_eflags_and _ rfl rfl rfl).trans ?_
      exact (setFlag_eflags_and .of _ rfl).trans ((setFlag_eflags_and .af _ rfl).trans (setFlag_eflags_and .cf _ rfl))
  · obtain ⟨hz, hs, hp⟩ := szp_meaning (((s.setFlag .cf _).setFlag .af _).setFlag .of _) (subVal a b c)
    refine ⟨rfl, ?_, ?_, ?_, hz, hs, hp, ?_, sameButFlags_step (sameButFlags_step (sameButFlags_step rfl rfl) rfl) rfl⟩
    · simp [State.subFlags, flag_szp]
    · rw [← subOverflow_iff]
      simp [State.subFlags, flag_szp]
    · simp [State.subFlags, flag_szp]
    · refine (szp_eflags_and _ rfl rfl rfl).trans ?_
      exact (setFlag_eflags_and .of _ rfl).trans ((setFlag_eflags_and .af _ rfl).trans (setFlag_eflags_and .cf _ rfl))
  · obtain ⟨hz, hs, hp⟩ := szp_meaning ((s.setFlag .cf false).setFlag .of false) r
    refine ⟨?_, ?_, hz, hs, hp, ?_, rfl, logicF_run r s⟩
    · simp [State.logicFlags, flag_szp]
    · simp [State.logicFlags, flag_szp]
    · exact (szp_eflags_and _ rfl rfl rfl).trans
        ((setFlag_eflags_and .of _ rfl).trans (setFlag_eflags_and .cf _ rfl))

end Sys2Proof.Machine
end

section
/-! SUPPORT. The bits of a general register that a name covers (R10, R11); bits of a doubleword after one is set. -/

namespace Sys2Proof.Machine

/-- The places at which a register name stands in its 32-bit register (R11). -/
def nameLow (w : Width) (r : Reg) : Nat := if w = .b8 then byteLow r else 0

/-- A place and width of `putBits` that no name exceeds: the bits of its mask. -/
theorem putBits_mask {lo n : Nat} (h : (lo, n) ∈ [(0, 8), (8, 8), (0, 16)]) (j : Nat) (hj : j < 32) :
    ((((1 : Dword) <<< n) - 1) <<< lo).getLsbD j = decide (lo ≤ j ∧ j < lo + n) := by
  simp only [List.mem_cons, Prod.mk.injEq, List.not_mem_nil, or_false] at h
  revert j
  obtain ⟨rfl, rfl⟩ | ⟨rfl, rfl⟩ | ⟨rfl, rfl⟩ := h <;> decide

/-- Within its place `putBits` gives the new bits, elsewhere the old ones. -/
theorem getLsbD_putBits {lo n : Nat} (h : (lo, n) ∈ [(0, 8), (8, 8), (0, 16)]) (v x : Dword) {j : Nat} (hj : j < 32) :
    (putBits v lo n x).getLsbD j = if lo ≤ j ∧ j < lo + n then x.getLsbD (j - lo) else v.getLsbD j := by
  unfold putBits
  simp only [BitVec.getLsbD_or, BitVec.getLsbD_and, BitVec.getLsbD_not, putBits_mask h j hj, BitVec.getLsbD_shiftLeft, hj]
  by_cases hl : lo ≤ j ∧ j < lo + n
  · simp [hl, Nat.not_lt.2 hl.1]
  · simp [hl]

theorem byteLow_cases (r : Reg) : byteLow r = 0 ∨ byteLow r = 8 := by cases r <;> simp [byteLow]

/-- The place and width of a name narrower than its register. -/
theorem byteLow_mem (r : Reg) : (byteLow r, 8) ∈ [(0, 8), (8, 8), (0, 16)] := by cases r <;> decide

/-- A register name reads the bits that it covers. -/
theorem getLsbD_reg (s : State) (w : Width) (r : Reg) {j : Nat} (hj : j < w.bits) :
    (s.reg w r).getLsbD j = (s.reg .d32 (if w = .b8 then byteHome r else r)).getLsbD (nameLow w r + j) := by
  cases w with
  | b8 => exact (BitVec.getLsbD_extractLsb' ..).trans (by rw [decide_eq_true hj]; rfl)
  | w16 => exact (BitVec.getLsbD_extractLsb' ..).trans (by rw [decide_eq_true hj]; rfl)
  | d32 => exact congrArg _ (Nat.zero_add j).symm

/-- A register name written changes the bits that it covers, of one 32-bit register. -/
theorem getLsbD_setReg (s : State) (w : Width) (r q : Reg) (v : BitVec w.bits) {j : Nat} (hj : j < 32) :
    ((s.setReg w r v).reg .d32 q).getLsbD j =
      if q = (if w = .b8 then byteHome r else r) ∧ nameLow w r ≤ j ∧ j < nameLow w r + w.bits
      then v.getLsbD (j - nameLow w r) else (s.reg .d32 q).getLsbD j := by
  by_cases hq : q = (if w = .b8 then byteHome r else r)
  · subst hq
    cases w with
    | b8 =>
      have hb := byteLow_cases r
      simp only [State.setReg, State.reg, Regs.get_set, nameLow, if_true, true_and, getLsbD_putBits (byteLow_mem r) _ _ hj,
        BitVec.getLsbD_setWidth]
      split
      · rw [decide_eq_true (by omega), Bool.true_and]
      · rfl
    | w16 =>
      simp only [State.setReg, State.reg, Regs.get_set, nameLow, reduceCtorEq, if_false, if_true, true_and,
        getLsbD_putBits (lo := 0) (n := 16) (by decide) _ _ hj, BitVec.getLsbD_setWidth]
      split
      · rw [decide_eq_true (by omega), Bool.true_and]
      · rfl
    | d32 => simp [State.setReg, State.reg, nameLow, hj]
  · rw [if_neg fun h => hq h.1]
    exact congrArg (·.getLsbD j) (State.regs_get_setReg s w r q v hq)

/-- Bit `n` of a doubleword after bit `n` is set, and every other bit. -/
theorem getLsbD_setBit (v : Dword) {n : Nat} (hn : n < 32) (b : Bool) (j : Nat) :
    (setBit v n b).getLsbD j = if j = n then b else v.getLsbD j := by
  by_cases hj : j < 32
  · exact bitOf_setBit v n j b hj
  · rw [if_neg (by omega), BitVec.getLsbD_of_ge _ _ (by omega), BitVec.getLsbD_of_ge _ _ (by omega)]

end Sys2Proof.Machine
end

section
/-! O48 and O56: registers and flags, and what RESET leaves. -/

namespace Sys2Proof.Machine

/-- Settles O48: `getLsbD_reg` and `getLsbD_setReg` say it bit by bit. -/
theorem registerReadWrite : Obligations.RegisterReadWrite := by
  refine ⟨rfl, rfl, fun s w r v => ⟨fun j hj => getLsbD_reg s w r hj, fun q j hj => getLsbD_setReg s w r q v hj, ?_,
    fun f b => ⟨fun j => getLsbD_setBit _ f.bit_lt b j, rfl⟩⟩⟩
  cases w <;> rfl

/-- Settles O56: DH and DL are the two bytes of `0x300 + stepping`; the rest is as `State.reset` has it. -/
theorem resetValues : Obligations.ResetValues := by
  intro s r
  have hdx (b : Byte) : ((0x300 + b.setWidth 32 : Dword).extractLsb' 8 8 = 3) ∧
      (0x300 + b.setWidth 32 : Dword).extractLsb' 0 8 = b := by
    have hb := b.isLt
    constructor <;> apply BitVec.eq_of_toNat_eq <;> simp <;> omega
  have hcode : r.cs = SegReg.resetCode := rfl
  have hcr0 : r.cr0 = if s.coproc = .i387 then 0x10 else 0 := rfl
  refine ⟨(hdx _).1, (hdx _).2, fun h => ?_, fun v h => ?_, rfl, rfl, rfl, rfl, rfl, rfl, rfl, hcode ▸ rfl, ?_, rfl, rfl,
    fun sr hsr => ?_, ?_, ?_, ?_, ?_, ?_, ?_, rfl, rfl, rfl, fun e he => ?_, rfl, rfl, rfl, rfl, rfl⟩
  · exact congrArg SelfTest.eax h
  · exact congrArg SelfTest.eax h
  · rw [hcode]
    decide
  · have hdata : r.sreg sr = SegReg.resetData := by
      cases sr with
      | cs => exact absurd rfl hsr
      | _ => rfl
    rw [hdata]
    decide
  case refine_11 => exact congrArg TlbEntry.v (List.eq_of_mem_replicate he)
  all_goals
    simp only [State.pe, State.mp, State.em, State.tsw, State.pg, hcr0]
    split <;> simp_all

end Sys2Proof.Machine
end

section
/-! SUPPORT. Operands that the segment refuses (R100, R101, R106, R170). -/

namespace Sys2Proof.Machine

variable {s : State} {w : Width} {m : MemRef} {vec : Byte}

/-- The vector of a refused access of an operand in segment `sr` (R170). -/
def State.refusalVec (s : State) (sr : SReg) (wr : Bool) : Byte :=
  if sr = .ss ∧ ((s.sreg .ss).valid = false ∨ (if wr then s.mayWrite .ss else (s.sreg .ss).readable) = true) then 12 else 13

/-- Exception 12 is that of a limit or of an unusable SS; a segment without the permission raises 13. -/
theorem refusalVec_permission {sr : SReg} (hv : (s.sreg sr).valid = true) (hr : (s.sreg sr).readable = false) :
    s.refusalVec sr false = 13 := by
  refine if_neg ?_
  rintro ⟨rfl, h | h⟩
  · exact absurd (hv.symm.trans h) (by decide)
  · exact absurd (hr.symm.trans h) (by decide)

theorem begun_refusalVec (sr : SReg) (wr : Bool) : s.begun.refusalVec sr wr = s.refusalVec sr wr := by
  simp only [State.refusalVec, State.begun_sreg, State.begun_mayWrite]

section
variable {sr : SReg} {off : Dword}

theorem memRead_refused (h : s.segOk sr off w.bytes false = false) :
    memRead sr off w s = .error (faultOf (s.refusalVec sr false) (some 0)) s :=
  M_bind_error (M_bind_error (checkSeg_error h))

/-- A read-modify-write operand is checked as written first. -/
theorem memUpdate_refused (f : BitVec w.bits → M (BitVec w.bits)) (h : s.segOk sr off w.bytes true = false) :
    memUpdate sr off w f s = .error (faultOf (s.refusalVec sr true) (some 0)) s := M_bind_error (checkSeg_error h)

/-- A segment that can be written but not read refuses a read-modify-write operand. -/
theorem memUpdate_unreadable (f : BitVec w.bits → M (BitVec w.bits)) (h : s.segOk sr off w.bytes true = true)
    (hr : (s.sreg sr).readable = false) : memUpdate sr off w f s = .error (faultOf 13 (some 0)) s := by
  have hv : (s.sreg sr).valid = true := by
    simp only [State.segOk, Bool.and_eq_true] at h
    exact h.1.1
  have hs : s.segOk sr off w.bytes false = false := by simp [State.segOk, hr]
  refine (M_bind_ok (checkSeg_ok h)).trans (M_bind_error ?_)
  rw [← refusalVec_permission hv hr]
  exact checkSeg_error hs

end

/-! ### MOV and XCHG -/

theorem exec_mov_load_error {x : Exc} (r : Reg) (h : memRead (segOf m) (s.memEa m) w s.begun = .error x s.begun) :
    exec (.mov (.regRm w r (.mem m))) s = .next (abandon s x s.begun) := by
  rw [← State.begun_memEa] at h
  exact plain_error (M_bind_error h)

theorem exec_mov_store_error {x : Exc} (r : Reg)
    (h : ∀ v, memWrite (segOf m) (s.memEa m) w v s.begun = .error x s.begun) :
    exec (.mov (.rmReg w (.mem m) r)) s = .next (abandon s x s.begun) := by
  rw [← State.begun_memEa] at h
  exact plain_error ((M_bind_ok (readReg_begun w r s)).trans (writeRm_error (h _)))

theorem updateRm_mem (f : BitVec w.bits → M (BitVec w.bits)) :
    updateRm w (.mem m) f s = memUpdate (segOf m) (s.memEa m) w f s := rfl

theorem exec_xchg_error {x : Exc} (r : Reg) (h : ∀ f, memUpdate (segOf m) (s.memEa m) w f s.begun = .error x s.begun) :
    exec (.xchg (.rmReg w (.mem m) r)) s = .next (abandon s x s.begun) := by
  rw [← State.begun_memEa] at h
  exact plain_error ((M_bind_ok (readReg_begun w r s)).trans ((updateRm_mem _).trans (h _)))

/-! ### Which offsets lie within a limit, and which accesses a segment allows (R172, R173) -/

theorem inLimit_up {r : SegReg} {off : Dword} {n : Nat} (h : ¬(r.typ.getLsbD 3 = false ∧ r.typ.getLsbD 2 = true)) :
    inLimit r off n = true ↔ off.toNat + n - 1 ≤ r.limit.toNat := by
  have he : r.expandDown = false := by
    simpa [SegReg.expandDown, SegReg.isCode] using h
  simp [inLimit, he]

theorem inLimit_down {r : SegReg} {off : Dword} {n : Nat} (h3 : r.typ.getLsbD 3 = false) (h2 : r.typ.getLsbD 2 = true) :
    inLimit r off n = true ↔
      r.limit.toNat < off.toNat ∧ off.toNat + n - 1 ≤ (if r.db = true then 0xFFFFFFFF else 0xFFFF) := by
  have he : r.expandDown = true := by
    rw [SegReg.expandDown, SegReg.isCode, h3, h2]
    rfl
  simp [inLimit, he]

theorem segOk_read {sr : SReg} {off : Dword} {n : Nat} : s.segOk sr off n false = true ↔
    (s.sreg sr).valid = true ∧ (s.sreg sr).readable = true ∧ inLimit (s.sreg sr) off n = true := by
  simp [State.segOk, and_assoc]

theorem segOk_write {sr : SReg} {off : Dword} {n : Nat} : s.segOk sr off n true = true ↔ (s.sreg sr).valid = true ∧
    ((s.sreg sr).writable = true ∨ (sr = .cs ∧ (s.pe = false ∨ s.flag .vm = true))) ∧
      inLimit (s.sreg sr) off n = true := by
  simp [State.segOk, State.mayWrite, State.paragraphs, and_assoc]

end Sys2Proof.Machine
end

section
/-! SUPPORT. How an instruction ends (R15, R908, R915): where its end leaves EIP and RF, and when a debug trap is due. -/

namespace Sys2Proof.Machine

variable {s t : State} {d : Done}

theorem place_pend (d : Done) (s t : State) : (d.place s t).pend = t.pend := by cases d <;> rfl
theorem place_dr7 (d : Done) (s t : State) : (d.place s t).dr7 = t.dr7 := by cases d <;> rfl

theorem nextPast_iff : s.nextPast = true ↔ s.code32 = false ∧ 0xFFFF < s.nextStart.toNat := by
  simp [State.nextPast]

/-- With nothing gathered, kept or late, and TF = 0, only EIP and RF are settled. -/
theorem finish_quiet (hp : s.pend = 0) (hl : s.pendLate = 0) (ht : t.pend = 0) (hf : s.flag .tf = false) :
    finish s d t = (d.place s t).trimEip := by
  have hpend : (d.place s t).trimEip.pend = 0 := (place_pend d s t).trans ht
  unfold finish
  simp only [hf, hp, hl, Bool.false_and, ite_self]
  exact settle_none hpend

/-- A pending BS survives the gathering: its bit is not one of the data breakpoints. -/
theorem gather_step {kept late : Dword} (h : s.pend.getLsbD 14 = true) : (s.gather kept late).pend.getLsbD 14 = true := by
  unfold State.gather
  split
  · simp [h]
  · simp [h]

/-- A trap that is due is kept. -/
theorem settle_due {kept late : Dword} (h : (s.gather kept late).due = true) : s.settle kept late = s.gather kept late :=
  if_pos h

theorem due_of_step (h : s.pend.getLsbD 14 = true) : s.due = true := by
  simp [State.due, bitOf, h]

/-- Where TF was 1 single step is gathered, and a trap is due (R915). -/
theorem finish_step (hf : s.flag .tf = true) (hd : d ≠ .waiting) :
    (finish s d t).pend.getLsbD 14 = true ∧ (finish s d t).due = true := by
  have hb : (s.flag .tf && d != .waiting) = true := by rw [hf, bne_iff_ne.2 hd]; rfl
  have hg (late : Dword) : (({ (d.place s t).trimEip with pend := setBit (d.place s t).trimEip.pend 14 true } : State).gather
      s.pend late).pend.getLsbD 14 = true := gather_step ((bitOf_setBit _ 14 14 true (by decide)).trans (if_pos rfl))
  unfold finish
  simp only [hb, if_true]
  rw [settle_due (due_of_step (hg _))]
  exact ⟨hg _, due_of_step (hg _)⟩

/-- A data breakpoint that is due among some bits is due among more. -/
theorem dataDue_mono {x y : Dword} (h : s.dataDue x = true) (hxy : ∀ k, x.getLsbD k = true → y.getLsbD k = true) :
    s.dataDue y = true := by
  simp only [State.dataDue, List.any_eq_true, Bool.and_eq_true] at h ⊢
  obtain ⟨k, hk, hx, he⟩ := h
  exact ⟨k, hk, hxy k hx, he⟩

/-- Exact data breakpoints (LE or GE) join what was kept and late (R907, R908). -/
theorem settle_exact {kept late : Dword} (he : s.dr7.getLsbD 8 = true ∨ s.dr7.getLsbD 9 = true)
    (h : s.dataDue s.pend = true) :
    s.settle kept late = { s with pend := kept ||| late ||| s.pend } := by
  have hg : s.gather kept late = { s with pend := kept ||| late ||| s.pend } := by
    refine if_pos ?_
    rw [Bool.or_assoc, Bool.or_eq_true, Bool.or_eq_true]
    exact .inr he
  have hdue : s.dataDue (kept ||| late ||| s.pend) = true :=
    dataDue_mono h fun k hk => by rw [BitVec.getLsbD_or, hk, Bool.or_true]
  rw [settle_due, hg]
  rw [hg]
  show (_ || _ || s.dataDue (kept ||| late ||| s.pend)) = true
  rw [hdue, Bool.or_true]

end Sys2Proof.Machine
end

section
/-! O51, O52 and O55: refused operands; the end of an instruction; the instruction that a step runs. -/

namespace Sys2Proof.Machine

/-- Settles O51: each operation begins with `checkSeg`, whose refusal leaves the state. -/
theorem segmentFault : Obligations.SegmentFault := by
  refine ⟨fun r off n => ⟨rfl, rfl, inLimit_up, inLimit_down⟩, fun s sr off n => ⟨segOk_read, segOk_write⟩,
    fun s m w r vec => ⟨fun hw hr => ⟨fun f => memUpdate_unreadable f hw hr, exec_xchg_error r fun f => ?_⟩, ?_⟩⟩
  · exact memUpdate_unreadable f (by rwa [State.begun_segOk]) (by rwa [State.begun_sreg])
  · intro wr h hv
    have hvec : vec = s.refusalVec (segOf m) wr := hv
    have hb : s.begun.segOk (segOf m) (s.memEa m) w.bytes wr = false := by rwa [State.begun_segOk]
    have hvb : s.begun.refusalVec (segOf m) wr = vec := (begun_refusalVec _ _).trans hvec.symm
    refine ⟨?_, ?_⟩
    · rintro rfl
      exact ⟨hvec ▸ memRead_refused h, exec_mov_load_error r (hvb ▸ memRead_refused hb)⟩
    · rintro rfl
      exact ⟨fun v => hvec ▸ memWrite_segError v h, fun f => hvec ▸ memUpdate_refused f h,
        exec_mov_store_error r fun v => hvb ▸ memWrite_segError v hb, exec_xchg_error r fun f => hvb ▸ memUpdate_refused f hb⟩

/-- Settles O52: `finish` places EIP and RF, and settles the debug traps. -/
theorem endOfInstruction : Obligations.EndOfInstruction := by
  intro s t d
  refine ⟨finish_frame s d t, fun u => rfl, rfl, rfl, rfl, nextPast_iff, rfl, rfl, rfl, rfl,
    fun hp hl ht _ hf => finish_quiet hp hl ht hf, finish_step, fun hf hd he hdue => ?_⟩
  have hp : (d.place s t).trimEip.pend = t.pend := place_pend d s t
  have h7 : (d.place s t).trimEip.dr7 = t.dr7 := place_dr7 d s t
  have hdata : (d.place s t).trimEip.dataDue (d.place s t).trimEip.pend = true := by
    rw [hp]
    simpa only [State.dataDue, State.drEnabled, h7] using hdue
  have hfin : finish s d t =
      { (d.place s t).trimEip with pend := s.pend ||| s.pendLate ||| (d.place s t).trimEip.pend } := by
    unfold finish
    simp only [hf, Bool.false_and, Bool.false_eq_true, if_false, if_neg hd]
    exact settle_exact (h7 ▸ he) hdata
  rw [hfin]
  refine ⟨by rw [← hp], ?_⟩
  have hmore := dataDue_mono (y := s.pend ||| s.pendLate ||| (d.place s t).trimEip.pend) hdata fun k hk => by
    rw [BitVec.getLsbD_or, hk, Bool.or_true]
  show (_ || _ || (d.place s t).trimEip.dataDue _) = true
  rw [hmore, Bool.or_true]

end Sys2Proof.Machine
end

section
/-! SUPPORT. Exceptions during a delivery (R870, R885), and the events between instructions (R880, R905). -/

namespace Sys2Proof.Machine

variable {s t u : State} {e : Event} {x : Exc} {n : Nat}

/-! ### Which pairs make a double fault (R885) -/

theorem contributory_iff (v : Byte) : contributory v = true ↔ v = 0 ∨ 9 ≤ v ∧ v ≤ 13 := by
  simp only [contributory, List.contains_cons, List.contains_nil, Bool.or_false, Bool.or_eq_true, beq_iff_eq]
  bv_omega

theorem doubles_iff (a b : Byte) : doubles a b = true ↔
    ((a = 0 ∨ 9 ≤ a ∧ a ≤ 13) ∧ (b = 0 ∨ 9 ≤ b ∧ b ≤ 13)) ∨ (a = 14 ∧ (b = 0 ∨ 9 ≤ b ∧ b ≤ 14)) := by
  have h : contributory b = true ∨ b = 14 ↔ b = 0 ∨ 9 ≤ b ∧ b ≤ 14 := by
    rw [contributory_iff]
    bv_omega
  rw [doubles, Bool.or_eq_true, Bool.and_eq_true, Bool.and_eq_true, Bool.or_eq_true, beq_iff_eq, beq_iff_eq, h,
    contributory_iff, contributory_iff]

/-! ### A delivery that raises an exception -/

/-- The state from which the processor goes on after a delivery from `s` that raised `x` in `t` (R860, R279). -/
def State.afterFailed (s t : State) (x : Exc) : State := if x.committed then { t with pend := 0 } else s.keep t

/-- The return offset of an exception that is handled serially (R840). -/
def Event.serialRet (e : Event) (t : State) (x : Exc) : Dword := if x.committed then t.eip else e.ret

section
variable (h : deliver e s = .error x t)
include h

theorem deliverAll_error : deliverAll (n + 1) e s =
    if e.kind = .exc ∧ e.vec = 8 then { s.afterFailed t x with run := .shutdown }
    else if e.kind = .exc ∧ doubles e.vec x.vec = true then
      deliverAll n { vec := 8, kind := .exc, code := some 0, isFault := false, ret := e.ret } (s.afterFailed t x)
    else deliverAll n { vec := x.vec, kind := .exc, code := x.code, isFault := x.isFault, ret := e.serialRet t x }
      (s.afterFailed t x) := by
  simp only [deliverAll, h]
  rfl

section
variable {b : State} (hb : s.afterFailed t x = b)
include hb

theorem deliverAll_shutsDown (hk : e.kind = .exc) (hv : e.vec = 8) :
    deliverAll (n + 1) e s = { b with run := .shutdown } := by
  rw [deliverAll_error h, if_pos ⟨hk, hv⟩, hb]

theorem deliverAll_double (hk : e.kind = .exc) (hv : e.vec ≠ 8) (hd : doubles e.vec x.vec = true) :
    deliverAll (n + 1) e s =
      deliverAll n { vec := 8, kind := .exc, code := some 0, isFault := false, ret := e.ret } b := by
  rw [deliverAll_error h, if_neg fun c => hv c.2, if_pos ⟨hk, hd⟩, hb]

theorem deliverAll_serial {r : Dword} (hr : e.serialRet t x = r)
    (hs : e.kind ≠ .exc ∨ (e.vec ≠ 8 ∧ doubles e.vec x.vec = false)) : deliverAll (n + 1) e s =
      deliverAll n { vec := x.vec, kind := .exc, code := x.code, isFault := x.isFault, ret := r } b := by
  have h8 : ¬(e.kind = .exc ∧ e.vec = 8) := fun c => hs.elim (· c.1) (·.1 c.2)
  have hd : ¬(e.kind = .exc ∧ doubles e.vec x.vec = true) :=
    fun c => hs.elim (· c.1) fun o => Bool.false_ne_true (o.2.symm.trans c.2)
  rw [deliverAll_error h, if_neg h8, if_neg hd, hb, hr]

end
end

/-! ### Exceptions of instructions -/

/-- A fault whose delivery succeeds (R860). -/
theorem abandon_delivered {v : Byte} {c : Option Word}
    (h : deliver { vec := v, kind := .exc, code := c, isFault := true, ret := s.eip } (s.begun.keep t) = .ok () u) :
    abandon s (faultOf v c) t = ({ u with run := .running } : State).trimEip.settle s.pend s.pendLate :=
  congrArg (fun r : State => r.trimEip.settle s.pend s.pendLate) (deliverAll_ok (n := 7) h)

/-- An exception that no task switch has committed abandons the instruction (R860). -/
theorem abandon_undone (hc : x.committed = false) (hr : x.ret = none) : abandon s x t =
    (deliverAll deliverFuel { vec := x.vec, kind := .exc, code := x.code, isFault := x.isFault, ret := s.eip }
      (s.begun.keep t)).trimEip.settle s.pend s.pendLate := by
  simp only [abandon, hc, hr, Bool.false_eq_true, if_false, Option.getD_none]

/-! ### Events between instructions -/

theorem takeEvent_delivered
    (h : deliver e { s with pend := 0, repActive := false, ranPast := false } = .ok () t) :
    takeEvent e s = ({ t with run := .running } : State).trimEip.settle 0 0 :=
  congrArg (fun r : State => r.trimEip.settle 0 0) (deliverAll_ok (n := 7) h)

theorem mem_upto4 {k : Nat} : k ∈ [0, 1, 2, 3] ↔ k < 4 := by
  simp only [List.mem_cons, List.not_mem_nil, or_false]
  omega

/-- Breakpoint `k` matches the linear address of the next instruction (R905). -/
theorem mem_instrHits {k : Nat} : k ∈ s.instrHits ↔ k < 4 ∧ s.drRw k = 0 ∧ s.drLen k = 0 ∧ s.dr k = s.cs.base + s.eip := by
  simp only [State.instrHits, List.mem_filter, mem_upto4, Bool.and_eq_true, beq_iff_eq, and_assoc]

theorem instrBreak_iff : s.instrBreak = true ↔
    (∃ k < 4, (s.drRw k = 0 ∧ s.drLen k = 0 ∧ s.dr k = s.cs.base + s.eip) ∧
      (s.dr7.getLsbD (2 * k) = true ∨ s.dr7.getLsbD (2 * k + 1) = true)) ∧
    s.flag .rf = false ∧ s.inhibit = false ∧ s.repActive = false := by
  simp only [State.instrBreak, Bool.and_eq_true, List.any_eq_true, mem_instrHits, Bool.not_eq_true', State.drEnabled,
    Bool.or_eq_true, and_assoc]

theorem sampleNmi_run (s : State) : s.sampleNmi.run = s.run := by
  unfold State.sampleNmi
  split <;> rfl

theorem intrDue_iff : s.intrDue = true ↔
    s.intrQueue ≠ [] ∧ s.flag .iflag = true ∧ s.inhibit = false ∧ s.inhibitIntr = false := by
  simp only [State.intrDue, Bool.and_eq_true, Bool.not_eq_true', List.isEmpty_eq_false_iff, ne_eq, and_assoc]

/-! ### The order of the events (R880) -/

theorem boundary_trap (h : s.due = true) (hi : s.inhibit = false) : s.boundary = some (takeDebugTrap s) := by
  simp [State.boundary, h, hi]

section
variable (h : s.due = false ∨ s.inhibit = true)
include h

/-- Past the debug trap. -/
theorem boundary_after_trap : s.boundary =
    if s.run == .running && s.instrBreak then some (takeInstrBreak s)
    else if s.nmiDue && !s.inhibit then some (takeNmi s)
    else if s.intrDue then some (takeIntr s) else none := by
  have hd : (s.due && !s.inhibit) = false := by
    rcases h with h | h <;> simp [h]
  rw [State.boundary, hd, if_neg Bool.false_ne_true]

theorem boundary_break (hr : s.run = .running) (hb : s.instrBreak = true) :
    s.boundary = some (takeInstrBreak s) := by
  rw [boundary_after_trap h, hr, hb]
  rfl

section
variable (hb : s.run = .halted ∨ s.instrBreak = false)
include hb

/-- Past the instruction breakpoint. -/
theorem boundary_after_break : s.boundary =
    if s.nmiDue && !s.inhibit then some (takeNmi s) else if s.intrDue then some (takeIntr s) else none := by
  have hn : (s.run == .running && s.instrBreak) = false := by
    rcases hb with hb | hb <;> simp [hb]
  rw [boundary_after_trap h, hn, if_neg Bool.false_ne_true]

theorem boundary_nmi (hn : s.nmiDue = true) (hi : s.inhibit = false) : s.boundary = some (takeNmi s) := by
  rw [boundary_after_break h hb, hn, hi]
  rfl

/-- Past the NMI. -/
theorem boundary_after_nmi (hn : s.nmiDue = false ∨ s.inhibit = true) :
    s.boundary = if s.intrDue then some (takeIntr s) else none := by
  have hd : (s.nmiDue && !s.inhibit) = false := by
    rcases hn with hn | hn <;> simp [hn]
  rw [boundary_after_break h hb, hd, if_neg Bool.false_ne_true]

end
end

/-! ### What a step does with them -/

section
variable (hp : s.pinReset = false)
include hp

theorem step_shutdown (hr : s.run = .shutdown) :
    step s = .next (if s.sampleNmi.nmiDue then takeNmi s.sampleNmi else s.sampleNmi) := by
  simp only [step, hp, Bool.false_eq_true, if_false, sampleNmi_run, hr]
  split <;> rfl

theorem step_event (hr : s.run ≠ .shutdown) (hb : s.sampleNmi.boundary = some t) : step s = .next t := by
  simp only [step, hp, Bool.false_eq_true, if_false, sampleNmi_run, hb]
  cases h : s.run with
  | shutdown => exact absurd h hr
  | halted => rfl
  | running => rfl

theorem step_halted (hr : s.run = .halted) (hb : s.sampleNmi.boundary = none) : step s = .next s.sampleNmi := by
  simp only [step, hp, Bool.false_eq_true, if_false, sampleNmi_run, hr, hb]

theorem step_running (hr : s.run = .running) (hb : s.sampleNmi.boundary = none) : step s = runOne s.sampleNmi := by
  simp only [step, hp, Bool.false_eq_true, if_false, sampleNmi_run, hr, hb]

end

/-! ### The fetch -/

theorem fetchByte_keeps (i : Nat) : Keeps State.Walked State.Faulted (fetchByte i) :=
  keeps_bind steady_walked (keeps_get steady_walked) fun _ =>
    keeps_bind steady_walked (keeps_when steady_walked (keeps_raise steady_walked _ _)) fun _ =>
      keeps_bind steady_walked (linRead_keeps _ _ _) fun _ => keeps_pure steady_walked _

theorem fetchBytes_keeps : ∀ n i : Nat, Keeps State.Walked State.Faulted (fetchBytes n i)
  | 0, _ => keeps_pure steady_walked _
  | n + 1, i => keeps_bind steady_walked (fetchByte_keeps i) fun _ =>
      keeps_bind steady_walked (fetchBytes_keeps n (i + 1)) fun _ => keeps_pure steady_walked _

theorem State.Walked.code32 (h : s.Walked t) : t.code32 = s.code32 := by
  obtain ⟨_, _, _, _, _, rfl⟩ := h
  rfl

theorem sampleNmi_code32 (s : State) : s.sampleNmi.code32 = s.code32 := by
  unfold State.sampleNmi
  split <;> rfl

theorem sampleNmi_fetchOff (s : State) : s.sampleNmi.fetchOff = s.fetchOff := by
  unfold State.sampleNmi
  split <;> rfl

/-- A fetch that decodes runs the instruction (R325). -/
theorem runOne_decoded {i : Instr} {len : Nat} {bs : List Byte} (hd : decode s.code32 s.window = .ok (i, len))
    (hf : fetchBytes len 0 s = .ok bs t) :
    runOne s = exec i { t with nextStart := s.fetchOff + BitVec.ofNat 32 len } := by
  simp only [runOne, fetch, hd, hf]

/-- Where an instruction byte can be fetched (R118, D16). -/
theorem codeByteOk_iff {v : State} {n : Nat} : v.codeByteOk n = true ↔ v.cs.valid = true ∧
    v.fetchOff.toNat + n < (if v.code32 = true then 2 ^ 32 else 2 ^ 16) ∧
    inLimit v.cs (BitVec.ofNat 32 (v.fetchOff.toNat + n)) 1 = true ∧
    (v.ranPast = true → inLimit v.cs 0x00010000 1 = true) := by
  simp only [State.codeByteOk, State.overrun, codeEnd, Bool.and_eq_true, Bool.not_eq_true', Bool.and_eq_false_iff,
    Bool.not_eq_false']
  cases v.ranPast <;> simp <;> tauto

end Sys2Proof.Machine
end

section
/-! O53, O54 and O55: exceptions, the events between instructions, and the instruction that a step runs. -/

namespace Sys2Proof.Machine

/-- Settles O53: `deliverAll` goes by the kind of the event and the pair of vectors. -/
theorem exceptionDelivery : Obligations.ExceptionDelivery := by
  refine ⟨fun s t u v c h => abandon_delivered h, fun s t v x hv h hc hr => ?_, fun s t => rfl, doubles_iff,
    fun n e x s t h hc => ?_, fun n e x s t h hc => ?_⟩
  · have hrun : (checkV86Iopl >>= fun _ => softInt v) s.begun = .error x t :=
      (M_bind_ok (checkV86Iopl_run (s := s.begun) hv)).trans ((M_get_bind _ _).trans (M_bind_error h))
    exact (instr_error hrun).trans (congrArg _ (abandon_undone hc hr))
  · have hb : s.afterFailed t x = { t with pend := 0 } := if_pos hc
    exact ⟨deliverAll_shutsDown h hb, deliverAll_double h hb, deliverAll_serial h hb (if_pos hc)⟩
  · have hf := Bool.eq_false_iff.1 hc
    have hb : s.afterFailed t x = s.keep t := if_neg hf
    refine ⟨deliverAll_shutsDown h hb, deliverAll_double h hb, fun hk => deliverAll_serial h hb (if_neg hf) ?_⟩
    obtain hk | ⟨-, hv⟩ := hk
    · exact .inl (by rw [hk]; decide)
    · exact .inr hv

/-- Settles O54: `State.boundary` asks in the order of R880, and each event is delivered by `takeEvent`. -/
theorem eventsBetweenInstructions : Obligations.EventsBetweenInstructions := by
  intro s
  refine ⟨fun hp => if_pos hp, fun hp => ⟨step_shutdown hp, fun hr => ⟨fun hd hi => ?_, fun hd => ⟨fun hrun hb => ?_,
    fun hb => ⟨fun hn hi => ?_, fun hn => ⟨fun hintr => ?_, fun hintr hh => ?_⟩⟩⟩⟩⟩, ⟨instrBreak_iff, fun d t hd h => ?_⟩,
    fun e => rfl, intrDue_iff, fun h => if_neg (Bool.eq_false_iff.1 h), fun h => if_pos h,
    fun t => ⟨fun h => takeEvent_delivered h, fun h => takeEvent_delivered h, fun v q hq h => ?_⟩⟩
  · exact step_event hp hr (boundary_trap hd hi)
  · exact step_event hp hr (boundary_break hd ((sampleNmi_run s).trans hrun) hb)
  all_goals try rw [← sampleNmi_run s] at hb
  · exact step_event hp hr (boundary_nmi hd hb hn hi)
  · exact step_event hp hr ((boundary_after_nmi hd hb hn).trans (if_pos hintr))
  · exact step_halted hp hh ((boundary_after_nmi hd hb hn).trans (if_neg (Bool.eq_false_iff.1 hintr)))
  · have hdr : d = s.instrHits.foldl (fun acc n => setBit acc n true) (s.dr6 ||| s.pend) := by
      refine BitVec.eq_of_getLsbD_eq fun k hk => Bool.eq_iff_iff.2 ?_
      rw [hd k hk, bitOf_foldl_setBit hk, mem_instrHits, bitOf, BitVec.getLsbD_or, Bool.or_eq_true]
      unfold State.drRw State.drLen
      tauto
    rw [hdr] at h
    exact takeEvent_delivered h
  · unfold takeIntr
    rw [hq]
    exact takeEvent_delivered h

/-- Settles O55: the window decides the instruction, whose bytes are then read; a byte is read where the code segment has it. -/
theorem stepRunsDecoded : Obligations.StepRunsDecoded := by
  intro s t i len bs hp hr hb hd hf next u
  have hcode : t.code32 = s.code32 := ((fetchBytes_keeps _ _).ok hf).code32.trans (sampleNmi_code32 s)
  refine ⟨fun v => Bool.and_eq_true_iff, ?_, ?_, fun h => (trimEip_of_fits h).2, fun v n => ?_⟩
  · rw [step_running hp hr hb, runOne_decoded (by rwa [sampleNmi_code32]) hf, sampleNmi_fetchOff]
  · rw [← hcode]
    rfl
  · intro off inside
    have hin : inside ↔ v.codeByteOk n = true := codeByteOk_iff.symm
    have hbase : v.cs.base + BitVec.ofNat 32 (v.fetchOff.toNat + n) = v.cs.base + BitVec.ofNat 32 off := rfl
    refine ⟨fun h x w hx => ?_, fun h x w hx => ?_, fun h => fetchByte_outside (Bool.eq_false_iff.2 (mt hin.2 h))⟩
    · rw [fetchByte_inside (hin.1 h), hbase, hx]
    · rw [fetchByte_inside (hin.1 h), hbase, hx]

end Sys2Proof.Machine
end

section
/-! SUPPORT. Which instructions REP and LOCK may stand before (R110, R690, R725), and what an instruction behind a lead byte
comes to (R320 to R323). -/

namespace Sys2Proof.Machine

variable {i : Instr} {s : State}

/-! ### The lists of R690 and R725 -/

/-- The string instructions are those that can be repeated. -/
theorem repeatable_iff : repeatable i = true ↔ ∃ a : StrAttr, i ∈ ([.movsb a, .movsw a, .movsd a, .cmpsb a, .cmpsw a,
    .cmpsd a, .stosb a, .stosw a, .stosd a, .lodsb a, .lodsw a, .lodsd a, .scasb a, .scasw a, .scasd a, .insb a, .insw a,
    .insd a, .outsb a, .outsw a, .outsd a] : List Instr) := by
  constructor
  · intro h
    unfold repeatable at h
    split at h
    case h_22 => cases h
    all_goals
      rename_i a
      exact ⟨a, by simp only [List.mem_cons, true_or, or_true]⟩
  · rintro ⟨a, h⟩
    simp only [List.mem_cons, List.not_mem_nil, or_false] at h
    rcases h with rfl | rfl | rfl | rfl | rfl | rfl | rfl | rfl | rfl | rfl | rfl | rfl | rfl | rfl | rfl | rfl | rfl | rfl |
      rfl | rfl | rfl <;> rfl

theorem isMem_iff {rm : Rm} : isMem rm = true ↔ ∃ m, rm = .mem m := by
  cases rm <;> simp [isMem]

theorem aluLockable_iff {f : AluForm} : aluLockable f = true ↔ ∃ (w : Width) (m : MemRef) (r : Reg) (imm : Dword) (n : Byte),
    f ∈ ([.rmReg w (.mem m) r, .rmImm w (.mem m) imm, .rmImm8 w (.mem m) n] : List AluForm) := by
  cases f <;> simp [aluLockable, isMem_iff]

theorem btLockable_iff {f : BtForm} : btLockable f = true ↔ ∃ (w : Width) (m : MemRef) (r : Reg) (n : Byte),
    f ∈ ([.reg w (.mem m) r, .imm w (.mem m) n] : List BtForm) := by
  cases f <;> simp [btLockable, isMem_iff]

theorem incLockable_iff {f : IncForm} : incLockable f = true ↔ ∃ (w : Width) (m : MemRef), f = .rm w (.mem m) := by
  cases f <;> simp [incLockable, isMem_iff]

theorem xchgLockable_iff {f : XchgForm} : xchgLockable f = true ↔
    ∃ (w : Width) (m : MemRef) (r : Reg), f = .rmReg w (.mem m) r := by
  cases f <;> simp [xchgLockable, isMem_iff]

theorem lockable_iff : lockable i = true ↔ ∃ (w : Width) (m : MemRef) (r : Reg) (imm : Dword) (n : Byte),
    (∃ f ∈ ([.rmReg w (.mem m) r, .rmImm w (.mem m) imm, .rmImm8 w (.mem m) n] : List AluForm),
      i ∈ [.add f, .or f, .adc f, .sbb f, .and f, .sub f, .xor f]) ∨
    i ∈ [.not w (.mem m), .neg w (.mem m), .inc (.rm w (.mem m)), .dec (.rm w (.mem m)), .xchg (.rmReg w (.mem m) r)] ∨
    ∃ f ∈ ([.reg w (.mem m) r, .imm w (.mem m) n] : List BtForm), i ∈ [.bt f, .bts f, .btr f, .btc f] := by
  constructor
  · intro h
    unfold lockable at h
    split at h
    case h_1 | h_2 | h_3 | h_4 | h_5 | h_6 | h_7 =>
      obtain ⟨w, m, r, imm, n, hf⟩ := aluLockable_iff.1 h
      exact ⟨w, m, r, imm, n, .inl ⟨_, hf, by simp only [List.mem_cons, true_or, or_true]⟩⟩
    case h_8 w _ | h_9 w _ =>
      obtain ⟨m, rfl⟩ := isMem_iff.1 h
      exact ⟨w, m, .eax, 0, 0, .inr (.inl (by simp only [List.mem_cons, true_or, or_true]))⟩
    case h_10 | h_11 =>
      obtain ⟨w, m, rfl⟩ := incLockable_iff.1 h
      exact ⟨w, m, .eax, 0, 0, .inr (.inl (by simp only [List.mem_cons, true_or, or_true]))⟩
    case h_12 =>
      obtain ⟨w, m, r, rfl⟩ := xchgLockable_iff.1 h
      exact ⟨w, m, r, 0, 0, .inr (.inl (by simp only [List.mem_cons, true_or, or_true]))⟩
    case h_13 | h_14 | h_15 | h_16 =>
      obtain ⟨w, m, r, n, hf⟩ := btLockable_iff.1 h
      exact ⟨w, m, r, 0, n, .inr (.inr ⟨_, hf, by simp only [List.mem_cons, true_or, or_true]⟩)⟩
    case h_17 => cases h
  · rintro ⟨w, m, r, imm, n, ⟨f, hf, hi⟩ | hi | ⟨f, hf, hi⟩⟩
    all_goals simp only [List.mem_cons, List.not_mem_nil, or_false] at hi
    · have hl : aluLockable f = true := aluLockable_iff.2 ⟨w, m, r, imm, n, hf⟩
      rcases hi with rfl | rfl | rfl | rfl | rfl | rfl | rfl <;> exact hl
    · rcases hi with rfl | rfl | rfl | rfl | rfl <;> rfl
    · have hl : btLockable f = true := btLockable_iff.2 ⟨w, m, r, n, hf⟩
      rcases hi with rfl | rfl | rfl | rfl <;> exact hl

/-- An instruction that REP or LOCK may stand before has no lead byte of its own. -/
theorem coreOf_self (h : repeatable i = true ∨ lockable i = true) : coreOf i = i := by
  unfold coreOf
  split
  case h_12 => rfl
  all_goals exact absurd h (by simp only [repeatable, lockable, Bool.false_eq_true, or_self, not_false_eq_true])

/-! ### Behind a lead byte -/

theorem undefined_run (s : State) : undefined s = .next (abandon s (faultOf 6 none) s.begun) := instr_error rfl

/-- REP and REPNE run what may be repeated, and are undefined before the rest (R690). -/
theorem exec_rep (i : Instr) (s : State) :
    exec (.rep i) s = if repeatable (coreOf i) then exec i s else .next (abandon s (faultOf 6 none) s.begun) := by
  rw [← undefined_run, ← runUnder_eq i]
  rfl

theorem exec_repne (i : Instr) (s : State) :
    exec (.repne i) s = if repeatable (coreOf i) then exec i s else .next (abandon s (faultOf 6 none) s.begun) :=
  exec_rep i s

/-- LOCK runs what may be locked, in V86 mode too (log 18), and is undefined before the rest (R110, R725). -/
theorem exec_lock (i : Instr) (s : State) :
    exec (.lock i) s = if lockable (coreOf i) then exec i s else .next (abandon s (faultOf 6 none) s.begun) := by
  rw [← undefined_run, ← runUnder_eq i]
  rfl

theorem exec_stosb {a : StrAttr} {put : Byte → State} (hn : s.idx a.asz .ecx ≠ 0)
    (h : StrPut s.begun .b8 a put) :
    exec (.stosb a) s = .next (strDone a false s ((put (s.reg .b8 .eax)).stepIdx a.asz .edi 1)) := by
  rw [← State.begun_reg]
  exact strStep_run (stosOnce_run h) (.inr hn)

end Sys2Proof.Machine
end

section
/-! O36: lead bytes. -/

namespace Sys2Proof.Machine

/-- Settles O36: the override and size prefixes run what stands behind them; REP, REPNE and LOCK first ask what it is. -/
theorem leadBytes : Obligations.LeadBytes := by
  refine ⟨fun i => ⟨fun lead hl => ?_, coreOf_self, repeatable_iff, lockable_iff⟩, fun s i => ?_, fun s lead hl => ?_,
    fun s a put _ hn h lead hl => ?_, fun s w m x t put h => ?_⟩
  · simp only [List.mem_cons, List.not_mem_nil, or_false] at hl
    rcases hl with rfl | rfl | rfl | rfl | rfl | rfl | rfl | rfl | rfl | rfl | rfl <;> exact ⟨rfl, rfl, rfl⟩
  · have seen := runUnder_eq i s
    refine ⟨seen, seen, seen, seen, seen, seen, seen, seen, fun h => ?_, fun h => ?_, fun h => ?_, fun h => ?_,
      fun b => undefined_run s⟩
    · exact ⟨(exec_rep i s).trans (if_pos h), (exec_repne i s).trans (if_pos h)⟩
    · exact (exec_lock i s).trans (if_pos h)
    · have hn := Bool.eq_false_iff.1 h
      exact ⟨(exec_rep i s).trans (if_neg hn), (exec_repne i s).trans (if_neg hn)⟩
    · exact (exec_lock i s).trans (if_neg (Bool.eq_false_iff.1 h))
  · have hnop : exec .nop s = .next (finish s .next s.begun) := plain_ok rfl
    simp only [List.mem_cons, List.not_mem_nil, or_false] at hl
    rcases hl with rfl | rfl | rfl | rfl | rfl | rfl | rfl | rfl <;> exact hnop
  · simp only [List.mem_cons, List.not_mem_nil, or_false] at hl
    rcases hl with rfl | rfl
    · exact (exec_rep _ s).trans (exec_stosb hn h)
    · exact (exec_repne _ s).trans (exec_stosb hn h)
  · exact (exec_lock _ s).trans (plain_ok (updateRm_run h (M_pure ..)))

end Sys2Proof.Machine
end

section
/-! SUPPORT. IRET and IRETD: the flags they write (R641), which return it is (R640, R642), and the parts of each. -/

namespace Sys2Proof.Machine

variable {s t u v z t₀ : State} {w : Width} {rs : Word} {i : Instr} {x : Exc} {d : Desc} {cpl : BitVec 2}

/-! ### The flags that IRET writes (R641) -/

theorem iretMask_iff (s : State) (w : Width) (k : Nat) : (s.iretMask w).getLsbD k = true ↔
    k ∈ [0, 2, 4, 6, 7, 8, 10, 11, 14] ∨ (k = 9 ∧ s.cpl ≤ s.iopl) ∨ ((k = 12 ∨ k = 13) ∧ s.cpl = 0) ∨
      (k = 16 ∧ w = .d32) ∨ (k = 17 ∧ w = .d32 ∧ s.pe = true ∧ s.cpl = 0) := by
  have always : (0x4DD5 : Dword).getLsbD k = true ↔ k ∈ [0, 2, 4, 6, 7, 8, 10, 11, 14] :=
    getLsbD_iff_mem (by decide) (by decide) k
  have iopl : (0x3000 : Dword).getLsbD k = true ↔ k ∈ [12, 13] := getLsbD_iff_mem (by decide) (by decide) k
  have intr : (0x200 : Dword).getLsbD k = true ↔ k ∈ [9] := getLsbD_iff_mem (by decide) (by decide) k
  have resume : (0x10000 : Dword).getLsbD k = true ↔ k ∈ [16] := getLsbD_iff_mem (by decide) (by decide) k
  have virtual : (0x20000 : Dword).getLsbD k = true ↔ k ∈ [17] := getLsbD_iff_mem (by decide) (by decide) k
  simp only [List.mem_cons, List.not_mem_nil, or_false] at iopl intr resume virtual
  simp only [State.iretMask, BitVec.getLsbD_or, Bool.or_eq_true, getLsbD_ite_zero, always, intr, iopl, resume, virtual,
    or_assoc]

/-- A return that stays out of V86 mode writes the same bits but VM. -/
theorem stayMask_bit (s : State) (w : Width) (k : Nat) :
    (s.stayMask w).getLsbD k = (decide (k ≠ 17) && (s.iretMask w).getLsbD k) := by
  unfold State.stayMask
  rw [getLsbD_setBit _ (by decide)]
  split
  · rw [decide_eq_false (not_not_intro ‹_›), Bool.false_and]
  · rw [decide_eq_true ‹_›, Bool.true_and]

/-- At CPL 0 of protected mode IRETD writes every flag. -/
theorem iretMask_cpl0 (hp : s.pe = true) (hc : s.cpl = 0) : s.iretMask .d32 = 0x37FD5 := by
  have hle : s.cpl ≤ s.iopl := by
    rw [hc, BitVec.le_def]
    exact Nat.zero_le _
  rw [State.iretMask, if_pos hle, if_pos hc, if_pos rfl, if_pos ⟨rfl, hp, hc⟩]
  rfl

theorem State.Touched.stayMask (h : s.Touched t) (w : Width) : t.stayMask w = s.stayMask w := by
  obtain ⟨_, _, _, _, _, _, rfl⟩ := h
  rfl

/-! ### The instruction -/

/-- The state in which the return of an IRET runs: NMI is no longer masked (R811). -/
def State.unmasked (s : State) : State := { s.begun with nmiMask := false }

section
variable (hi : (i = .iret ∧ w = .w16) ∨ (i = .iretd ∧ w = .d32))
include hi

theorem exec_iret_ok (h : iretBy w s.unmasked = .ok () t) : exec i s = .next (finish s .wentKeepRf t) := by
  obtain ⟨rfl, rfl⟩ | ⟨rfl, rfl⟩ := hi <;> exact instr_ok (M_bind_ok h)

theorem exec_iret_error (h : iretBy w s.unmasked = .error x t) : exec i s = .next (abandon s x t) := by
  obtain ⟨rfl, rfl⟩ | ⟨rfl, rfl⟩ := hi <;> exact instr_error ((M_modify_bind ..).trans (M_bind_error h))

end

/-- The operand size is that of the mnemonic. -/
theorem iret_width (hi : i = .iret ∨ i = .iretd) :
    ∃ w, (i = .iret ∧ w = Width.w16) ∨ (i = .iretd ∧ w = Width.d32) := by
  obtain rfl | rfl := hi
  · exact ⟨.w16, .inl ⟨rfl, rfl⟩⟩
  · exact ⟨.d32, .inr ⟨rfl, rfl⟩⟩

/-! ### Which return it is (R640, R642) -/

theorem iretBy_v86_error (hv : s.v86 = true) (hi : s.iopl < 3) : iretBy w s = .error (faultOf 13 (some 0)) s := by
  obtain ⟨hp, hm⟩ := Bool.and_eq_true_iff.1 hv
  unfold iretBy
  rw [M_get_bind]
  simp only [hp, hm, Bool.not_true, Bool.false_eq_true, if_false, if_true, decide_eq_true hi]
  rfl

theorem iretBy_real (h : s.pe = false ∨ (s.v86 = true ∧ s.iopl = 3)) : iretBy w s = iretReal w s := by
  unfold iretBy
  rw [M_get_bind]
  obtain hp | ⟨hv, hi⟩ := h
  · rw [hp]
    rfl
  · obtain ⟨hp, hm⟩ := Bool.and_eq_true_iff.1 hv
    simp only [hp, hm, hi, Bool.not_true, Bool.false_eq_true, if_false, if_true, BitVec.lt_irrefl, decide_false, when_false,
      M_pure_bind]

section
variable (hp : s.prot = true) (hn : s.flag .nt = false)
include hp hn

/-- A return to V86 mode: IRETD at CPL 0 whose image has VM = 1 (R642). -/
theorem iretBy_toV86 {fl : Dword} (hc : s.cpl = 0) (h : StackItem s 8 .d32 fl t) (hm : fl.getLsbD 17 = true) :
    iretBy .d32 s = iretV86 t := by
  have himage : returnsToV86 .d32 s = .ok true t := by
    unfold returnsToV86
    rw [M_get_bind, if_pos ⟨rfl, hc⟩, M_bind_ok (stackRead_run h)]
    exact congrArg (EStateM.Result.ok · t) hm
  rw [iretBy_stack hp hn, iretStack, M_get_bind, M_bind_ok himage, if_pos rfl]

variable {fl : Dword}
  (h₀ : if w = .d32 ∧ s.cpl = 0 then StackItem s 8 .d32 fl t₀ ∧ fl.getLsbD 17 = false else t₀ = s)
  (h : StackItem t₀ w.bytes .w16 rs t)
include h₀ h

/-- A return that stays out of V86 mode goes by the RPL of its selector. -/
theorem iretBy_stay : iretBy w s = (do
    when (selRpl rs < s.cpl) (raiseSel 13 rs false)
    if s.cpl < selRpl rs then iretOuter w rs else iretSame w rs : M Unit) t := by
  rw [iretBy_stack hp hn, iretStack, M_get_bind, M_bind_ok (returnsToV86_run h₀), if_neg Bool.false_ne_true,
    M_bind_ok (stackRead_run h)]

theorem iretBy_inner (hr : selRpl rs < s.cpl) : iretBy w s = .error (faultOf 13 (some (selCode false rs))) t := by
  rw [iretBy_stay hp hn h₀ h, decide_eq_true hr]
  rfl

theorem iretBy_same (hr : selRpl rs = s.cpl) : iretBy w s = iretSame w rs t := by
  rw [iretBy_stay hp hn h₀ h, hr, decide_eq_false (BitVec.lt_irrefl _), when_false, M_pure_bind,
    if_neg (BitVec.lt_irrefl _)]

theorem iretBy_outer (hr : s.cpl < selRpl rs) : iretBy w s = iretOuter w rs t := by
  rw [iretBy_stay hp hn h₀ h, decide_eq_false (BitVec.not_lt.2 (BitVec.le_of_lt hr)), when_false, M_pure_bind, if_pos hr]

end

theorem returnsToV86_touched {fl : Dword}
    (h : if w = .d32 ∧ s.cpl = 0 then StackItem s 8 .d32 fl t₀ ∧ fl.getLsbD 17 = false else t₀ = s) : s.Touched t₀ := by
  split at h
  · exact h.1.touched
  · exact h ▸ .refl s

/-! ### To V86 mode (R644) -/

theorem low16_eq (v : Dword) : v.extractLsb' 0 16 = v.setWidth 16 := BitVec.eq_of_toNat_eq (by simp)

/-- The state that a return to V86 mode leaves: its nine items, read in turn (R644). -/
theorem iretV86_run {off csv fl nsp nss es ds fs gs : Dword} (hp : s.pe = true) (hc : s.cpl = 0)
    (ht : s.topOk 36 = true)
    (h : StackItems .d32 s [0, 4, 8, 12, 16, 20, 24, 28, 32] [off, csv, fl, nsp, nss, es, ds, fs, gs] t)
    (ho : off.toNat ≤ 0xFFFF) : iretV86 s = .ok () { t with
      eflags := (t.eflags &&& ~~~0x37FD5) ||| (fl &&& 0x37FD5)
      cpl := 3
      cs := SegReg.loadV86 (csv.setWidth 16) true
      ss := SegReg.loadV86 (nss.setWidth 16) false
      es := SegReg.loadV86 (es.setWidth 16) false
      ds := SegReg.loadV86 (ds.setWidth 16) false
      fs := SegReg.loadV86 (fs.setWidth 16) false
      gs := SegReg.loadV86 (gs.setWidth 16) false
      eip := off
      regs := { t.regs with esp := nsp } } := by
  obtain _ | ⟨h0, _ | ⟨h1, _ | ⟨h2, _ | ⟨h3, _ | ⟨h4, _ | ⟨h5, _ | ⟨h6, _ | ⟨h7, _ | ⟨h8, _ | _⟩⟩⟩⟩⟩⟩⟩⟩⟩ := h
  have hl : decide (0xFFFF < off.toNat) = false := decide_eq_false (Nat.not_lt.2 ho)
  unfold iretV86
  rw [M_get_bind, M_bind_ok (stackTop_run ht), M_bind_ok (stackRead_run h0), M_bind_ok (stackRead_run h1),
    M_bind_ok (stackRead_run h2), M_bind_ok (stackRead_run h3), M_bind_ok (stackRead_run h4), M_bind_ok (stackRead_run h5),
    M_bind_ok (stackRead_run h6), M_bind_ok (stackRead_run h7), M_bind_ok (stackRead_run h8), hl, when_false, M_pure_bind,
    iretMask_cpl0 hp hc]
  simp only [low16_eq]
  rfl

/-! ### To the same level (R642) -/

section
variable (ht : s.topOk (3 * w.bytes) = true)
include ht

theorem iretSame_refused (h : returnCode rs s.cpl s = .error x t) : iretSame w rs s = .error x t := by
  unfold iretSame
  rw [M_get_bind, M_bind_ok (stackTop_run ht)]
  exact M_bind_error h

theorem iretSame_run {off fl : BitVec w.bits} (h : returnCode rs s.cpl s = .ok d t) (h₀ : StackItem t 0 w off u)
    (hl : inLimit (d.toSeg rs) (off.setWidth 32) 1 = true) (h₂ : StackItem u (2 * w.bytes) w fl v)
    (ha : setAccessed rs d v = .ok () z) : iretSame w rs s = .ok () (
      let y := ({ z.inCode rs d s.cpl (off.setWidth 32) with
        eflags := (z.eflags &&& ~~~s.stayMask w) ||| (fl.setWidth 32 &&& s.stayMask w) } : State)
      y.setEsp (y.esp + BitVec.ofNat 32 (3 * w.bytes))) := by
  unfold iretSame
  rw [M_get_bind, M_bind_ok (stackTop_run ht), M_bind_ok h, M_bind_ok (stackRead_run h₀), M_bind_ok (checkTarget_run hl),
    M_bind_ok (stackRead_run h₂), M_bind_ok (setCS_run ha), M_modify_bind]
  rfl

end

/-- The frame of a return to the same level does not lie within the stack. -/
theorem iretSame_noFrame (ht : s.topOk (3 * w.bytes) = false) (hr : s.ss.valid = true → s.ss.readable = true) :
    iretSame w rs s = .error (faultOf 12 (some 0)) s := by
  unfold iretSame
  rw [M_get_bind]
  exact M_bind_error (stackTop_error ht hr)

end Sys2Proof.Machine
end

section
/-! O30: IRET and IRETD. -/

namespace Sys2Proof.Machine

/-- Settles O30: IRET goes by mode, NT and the image; what it has read by then changes none of them. -/
theorem interruptReturn : Obligations.InterruptReturn := by
  refine ⟨fun s w k => ⟨?_, stayMask_bit s w k⟩, fun s i hi hv hio => ?_,
    fun s fl' t₀ t off csv fl nsp nss es ds fs gs hp hn hc h₀ hm ht h ho => ?_,
    fun s i w hi hm off csv fl t u v h0 h1 h2 hl => exec_iret_ok hi ((iretBy_real (s := s.unmasked) hm).trans
      (iretReal_run (s := s.unmasked) h0 h1 h2 hl)),
    fun s i w hi hp hn fl' rs t₀ t h₀ h => ?_,
    fun s i w hi hp hn fl' rs off fl t₀ t t₁ u v z d h₀ h hr hnull ht hd hk h0 hl h2 ha => ?_⟩
  · rw [Bool.eq_iff_iff, iretMask_iff, decide_eq_true_eq]
  · obtain ⟨w, hw⟩ := iret_width hi
    exact exec_iret_error hw (iretBy_v86_error (s := s.unmasked) hv hio)
  · have hcr : t₀.prot = true := h₀.touched.prot.trans hp
    have hcpl : t₀.cpl = 0 := h₀.touched.cpl.trans hc
    exact exec_iret_ok (.inr ⟨rfl, rfl⟩) ((iretBy_toV86 (s := s.unmasked) hp hn hc h₀ hm).trans
      (iretV86_run (State.pe_of_prot hcr) hcpl ht h ho))
  · have hcpl : t.cpl = s.cpl := ((returnsToV86_touched (s := s.unmasked) h₀).trans h.touched).cpl
    have same {x u} (hr : selRpl rs = s.cpl) (he : iretSame w rs t = .error x u) : exec i s = .next (abandon s x u) :=
      exec_iret_error hi ((iretBy_same (s := s.unmasked) hp hn h₀ h hr).trans he)
    refine ⟨fun hr => exec_iret_error hi (iretBy_inner (s := s.unmasked) hp hn h₀ h hr), fun hr => ⟨fun ht hss => ?_,
      fun ht => ⟨fun hnull => ?_, fun x u hnull hf => ?_⟩⟩⟩
    · exact same hr (iretSame_noFrame ht hss)
    · exact same hr (iretSame_refused ht (returnCode_null hnull))
    · exact same hr (iretSame_refused ht (returnCode_refused hnull (hcpl ▸ hf)))
  · have htouched := (returnsToV86_touched (s := s.unmasked) h₀).trans h.touched
    have hcpl : t.cpl = s.cpl := htouched.cpl
    have hmask : t.stayMask w = s.stayMask w := htouched.stayMask w
    rw [← hcpl] at hk
    rw [← hcpl, ← hmask]
    exact exec_iret_ok hi ((iretBy_same (s := s.unmasked) hp hn h₀ h hr).trans
      (iretSame_run ht (returnCode_run hnull hd hk) h0 hl h2 ha))

end Sys2Proof.Machine
end

section
/-! SUPPORT. Far RET and IRET to an outer level (R613, R643), and CALL through a gate to an inner one (R607). -/

namespace Sys2Proof.Machine

variable {s t u v z x₁ x₂ x₃ x₄ t₁ t₂ t₃ t₄ t₅ t₆ t₇ t₈ : State} {w : Width} {rs nss : Word} {x : Exc} {d sd c g : Desc}

/-! ### The frame of a return to an outer level -/

/-- What a return to an outer level reads before its target: frame, code segment and stack pointer, whose items lie at `k₁`
and `k₂`, and stack segment (R613, R643). -/
def outerFrame {β : Type} (w : Width) (frame k₁ k₂ : Nat) (rs : Word) (f : Desc → BitVec w.bits → Word → Desc → M β) :
    M β := do
  stackTop frame
  let c ← returnCode rs (selRpl rs)
  let nsp ← stackRead k₁ w
  let nss ← stackRead k₂ .w16
  let sd ← returnStack nss (selRpl rs)
  f c nsp nss sd

/-- RETURN-OUTER-LEVEL once its frame has been read, begun in `s` (R643). -/
def iretOuterTo (s : State) (w : Width) (rs : Word) (c : Desc) (nsp : BitVec w.bits) (nss : Word) (sd : Desc) : M Unit := do
  let off ← stackRead 0 w
  let off : Dword := BitVec.setWidth 32 off
  checkTarget c rs off
  let fl ← stackRead (2 * w.bytes) w
  setCS rs c (selRpl rs)
  modify fun t => { t.putFlags (s.stayMask w) (BitVec.setWidth 32 fl) with eip := off }
  returnSP nss sd w (BitVec.setWidth 32 nsp)
  modify fun t => t.invalidateDataSegs (selRpl rs)

/-- RET far to an outer level once its frame has been read (R613). -/
def retOuterTo (w : Width) (imm : Dword) (rs : Word) (c : Desc) (nsp : BitVec w.bits) (nss : Word) (sd : Desc) : M Unit := do
  let off ← stackRead 0 w
  let off : Dword := BitVec.setWidth 32 off
  checkTarget c rs off
  enterCode rs c (selRpl rs) off
  returnSP nss sd w (BitVec.setWidth 32 nsp + imm)
  modify fun s => s.invalidateDataSegs (selRpl rs)

theorem iretOuter_eq (w : Width) (rs : Word) (s : State) :
    iretOuter w rs s = outerFrame w (5 * w.bytes) (3 * w.bytes) (4 * w.bytes) rs (iretOuterTo s w rs) s := rfl

theorem retOuter_eq (w : Width) (imm : Dword) (rs : Word) (s : State) : retOuter w imm rs s =
    outerFrame w (4 * w.bytes + imm.toNat) (2 * w.bytes + imm.toNat) (3 * w.bytes + imm.toNat) rs (retOuterTo w imm rs) s :=
  rfl

theorem returnStack_null {cpl : BitVec 2} (hn : nullSel nss = true) :
    returnStack nss cpl s = .error (faultOf 13 (some 0)) s := by
  unfold returnStack
  rw [hn]
  rfl

theorem returnStack_run {cpl : BitVec 2} (hn : nullSel nss = false) (h : fetchDesc nss s = .ok (some sd) t)
    (hr : selRpl nss = cpl) (hw : sd.writableData = true) (hd : sd.dpl = cpl) (hp : sd.p = true) :
    returnStack nss cpl s = .ok sd t := by
  unfold returnStack
  rw [hn, when_false, M_pure_bind]
  exact checkStackSeg_run h (by simp [Desc.stackFaults, firstFault, hr, hw, hd, hp])

section
variable {β : Type} {frame k₁ k₂ : Nat} {f : Desc → BitVec w.bits → Word → Desc → M β}

theorem outerFrame_beyond (ht : s.topOk frame = false) (hr : s.ss.valid = true → s.ss.readable = true) :
    outerFrame w frame k₁ k₂ rs f s = .error (faultOf 12 (some 0)) s := M_bind_error (stackTop_error ht hr)

variable (ht : s.topOk frame = true)
include ht

theorem outerFrame_code (h : returnCode rs (selRpl rs) s = .error x t) :
    outerFrame w frame k₁ k₂ rs f s = .error x t := (M_bind_ok (stackTop_run ht)).trans (M_bind_error h)

variable {nsp : BitVec w.bits} (hc : returnCode rs (selRpl rs) s = .ok d t₁) (h₁ : StackItem t₁ k₁ w nsp t₂)
  (h₂ : StackItem t₂ k₂ .w16 nss t₃)
include hc h₁ h₂

theorem outerFrame_read : outerFrame w frame k₁ k₂ rs f s = (returnStack nss (selRpl rs) >>= f d nsp nss) t₃ := by
  unfold outerFrame
  rw [M_bind_ok (stackTop_run ht), M_bind_ok hc, M_bind_ok (stackRead_run h₁), M_bind_ok (stackRead_run h₂)]

theorem outerFrame_stack (h : returnStack nss (selRpl rs) t₃ = .error x u) :
    outerFrame w frame k₁ k₂ rs f s = .error x u := (outerFrame_read ht hc h₁ h₂).trans (M_bind_error h)

theorem outerFrame_run (h : returnStack nss (selRpl rs) t₃ = .ok sd t₄) :
    outerFrame w frame k₁ k₂ rs f s = f d nsp nss sd t₄ := (outerFrame_read ht hc h₁ h₂).trans (M_bind_ok h)

end

/-- RET far by a selector of an outer level (R613). -/
theorem retProt_outer {imm : Dword} (h : StackItem s w.bytes .w16 rs t) (hr : s.cpl < selRpl rs) :
    retProt w imm s = retOuter w imm rs t := by
  unfold retProt
  rw [M_get_bind, M_bind_ok (stackRead_run h), decide_eq_false (BitVec.not_lt.2 (BitVec.le_of_lt hr)), when_false,
    M_pure_bind, if_pos hr]

/-! ### What a return to an outer level leaves -/

section
variable {off nsp : BitVec w.bits} (h₀ : StackItem t 0 w off t₅) (hl : inLimit (d.toSeg rs) (off.setWidth 32) 1 = true)
include h₀ hl

theorem iretOuterTo_run {fl : BitVec w.bits} (h₂ : StackItem t₅ (2 * w.bytes) w fl t₆)
    (ha : setAccessed rs d t₆ = .ok () t₇)
    (hs : setAccessed nss sd { t₇.inCode rs d (selRpl rs) (off.setWidth 32) with
      eflags := (t₇.eflags &&& ~~~s.stayMask w) ||| (fl.setWidth 32 &&& s.stayMask w) } = .ok () t₈) :
    iretOuterTo s w rs d nsp nss sd t = .ok ()
      (let y : State := { t₈ with ss := sd.toSeg nss }
       (if w = .d32 then y.setReg .d32 .esp (nsp.setWidth 32) else y.setReg .w16 .esp (nsp.setWidth 16)).invalidateDataSegs
         (selRpl rs)) := by
  unfold iretOuterTo
  rw [M_bind_ok (stackRead_run h₀), M_bind_ok (checkTarget_run hl), M_bind_ok (stackRead_run h₂), M_bind_ok (setCS_run ha),
    M_modify_bind]
  refine (M_bind_ok (returnSP_run (w := w) hs)).trans ?_
  rw [BitVec.setWidth_setWidth_of_le _ (by decide)]
  rfl

theorem retOuterTo_run {imm : Dword} (ha : setAccessed rs d t₅ = .ok () t₆)
    (hs : setAccessed nss sd (t₆.inCode rs d (selRpl rs) (off.setWidth 32)) = .ok () t₇) :
    retOuterTo w imm rs d nsp nss sd t = .ok ()
      (let y : State := { t₇ with ss := sd.toSeg nss }
       let newSp := nsp.setWidth 32 + imm
       (if w = .d32 then y.setReg .d32 .esp newSp else y.setReg .w16 .esp (newSp.setWidth 16)).invalidateDataSegs
         (selRpl rs)) := by
  unfold retOuterTo
  rw [M_bind_ok (stackRead_run h₀), M_bind_ok (checkTarget_run hl), M_bind_ok (enterCode_run ha)]
  exact M_bind_ok (returnSP_run (w := w) hs)

end

/-! ### CALL to an inner level (R606, R607) -/

/-- The parameters are the items from eSP on. -/
theorem readParams_run : ∀ (n k : Nat) (s : State) (ps : List (BitVec w.bits)),
    StackItems w s ((List.range n).map fun j => k + j * w.bytes) ps t → readParams w k n s = .ok ps t
  | 0, k, s, ps, h => by
    cases h
    rfl
  | n + 1, k, s, ps, h => by
    rw [List.range_succ_eq_map, List.map_cons, List.map_map] at h
    cases h with
    | cons h hs =>
      have hk (j : Nat) : k + (j + 1) * w.bytes = k + w.bytes + j * w.bytes := by ring
      rw [Nat.zero_mul, Nat.add_zero] at h
      simp only [Function.comp_def, Nat.succ_eq_add_one, hk] at hs
      unfold readParams
      rw [M_bind_ok (stackRead_run h), M_bind_ok (readParams_run n _ _ _ hs)]
      rfl

section
variable {sel : Word} (h1 : s.cpl ≤ g.dpl) (h2 : selRpl sel ≤ g.dpl) (h3 : g.p = true) (hn : nullSel g.gateSel = false)
  (hd : fetchDesc g.gateSel s = .ok (some c) t) (hc : c.isCode = true) (hp : c.p = true) (hk : c.conforming = false)
  (hi : c.dpl < s.cpl)
include h1 h2 h3 hn hd hc hp hk hi

/-- A nonconforming code segment of an inner level is called on its own stack. -/
theorem callGate_inner : callGate sel g s =
    callInner (sizeW (g.typ.getLsbD 3)) g g.gateSel c (g.gateOffset (g.typ.getLsbD 3)) t := by
  have e1 : decide (s.cpl < c.dpl) = false := decide_eq_false (BitVec.not_lt.2 (BitVec.le_of_lt hi))
  have e2 : (!c.conforming && decide (c.dpl < s.cpl)) = true := by rw [hk, decide_eq_true hi]; rfl
  unfold callGate
  rw [M_bind_ok (checkGate_run h1 h2 h3)]
  dsimp only
  rw [hn, when_false, M_pure_bind, M_bind_ok (fetchDescOr_run hd), M_get_bind, fetchDesc_cpl hd, hc, Bool.not_true,
    when_false, M_pure_bind, e1, when_false, M_pure_bind, hp, Bool.not_true, when_false, M_pure_bind, e2, if_pos rfl]

end

section
variable {cs ssel : Word} {off sp : Dword}

theorem callInner_stack (h : innerStackSeg false c.dpl s = .error x t) : callInner w g cs c off s = .error x t :=
  (M_get_bind _ s).trans (M_bind_error h)

variable (hs : innerStackSeg false c.dpl s = .ok (ssel, sd, sp) x₁)
include hs

theorem callInner_room (h : newStackRoom ssel sd sp ((g.gateCount + 4) * w.bytes) x₁ = .error x t) :
    callInner w g cs c off s = .error x t := (M_get_bind _ s).trans ((M_bind_ok hs).trans (M_bind_error h))

theorem callInner_run {ps : List (BitVec w.bits)} (hw : w ≠ .b8) (hl : inLimit (c.toSeg cs) off 1 = true)
    (hr : newStackRoom ssel sd sp ((g.gateCount + 4) * w.bytes) x₁ = .ok () x₂)
    (hps : readParams w 0 g.gateCount x₂ = .ok ps x₃) (hsw : switchStack ssel sd sp x₃ = .ok () x₄)
    (hi : Items false w { x₄ with cpl := c.dpl } ([.sel s.ss.sel, .val s.regs.esp] ++
      (ps.reverse.map fun p => .val (p.setWidth 32)) ++ [.sel s.cs.sel, .val s.nextEip]) z)
    (ha : setAccessed cs c z = .ok () v) : callInner w g cs c off s = .ok () (v.inCode cs c c.dpl off) := by
  unfold callInner
  rw [M_get_bind]
  refine (M_bind_ok hs).trans ?_
  dsimp only
  rw [M_bind_ok hr, M_bind_ok (checkTarget_run hl), M_bind_ok hps, M_bind_ok hsw, M_modify_bind]
  obtain ⟨_, e1, hi⟩ := pushSel_bind hi
  refine e1.trans ?_
  obtain ⟨_, e2, hi⟩ := pushVal_bind hi
  refine e2.trans ?_
  obtain ⟨_, e3, hi⟩ := pushParams_run hw ps _ _ _ hi
  rw [M_bind_ok e3, M_bind_ok (pushReturn_run hi)]
  exact enterCode_run ha

end

theorem sizeW_ne_byte (is32 : Bool) : sizeW is32 ≠ .b8 := by cases is32 <;> decide

/-- What a far CALL through a call gate to an inner level comes to. -/
theorem callProt_inner {sel : Word} {off : Dword} (hn : nullSel sel = false) (hd : fetchDesc sel s = .ok (some g) t)
    (hg : g.isCallGate = true) (h1 : s.cpl ≤ g.dpl) (h2 : selRpl sel ≤ g.dpl) (h3 : g.p = true)
    (hgn : nullSel g.gateSel = false) (hgd : fetchDesc g.gateSel t = .ok (some c) u) (hc : c.isCode = true)
    (hp : c.p = true) (hk : c.conforming = false) (hi : c.dpl < s.cpl) : callProt w sel off s = (do
      callInner (sizeW (g.typ.getLsbD 3)) g g.gateSel c (g.gateOffset (g.typ.getLsbD 3)); pure .went : M Done) u := by
  rw [← fetchDesc_cpl hd] at h1 hi
  rw [callProt_callGate hn hd hg]
  exact M_bind_congr _ (callGate_inner h1 h2 h3 hgn hgd hc hp hk hi)

end Sys2Proof.Machine
end

section
/-! O46: far transfers across privilege levels. -/

namespace Sys2Proof.Machine

/-- Settles O46: RET and IRET to an outer level read one frame; CALL through a gate to an inner level is `callInner`. -/
theorem farTransferAcrossLevels : Obligations.FarTransferAcrossLevels := by
  refine ⟨fun s t w n ps h => readParams_run n 0 s ps (by simpa only [Nat.zero_add] using h),
    fun s f w sel off t u v g c hp hf hn hd hg h1 h2 h3 hgn hgd hc hcp hk hi => ?_,
    fun s i w fl' rs t₀ t frame sp hp hi h => ?_,
    fun s i w fl' rs nss off fl nsp d sd t₀ t t₁ t₂ t₃ t₄ t₅ t₆ t₇ t₈ hi hp hn h₀ h => ?_,
    fun s f w₀ sel off₀ t u u' g c sd ssel sp hp hf hn hd hg h1 h2 h3 hgn hgd hc hcp hk hi => ?_,
    fun s w n rs nss off nsp d sd t t₁ t₂ t₃ t₄ t₅ t₆ t₇ hp => ?_⟩
  · have hcpl : t.cpl = s.cpl := hf.touched.cpl
    rw [← hcpl] at h1 hi
    have run {x y} (h : callInner (sizeW (g.typ.getLsbD 3)) g g.gateSel c (g.gateOffset (g.typ.getLsbD 3)) v = .error x y) :
        exec (.callFar f) s = .next (abandon s x y) :=
      exec_callFar_error hp hf ((callProt_inner hn hd hg h1 h2 h3 hgn hgd hc hcp hk hi).trans (M_bind_error h))
    exact ⟨fun x y he => run (callInner_stack he), fun ssel sd sp x y z hs he => run (callInner_room hs he)⟩
  · intro cpl hr
    have run : ∃ (f : Desc → BitVec w.bits → Word → Desc → M Unit) (k₁ k₂ : Nat), k₁ = sp ∧ k₂ = sp + w.bytes ∧
        ∀ x u, outerFrame w frame k₁ k₂ rs f t = .error x u → exec i s = .next (abandon s x u) := by
      obtain ⟨hw, hn, rfl, rfl, h₀⟩ | ⟨⟨n, rfl, rfl, rfl⟩, rfl⟩ := hi
      · exact ⟨iretOuterTo t w rs, 3 * w.bytes, 4 * w.bytes, rfl, by omega, fun x u he =>
          exec_iret_error hw ((iretBy_outer (s := s.unmasked) hp hn h₀ h hr).trans he)⟩
      · exact ⟨retOuterTo w (retCount n) rs, 2 * w.bytes + (retCount n).toNat, 3 * w.bytes + (retCount n).toNat, rfl,
          by omega, fun x u he => exec_retFar_prot_error hp ((retProt_outer h hr).trans he)⟩
    obtain ⟨f, _, _, rfl, rfl, run⟩ := run
    refine ⟨fun ht hss => run _ _ (outerFrame_beyond ht hss), fun ht => ⟨fun hnull => ?_, fun x u hnull hf => ?_,
      fun d nsp nss t₁ t₂ t₃ hnull hd hk h₁ h₂ => ⟨fun hsn => ?_, fun x u hsn hf => ?_⟩⟩⟩
    · exact run _ _ (outerFrame_code ht (returnCode_null hnull))
    · exact run _ _ (outerFrame_code ht (returnCode_refused hnull hf))
    · exact run _ _ (outerFrame_stack ht (returnCode_run hnull hd hk) h₁ h₂ (returnStack_null hsn))
    · exact run _ _ (outerFrame_stack ht (returnCode_run hnull hd hk) h₁ h₂ (returnStack_refused hsn hf))
  · intro cpl hr hnull ht hd hk h₁ h₂ hsn hsd hsr hsw hsdpl hsp hoff hl hfl ha hsa
    have hmask : t.stayMask w = s.stayMask w := ((returnsToV86_touched (s := s.unmasked) h₀).trans h.touched).stayMask w
    rw [← hmask] at hsa
    refine exec_iret_ok hi ((iretBy_outer (s := s.unmasked) hp hn h₀ h hr).trans ?_)
    rw [iretOuter_eq, outerFrame_run ht (returnCode_run hnull hd hk) h₁ h₂ (returnStack_run hsn hsd hsr hsw hsdpl hsp)]
    exact iretOuterTo_run hoff hl hfl ha hsa
  · intro is32 w off hl ps x₁ x₂ x₃ x₄ z v hst hroom hps hsw hitems ha
    have hcpl : t.cpl = s.cpl := hf.touched.cpl
    have htouched : s.begun.Touched u' := (hf.fetch_touched hd).trans (fetchDesc_walked hgd).touched
    rw [← hcpl] at h1 hi
    have hitems' : Items false w { x₄ with cpl := c.dpl } ([.sel u'.ss.sel, .val u'.regs.esp] ++
        (ps.reverse.map fun p => .val (p.setWidth 32)) ++ [.sel u'.cs.sel, .val u'.nextEip]) z := by
      obtain ⟨_, _, _, _, _, _, rfl⟩ := htouched
      exact hitems
    exact exec_callFar_ok hp hf ((callProt_inner hn hd hg h1 h2 h3 hgn hgd hc hcp hk hi).trans
      (M_bind_ok (callInner_run hst (sizeW_ne_byte _) hl hroom hps hsw hitems' ha)))
  · intro imm cpl h hr hnull ht hd hk h₁ h₂ hsn hsd hsr hsw hsdpl hsp hoff hl ha hsa
    refine exec_retFar_prot hp ((retProt_outer h hr).trans ?_)
    rw [retOuter_eq, outerFrame_run ht (returnCode_run hnull hd hk) h₁ h₂ (returnStack_run hsn hsd hsr hsw hsdpl hsp)]
    exact retOuterTo_run hoff hl ha hsa

end Sys2Proof.Machine
end

section
/-! SUPPORT. Doublewords in physical memory, byte by byte (R91, R103): what is read at four addresses, and what each byte
reads as after a doubleword is written. -/

namespace Sys2Proof.Machine

variable {s t u : State} {pa v : Dword}

/-! ### Bytes of numbers -/

/-- Byte `j` of a doubleword. -/
def byteAt (v : Dword) (j : Nat) : Byte := v.extractLsb' (8 * j) 8

theorem byteAt_or (v x : Dword) (j : Nat) : byteAt (v ||| x) j = byteAt v j ||| byteAt x j := by
  refine BitVec.eq_of_getLsbD_eq fun i hi => ?_
  simp [byteAt, hi]

theorem getLsbD_byteAt (v : Dword) (j : Nat) {i : Nat} (hi : i < 8) : (byteAt v j).getLsbD i = v.getLsbD (8 * j + i) :=
  field_bit v (8 * j) hi

theorem bytesOf_four (v : Dword) : bytesOf 4 v.toNat = [byteAt v 0, byteAt v 1, byteAt v 2, byteAt v 3] := by
  have h (j m : Nat) (hm : m = v.toNat / 2 ^ (8 * j)) : BitVec.ofNat 8 m = byteAt v j := by
    refine BitVec.eq_of_toNat_eq ?_
    rw [byteAt, field_toNat, BitVec.toNat_ofNat, hm]
  simp only [bytesOf]
  rw [h 0 _ (by simp), h 1 _ (by simp), h 2 _ (by simp [Nat.div_div_eq_div_mul]), h 3 _ (by simp [Nat.div_div_eq_div_mul])]

theorem dwordAt_eq (pa : Dword) : dwordAt pa = (List.range 4).map fun j => (pa + BitVec.ofNat 32 j).toNat := by
  rw [dwordAt, span_eq_map, List.map_map]
  rfl

theorem dwordAt_four (pa : Dword) : dwordAt pa = [(pa + 0#32).toNat, (pa + 1#32).toNat, (pa + 2#32).toNat, (pa + 3#32).toNat] :=
  dwordAt_eq pa

theorem mem_dwordAt {a : Nat} : a ∈ dwordAt pa ↔ ∃ j < 4, a = (pa + BitVec.ofNat 32 j).toNat := by
  simp only [dwordAt_eq, List.mem_map, List.mem_range, eq_comm]

theorem first_mem_dwordAt (pa : Dword) : pa.toNat ∈ dwordAt pa :=
  mem_dwordAt.2 ⟨0, by decide, congrArg BitVec.toNat (BitVec.add_zero pa).symm⟩

theorem dwordAt_lt {a : Nat} (h : a ∈ dwordAt pa) : a < 2 ^ 32 := toNat_span_lt pa 4 a h

/-- The four addresses of a doubleword are different. -/
theorem offset_inj {i j : Nat} (hi : i < 4) (hj : j < 4)
    (h : (pa + BitVec.ofNat 32 i).toNat = (pa + BitVec.ofNat 32 j).toNat) : i = j := by
  simp only [BitVec.toNat_add, BitVec.toNat_ofNat] at h
  have := pa.isLt
  omega

theorem dwordAt_nodup (pa : Dword) : (dwordAt pa).Nodup := by
  rw [dwordAt_eq]
  exact List.Nodup.map_on (fun i hi j hj h => offset_inj (List.mem_range.1 hi) (List.mem_range.1 hj) h) List.nodup_range

/-! ### What is read -/

theorem readByte_mem (s : State) (a : Nat) : (s.readByte a).2.mem = s.mem := by
  obtain ⟨f, d, h⟩ := readByte_frame s a
  rw [h]

theorem readByte_kindAt (s : State) (a b : Nat) : (s.readByte a).2.kindAt b = s.kindAt b := by
  obtain ⟨f, d, h⟩ := readByte_frame s a
  rw [h]
  rfl

/-- Among the bytes of an access, one in RAM reads as memory has it. -/
theorem readBytes_ram {a : Nat} (as : List Nat) (s : State) (j : Nat) (hj : as[j]? = some a) (h : s.kindAt a = .ram) :
    (s.readBytes as).1[j]? = some (s.mem.read a) := by
  induction as generalizing s j with
  | nil => cases hj
  | cons b as ih =>
    cases j with
    | zero =>
      cases hj
      simp [State.readBytes, State.readByte, h]
    | succ j =>
      rw [← readByte_mem s b]
      exact ih (s.readByte b).2 j hj ((readByte_kindAt s b a).trans h)

/-- A byte of a doubleword that lies in RAM. -/
theorem byteAt_physDword {j : Nat} (hj : j < 4) (h : s.kindAt (pa + BitVec.ofNat 32 j).toNat = .ram) :
    byteAt (s.physDword pa) j = s.mem.read (pa + BitVec.ofNat 32 j).toNat := by
  have hlen : (s.readBytes (dwordAt pa)).1.length = 4 := by rw [readBytes_length, dwordAt_four]; rfl
  have hb := bytesOf_natOfBytes (s.readBytes (dwordAt pa)).1
  have hlt := natOfBytes_lt (s.readBytes (dwordAt pa)).1
  rw [hlen] at hb hlt
  have hnat : (s.physDword pa).toNat = natOfBytes (s.readBytes (dwordAt pa)).1 := by
    rw [State.physDword, BitVec.toNat_ofNat]
    exact Nat.mod_eq_of_lt hlt
  have hget : (bytesOf 4 (s.physDword pa).toNat)[j]? = some (byteAt (s.physDword pa) j) := by
    rw [bytesOf_four]
    interval_cases j <;> rfl
  have haddr : (dwordAt pa)[j]? = some (pa + BitVec.ofNat 32 j).toNat := by
    rw [dwordAt_eq, List.getElem?_map, List.getElem?_range hj]
    rfl
  rw [hnat, hb, readBytes_ram _ s j haddr h] at hget
  exact (Option.some.inj hget).symm

/-! ### What is written -/

/-- A byte written among distinct addresses reads as written. -/
theorem Memory.read_writeAll_mem {a : Nat} {b : Byte} : ∀ {l : List (Nat × Byte)} {m : Memory}, m.wf = true →
    (∀ x ∈ l, x.1 < 2 ^ 32) → (l.map (·.1)).Nodup → (a, b) ∈ l → (m.writeAll (l.map (·.1)) (l.map (·.2))).read a = b
  | x :: l, m, hm, hl, hn, hmem => by
    obtain ⟨hx, hn⟩ := List.nodup_cons.1 hn
    have hl' : ∀ y ∈ l, y.1 < 2 ^ 32 := fun y hy => hl y (List.mem_cons_of_mem _ hy)
    have hw := Memory.write_wf (v := x.2) (hl x (List.mem_cons_self ..)) hm
    show ((m.write x.1 x.2).writeAll (l.map (·.1)) (l.map (·.2))).read a = b
    rcases List.mem_cons.1 hmem with rfl | hmem
    · rw [Memory.read_writeAll_other (fun c hc => by obtain ⟨y, hy, rfl⟩ := List.mem_map.1 hc; exact hl' y hy) hw hx]
      exact Memory.read_write_same hm
    · exact Memory.read_writeAll_mem hw hl' hn hmem

/-- A byte that no RAM address of the access is reads as before. -/
theorem storeBytes_other {as : List Nat} {vs : List Byte} {a : Nat} (hw : s.mem.wf = true) (hl : ∀ a ∈ as, a < 2 ^ 32)
    (h : a ∉ as ∨ s.kindAt a ≠ .ram) : (s.storeBytes as vs).mem.read a = s.mem.read a := by
  rw [storeBytes_mem]
  refine Memory.read_writeAll_other (fun b hb => ?_) hw fun hb => ?_
  · obtain ⟨x, hx, rfl⟩ := List.mem_map.1 hb
    exact hl _ (List.of_mem_zip (List.mem_filter.1 hx).1).1
  · obtain ⟨x, hx, rfl⟩ := List.mem_map.1 hb
    obtain ⟨hx, hk⟩ := List.mem_filter.1 hx
    exact h.elim (· (List.of_mem_zip hx).1) (· (eq_of_beq hk))

/-- Byte `j` of a doubleword written to RAM. -/
theorem setPhysDword_read {j : Nat} (hw : s.mem.wf = true) (hj : j < 4)
    (h : s.kindAt (pa + BitVec.ofNat 32 j).toNat = .ram) :
    (s.setPhysDword pa v).mem.read (pa + BitVec.ofNat 32 j).toNat = byteAt v j := by
  have hzip : (dwordAt pa).zip (bytesOf 4 v.toNat) =
      (List.range 4).map fun j => ((pa + BitVec.ofNat 32 j).toNat, byteAt v j) := by
    rw [dwordAt_four, bytesOf_four]
    rfl
  rw [State.setPhysDword, storeBytes_mem]
  refine Memory.read_writeAll_mem hw (fun x hx => ?_) ?_ ?_
  · exact dwordAt_lt (List.of_mem_zip (List.mem_filter.1 hx).1).1
  · refine (List.filter_sublist.map _).nodup ?_
    rw [hzip, List.map_map]
    exact (dwordAt_eq pa) ▸ dwordAt_nodup pa
  · rw [hzip]
    exact List.mem_filter.2 ⟨List.mem_map.2 ⟨j, List.mem_range.2 hj, rfl⟩, beq_iff_eq.2 h⟩

theorem setPhysDword_other {a : Nat} (hw : s.mem.wf = true) (h : a ∉ dwordAt pa ∨ s.kindAt a ≠ .ram) :
    (s.setPhysDword pa v).mem.read a = s.mem.read a := storeBytes_other hw (fun _ => dwordAt_lt) h

theorem setPhysDword_wf (hw : s.mem.wf = true) : (s.setPhysDword pa v).mem.wf = true :=
  storeBytes_wf (fun _ => dwordAt_lt) hw

end Sys2Proof.Machine
end

section
/-! SUPPORT. The walk of the page tables (R225, R251, R858): what it reads, what it marks, and the entry that the TLB takes. -/

namespace Sys2Proof.Machine

variable {s t u : State} {lin : Dword} {w us : Bool}

/-! ### What a walk reads -/

/-- The address of an entry of a page directory or table whose base is the frame of `base` (R225). -/
def tableEntry (base : Dword) (index : BitVec 10) : Dword := (base &&& (0xFFFFF000 : Dword)) + (index.setWidth 32 <<< 2)

/-- The address of the directory entry of `lin`. -/
def State.pdeAddr (s : State) (lin : Dword) : Dword := tableEntry s.cr3 (lin.extractLsb' 22 10)
/-- The directory entry of `lin`, and the state after its read. -/
def State.pde (s : State) (lin : Dword) : Dword := s.physDword (s.pdeAddr lin)
/-- The state after the read of the directory entry. -/
def State.pdeRead (s : State) (lin : Dword) : State := s.afterRead (dwordAt (s.pdeAddr lin))
/-- The address of the table entry of `lin`. -/
def State.pteAddr (s : State) (lin : Dword) : Dword := tableEntry (s.pde lin) (lin.extractLsb' 12 10)
/-- The table entry of `lin`. -/
def State.pte (s : State) (lin : Dword) : Dword := (s.pdeRead lin).physDword (s.pteAddr lin)
/-- The state after the read of the table entry. -/
def State.pteRead (s : State) (lin : Dword) : State := (s.pdeRead lin).afterRead (dwordAt (s.pteAddr lin))

/-- Both entries leave the page to the user (R227). -/
def State.pageUser (s : State) (lin : Dword) : Bool := (s.pde lin).getLsbD 2 && (s.pte lin).getLsbD 2
/-- Both entries leave the page writable for the user (R227). -/
def State.pageWritable (s : State) (lin : Dword) : Bool := (s.pde lin).getLsbD 1 && (s.pte lin).getLsbD 1

/-! ### What a walk marks -/

/-- The doubleword `v` at `pa` rewritten with the bits `x` set, when `b` holds. -/
def State.markIf (s : State) (b : Bool) (pa v x : Dword) : State := if b then s.setPhysDword pa (v ||| x) else s

/-- The accessed bit of a table entry, and the dirty bit for a write (R226). -/
def pteMark (w : Bool) : Dword := 0x20 ||| (if w then 0x40 else 0)

/-- The state after the accessed and dirty bits are set (R226). -/
def State.pageMarked (s : State) (lin : Dword) (w : Bool) : State :=
  ((s.pteRead lin).markIf (!(s.pde lin).getLsbD 5) (s.pdeAddr lin) (s.pde lin) 0x20).markIf
    (!(s.pte lin).getLsbD 5 || (w && !(s.pte lin).getLsbD 6)) (s.pteAddr lin) (s.pte lin) (pteMark w)

/-- The entry that the TLB takes (R251). -/
def State.pageEntry (s : State) (lin : Dword) (w : Bool) : TlbEntry :=
  { lin := lin.extractLsb' 12 20, v := true, d := (s.pte lin).getLsbD 6 || w, u := s.pageUser lin, w := s.pageWritable lin,
    phys := (s.pte lin).extractLsb' 12 20 }

/-! ### The page fault (R858) -/

/-- The error code of a page fault: its upper bits are free. -/
def State.pageCode (s : State) (p w : Bool) : Word :=
  ((Config.freeBits s.free &&& 0xFFF8) |||
    ((if s.user then 4 else 0) + (if w then 2 else 0) + (if p then 1 else 0) : Dword)).setWidth 16

theorem pageFault_run {α : Type} (p w : Bool) (s : State) : (pageFault lin p w : M α) s =
    .error (faultOf 14 (some (s.pageCode p w))) { s with cr2 := lin, free := s.free + 1 } := rfl

/-- Bits 2:0 of the code say present, write, user. -/
theorem pageCode_bits (s : State) (p w : Bool) : (s.pageCode p w).getLsbD 0 = p ∧ (s.pageCode p w).getLsbD 1 = w ∧
    (s.pageCode p w).getLsbD 2 = s.user := by
  unfold State.pageCode
  generalize s.user = user
  cases p <;> cases w <;> cases user <;> simp

/-! ### The walk -/

theorem when_modify (b : Bool) (f : State → State) (s : State) :
    when b (modify f) s = .ok () (if b then f s else s) := by
  cases b <;> rfl

theorem walkTables_noPde {o : Option Nat} (h : (s.pde lin).getLsbD 0 = false) : walkTables lin w us o s =
    .error (faultOf 14 (some ((s.pdeRead lin).pageCode false w)))
      { s.pdeRead lin with cr2 := lin, free := (s.pdeRead lin).free + 1 } := by
  unfold walkTables
  rw [M_get_bind]
  refine (M_bind_ok (physRead32_run (s.pdeAddr lin) s)).trans (M_bind_error ?_)
  have hb : (!bitOf (s.physDword (s.pdeAddr lin)) 0) = true := congrArg (!·) h
  rw [hb, when_true]
  exact pageFault_run false w (s.pdeRead lin)

section
variable {o : Option Nat} (hd : (s.pde lin).getLsbD 0 = true)
include hd

/-- Where the directory entry is present the table entry is read. -/
theorem walkTables_pte : walkTables lin w us o s = (do
    when (!(s.pte lin).getLsbD 0) (pageFault lin false w)
    when (us && !s.pageUser lin) (pageFault lin true w)
    when (us && w && !s.pageWritable lin) (pageFault lin true w)
    when (!(s.pde lin).getLsbD 5) (physWrite32 (s.pdeAddr lin) (s.pde lin ||| 0x20))
    when (!(s.pte lin).getLsbD 5 || (w && !(s.pte lin).getLsbD 6)) (physWrite32 (s.pteAddr lin) (s.pte lin ||| pteMark w))
    let b ← freshBlock o
    modify fun t => { t with tlb := t.tlb.set (tlbIndex lin b) (s.pageEntry lin w) }
    pure ((s.pte lin).extractLsb' 12 20 ++ lin.extractLsb' 0 12) : M Dword) (s.pteRead lin) := by
  have hb : (!bitOf (s.physDword (s.pdeAddr lin)) 0) = false := congrArg (!·) hd
  have hm : s.pte lin ||| pteMark w = s.pte lin ||| 0x20 ||| (if w then 0x40 else 0) := (BitVec.or_assoc ..).symm
  rw [hm]
  unfold walkTables
  rw [M_get_bind]
  refine (M_bind_ok (physRead32_run (s.pdeAddr lin) s)).trans ?_
  rw [hb, when_false, M_pure_bind]
  exact M_bind_ok (physRead32_run (s.pteAddr lin) (s.pdeRead lin))

theorem walkTables_noPte (h : (s.pte lin).getLsbD 0 = false) : walkTables lin w us o s =
    .error (faultOf 14 (some ((s.pteRead lin).pageCode false w)))
      { s.pteRead lin with cr2 := lin, free := (s.pteRead lin).free + 1 } := by
  rw [walkTables_pte hd, h, Bool.not_false, when_true]
  exact M_bind_error (pageFault_run false w (s.pteRead lin))

variable (hp : (s.pte lin).getLsbD 0 = true)
include hp

theorem walkTables_denied (hu : us = true) (h : s.pageUser lin = false ∨ (w = true ∧ s.pageWritable lin = false)) :
    walkTables lin w us o s = .error (faultOf 14 (some ((s.pteRead lin).pageCode true w)))
      { s.pteRead lin with cr2 := lin, free := (s.pteRead lin).free + 1 } := by
  rw [walkTables_pte hd, hp, hu, Bool.not_true, when_false, M_pure_bind]
  cases hpu : s.pageUser lin
  · rw [Bool.not_false, Bool.and_self, when_true]
    exact M_bind_error (pageFault_run true w (s.pteRead lin))
  · obtain h | ⟨hw, h⟩ := h
    · exact absurd (hpu.symm.trans h) (by decide)
    · rw [Bool.not_true, Bool.and_false, when_false, M_pure_bind, h, hw, Bool.not_false, Bool.and_self, Bool.and_self,
        when_true]
      exact M_bind_error (pageFault_run true true (s.pteRead lin))

theorem walkTables_run {b : Nat} (h : us = false ∨ (s.pageUser lin = true ∧ (w = false ∨ s.pageWritable lin = true)))
    (hb : freshBlock o (s.pageMarked lin w) = .ok b t) :
    walkTables lin w us o s = .ok ((s.pte lin).extractLsb' 12 20 ++ lin.extractLsb' 0 12)
      { t with tlb := t.tlb.set (tlbIndex lin b) (s.pageEntry lin w) } := by
  have e1 : (us && !s.pageUser lin) = false := by rcases h with h | ⟨h, -⟩ <;> simp [h]
  have e2 : (us && w && !s.pageWritable lin) = false := by rcases h with h | ⟨-, h | h⟩ <;> simp [h]
  rw [walkTables_pte hd, hp, Bool.not_true, when_false, M_pure_bind, e1, when_false, M_pure_bind, e2, when_false,
    M_pure_bind]
  unfold physWrite32
  rw [M_bind_ok (when_modify ..), M_bind_ok (when_modify ..)]
  exact M_bind_ok hb

end

/-- A walk fails by a page fault, or it marks the entries. -/
theorem walkTables_ok {o : Option Nat} {a : Dword} (h : walkTables lin w us o s = .ok a t) :
    ∃ b t', freshBlock o (s.pageMarked lin w) = .ok b t' ∧
      t = { t' with tlb := t'.tlb.set (tlbIndex lin b) (s.pageEntry lin w) } := by
  obtain ⟨b, t', hb⟩ : ∃ b t', freshBlock o (s.pageMarked lin w) = .ok b t' := by
    cases o <;> exact ⟨_, _, rfl⟩
  cases hd : (s.pde lin).getLsbD 0
  · rw [walkTables_noPde hd] at h
    cases h
  cases hp : (s.pte lin).getLsbD 0
  · rw [walkTables_noPte hd hp] at h
    cases h
  by_cases ha : us = false ∨ (s.pageUser lin = true ∧ (w = false ∨ s.pageWritable lin = true))
  · rw [walkTables_run hd hp ha hb] at h
    cases h
    exact ⟨b, t', hb, rfl⟩
  · have hden : us = true ∧ (s.pageUser lin = false ∨ (w = true ∧ s.pageWritable lin = false)) := by
      revert ha
      cases us <;> cases s.pageUser lin <;> cases w <;> cases s.pageWritable lin <;> simp
    rw [walkTables_denied hd hp hden.1 hden.2] at h
    cases h

/-! ### What marking changes in memory (R226) -/

theorem markIf_wf {b : Bool} {pa v x : Dword} (hw : s.mem.wf = true) : (s.markIf b pa v x).mem.wf = true := by
  unfold State.markIf
  split
  · exact setPhysDword_wf hw
  · exact hw

theorem markIf_kindAt (b : Bool) (pa v x : Dword) (a : Nat) : (s.markIf b pa v x).kindAt a = s.kindAt a := by
  unfold State.markIf State.kindAt State.setPhysDword
  split
  · rw [State.storeBytes_platform]
  · rfl

/-- `v` is the doubleword at `pa` of memory `m`, as far as it lies in RAM. -/
def State.Holds (s : State) (m : Memory) (pa v : Dword) : Prop :=
  ∀ j < 4, s.kindAt (pa + BitVec.ofNat 32 j).toNat = .ram → byteAt v j = m.read (pa + BitVec.ofNat 32 j).toNat

section
variable {b : Bool} {pa v x : Dword} {m : Memory} (hw : s.mem.wf = true) (hv : s.Holds m pa v)
include hw hv

/-- Every byte after a marking: the lowest of the doubleword has the mark, the others are as they were read. -/
theorem markIf_read (hx : ∀ j < 4, j ≠ 0 → byteAt x j = 0#8) (a : Nat) : (s.markIf b pa v x).mem.read a = s.mem.read a ∨
    (a ∈ dwordAt pa ∧ a ≠ pa.toNat ∧ (s.markIf b pa v x).mem.read a = m.read a) ∨
      (a = pa.toNat ∧ (s.markIf b pa v x).mem.read a = m.read a ||| byteAt x 0) := by
  unfold State.markIf
  split
  · by_cases ha : a ∈ dwordAt pa ∧ s.kindAt a = .ram
    · obtain ⟨hmem, hk⟩ := ha
      obtain ⟨j, hj, rfl⟩ := mem_dwordAt.1 hmem
      have hread := setPhysDword_read (v := v ||| x) hw hj hk
      rw [byteAt_or, hv j hj hk] at hread
      by_cases h0 : j = 0
      · subst h0
        exact .inr (.inr ⟨congrArg BitVec.toNat (BitVec.add_zero pa), hread⟩)
      · rw [hx j hj h0, BitVec.or_zero] at hread
        refine .inr (.inl ⟨hmem, fun h => h0 (offset_inj (pa := pa) hj (by decide) ?_), hread⟩)
        exact h.trans (congrArg BitVec.toNat (BitVec.add_zero pa).symm)
    · refine .inl (setPhysDword_other hw ?_)
      by_cases hmem : a ∈ dwordAt pa
      · exact .inr fun hk => ha ⟨hmem, hk⟩
      · exact .inl hmem
  · exact .inl rfl

/-- The lowest byte of a doubleword in RAM has the mark. -/
theorem markIf_low (hb : b = true) (hk : s.kindAt pa.toNat = .ram) :
    (s.markIf b pa v x).mem.read pa.toNat = m.read pa.toNat ||| byteAt x 0 := by
  have h0 : (pa + BitVec.ofNat 32 0).toNat = pa.toNat := congrArg BitVec.toNat (BitVec.add_zero pa)
  have hread := setPhysDword_read (pa := pa) (v := v ||| x) (j := 0) hw (by decide) (by rwa [h0])
  rw [byteAt_or, hv 0 (by decide) (by rwa [h0]), h0] at hread
  rw [State.markIf, if_pos hb]
  exact hread

end

/-- The address of an entry is a multiple of 4. -/
theorem tableEntry_aligned (base : Dword) (index : BitVec 10) : (tableEntry base index).toNat % 4 = 0 := by
  have hmask : (base &&& 0xFFFFF000).toNat = base.toNat / 2 ^ 12 * 2 ^ 12 := maskHigh_toNat (k := 12) (by decide) base
  rw [tableEntry, BitVec.toNat_add, hmask, BitVec.toNat_shiftLeft, BitVec.toNat_setWidth, Nat.shiftLeft_eq]
  omega

end Sys2Proof.Machine
end

section
/-! SUPPORT. What marking a page changes (R226): the accessed and dirty bits in the lowest bytes of the two entries, and no
other byte. -/

namespace Sys2Proof.Machine

variable {s t u : State} {lin : Dword} {w us : Bool}

/-! ### The two entries, as memory holds them -/

theorem afterRead_kindAt (as : List Nat) (a : Nat) : (s.afterRead as).kindAt a = s.kindAt a := by
  unfold State.kindAt
  rw [State.afterRead_platform]

theorem pteRead_mem : (s.pteRead lin).mem = s.mem := by
  rw [State.pteRead, State.afterRead_mem, State.pdeRead, State.afterRead_mem]

theorem pteRead_kindAt (a : Nat) : (s.pteRead lin).kindAt a = s.kindAt a :=
  (afterRead_kindAt ..).trans (afterRead_kindAt ..)

theorem pde_holds : s.Holds s.mem (s.pdeAddr lin) (s.pde lin) := fun _ hj h => byteAt_physDword hj h

theorem pte_holds : s.Holds s.mem (s.pteAddr lin) (s.pte lin) := fun _ hj h =>
  (byteAt_physDword hj ((afterRead_kindAt ..).trans h)).trans (congrArg (Memory.read · _) (State.afterRead_mem ..))

/-- The state after the accessed bit of the directory entry is set. -/
def State.pdeMarked (s : State) (lin : Dword) : State :=
  (s.pteRead lin).markIf (!(s.pde lin).getLsbD 5) (s.pdeAddr lin) (s.pde lin) 0x20

theorem pageMarked_eq : s.pageMarked lin w = (s.pdeMarked lin).markIf
    (!(s.pte lin).getLsbD 5 || (w && !(s.pte lin).getLsbD 6)) (s.pteAddr lin) (s.pte lin) (pteMark w) := rfl

theorem pdeMarked_kindAt (a : Nat) : (s.pdeMarked lin).kindAt a = s.kindAt a :=
  (markIf_kindAt ..).trans (pteRead_kindAt a)

theorem pageMarked_kindAt (a : Nat) : (s.pageMarked lin w).kindAt a = s.kindAt a :=
  (markIf_kindAt ..).trans (pdeMarked_kindAt a)

theorem Holds_of_kindAt {m : Memory} {pa v : Dword} (h : s.Holds m pa v) (hk : ∀ a, t.kindAt a = s.kindAt a) :
    t.Holds m pa v := fun j hj ha => h j hj ((hk _).symm.trans ha)

theorem markIf_false (pa v x : Dword) : s.markIf false pa v x = s := rfl

theorem markIf_tlb (b : Bool) (pa v x : Dword) : (s.markIf b pa v x).tlb = s.tlb := by
  unfold State.markIf State.setPhysDword
  split
  · exact State.storeBytes_tlb ..
  · rfl

theorem pageMarked_tlb : (s.pageMarked lin w).tlb = s.tlb := by
  rw [pageMarked_eq, markIf_tlb, State.pdeMarked, markIf_tlb, State.pteRead, State.afterRead_tlb, State.pdeRead,
    State.afterRead_tlb]

/-! ### Bytes of the marks -/

theorem byteAt_pteMark_zero : ∀ w : Bool, ∀ j < 4, j ≠ 0 → byteAt (pteMark w) j = 0#8 := by decide
theorem byteAt_pdeMark_zero : ∀ j < 4, j ≠ 0 → byteAt 0x20 j = 0#8 := by decide

theorem pdeAddr_aligned : (s.pdeAddr lin).toNat % 4 = 0 := tableEntry_aligned ..
theorem pteAddr_aligned : (s.pteAddr lin).toNat % 4 = 0 := tableEntry_aligned ..

/-- An aligned address in an aligned doubleword is its first. -/
theorem eq_of_mem_dwordAt {pa : Dword} {a : Nat} (hp : pa.toNat % 4 = 0) (ha : a % 4 = 0) (h : a ∈ dwordAt pa) :
    a = pa.toNat := by
  obtain ⟨j, hj, rfl⟩ := mem_dwordAt.1 h
  rw [BitVec.toNat_add, BitVec.toNat_ofNat] at ha ⊢
  have := pa.isLt
  omega

section
variable (hw : s.mem.wf = true)
include hw

theorem pteRead_wf : (s.pteRead lin).mem.wf = true := by rwa [pteRead_mem]

theorem pdeMarked_wf : (s.pdeMarked lin).mem.wf = true := markIf_wf (pteRead_wf hw)

theorem pageMarked_wf : (s.pageMarked lin w).mem.wf = true := markIf_wf (pdeMarked_wf hw)

/-- After the directory entry is marked. -/
theorem pdeMarked_read (a : Nat) : (s.pdeMarked lin).mem.read a = s.mem.read a ∨
    (a = (s.pdeAddr lin).toNat ∧ (s.pdeMarked lin).mem.read a = s.mem.read a ||| 0x20) := by
  rcases markIf_read (pteRead_wf hw) (Holds_of_kindAt pde_holds pteRead_kindAt) byteAt_pdeMark_zero a with
    h | ⟨-, -, h⟩ | h
  · exact .inl (h.trans (congrArg (Memory.read · a) pteRead_mem))
  · exact .inl h
  · exact .inr h

/-- After both entries are marked a byte is as it was, or has been marked with A or with A and D. -/
theorem pageMarked_read (a : Nat) : (s.pageMarked lin w).mem.read a = (s.pdeMarked lin).mem.read a ∨
    (a ∈ dwordAt (s.pteAddr lin) ∧ a ≠ (s.pteAddr lin).toNat ∧ (s.pageMarked lin w).mem.read a = s.mem.read a) ∨
      (a = (s.pteAddr lin).toNat ∧ (s.pageMarked lin w).mem.read a = s.mem.read a ||| byteAt (pteMark w) 0) :=
  markIf_read (pdeMarked_wf hw) (Holds_of_kindAt pte_holds pdeMarked_kindAt) (byteAt_pteMark_zero w) a

/-- No other byte changes. -/
theorem pageMarked_other {a : Nat} (hd : a ≠ (s.pdeAddr lin).toNat) (ht : a ≠ (s.pteAddr lin).toNat) :
    (s.pageMarked lin w).mem.read a = s.mem.read a := by
  have h1 := (pdeMarked_read (lin := lin) hw a).resolve_right fun h => hd h.1
  rcases pageMarked_read (lin := lin) (w := w) hw a with h | h | h
  · exact h.trans h1
  · exact h.2.2
  · exact absurd h.1 ht

/-- Only bits 5 and 6 of a byte change. -/
theorem pageMarked_bits (a : Nat) : (s.pageMarked lin w).mem.read a ||| 0x60 = s.mem.read a ||| 0x60 := by
  have habs (x y : Byte) (hy : y ||| 0x60 = 0x60) : x ||| y ||| 0x60 = x ||| 0x60 := by rw [BitVec.or_assoc, hy]
  have h1 : (s.pdeMarked lin).mem.read a ||| 0x60 = s.mem.read a ||| 0x60 := by
    rcases pdeMarked_read (lin := lin) hw a with h | ⟨-, h⟩
    · rw [h]
    · rw [h, habs _ _ (by decide)]
  rcases pageMarked_read (lin := lin) (w := w) hw a with h | ⟨-, -, h⟩ | ⟨-, h⟩
  · rw [h, h1]
  · rw [h]
  · rw [h, habs _ _ (by cases w <;> decide)]

/-- The accessed bit of the directory entry is set. -/
theorem pageMarked_pde (hk : s.kindAt (s.pdeAddr lin).toNat = .ram) :
    ((s.pageMarked lin w).mem.read (s.pdeAddr lin).toNat).getLsbD 5 = true := by
  have hlow : byteAt (s.pde lin) 0 = s.mem.read (s.pdeAddr lin).toNat := by
    have h0 : (s.pdeAddr lin + BitVec.ofNat 32 0).toNat = (s.pdeAddr lin).toNat := congrArg BitVec.toNat (BitVec.add_zero _)
    rw [← h0] at hk ⊢
    exact pde_holds 0 (by decide) hk
  have h1 : ((s.pdeMarked lin).mem.read (s.pdeAddr lin).toNat).getLsbD 5 = true := by
    cases hb : (s.pde lin).getLsbD 5
    · rw [State.pdeMarked, markIf_low (pteRead_wf hw) (Holds_of_kindAt pde_holds pteRead_kindAt) (by rw [hb]; rfl)
        ((pteRead_kindAt _).trans hk), BitVec.getLsbD_or]
      exact Bool.or_true _
    · have hbit : (s.mem.read (s.pdeAddr lin).toNat).getLsbD 5 = true := by rw [← hlow, getLsbD_byteAt _ 0 (by decide)]; exact hb
      rcases pdeMarked_read (lin := lin) hw (s.pdeAddr lin).toNat with h | ⟨-, h⟩
      · rw [h, hbit]
      · rw [h, BitVec.getLsbD_or, hbit, Bool.true_or]
  rcases pageMarked_read (lin := lin) (w := w) hw (s.pdeAddr lin).toNat with h | ⟨hm, hne, -⟩ | ⟨-, h⟩
  · rw [h, h1]
  · exact absurd (eq_of_mem_dwordAt pteAddr_aligned pdeAddr_aligned hm) hne
  · rw [h, BitVec.getLsbD_or]
    cases w <;> exact Bool.or_true _

/-- A bit of the table entry that is set, or marked, is set afterwards. -/
theorem pageMarked_pte (hk : s.kindAt (s.pteAddr lin).toNat = .ram) {i : Nat} (hi : i < 8)
    (h : (!(s.pte lin).getLsbD 5 || (w && !(s.pte lin).getLsbD 6)) = true → (byteAt (pteMark w) 0).getLsbD i = true)
    (h' : (!(s.pte lin).getLsbD 5 || (w && !(s.pte lin).getLsbD 6)) = false → (s.pte lin).getLsbD i = true) :
    ((s.pageMarked lin w).mem.read (s.pteAddr lin).toNat).getLsbD i = true := by
  have h0 : (s.pteAddr lin + BitVec.ofNat 32 0).toNat = (s.pteAddr lin).toNat := congrArg BitVec.toNat (BitVec.add_zero _)
  have hlow : byteAt (s.pte lin) 0 = s.mem.read (s.pteAddr lin).toNat := by
    rw [← h0] at hk ⊢
    exact pte_holds 0 (by decide) hk
  cases hb : (!(s.pte lin).getLsbD 5 || (w && !(s.pte lin).getLsbD 6))
  · have hbit : (s.mem.read (s.pteAddr lin).toNat).getLsbD i = true := by
      rw [← hlow, getLsbD_byteAt _ 0 hi, Nat.mul_zero, Nat.zero_add]
      exact h' hb
    have hsame : s.pageMarked lin w = s.pdeMarked lin := by rw [pageMarked_eq, hb, markIf_false]
    rw [hsame]
    rcases pdeMarked_read (lin := lin) hw (s.pteAddr lin).toNat with h | ⟨-, h⟩
    · rw [h, hbit]
    · rw [h, BitVec.getLsbD_or, hbit, Bool.true_or]
  · rw [pageMarked_eq, markIf_low (pdeMarked_wf hw) (Holds_of_kindAt pte_holds pdeMarked_kindAt) hb
      ((pdeMarked_kindAt _).trans hk), BitVec.getLsbD_or, h hb, Bool.or_true]

end

/-- A low bit of a doubleword in RAM. -/
theorem physDword_low {pa : Dword} (h : t.kindAt pa.toNat = .ram) {i : Nat} (hi : i < 8) :
    (t.physDword pa).getLsbD i = (t.mem.read pa.toNat).getLsbD i := by
  have h0 : (pa + BitVec.ofNat 32 0).toNat = pa.toNat := congrArg BitVec.toNat (BitVec.add_zero _)
  rw [← h0] at h ⊢
  rw [← byteAt_physDword (j := 0) (by decide) h, getLsbD_byteAt _ 0 hi, Nat.mul_zero, Nat.zero_add]

end Sys2Proof.Machine
end

section
/-! SUPPORT. The TLB (R250, R251): the block that an entry takes, and the hit it makes. -/

namespace Sys2Proof.Machine

variable {s t u : State} {lin : Dword} {w us : Bool}

/-- The block that an entry takes: the stale one's, else one that a free value chooses. -/
theorem freshBlock_run (o : Option Nat) (s : State) : ∃ b f, freshBlock o s = .ok b { s with free := f } ∧
    (∀ j, o = some j → b = j) ∧ (o = none → b < 4) := by
  cases o with
  | none => exact ⟨_, _, rfl, nofun, fun _ => Nat.mod_lt _ (by decide)⟩
  | some j => exact ⟨j, s.free, rfl, fun k h => Option.some.inj h, nofun⟩

theorem tlbIndex_inj {j k : Nat} (h : tlbIndex lin j = tlbIndex lin k) : j = k := Nat.add_left_cancel h

theorem tlbIndex_lt {k : Nat} (h : k < 4) : tlbIndex lin k < 32 := by
  have := (lin.extractLsb' 12 3).isLt
  unfold tlbIndex
  omega

theorem mem_tlbHits {k : Nat} : k ∈ s.tlbHits lin ↔ k < 4 ∧ (s.tlbEntry (tlbIndex lin k)).v = true ∧
    (s.tlbEntry (tlbIndex lin k)).lin = lin.extractLsb' 12 20 := by
  unfold State.tlbHits
  rw [List.mem_filter, Bool.and_eq_true, beq_iff_eq]
  refine and_congr_left fun _ => ?_
  simp only [List.mem_cons, List.not_mem_nil, or_false]
  omega

theorem tlbEntry_set {k j : Nat} {e : TlbEntry} (hl : s.tlb.length = 32) (hk : k < 4) :
    ({ s with tlb := s.tlb.set (tlbIndex lin k) e } : State).tlbEntry (tlbIndex lin j) =
      if j = k then e else s.tlbEntry (tlbIndex lin j) := by
  have hlt : tlbIndex lin k < s.tlb.length := hl ▸ tlbIndex_lt hk
  show (s.tlb.set (tlbIndex lin k) e).getD (tlbIndex lin j) TlbEntry.reset = _
  rw [List.getD_eq_getElem?_getD, List.getElem?_set, if_pos hlt]
  split
  · next h => rw [if_pos (tlbIndex_inj h).symm]; rfl
  · next h => rw [if_neg fun hj => h (by rw [hj])]; rfl

/-- An entry for the page, put where no other block holds one, is the only hit. -/
theorem tlbHits_set {k : Nat} {e : TlbEntry} (hl : s.tlb.length = 32) (hk : k < 4) (hv : e.v = true)
    (he : e.lin = lin.extractLsb' 12 20) (h : ∀ j ∈ s.tlbHits lin, j = k) :
    ({ s with tlb := s.tlb.set (tlbIndex lin k) e } : State).tlbHits lin = [k] := by
  have hiff (j : Nat) : j ∈ ({ s with tlb := s.tlb.set (tlbIndex lin k) e } : State).tlbHits lin ↔ j = k := by
    rw [mem_tlbHits, tlbEntry_set hl hk]
    by_cases hj : j = k
    · subst hj
      simp [hk, hv, he]
    · rw [if_neg hj, ← mem_tlbHits]
      exact iff_of_false (fun hm => hj (h j hm)) hj
  have hn : (({ s with tlb := s.tlb.set (tlbIndex lin k) e } : State).tlbHits lin).Nodup :=
    List.Nodup.filter _ (by decide)
  exact (List.perm_singleton.1 ((List.perm_ext_iff_of_nodup hn (List.nodup_singleton k)).2 fun j => by
    rw [hiff, List.mem_singleton]))

/-! ### Which way a translation goes -/

theorem translate_paged (hp : s.pg = true) : translate lin w us s = (choose (s.tlbHits lin) >>= translateVia lin w us) s := by
  unfold translate
  rw [M_get_bind, if_pos hp]
  rfl

theorem translate_miss (hp : s.pg = true) (h : s.tlbHits lin = []) : translate lin w us s = walkTables lin w us none s := by
  rw [translate_paged hp, h]
  rfl

theorem translate_hit {k : Nat} (hp : s.pg = true) (h : s.tlbHits lin = [k]) :
    translate lin w us s = tlbUse lin w us k (s.tlbEntry (tlbIndex lin k)) s := by
  rw [translate_paged hp, h]
  rfl

/-- A write by an entry with D = 0 walks the tables. -/
theorem translate_stale {k : Nat} (hp : s.pg = true) (h : s.tlbHits lin = [k]) (hw : w = true)
    (hd : (s.tlbEntry (tlbIndex lin k)).d = false) : translate lin w us s = walkTables lin w us (some k) s := by
  rw [translate_hit hp h, tlbUse, if_pos (by rw [hw, hd]; rfl)]

section
variable {b : Nat} {e : TlbEntry} (hd : w = false ∨ e.d = true)
include hd

theorem tlbUse_checks : tlbUse lin w us b e s = (do
    when (us && !e.u) (pageFault lin true w)
    when (us && w && !e.w) (pageFault lin true w)
    pure (e.phys ++ lin.extractLsb' 0 12) : M Dword) s := by
  rw [tlbUse, if_neg (by rcases hd with h | h <;> simp [h])]

theorem tlbUse_allowed (h : us = false ∨ (e.u = true ∧ (w = false ∨ e.w = true))) :
    tlbUse lin w us b e s = .ok (e.phys ++ lin.extractLsb' 0 12) s := by
  have e1 : (us && !e.u) = false := by rcases h with h | ⟨h, -⟩ <;> simp [h]
  have e2 : (us && w && !e.w) = false := by rcases h with h | ⟨-, h | h⟩ <;> simp [h]
  rw [tlbUse_checks hd, e1, e2]
  rfl

theorem tlbUse_denied (h : ¬(us = false ∨ (e.u = true ∧ (w = false ∨ e.w = true)))) : tlbUse lin w us b e s =
    .error (faultOf 14 (some (s.pageCode true w))) { s with cr2 := lin, free := s.free + 1 } := by
  obtain ⟨hus, h⟩ := not_or.1 h
  rw [tlbUse_checks hd, Bool.eq_true_of_not_eq_false hus]
  cases hu : e.u
  · exact M_bind_error (pageFault_run true w s)
  · obtain ⟨hw, he⟩ := not_or.1 (not_and.1 h hu)
    rw [Bool.not_true, Bool.and_false, when_false, M_pure_bind, Bool.eq_true_of_not_eq_false hw,
      Bool.eq_false_of_not_eq_true he]
    exact M_bind_error (pageFault_run true true s)

end

end Sys2Proof.Machine
end

section
/-! O50: translation of a linear address (R225 to R227, R251, R858). -/

namespace Sys2Proof.Machine

variable {s t : State} {lin : Dword} {w us : Bool} {stale : Option Nat}

/-- What makes an access walk the tables: no entry for the page, or one whose D is 0 for a write. -/
def State.Walks (s : State) (lin : Dword) (w : Bool) : Option Nat → Prop
  | none => s.tlbHits lin = []
  | some k => s.tlbHits lin = [k] ∧ w = true ∧ (s.tlbEntry (tlbIndex lin k)).d = false

theorem translate_walks (hp : s.pg = true) (h : s.Walks lin w stale) : translate lin w us s = walkTables lin w us stale s := by
  cases stale with
  | none => exact translate_miss hp h
  | some k => exact translate_stale hp h.1 h.2.1 h.2.2

/-- The state after the entries that are read. -/
def State.tablesRead (s : State) (lin : Dword) : State := if (s.pde lin).getLsbD 0 then s.pteRead lin else s.pdeRead lin

theorem tablesRead_mem : (s.tablesRead lin).mem = s.mem := by
  unfold State.tablesRead
  split
  · exact pteRead_mem
  · exact State.afterRead_mem ..

theorem tablesRead_user : (s.tablesRead lin).user = s.user := by
  unfold State.tablesRead State.user State.pteRead State.pdeRead
  split
  · rw [State.afterRead_cpl, State.afterRead_cpl]
  · rw [State.afterRead_cpl]

/-- A walk that is refused. -/
theorem walkTables_refused {present : Bool} (hpr : present = ((s.pde lin).getLsbD 0 && (s.pte lin).getLsbD 0))
    (h : present = false ∨ (us = true ∧ (s.pageUser lin = false ∨ (w = true ∧ s.pageWritable lin = false)))) :
    walkTables lin w us stale s = .error (faultOf 14 (some ((s.tablesRead lin).pageCode present w)))
      { s.tablesRead lin with cr2 := lin, free := (s.tablesRead lin).free + 1 } := by
  unfold State.tablesRead
  cases hd : (s.pde lin).getLsbD 0
  · rw [hpr, hd, if_neg Bool.false_ne_true]
    exact walkTables_noPde hd
  · rw [if_pos rfl]
    cases hp : (s.pte lin).getLsbD 0
    · rw [hpr, hd, hp]
      exact walkTables_noPte hd hp
    · rw [hd, hp, Bool.and_self] at hpr
      subst hpr
      obtain ⟨hus, h⟩ := h.resolve_left (by decide)
      exact walkTables_denied hd hp hus h

theorem walks_lt (hw : s.Walks lin w stale) {b : Nat} (hs : ∀ j, stale = some j → b = j) (hn : stale = none → b < 4) :
    b < 4 ∧ ∀ j ∈ s.tlbHits lin, j = b := by
  cases stale with
  | none => exact ⟨hn rfl, fun j hj => by rw [show s.tlbHits lin = [] from hw] at hj; cases hj⟩
  | some k =>
    obtain rfl := hs k rfl
    obtain ⟨hh, -, -⟩ := hw
    exact ⟨(mem_tlbHits.1 (by rw [hh]; exact List.mem_singleton.2 rfl : b ∈ s.tlbHits lin)).1,
      fun j hj => by rw [hh] at hj; exact List.mem_singleton.1 hj⟩

/-- The hits are those of the TLB alone. -/
theorem tlbHits_congr (h : t.tlb = s.tlb) : t.tlbHits lin = s.tlbHits lin := by
  unfold State.tlbHits State.tlbEntry
  rw [h]

/-- What an allowed walk leaves. -/
theorem walkTables_allowed (hsh : s.Shaped) (hwk : s.Walks lin w stale) (hd : (s.pde lin).getLsbD 0 = true)
    (hp : (s.pte lin).getLsbD 0 = true)
    (h : us = false ∨ (s.pageUser lin = true ∧ (w = false ∨ s.pageWritable lin = true))) : ∃ t,
    walkTables lin w us stale s = .ok ((s.pte lin).extractLsb' 12 20 ++ lin.extractLsb' 0 12) t ∧
    t.mem = (s.pageMarked lin w).mem ∧ (∀ a, t.kindAt a = s.kindAt a) ∧
    ∃ b < 4, (∀ j, stale = some j → b = j) ∧ t.tlb = s.tlb.set (tlbIndex lin b) (s.pageEntry lin w) ∧
      t.tlbHits lin = [b] := by
  obtain ⟨b, f, hb, hs, hn⟩ := freshBlock_run stale (s.pageMarked lin w)
  obtain ⟨hlt, hhits⟩ := walks_lt hwk hs hn
  refine ⟨_, walkTables_run hd hp h hb, rfl, pageMarked_kindAt, b, hlt, hs, congrArg (List.set · _ _) pageMarked_tlb, ?_⟩
  exact (tlbHits_congr (congrArg (List.set · _ _) pageMarked_tlb)).trans (tlbHits_set hsh.tlb hlt rfl rfl hhits)

section
variable (hw : s.mem.wf = true) (ht : t.mem = (s.pageMarked lin w).mem) (hk : ∀ a, t.kindAt a = s.kindAt a)
include hw ht hk

/-- The accessed bit of the directory entry, read back. -/
theorem physDword_pde (h : ∀ a ∈ dwordAt (s.pdeAddr lin), s.kindAt a = .ram) :
    (t.physDword (s.pdeAddr lin)).getLsbD 5 = true := by
  have hr := h _ (first_mem_dwordAt _)
  rw [physDword_low ((hk _).trans hr) (by decide), ht]
  exact pageMarked_pde hw hr

/-- The accessed and dirty bits of the table entry, read back. -/
theorem physDword_pte (h : ∀ a ∈ dwordAt (s.pteAddr lin), s.kindAt a = .ram) :
    (t.physDword (s.pteAddr lin)).getLsbD 5 = true ∧ (w = true → (t.physDword (s.pteAddr lin)).getLsbD 6 = true) := by
  have hr := h _ (first_mem_dwordAt _)
  rw [physDword_low ((hk _).trans hr) (by decide), physDword_low ((hk _).trans hr) (by decide), ht]
  refine ⟨pageMarked_pte hw hr (by decide) (fun _ => by cases w <;> decide) fun hc => ?_, fun hw1 => ?_⟩
  · simpa using (Bool.or_eq_false_iff.1 hc).1
  · refine pageMarked_pte hw hr (by decide) (fun _ => by rw [hw1]; decide) fun hc => ?_
    have hc6 := (Bool.or_eq_false_iff.1 hc).2
    rw [hw1, Bool.true_and] at hc6
    simpa using hc6

end

/-- Settles O50: the hit by the entry's own bits, the walk by the lemmas on the two entries. -/
theorem pageTranslation : Obligations.PageTranslation := by
  unfold Obligations.PageTranslation
  intro s lin w u
  refine ⟨fun hp => translate_flat hp lin w u, fun k hp hk => ?_, fun stale hp hsh hst => ?_⟩
  · intro e ok hd
    refine ⟨fun h => (translate_hit hp hk).trans (tlbUse_allowed hd h), fun h => ?_⟩
    exact ⟨s.pageCode true w, (translate_hit hp hk).trans (tlbUse_denied hd h), pageCode_bits s true w⟩
  · have hwk : s.Walks lin w stale := by cases stale <;> exact hst
    rw [translate_walks hp hwk]
    intro pdeAddr pde s₁ pteAddr pte s₂ present userPage writable
    refine ⟨fun h => ?_, fun hpr h => ?_⟩
    · obtain ⟨h0, h1, h2⟩ := pageCode_bits (s.tablesRead lin) present w
      exact ⟨_, walkTables_refused rfl h, tablesRead_mem, h0, h1, h2.trans tablesRead_user⟩
    · obtain ⟨hd, hpt⟩ := Bool.and_eq_true_iff.1 hpr
      obtain ⟨t, hrun, hm, hkind, b, hb, hj, ht, hhit⟩ := walkTables_allowed hsh hwk hd hpt h
      refine ⟨t, hrun, (walkTables_keeps lin w u stale).ok hrun, physDword_pde hsh.mem hm hkind,
        physDword_pte hsh.mem hm hkind, fun a hd ht => ?_, ⟨b, hb, hj, ht⟩, b, hhit⟩
      rw [hm]
      exact pageMarked_other hsh.mem hd ht

end Sys2Proof.Machine
end

section
/-! SUPPORT. What reaching and storing an operand does to memory (R102, R103, R226). -/

namespace Sys2Proof.Machine

variable {s t u : State} {lin : Dword} {w us : Bool}

/-! ### One byte of each kind of memory (R90, R103, R116) -/

theorem numAt_one (s : State) (a : Nat) : s.numAt [a] = (s.readByte a).1.toNat := rfl

/-- A write to ROM, or where nothing answers, is lost. -/
theorem storeBytes_lost {as : List Nat} {vs : List Byte} (h : ∀ a ∈ as, s.kindAt a = .rom ∨ s.kindAt a = .nothing) :
    s.storeBytes as vs = s := by
  have e : (as.zip vs).filter (fun x => s.kindAt x.1 == .ram) = [] := by
    rw [List.filter_eq_nil_iff]
    intro x hx
    rcases h x.1 (List.of_mem_zip hx).1 with h | h <;> rw [h] <;> decide
  unfold State.storeBytes
  dsimp only
  rw [e]
  refine deviceDid_memory fun x hx => ?_
  show s.kindAt x.1 ≠ .device
  rcases h x.1 (List.of_mem_zip hx).1 with h | h <;> rw [h] <;> decide

/-- One byte that a device is told, or has answered, is one transfer. -/
theorem deviceDid_one {a : Nat} (h : s.kindAt a = .device) (w : Bool) (b : Byte) : s.deviceDid w [(a, b)] =
    { s with devLog := { write := w, transfers := [[(a, b)]] } :: s.devLog } := by
  unfold State.deviceDid
  rw [List.filter_cons_of_pos (by simpa using h), List.filter_nil]
  rfl

/-- Nothing answers: a free value. -/
theorem read_nothing {a : Nat} (h : s.kindAt a = .nothing) : s.numAt [a] = ((Config.freeBits s.free).setWidth 8).toNat ∧
    s.afterRead [a] = { s with free := s.free + 1 } := by
  have hb : s.readByte a = ((Config.freeBits s.free).setWidth 8, { s with free := s.free + 1 }) := by
    unfold State.readByte
    rw [h]
  refine ⟨by rw [numAt_one, hb], ?_⟩
  unfold State.afterRead State.readBytes
  rw [hb]
  refine deviceDid_memory fun x hx => ?_
  rw [List.mem_singleton.1 hx]
  show s.kindAt a ≠ .device
  rw [h]
  decide

/-- A device answers. -/
theorem read_device {a : Nat} {b : Byte} (h : s.kindAt a = .device)
    (hb : b = s.devInput.headD (Config.deviceByte s.devLog.length a)) : s.numAt [a] = b.toNat ∧
    s.afterRead [a] = { s with devInput := s.devInput.tail
                               devLog := { write := false, transfers := [[(a, b)]] } :: s.devLog } := by
  have hr : s.readByte a = (b, { s with devInput := s.devInput.tail }) := by
    unfold State.readByte
    rw [h, hb]
  refine ⟨by rw [numAt_one, hr], ?_⟩
  unfold State.afterRead State.readBytes
  rw [hr]
  exact deviceDid_one (s := { s with devInput := s.devInput.tail }) h false b

/-- A device is told. -/
theorem storeBytes_device {a : Nat} (h : s.kindAt a = .device) (v : Byte) : s.storeBytes [a] [v] =
    { s with devLog := { write := true, transfers := [[(a, v)]] } :: s.devLog } := by
  have e : ([a].zip [v]).filter (fun x => s.kindAt x.1 == .ram) = [] :=
    List.filter_cons_of_neg (by simp [h])
  unfold State.storeBytes
  dsimp only
  rw [e]
  exact deviceDid_one h true v

/-! ### A translation changes accessed and dirty bits only (R226) -/

/-- `t` has the memory of `s`, in canonical form, but for bits 5 and 6 of its bytes. -/
structure State.MemKept (s t : State) : Prop where
  wf : t.mem.wf = true
  bits : ∀ b, t.mem.read b ||| 0x60 = s.mem.read b ||| 0x60

theorem State.MemKept.of_mem (hw : s.mem.wf = true) (h : t.mem = s.mem) : s.MemKept t :=
  ⟨by rwa [h], fun b => by rw [h]⟩

theorem State.MemKept.trans (h : s.MemKept t) (h' : t.MemKept u) : s.MemKept u :=
  ⟨h'.wf, fun b => (h'.bits b).trans (h.bits b)⟩

/-- A check that passes leaves the state. -/
theorem when_pageFault_ok {b : Bool} {p : Bool} {x : Unit} (h : when b (pageFault lin p w) s = .ok x t) : t = s := by
  cases b
  · cases h
    rfl
  · rw [when_true, pageFault_run] at h
    cases h

theorem choose_mem {xs : List Nat} {o : Option Nat} (h : choose xs s = .ok o t) : t.mem = s.mem := by
  unfold choose at h
  split at h <;> cases h <;> rfl

section
variable {a : Dword} (hw : s.mem.wf = true)
include hw

theorem walkTables_memKept {o : Option Nat} (h : walkTables lin w us o s = .ok a t) : s.MemKept t := by
  obtain ⟨b, t', hb, rfl⟩ := walkTables_ok h
  obtain ⟨b', f, hb', -⟩ := freshBlock_run o (s.pageMarked lin w)
  cases hb.symm.trans hb'
  exact ⟨pageMarked_wf hw, pageMarked_bits hw⟩

theorem tlbUse_memKept {k : Nat} {e : TlbEntry} (h : tlbUse lin w us k e s = .ok a t) : s.MemKept t := by
  unfold tlbUse at h
  split at h
  · exact walkTables_memKept hw h
  · obtain ⟨_, v, h1, h⟩ := M_bind_ok_inv h
    obtain ⟨_, v', h2, h⟩ := M_bind_ok_inv h
    cases h
    rw [when_pageFault_ok h2, when_pageFault_ok h1]
    exact .of_mem hw rfl

theorem translate_memKept (h : translate lin w us s = .ok a t) : s.MemKept t := by
  cases hp : s.pg
  · rw [translate_flat hp] at h
    cases h
    exact .of_mem hw rfl
  · rw [translate_paged hp] at h
    obtain ⟨o, v, hc, h⟩ := M_bind_ok_inv h
    have hv : s.MemKept v := .of_mem hw (choose_mem hc)
    cases o with
    | none => exact hv.trans (walkTables_memKept hv.wf h)
    | some k => exact hv.trans (tlbUse_memKept hv.wf h)

end

theorem translateEach_memKept {lins : List Dword} : ∀ {s : State} {pas : List Nat}, s.mem.wf = true →
    translateEach w us lins s = .ok pas t → s.MemKept t ∧ pas.length = lins.length := by
  induction lins with
  | nil =>
    intro s pas hw h
    cases h
    exact ⟨.of_mem hw rfl, rfl⟩
  | cons lin rest ih =>
    intro s pas hw h
    obtain ⟨pa, v, h1, h⟩ := M_bind_ok_inv h
    obtain ⟨as, v', h2, h⟩ := M_bind_ok_inv h
    cases h
    have hv := translate_memKept hw h1
    obtain ⟨hk, hl⟩ := ih hv.wf h2
    exact ⟨hv.trans hk, congrArg (· + 1) hl⟩

end Sys2Proof.Machine
end

section
/-! O49: memory read and written (R90 to R116, R226). -/

namespace Sys2Proof.Machine

variable {s t : State} {u wr : Bool} {sr : SReg} {off : Dword} {n : Nat} {pas : List Nat}

theorem Reach.memKept (hw : s.mem.wf = true) (h : Reach s u sr off n wr pas t) : s.MemKept t ∧ pas.length = n := by
  obtain ⟨hk, hl⟩ := translateEach_memKept (s := s.noted sr off n wr) hw (undoing_ok.1 h.page)
  exact ⟨⟨hk.wf, hk.bits⟩, hl.trans (span_length ..)⟩

theorem Reach.kindAt (h : Reach s u sr off n wr pas t) (a : Nat) : t.kindAt a = s.kindAt a := by
  obtain ⟨m, b, f, d, l, rfl⟩ := h.walked
  rfl

/-- Without paging the physical addresses are the linear ones. -/
theorem Reach.of_flat (hp : s.pg = false) (h : Reach s u sr off n wr pas t) :
    pas = (span (s.linOf sr off) n).map BitVec.toNat ∧ t = s.noted sr off n wr := by
  have he := h.page.symm.trans (translateAll_flat (s := s.noted sr off n wr) hp ..)
  cases he
  exact ⟨rfl, rfl⟩

theorem span_getElem? (lin : Dword) {i : Nat} (h : i < n) :
    ((span lin n).map BitVec.toNat)[i]? = some (lin + BitVec.ofNat 32 i).toNat := by
  rw [span_eq_map, List.map_map, List.getElem?_map, List.getElem?_range h]
  rfl

/-- What is stored at different addresses in RAM is read back (R91). -/
theorem storeAt_valueAt {w : Width} {v : BitVec w.bits} (hw : t.mem.wf = true) (hl : pas.length = w.bytes)
    (ha : ∀ a ∈ pas, a < 2 ^ 32) (hn : pas.Nodup) (hk : ∀ a ∈ pas, t.kindAt a = .ram) :
    (t.storeAt w pas v).valueAt w pas = v := by
  have hfit : v.toNat < 256 ^ w.bytes := by
    have := v.isLt
    cases w <;> exact this
  have hk' : ∀ a ∈ pas, (t.storeAt w pas v).kindAt a = .ram := fun a h => by
    unfold State.kindAt State.storeAt
    rw [State.storeBytes_platform]
    exact hk a h
  have hm : (t.storeAt w pas v).mem = t.mem.writeAll pas (bytesOf w.bytes v.toNat) := congrArg State.mem (storeBytes_ram hk)
  rw [State.valueAt, numAt_memory fun a h => .inl (hk' a h), hm, Memory.readAll_writeAll ha hw hn (by rw [hl, bytesOf_length]),
    natOfBytes_bytesOf _ _ hfit, BitVec.ofNat_toNat, BitVec.setWidth_eq]

/-- Settles O49: a single address by its kind, an operand by what its translation keeps. -/
theorem memoryReadWrite : Obligations.MemoryReadWrite := by
  unfold Obligations.MemoryReadWrite
  refine ⟨fun s a v => ⟨fun h => ?_, fun h => ?_, fun h => ?_, read_nothing, fun h => ?_⟩,
    fun s t w u lins x => translateAll_error, fun m a b v hm => ⟨Memory.read_write hm, fun ha => Memory.write_wf ha hm⟩, ?_⟩
  · have hall : ∀ c ∈ [a], s.kindAt c = .ram ∨ s.kindAt c = .rom := fun c hc => by rwa [List.mem_singleton.1 hc]
    exact ⟨numAt_memory hall, afterRead_memory hall⟩
  · exact storeBytes_ram fun c hc => by rwa [List.mem_singleton.1 hc]
  · exact storeBytes_lost fun c hc => by rwa [List.mem_singleton.1 hc]
  · exact ⟨storeBytes_device h v, fun b hb => read_device h hb⟩
  · intro s u sr off n wr pas t hw h
    obtain ⟨hk, hl⟩ := h.memKept hw
    have hlt := translateAll_lt h.page
    refine ⟨⟨hl, hlt, hk.wf, hk.bits⟩, fun hp => ?_, fun w v hn => ⟨fun b hb => ?_, fun hnd hram => ?_, ?_⟩⟩
    · obtain ⟨rfl, rfl⟩ := h.of_flat hp
      exact ⟨rfl, fun i hi => span_getElem? _ hi⟩
    · exact storeBytes_other hk.wf hlt (hb.imp_right fun hb => by rwa [h.kindAt])
    · exact storeAt_valueAt hk.wf (hl.trans hn) hlt hnd fun a ha => (h.kindAt a).trans (hram a ha)
    · exact storeBytes_wf hlt hk.wf

end Sys2Proof.Machine
end

section
/-! SUPPORT. Decoding as reading (R325 to R341): what each part of the decoder reads of the bytes that the encoder writes, whatever
bytes follow. -/

namespace Sys2Proof

/-- `m` reads exactly the bytes `bs`, whatever follows them, and gives `a`. -/
def Reads {α : Type} (m : Dec α) (bs : List Byte) (a : α) : Prop := ∀ rest, m.run (bs ++ rest) = .ok (a, rest)

section
variable {α β : Type} {m : Dec α} {f : α → Dec β} {bs bs' : List Byte} {a : α} {b : β}

theorem Reads.pure (a : α) : Reads (Pure.pure a) [] a := fun _ => rfl

theorem Reads.bind (hm : Reads m bs a) (hf : Reads (f a) bs' b) : Reads (m >>= f) (bs ++ bs') b := by
  intro rest
  rw [List.append_assoc, StateT.run_bind, hm]
  exact hf rest

/-- The last thing read. -/
theorem Reads.last (hm : Reads m bs a) (hf : Reads (f a) [] b) : Reads (m >>= f) bs b := by
  rw [← List.append_nil bs]
  exact hm.bind hf

end

/-! ### Bytes, words, immediates (R326) -/

theorem Reads.byte (b : Byte) : Reads Dec.byte [b] b := fun _ => rfl

theorem Reads.word (v : Word) : Reads Dec.word (wordBytes v) v := by
  have h : v.extractLsb' 8 8 ++ v.extractLsb' 0 8 = v := by
    rw [BitVec.extractLsb'_append_extractLsb'_eq_extractLsb' (by rfl), BitVec.extractLsb'_eq_self]
  intro rest
  show Except.ok (v.extractLsb' 8 8 ++ v.extractLsb' 0 8, rest) = _
  rw [h]

theorem Reads.dword (v : Dword) : Reads Dec.dword (dwordBytes v) v := by
  have h : (v.extractLsb' 24 8 ++ v.extractLsb' 16 8) ++ (v.extractLsb' 8 8 ++ v.extractLsb' 0 8) = v := by
    rw [BitVec.extractLsb'_append_extractLsb'_eq_extractLsb' (by rfl),
      BitVec.extractLsb'_append_extractLsb'_eq_extractLsb' (by rfl),
      BitVec.extractLsb'_append_extractLsb'_eq_extractLsb' (by rfl), BitVec.extractLsb'_eq_self]
  intro rest
  show Except.ok ((v.extractLsb' 24 8 ++ v.extractLsb' 16 8) ++ (v.extractLsb' 8 8 ++ v.extractLsb' 0 8), rest) = _
  rw [h]

theorem Reads.imm {w : Width} {v : Dword} (h : okImm w v = true) : Reads (Dec.imm w) (immBytes w v) v := by
  have hlt : v.toNat < 2 ^ w.bits := of_decide_eq_true h
  have hback (n : Nat) (hn : v.toNat < 2 ^ n) : (v.setWidth n).setWidth 32 = v := by
    refine BitVec.eq_of_toNat_eq ?_
    rw [BitVec.toNat_setWidth, BitVec.toNat_setWidth, Nat.mod_eq_of_lt hn, Nat.mod_eq_of_lt v.isLt]
  cases w with
  | b8 =>
    refine (Reads.byte _).last ?_
    have he : (v.extractLsb' 0 8).setWidth 32 = v := hback 8 hlt
    rw [he]
    exact .pure v
  | w16 =>
    refine (Reads.word _).last ?_
    rw [hback 16 hlt]
    exact .pure v
  | d32 => exact .dword v

/-! ### Codes (R330, R333) -/

theorem Reg.ofCode_code (r : Reg) : Reg.ofCode r.code = r := by cases r <;> rfl
theorem Base16.ofCode_code (b : Base16) : Base16.ofCode b.code = b := by cases b <;> rfl
theorem Reads.sreg (sr : SReg) : Reads (sregOf sr.code) [] sr := by cases sr <;> exact .pure _

theorem ModRm.ofByte_modrmByte (mod : BitVec 2) (reg rm : BitVec 3) : ModRm.ofByte (modrmByte mod reg rm) = ⟨mod, reg, rm⟩ :=
  ModRm.ofByte_append mod reg rm

/-! ### Displacements and addressing forms (R333, R334, R337) -/

theorem Disp.mod_eq_zero {d : Disp} : d.mod = 0 ↔ d = .none := by cases d <;> simp [Disp.mod]
theorem Disp.mod_ne_three (d : Disp) : d.mod ≠ 3 := by cases d <;> simp [Disp.mod]

theorem Reads.disp16 {d : Disp} (h : okDisp16 d = true) : Reads (Dec.disp16 d.mod) d.bytes d := by
  cases d with
  | none => exact .pure _
  | d8 v => exact (Reads.byte v).last (.pure _)
  | d16 v => exact (Reads.word v).last (.pure _)
  | d32 v => cases h

theorem Reads.disp32 {d : Disp} (h : okDisp32 d = true) : Reads (Dec.disp32 d.mod) d.bytes d := by
  cases d with
  | none => exact .pure _
  | d8 v => exact (Reads.byte v).last (.pure _)
  | d16 v => cases h
  | d32 v => exact (Reads.dword v).last (.pure _)

/-- The index field of a SIB byte gives the index register back. -/
theorem indexCode_back {i : Option Reg} (h : (i != some .esp) = true) :
    (if indexCode i = 4 then none else some (Reg.ofCode (indexCode i))) = i := by
  cases i with
  | none => rfl
  | some r => cases r <;> first | rfl | cases h

/-- After a SIB byte without a base: a displacement of 32 bits. -/
theorem Reads.sibNone {i : Option Reg} (sc : BitVec 2) (v : Dword) (hi : (i != some .esp) = true) :
    Reads (Dec.sib 0) (modrmByte sc (indexCode i) 5 :: dwordBytes v) (.sib none i sc (.d32 v)) := by
  refine (Reads.byte (modrmByte sc (indexCode i) 5)).bind ?_
  dsimp only
  rw [ModRm.ofByte_modrmByte, if_pos ⟨rfl, rfl⟩, indexCode_back hi]
  exact (Reads.dword v).last (.pure _)

/-- After a SIB byte with a base register. -/
theorem Reads.sibSome {b : Reg} {i : Option Reg} {d : Disp} (sc : BitVec 2) (hd : okDisp32 d = true)
    (hi : (i != some .esp) = true) (hb : b = .ebp → d ≠ .none) :
    Reads (Dec.sib d.mod) (modrmByte sc (indexCode i) b.code :: d.bytes) (.sib (some b) i sc d) := by
  have hn : ¬(b.code = 5 ∧ d.mod = 0) := by
    rintro ⟨h5, h0⟩
    refine hb ?_ (Disp.mod_eq_zero.1 h0)
    rw [← Reg.ofCode_code b, h5]
    rfl
  refine (Reads.byte (modrmByte sc (indexCode i) b.code)).bind ?_
  dsimp only
  rw [ModRm.ofByte_modrmByte, if_neg hn, indexCode_back hi, Reg.ofCode_code]
  exact (Reads.disp32 hd).last (.pure _)

/-- The bytes of an addressing form: a ModR/M byte whose mod is not 11, and what its fields make the decoder read. -/
theorem Addr.bytes_reads {asz : Width} {a : Addr} (reg : BitVec 3) (h : okAddr asz a = true) : ∃ mod n tl,
    a.bytes reg = modrmByte mod reg n :: tl ∧ mod ≠ 3 ∧ Reads (Dec.addr asz ⟨mod, reg, n⟩) tl a := by
  cases a with
  | direct16 v =>
    obtain rfl : asz = .w16 := eq_of_beq h
    exact ⟨0, 6, _, rfl, by decide, (Reads.word v).last (.pure _)⟩
  | direct32 v =>
    obtain rfl : asz = .d32 := eq_of_beq h
    exact ⟨0, 5, _, rfl, by decide, (Reads.dword v).last (.pure _)⟩
  | based16 b d =>
    simp only [okAddr, Bool.and_eq_true, beq_iff_eq, Bool.not_eq_true', Bool.and_eq_false_iff, beq_eq_false_iff_ne] at h
    obtain ⟨⟨rfl, hd⟩, hb⟩ := h
    refine ⟨d.mod, b.code, d.bytes, rfl, d.mod_ne_three, ?_⟩
    have hn : ¬(b.code = 6 ∧ d.mod = 0) := by
      rintro ⟨h6, h0⟩
      refine hb.elim (· ?_) (· (Disp.mod_eq_zero.1 h0))
      rw [← Base16.ofCode_code b, h6]
      rfl
    unfold Dec.addr
    dsimp only
    rw [if_neg hn, Base16.ofCode_code]
    exact (Reads.disp16 hd).last (.pure _)
  | based32 r d =>
    simp only [okAddr, Bool.and_eq_true, beq_iff_eq, bne_iff_ne, Bool.not_eq_true', Bool.and_eq_false_iff,
      beq_eq_false_iff_ne] at h
    obtain ⟨⟨⟨rfl, hd⟩, hr⟩, hb⟩ := h
    refine ⟨d.mod, r.code, d.bytes, rfl, d.mod_ne_three, ?_⟩
    have h4 : r.code ≠ 4 := fun h4 => hr (by rw [← Reg.ofCode_code r, h4]; rfl)
    have hn : ¬(r.code = 5 ∧ d.mod = 0) := by
      rintro ⟨h5, h0⟩
      refine hb.elim (· ?_) (· (Disp.mod_eq_zero.1 h0))
      rw [← Reg.ofCode_code r, h5]
      rfl
    unfold Dec.addr
    dsimp only
    rw [if_neg h4, if_neg hn, Reg.ofCode_code]
    exact (Reads.disp32 hd).last (.pure _)
  | sib b i sc d =>
    cases b with
    | none =>
      cases d with
      | d32 v =>
        simp only [okAddr, Bool.and_eq_true, beq_iff_eq, and_true] at h
        obtain ⟨rfl, hi⟩ := h
        exact ⟨0, 4, _, rfl, by decide, .sibNone sc v hi⟩
      | none | d8 v | d16 v => simp [okAddr] at h
    | some b =>
      simp only [okAddr, Bool.and_eq_true, beq_iff_eq, Bool.not_eq_true', Bool.and_eq_false_iff, beq_eq_false_iff_ne] at h
      obtain ⟨⟨⟨rfl, hd⟩, hi⟩, hb⟩ := h
      exact ⟨d.mod, 4, _, rfl, d.mod_ne_three, .sibSome sc hd hi fun he => hb.resolve_left (· he)⟩

/-! ### Operands (R331, R340, R341) -/

section
variable {c : Ctx}

theorem Rm.bytes_reads {rm : Rm} (reg : BitVec 3) (h : okRm c rm = true) : ∃ mod n tl,
    rm.bytes reg = modrmByte mod reg n :: tl ∧ Reads (Dec.rm c ⟨mod, reg, n⟩) tl rm := by
  cases rm with
  | reg r =>
    refine ⟨3, r.code, [], rfl, ?_⟩
    unfold Dec.rm
    rw [if_pos rfl, Reg.ofCode_code]
    exact .pure _
  | mem m =>
    obtain ⟨seg, a⟩ := m
    obtain ⟨hseg, ha⟩ := Bool.and_eq_true_iff.1 h
    obtain rfl : seg = c.seg := eq_of_beq hseg
    obtain ⟨mod, n, tl, hb, hmod, hr⟩ := a.bytes_reads reg ha
    refine ⟨mod, n, tl, hb, ?_⟩
    unfold Dec.rm
    rw [if_neg hmod]
    exact hr.last (.pure _)

theorem Reads.mem {x : ModRm} {tl : List Byte} {m : MemRef} (h : Reads (Dec.rm c x) tl (.mem m)) :
    Reads (Dec.mem c x) tl m := h.last (.pure m)

section
variable {α : Type} {reg : BitVec 3} {tl : List Byte} {a : α}

/-- A ModR/M byte and its r/m operand, and what is read after them. -/
theorem Reads.modrm {rm : Rm} {f : ModRm × Rm → Dec α} (h : okRm c rm = true)
    (hf : ∀ mod n, Reads (f (⟨mod, reg, n⟩, rm)) tl a) : Reads (Dec.modrm c >>= f) (rm.bytes reg ++ tl) a := by
  obtain ⟨mod, n, tl', hb, hr⟩ := rm.bytes_reads reg h
  rw [hb]
  refine Reads.bind (a := (⟨mod, reg, n⟩, rm)) ?_ (hf mod n)
  refine (Reads.byte (modrmByte mod reg n)).bind ?_
  dsimp only
  rw [ModRm.ofByte_modrmByte]
  exact hr.last (.pure _)

/-- The r/m operand is the last thing read. -/
theorem Reads.modrmLast {rm : Rm} {f : ModRm × Rm → Dec α} (h : okRm c rm = true)
    (hf : ∀ mod n, Reads (f (⟨mod, reg, n⟩, rm)) [] a) : Reads (Dec.modrm c >>= f) (rm.bytes reg) a := by
  rw [← List.append_nil (rm.bytes reg)]
  exact .modrm h hf

/-- A ModR/M byte whose operand is memory. -/
theorem Reads.modmem {m : MemRef} {f : ModRm × MemRef → Dec α} (h : okMem c m = true)
    (hf : ∀ mod n, Reads (f (⟨mod, reg, n⟩, m)) [] a) : Reads (Dec.modmem c >>= f) (m.addr.bytes reg) a := by
  obtain ⟨mod, n, tl', hb, hr⟩ := Rm.bytes_reads (rm := .mem m) reg h
  rw [show m.addr.bytes reg = _ from hb]
  refine Reads.last (a := (⟨mod, reg, n⟩, m)) ?_ (hf mod n)
  refine (Reads.byte (modrmByte mod reg n)).bind ?_
  dsimp only
  rw [ModRm.ofByte_modrmByte]
  exact (Reads.mem hr).last (.pure _)

end

theorem Reads.moffs {m : MemRef} (h : okMoffs c m = true) : Reads (Dec.moffs c) (moffsBytes m) m := by
  obtain ⟨seg, a⟩ := m
  obtain ⟨hm, hk⟩ := Bool.and_eq_true_iff.1 h
  obtain ⟨hseg, ha⟩ := Bool.and_eq_true_iff.1 hm
  obtain rfl : seg = c.seg := eq_of_beq hseg
  cases a with
  | direct16 v =>
    have hz : c.asz = .w16 := eq_of_beq ha
    unfold Dec.moffs
    rw [hz]
    exact (Reads.word v).last (.pure _)
  | direct32 v =>
    have hz : c.asz = .d32 := eq_of_beq ha
    unfold Dec.moffs
    rw [hz]
    exact (Reads.dword v).last (.pure _)
  | based16 _ _ | based32 _ _ | sib _ _ _ _ => cases hk

end

end Sys2Proof
end

section
/-! SUPPORT. The opcode maps against the encoder (R344 to R346): the bytes of each operand form are read back, opcode first. -/

namespace Sys2Proof

/-- The bytes `bs` begin with an opcode, which the one-byte map reads, with what follows it, as `i`. -/
def Encodes (c : Ctx) (bs : List Byte) (i : Instr) : Prop :=
  ∃ b tl, bs = b :: tl ∧ LeadByte.ofByte b = none ∧ Reads (decodeOne c b) tl i

section
variable {c : Ctx} {b : Byte} {bs tl : List Byte} {i : Instr} {w : Width} {rm : Rm} {m : MemRef} {v : Dword}

theorem Encodes.one (hb : LeadByte.ofByte b = none) (h : Reads (decodeOne c b) tl i) : Encodes c (b :: tl) i :=
  ⟨b, tl, rfl, hb, h⟩

/-- An opcode of the two-byte map. -/
theorem Encodes.two (h : Reads (decodeTwo c b) tl i) : Encodes c (0x0F :: b :: tl) i := .one rfl ((Reads.byte b).bind h)

/-- What an opcode with a register number in its low bits, or a ModR/M byte with one in its middle field, stands for. -/
theorem Reads.withReg (g : Reg → Instr) (r : Reg) : Reads (Pure.pure (g (Reg.ofCode r.code))) [] (g r) := by
  rw [Reg.ofCode_code]
  exact .pure _

/-! ### The w bit (R323) -/

theorem wbit_cases (hc : c.osz ≠ .b8) (h : okW c w = true) : (w = .b8 ∧ wbit w = 0) ∨ (w = c.osz ∧ wbit w = 1) := by
  rcases Bool.or_eq_true_iff.1 h with h | h
  · obtain rfl := eq_of_beq h
    exact .inl ⟨rfl, rfl⟩
  · obtain rfl := eq_of_beq h
    exact .inr ⟨rfl, if_neg hc⟩

/-- An opcode and the one above it, of the byte form and of the operand size in force, which read the same operands. -/
theorem Encodes.byW {op : Byte} (g : Width → Dec Instr) (hc : c.osz ≠ .b8) (hw : okW c w = true)
    (h0 : LeadByte.ofByte (op ||| 0) = none ∧ decodeOne c (op ||| 0) = g .b8)
    (h1 : LeadByte.ofByte (op ||| 1) = none ∧ decodeOne c (op ||| 1) = g c.osz) (h : Reads (g w) bs i) :
    Encodes c ((op ||| wbit w) :: bs) i := by
  obtain ⟨rfl, hb⟩ | ⟨rfl, hb⟩ := wbit_cases hc hw
  · rw [hb]
    exact .one h0.1 (h0.2 ▸ h)
  · rw [hb]
    exact .one h1.1 (h1.2 ▸ h)

/-! ### The two forms of one opcode by operand size (R323) -/

theorem Encodes.size16 {i' : Instr} (hc : (c.osz == .w16) = true) (hb : LeadByte.ofByte b = none)
    (h : decodeOne c b = pure (bySize c i i')) : Encodes c [b] i := by
  have hn : bySize c i i' = i := if_neg (by rw [eq_of_beq hc]; decide)
  refine .one hb ?_
  rw [h, hn]
  exact .pure _

theorem Encodes.size32 {i' : Instr} (hc : (c.osz == .d32) = true) (hb : LeadByte.ofByte b = none)
    (h : decodeOne c b = pure (bySize c i' i)) : Encodes c [b] i := by
  have hp : bySize c i' i = i := if_pos (eq_of_beq hc)
  refine .one hb ?_
  rw [h, hp]
  exact .pure _

/-! ### Arithmetic (R344, R346) -/

/-- An opcode of rows 0 to 3: the operation `op` and the column `k`. -/
def aluByte (op k : BitVec 3) : Byte := (0 : BitVec 2) ++ op ++ k

/-- What an arithmetic opcode reads, by its two column bits above the w bit. -/
def Dec.alu (c : Ctx) (op : BitVec 3) (w : Width) (col : Nat) : Dec Instr :=
  match col with
  | 0 => do let (m, rm) ← Dec.modrm c; pure (aluOf op (.rmReg w rm (Reg.ofCode m.reg)))
  | 1 => do let (m, rm) ← Dec.modrm c; pure (aluOf op (.regRm w (Reg.ofCode m.reg) rm))
  | _ => do pure (aluOf op (.accImm w (← Dec.imm w)))

theorem aluByte_fields : ∀ op k : BitVec 3, k < 6 → LeadByte.ofByte (aluByte op k) = none ∧ aluByte op k < 0x40 ∧
    (aluByte op k).extractLsb' 0 3 = k ∧ (aluByte op k).extractLsb' 3 3 = op ∧
    (aluByte op k).extractLsb' 1 2 = k.extractLsb' 1 2 ∧ (aluByte op k).getLsbD 0 = k.getLsbD 0 := by decide

theorem aluByte_or : ∀ op : BitVec 3, ∀ k ∈ ([0, 2, 4] : List (BitVec 3)), ∀ w ∈ ([0, 1] : List (BitVec 3)),
    aluByte op k ||| w.setWidth 8 = aluByte op (k ||| w) := by decide

theorem decodeOne_aluByte (c : Ctx) (op : BitVec 3) {k : BitVec 3} (hk : k < 6) : LeadByte.ofByte (aluByte op k) = none ∧
    decodeOne c (aluByte op k) =
      Dec.alu c op (if k.getLsbD 0 then c.osz else .b8) (k.extractLsb' 1 2).toNat := by
  obtain ⟨hl, h40, h03, h33, h12, h0⟩ := aluByte_fields op k hk
  refine ⟨hl, ?_⟩
  unfold decodeOne
  rw [if_pos h40, h03, if_pos hk]
  unfold decodeAlu widthOf
  rw [h33, h12, h0]
  rfl

theorem Encodes.alu {op : BitVec 3} {f : AluForm} (hc : c.osz ≠ .b8) (h : okAlu c f = true) :
    Encodes c (encodeAlu op f) (aluOf op f) := by
  have row (col : Nat) (k : BitVec 3) (hm : k ∈ ([0, 2, 4] : List (BitVec 3))) (h0 : k ||| 0 < 6) (h1 : k ||| 1 < 6)
      (b0 : (k ||| 0).getLsbD 0 = false) (b1 : (k ||| 1).getLsbD 0 = true)
      (c0 : ((k ||| 0).extractLsb' 1 2).toNat = col) (c1 : ((k ||| 1).extractLsb' 1 2).toNat = col) {w : Width}
      (hw : okW c w = true) {bs : List Byte} {i : Instr} (hr : Reads (Dec.alu c op w col) bs i) :
      Encodes c ((aluByte op k ||| wbit w) :: bs) i := by
    have e0 := decodeOne_aluByte c op h0
    have e1 := decodeOne_aluByte c op h1
    rw [b0, c0, ← aluByte_or op k hm 0 (by decide)] at e0
    rw [b1, c1, ← aluByte_or op k hm 1 (by decide)] at e1
    exact .byW (Dec.alu c op · col) hc hw e0 e1 hr
  cases f with
  | rmReg w rm r =>
    obtain ⟨hw, hrm⟩ := Bool.and_eq_true_iff.1 h
    exact row 0 0 (by decide) (by decide) (by decide) rfl rfl rfl rfl hw
      (.modrmLast hrm fun _ _ => .withReg (fun r => aluOf op (.rmReg w rm r)) r)
  | regRm w r rm =>
    obtain ⟨hw, hrm⟩ := Bool.and_eq_true_iff.1 h
    exact row 1 2 (by decide) (by decide) (by decide) rfl rfl rfl rfl hw
      (.modrmLast hrm fun _ _ => .withReg (fun r => aluOf op (.regRm w r rm)) r)
  | accImm w v =>
    obtain ⟨hw, hv⟩ := Bool.and_eq_true_iff.1 h
    exact row 2 4 (by decide) (by decide) (by decide) rfl rfl rfl rfl hw ((Reads.imm hv).last (.pure _))
  | rmImm w rm v =>
    obtain ⟨h, hv⟩ := Bool.and_eq_true_iff.1 h
    obtain ⟨hw, hrm⟩ := Bool.and_eq_true_iff.1 h
    exact .byW (fun w => do let (m, rm) ← Dec.modrm c; pure (aluOf m.reg (.rmImm w rm (← Dec.imm w)))) hc hw ⟨rfl, rfl⟩
      ⟨rfl, rfl⟩ (.modrm hrm fun _ _ => (Reads.imm hv).last (.pure _))
  | rmImm8 w rm v =>
    obtain ⟨hw, hrm⟩ := Bool.and_eq_true_iff.1 h
    obtain rfl := eq_of_beq hw
    exact .one rfl (.modrm hrm fun _ _ => (Reads.byte v).last (.pure _))

end

end Sys2Proof
end

section
/-! SUPPORT. The encoder's operand forms, each read back (R344 to R346). -/

namespace Sys2Proof

section
variable {c : Ctx} {i : Instr}

/-! ### Increment, group 3, multiplication, TEST -/

/-- INC and DEC: a register number in the opcode, or a digit of groups 4 and 5. -/
theorem Encodes.incDec {f : IncForm} {digit : BitVec 3} (g : IncForm → Instr) (hc : c.osz ≠ .b8) (h : okInc c f = true)
    (hreg : ∀ r : Reg, Encodes c (encodeInc digit (.reg c.osz r)) (g (.reg c.osz r)))
    (hb : ∀ rm, okRm c rm = true → Reads (decodeGrp4 c) (rm.bytes digit) (g (.rm .b8 rm)))
    (hv : ∀ rm, okRm c rm = true → Reads (decodeGrp5 c) (rm.bytes digit) (g (.rm c.osz rm))) :
    Encodes c (encodeInc digit f) (g f) := by
  cases f with
  | reg w r =>
    obtain rfl := eq_of_beq h
    exact hreg r
  | rm w rm =>
    obtain ⟨hw, hrm⟩ := Bool.and_eq_true_iff.1 h
    obtain ⟨rfl, hbit⟩ | ⟨rfl, hbit⟩ := wbit_cases hc hw
    · exact .one rfl (hb rm hrm)
    · rw [encodeInc, hbit]
      exact .one rfl (hv rm hrm)

theorem Encodes.inc {f : IncForm} (hc : c.osz ≠ .b8) (h : okInc c f = true) : Encodes c (encodeInc 0 f) (.inc f) :=
  .incDec .inc hc h (fun r => by cases r <;> exact .one rfl (.pure _)) (fun _ h => .modrmLast h fun _ _ => .pure _)
    fun _ h => .modrmLast h fun _ _ => .pure _

theorem Encodes.dec {f : IncForm} (hc : c.osz ≠ .b8) (h : okInc c f = true) : Encodes c (encodeInc 1 f) (.dec f) :=
  .incDec .dec hc h (fun r => by cases r <;> exact .one rfl (.pure _)) (fun _ h => .modrmLast h fun _ _ => .pure _)
    fun _ h => .modrmLast h fun _ _ => .pure _

/-- F6 and F7. -/
theorem Encodes.grp3 {w : Width} {bs : List Byte} (hc : c.osz ≠ .b8) (hw : okW c w = true) (h : Reads (decodeGrp3 c w) bs i) :
    Encodes c ((0xF6 ||| wbit w) :: bs) i := .byW (decodeGrp3 c) hc hw ⟨rfl, rfl⟩ ⟨rfl, rfl⟩ h

theorem Encodes.imul {f : ImulForm} (hc : c.osz ≠ .b8) (h : okImul c f = true) : Encodes c (encodeImul f) (.imul f) := by
  cases f with
  | acc w rm =>
    obtain ⟨hw, hrm⟩ := Bool.and_eq_true_iff.1 h
    exact .grp3 hc hw (.modrmLast hrm fun _ _ => .pure _)
  | reg w r rm =>
    obtain ⟨hw, hrm⟩ := Bool.and_eq_true_iff.1 h
    obtain rfl := eq_of_beq hw
    exact .two (.modrmLast hrm fun _ _ => .withReg (fun r => .imul (.reg _ r rm)) r)
  | imm w r rm v =>
    obtain ⟨h, hv⟩ := Bool.and_eq_true_iff.1 h
    obtain ⟨hw, hrm⟩ := Bool.and_eq_true_iff.1 h
    obtain rfl := eq_of_beq hw
    exact .one rfl (.modrm hrm fun _ _ => (Reads.imm hv).last (.withReg (fun r => .imul (.imm _ r rm v)) r))
  | imm8 w r rm v =>
    obtain ⟨hw, hrm⟩ := Bool.and_eq_true_iff.1 h
    obtain rfl := eq_of_beq hw
    exact .one rfl (.modrm hrm fun _ _ => (Reads.byte v).last (.withReg (fun r => .imul (.imm8 _ r rm v)) r))

theorem Encodes.test {f : TestForm} (hc : c.osz ≠ .b8) (h : okTest c f = true) : Encodes c (encodeTest f) (.test f) := by
  cases f with
  | rmReg w rm r =>
    obtain ⟨hw, hrm⟩ := Bool.and_eq_true_iff.1 h
    exact .byW (fun w => do let (m, rm) ← Dec.modrm c; pure (.test (.rmReg w rm (Reg.ofCode m.reg)))) hc hw ⟨rfl, rfl⟩
      ⟨rfl, rfl⟩ (.modrmLast hrm fun _ _ => .withReg (fun r => .test (.rmReg w rm r)) r)
  | accImm w v =>
    obtain ⟨hw, hv⟩ := Bool.and_eq_true_iff.1 h
    exact .byW (fun w => do pure (.test (.accImm w (← Dec.imm w)))) hc hw ⟨rfl, rfl⟩ ⟨rfl, rfl⟩
      ((Reads.imm hv).last (.pure _))
  | rmImm w rm v =>
    obtain ⟨h, hv⟩ := Bool.and_eq_true_iff.1 h
    obtain ⟨hw, hrm⟩ := Bool.and_eq_true_iff.1 h
    exact .grp3 hc hw (.modrm hrm fun _ _ => (Reads.imm hv).last (.pure _))

/-! ### Shifts and bit tests -/

theorem Encodes.shift {f : ShiftForm} {digit : BitVec 3} (hc : c.osz ≠ .b8) (h : okShift c f = true)
    (hd : shiftOf digit f = pure i) : Encodes c (encodeShift digit f) i := by
  have hr : Reads (shiftOf digit f) [] i := hd ▸ .pure i
  cases f with
  | imm w rm n =>
    obtain ⟨hw, hrm⟩ := Bool.and_eq_true_iff.1 h
    exact .byW (fun w => do let (m, rm) ← Dec.modrm c; shiftOf m.reg (.imm w rm (← Dec.byte))) hc hw ⟨rfl, rfl⟩ ⟨rfl, rfl⟩
      (.modrm hrm fun _ _ => (Reads.byte n).last hr)
  | one w rm =>
    obtain ⟨hw, hrm⟩ := Bool.and_eq_true_iff.1 h
    exact .byW (fun w => do let (m, rm) ← Dec.modrm c; shiftOf m.reg (.one w rm)) hc hw ⟨rfl, rfl⟩ ⟨rfl, rfl⟩
      (.modrmLast hrm fun _ _ => hr)
  | cl w rm =>
    obtain ⟨hw, hrm⟩ := Bool.and_eq_true_iff.1 h
    exact .byW (fun w => do let (m, rm) ← Dec.modrm c; shiftOf m.reg (.cl w rm)) hc hw ⟨rfl, rfl⟩ ⟨rfl, rfl⟩
      (.modrmLast hrm fun _ _ => hr)

/-- SHLD and SHRD. -/
theorem Encodes.dshift {f : DShiftForm} {op : Byte} (g : DShiftForm → Instr) (h : okDShift c f = true)
    (h0 : decodeTwo c op = (do let (m, rm) ← Dec.modrm c; pure (g (.imm c.osz rm (Reg.ofCode m.reg) (← Dec.byte)))))
    (h1 : decodeTwo c (op ||| 1) = (do let (m, rm) ← Dec.modrm c; pure (g (.cl c.osz rm (Reg.ofCode m.reg))))) :
    Encodes c (encodeDShift op f) (g f) := by
  cases f with
  | imm w rm r n =>
    obtain ⟨hw, hrm⟩ := Bool.and_eq_true_iff.1 h
    obtain rfl := eq_of_beq hw
    exact .two (h0 ▸ .modrm hrm fun _ _ => (Reads.byte n).last (.withReg (fun r => g (.imm _ rm r n)) r))
  | cl w rm r =>
    obtain ⟨hw, hrm⟩ := Bool.and_eq_true_iff.1 h
    obtain rfl := eq_of_beq hw
    exact .two (h1 ▸ .modrmLast hrm fun _ _ => .withReg (fun r => g (.cl _ rm r)) r)

/-- BT, BTS, BTR, BTC: the second opcode byte of the form with a register. -/
theorem decodeTwo_bt (c : Ctx) (k : BitVec 2) :
    decodeTwo c (0xA3 ||| (k ++ (0 : BitVec 3) : BitVec 5).setWidth 8) =
      (do let (m, rm) ← Dec.modrm c; pure (btOf k (.reg c.osz rm (Reg.ofCode m.reg)))) := by
  have all : ∀ k : BitVec 2, k = 0 ∨ k = 1 ∨ k = 2 ∨ k = 3 := by decide
  obtain rfl | rfl | rfl | rfl := all k
  all_goals rfl

theorem Encodes.bt {f : BtForm} (k : BitVec 2) (h : okBt c f = true) : Encodes c (encodeBt k f) (btOf k f) := by
  cases f with
  | reg w rm r =>
    obtain ⟨hw, hrm⟩ := Bool.and_eq_true_iff.1 h
    obtain rfl := eq_of_beq hw
    refine .two ?_
    rw [decodeTwo_bt]
    exact .modrmLast hrm fun _ _ => .withReg (fun r => btOf k (.reg _ rm r)) r
  | imm w rm n =>
    obtain ⟨hw, hrm⟩ := Bool.and_eq_true_iff.1 h
    obtain rfl := eq_of_beq hw
    obtain ⟨h2, h01⟩ : ((1 : BitVec 1) ++ k).getLsbD 2 = true ∧ ((1 : BitVec 1) ++ k).extractLsb' 0 2 = k :=
      (by decide : ∀ k : BitVec 2, ((1 : BitVec 1) ++ k).getLsbD 2 = true ∧ ((1 : BitVec 1) ++ k).extractLsb' 0 2 = k) k
    refine .two (.modrm hrm fun _ _ => ?_)
    dsimp only
    rw [if_pos h2, h01]
    exact (Reads.byte n).last (.pure _)

/-! ### Data movement -/

theorem Encodes.mov {f : MovForm} (hc : c.osz ≠ .b8) (h : okMov c f = true) : Encodes c (encodeMov f) (.mov f) := by
  cases f with
  | rmReg w rm r =>
    obtain ⟨hw, hrm⟩ := Bool.and_eq_true_iff.1 h
    exact .byW (fun w => do let (m, rm) ← Dec.modrm c; pure (.mov (.rmReg w rm (Reg.ofCode m.reg)))) hc hw ⟨rfl, rfl⟩
      ⟨rfl, rfl⟩ (.modrmLast hrm fun _ _ => .withReg (fun r => .mov (.rmReg w rm r)) r)
  | regRm w r rm =>
    obtain ⟨hw, hrm⟩ := Bool.and_eq_true_iff.1 h
    exact .byW (fun w => do let (m, rm) ← Dec.modrm c; pure (.mov (.regRm w (Reg.ofCode m.reg) rm))) hc hw ⟨rfl, rfl⟩
      ⟨rfl, rfl⟩ (.modrmLast hrm fun _ _ => .withReg (fun r => .mov (.regRm w r rm)) r)
  | accMoffs w m =>
    obtain ⟨hw, hm⟩ := Bool.and_eq_true_iff.1 h
    exact .byW (fun w => do pure (.mov (.accMoffs w (← Dec.moffs c)))) hc hw ⟨rfl, rfl⟩ ⟨rfl, rfl⟩
      ((Reads.moffs hm).last (.pure _))
  | moffsAcc w m =>
    obtain ⟨hw, hm⟩ := Bool.and_eq_true_iff.1 h
    exact .byW (fun w => do pure (.mov (.moffsAcc w (← Dec.moffs c)))) hc hw ⟨rfl, rfl⟩ ⟨rfl, rfl⟩
      ((Reads.moffs hm).last (.pure _))
  | regImm w r v =>
    obtain ⟨hw, hv⟩ := Bool.and_eq_true_iff.1 h
    rcases Bool.or_eq_true_iff.1 hw with hw | hw
    · obtain rfl := eq_of_beq hw
      cases r <;> exact .one rfl ((Reads.imm hv).last (.pure _))
    · obtain rfl := eq_of_beq hw
      rw [encodeMov, if_neg hc]
      cases r <;> exact .one rfl ((Reads.imm hv).last (.pure _))
  | rmImm w rm v =>
    obtain ⟨h, hv⟩ := Bool.and_eq_true_iff.1 h
    obtain ⟨hw, hrm⟩ := Bool.and_eq_true_iff.1 h
    exact .byW (fun w => do
        let (m, rm) ← Dec.modrm c
        let v ← Dec.imm w
        if m.reg = 0 then pure (.mov (.rmImm w rm v)) else throw .undefinedGroup) hc hw ⟨rfl, rfl⟩ ⟨rfl, rfl⟩
      (.modrm hrm fun _ _ => (Reads.imm hv).last (.pure _))

theorem Encodes.xchg {f : XchgForm} (hc : c.osz ≠ .b8) (h : okXchg c f = true) : Encodes c (encodeXchg f) (.xchg f) := by
  cases f with
  | rmReg w rm r =>
    obtain ⟨hw, hrm⟩ := Bool.and_eq_true_iff.1 h
    exact .byW (fun w => do let (m, rm) ← Dec.modrm c; pure (.xchg (.rmReg w rm (Reg.ofCode m.reg)))) hc hw ⟨rfl, rfl⟩
      ⟨rfl, rfl⟩ (.modrmLast hrm fun _ _ => .withReg (fun r => .xchg (.rmReg w rm r)) r)
  | acc w r =>
    obtain ⟨hw, hr⟩ := Bool.and_eq_true_iff.1 h
    obtain rfl := eq_of_beq hw
    cases r with
    | eax => cases hr
    | ecx | edx | ebx | esp | ebp | esi | edi => exact .one rfl (.pure _)

theorem Encodes.push {f : PushForm} (h : okPush c f = true) : Encodes c (encodePush f) (.push f) := by
  cases f with
  | sreg w sr =>
    obtain rfl := eq_of_beq h
    cases sr with
    | es | cs | ss | ds => exact .one rfl (.pure _)
    | fs | gs => exact .two (.pure _)
  | reg w r =>
    obtain rfl := eq_of_beq h
    cases r <;> exact .one rfl (.pure _)
  | imm w v =>
    obtain ⟨hw, hv⟩ := Bool.and_eq_true_iff.1 h
    obtain rfl := eq_of_beq hw
    exact .one rfl ((Reads.imm hv).last (.pure _))
  | imm8 w v =>
    obtain rfl := eq_of_beq h
    exact .one rfl ((Reads.byte v).last (.pure _))
  | rm w rm =>
    obtain ⟨hw, hrm⟩ := Bool.and_eq_true_iff.1 h
    obtain rfl := eq_of_beq hw
    exact .one rfl (.modrmLast hrm fun _ _ => .pure _)

theorem Encodes.pop {f : PopForm} (h : okPop c f = true) : Encodes c (encodePop f) (.pop f) := by
  cases f with
  | sreg w sr =>
    obtain ⟨hw, hsr⟩ := Bool.and_eq_true_iff.1 h
    obtain rfl := eq_of_beq hw
    cases sr with
    | es | ss | ds => exact .one rfl (.pure _)
    | fs | gs => exact .two (.pure _)
    | cs => cases hsr
  | reg w r =>
    obtain rfl := eq_of_beq h
    cases r <;> exact .one rfl (.pure _)
  | rm w rm =>
    obtain ⟨hw, hrm⟩ := Bool.and_eq_true_iff.1 h
    obtain rfl := eq_of_beq hw
    exact .one rfl (.modrmLast hrm fun _ _ => .pure _)

/-- A load of a full pointer, LEA and BOUND: a register and a memory operand. -/
theorem Reads.regMem {m : MemRef} {r : Reg} (g : Width → Reg → MemRef → Instr) (h : okMem c m = true) :
    Reads (do let (x, a) ← Dec.modmem c; Pure.pure (g c.osz (Reg.ofCode x.reg) a)) (m.addr.bytes r.code) (g c.osz r m) :=
  .modmem h fun _ _ => .withReg (fun r => g c.osz r m) r

/-- A register and an r/m operand. -/
theorem Reads.regRm {rm : Rm} {r : Reg} (g : Reg → Rm → Instr) (h : okRm c rm = true) :
    Reads (do let (x, rm) ← Dec.modrm c; Pure.pure (g (Reg.ofCode x.reg) rm)) (rm.bytes r.code) (g r rm) :=
  .modrmLast h fun _ _ => .withReg (fun r => g r rm) r

/-! ### Transfers and ports -/

/-- The short form of a conditional jump. -/
theorem decodeOne_jcc (c : Ctx) (cc : BitVec 4) : LeadByte.ofByte ((7 : BitVec 4) ++ cc) = none ∧
    decodeOne c ((7 : BitVec 4) ++ cc) = (do pure (jccOf cc (.rel8 c.osz (← Dec.byte)))) := by
  have row : ∀ cc : BitVec 4, LeadByte.ofByte ((7 : BitVec 4) ++ cc) = none ∧
      ¬ ((7 : BitVec 4) ++ cc : Byte) < 0x40 ∧ ¬ ((7 : BitVec 4) ++ cc : Byte) < 0x48 ∧
      ¬ ((7 : BitVec 4) ++ cc : Byte) < 0x50 ∧ ¬ ((7 : BitVec 4) ++ cc : Byte) < 0x58 ∧
      ¬ ((7 : BitVec 4) ++ cc : Byte) < 0x60 ∧ ¬ ((7 : BitVec 4) ++ cc : Byte) < 0x70 ∧
      ((7 : BitVec 4) ++ cc : Byte) < 0x80 := by decide
  obtain ⟨hl, h40, h48, h50, h58, h60, h70, h80⟩ := row cc
  refine ⟨hl, ?_⟩
  unfold decodeOne
  rw [if_neg h40, if_neg h48, if_neg h50, if_neg h58, if_neg h60, if_neg h70, if_pos h80,
    BitVec.extractLsb'_append_eq_right]

/-- The form of a conditional jump with a displacement of the operand size. -/
theorem decodeTwo_jcc (c : Ctx) (cc : BitVec 4) :
    decodeTwo c ((8 : BitVec 4) ++ cc) = (do pure (jccOf cc (.rel c.osz (← Dec.imm c.osz)))) := by
  have row : ∀ cc : BitVec 4, ¬ ((8 : BitVec 4) ++ cc : Byte) < 0x80 ∧ ((8 : BitVec 4) ++ cc : Byte) < 0x90 := by decide
  obtain ⟨h8, h9⟩ := row cc
  unfold decodeTwo
  rw [if_neg h8, if_pos h9, BitVec.extractLsb'_append_eq_right]

theorem Encodes.jcc {t : RelForm} (cc : BitVec 4) (h : okRel c t = true) : Encodes c (encodeJcc cc t) (jccOf cc t) := by
  cases t with
  | rel8 w x =>
    obtain rfl := eq_of_beq h
    obtain ⟨hl, hd⟩ := decodeOne_jcc c cc
    refine .one hl ?_
    rw [hd]
    exact (Reads.byte x).last (.pure _)
  | rel w v =>
    obtain ⟨hw, hv⟩ := Bool.and_eq_true_iff.1 h
    obtain rfl := eq_of_beq hw
    refine .two ?_
    rw [decodeTwo_jcc]
    exact (Reads.imm hv).last (.pure _)

theorem Encodes.setcc {rm : Rm} (cc : BitVec 4) (h : okRm c rm = true) : Encodes c (encodeSetcc cc rm) (setccOf cc rm) := by
  refine .two ?_
  rw [decodeTwo_setcc]
  exact .modrmLast h fun _ _ => .pure _

theorem Encodes.jmp {t : NearForm} (h : okNearJmp c t = true) : Encodes c (encodeJmp t) (.jmp t) := by
  cases t with
  | rel8 w x =>
    obtain rfl := eq_of_beq h
    exact .one rfl ((Reads.byte x).last (.pure _))
  | rel w v =>
    obtain ⟨hw, hv⟩ := Bool.and_eq_true_iff.1 h
    obtain rfl := eq_of_beq hw
    exact .one rfl ((Reads.imm hv).last (.pure _))
  | rm w rm =>
    obtain ⟨hw, hrm⟩ := Bool.and_eq_true_iff.1 h
    obtain rfl := eq_of_beq hw
    exact .one rfl (.modrmLast hrm fun _ _ => .pure _)

theorem Encodes.call {t : NearForm} (h : okNearCall c t = true) : Encodes c (encodeCall t) (.call t) := by
  cases t with
  | rel8 w x => cases h
  | rel w v =>
    obtain ⟨hw, hv⟩ := Bool.and_eq_true_iff.1 h
    obtain rfl := eq_of_beq hw
    exact .one rfl ((Reads.imm hv).last (.pure _))
  | rm w rm =>
    obtain ⟨hw, hrm⟩ := Bool.and_eq_true_iff.1 h
    obtain rfl := eq_of_beq hw
    exact .one rfl (.modrmLast hrm fun _ _ => .pure _)

/-- Far JMP and CALL: a pointer after the opcode, or one in memory under a digit of group 5. -/
theorem Encodes.far {t : FarForm} {op : Byte} {digit : BitVec 3} (g : FarForm → Instr) (h : okFar c t = true)
    (hb : LeadByte.ofByte op = none)
    (hp : decodeOne c op = (do let off ← Dec.imm c.osz; pure (g (.ptr c.osz (← Dec.word) off))))
    (hd : ∀ m, okMem c m = true → Reads (decodeGrp5 c) (Rm.bytes digit (.mem m)) (g (.mem c.osz m))) :
    Encodes c (encodeFar op digit t) (g t) := by
  cases t with
  | ptr w sel v =>
    obtain ⟨hw, hv⟩ := Bool.and_eq_true_iff.1 h
    obtain rfl := eq_of_beq hw
    exact .one hb (hp ▸ (Reads.imm hv).bind ((Reads.word sel).last (.pure _)))
  | mem w m =>
    obtain ⟨hw, hm⟩ := Bool.and_eq_true_iff.1 h
    obtain rfl := eq_of_beq hw
    exact .one rfl (hd m hm)

/-- Near and far RET. -/
theorem Encodes.rets {w : Width} {op : Byte} (g : Width → Option Word → Instr) (n : Option Word) (h : okV c w = true)
    (h0 : LeadByte.ofByte op = none ∧ decodeOne c op = (do pure (g c.osz (some (← Dec.word)))))
    (h1 : LeadByte.ofByte (op ||| 1) = none ∧ decodeOne c (op ||| 1) = pure (g c.osz none)) :
    Encodes c (encodeRet op n) (g w n) := by
  obtain rfl := eq_of_beq h
  cases n with
  | none => exact .one h1.1 (h1.2 ▸ .pure _)
  | some n => exact .one h0.1 (h0.2 ▸ (Reads.word n).last (.pure _))

theorem Encodes.inp {f : IoForm} (hc : c.osz ≠ .b8) (h : okIo c f = true) : Encodes c (encodeIo 0xE4 f) (.inp f) := by
  cases f with
  | imm w p =>
    exact .byW (fun w => do pure (.inp (.imm w (← Dec.byte)))) hc h ⟨rfl, rfl⟩ ⟨rfl, rfl⟩ ((Reads.byte p).last (.pure _))
  | dx w => exact .byW (fun w => pure (.inp (.dx w))) hc h ⟨rfl, rfl⟩ ⟨rfl, rfl⟩ (.pure _)

theorem Encodes.out {f : IoForm} (hc : c.osz ≠ .b8) (h : okIo c f = true) : Encodes c (encodeIo 0xE6 f) (.out f) := by
  cases f with
  | imm w p =>
    exact .byW (fun w => do pure (.out (.imm w (← Dec.byte)))) hc h ⟨rfl, rfl⟩ ⟨rfl, rfl⟩ ((Reads.byte p).last (.pure _))
  | dx w => exact .byW (fun w => pure (.out (.dx w))) hc h ⟨rfl, rfl⟩ ⟨rfl, rfl⟩ (.pure _)

/-! ### ESC, moves of special registers, undefined opcodes -/

theorem decodeOne_esc (c : Ctx) (op : BitVec 3) : LeadByte.ofByte ((0b11011 : BitVec 5) ++ op) = none ∧
    decodeOne c ((0b11011 : BitVec 5) ++ op) =
      (do let (m, rm) ← Dec.modrm c; pure (.esc c.osz c.asz op m.reg rm)) := by
  have all : ∀ op : BitVec 3, op = 0 ∨ op = 1 ∨ op = 2 ∨ op = 3 ∨ op = 4 ∨ op = 5 ∨ op = 6 ∨ op = 7 := by decide
  obtain rfl | rfl | rfl | rfl | rfl | rfl | rfl | rfl := all op
  all_goals exact ⟨rfl, rfl⟩

theorem Encodes.esc {w a : Width} {rm : Rm} (op reg : BitVec 3) (h : (okV c w && a == c.asz && okRm c rm) = true) :
    Encodes c (((0b11011 : BitVec 5) ++ op) :: rm.bytes reg) (.esc w a op reg rm) := by
  obtain ⟨h, hrm⟩ := Bool.and_eq_true_iff.1 h
  obtain ⟨hw, ha⟩ := Bool.and_eq_true_iff.1 h
  obtain rfl := eq_of_beq hw
  obtain rfl := eq_of_beq ha
  obtain ⟨hl, hd⟩ := decodeOne_esc c op
  refine .one hl ?_
  rw [hd]
  exact .modrmLast hrm fun _ _ => .pure _

/-- A MOV to or from a special register. -/
theorem Encodes.movSpecial {op : Byte} {n : BitVec 3} {r : Reg} (g : BitVec 3 → Reg → Instr)
    (h : decodeTwo c op = (do let m := ModRm.ofByte (← Dec.byte); pure (g m.reg (Reg.ofCode m.rm)))) :
    Encodes c (encodeMovSpecial op n r) (g n r) := by
  refine .two ?_
  rw [h]
  refine (Reads.byte (modrmByte 3 n r.code)).last ?_
  dsimp only
  rw [ModRm.ofByte_modrmByte]
  exact .withReg (g n) r

end

end Sys2Proof
end

section
/-! O59: decoding gives every well-formed instruction back (R320 to R346). -/

namespace Sys2Proof

/-! ### Shapes that several opcodes share -/

section
variable {c : Ctx} {i : Instr} {b : Byte} {w : Width} {r : Reg} {rm : Rm} {m : MemRef}

/-- A digit of group 3 without an immediate. -/
theorem Encodes.grp3Rm {digit : BitVec 3} (hc : c.osz ≠ .b8) (h : (okW c w && okRm c rm) = true)
    (hr : okRm c rm = true → Reads (decodeGrp3 c w) (rm.bytes digit) i) : Encodes c (encodeGrp3 digit w rm) i := by
  obtain ⟨hw, hrm⟩ := Bool.and_eq_true_iff.1 h
  exact .grp3 hc hw (hr hrm)

/-- A register and an r/m operand of the operand size, in the two-byte map. -/
theorem Encodes.twoRegRm (g : Width → Reg → Rm → Instr) (h : (okV c w && okRm c rm) = true)
    (hd : decodeTwo c b = (do let (x, rm) ← Dec.modrm c; pure (g c.osz (Reg.ofCode x.reg) rm))) :
    Encodes c (0x0F :: b :: rm.bytes r.code) (g w r rm) := by
  obtain ⟨hw, hrm⟩ := Bool.and_eq_true_iff.1 h
  obtain rfl := eq_of_beq hw
  exact .two (hd ▸ .regRm (g c.osz) hrm)

/-- A register and a memory operand. -/
theorem Encodes.oneRegMem (g : Width → Reg → MemRef → Instr) (h : (okV c w && okMem c m) = true)
    (hb : LeadByte.ofByte b = none)
    (hd : decodeOne c b = (do let (x, a) ← Dec.modmem c; pure (g c.osz (Reg.ofCode x.reg) a))) :
    Encodes c (b :: m.addr.bytes r.code) (g w r m) := by
  obtain ⟨hw, hm⟩ := Bool.and_eq_true_iff.1 h
  obtain rfl := eq_of_beq hw
  exact .one hb (hd ▸ .regMem g hm)

/-- A register and a memory operand, in the two-byte map. -/
theorem Encodes.twoRegMem (g : Width → Reg → MemRef → Instr) (h : (okV c w && okMem c m) = true)
    (hd : decodeTwo c b = (do let (x, a) ← Dec.modmem c; pure (g c.osz (Reg.ofCode x.reg) a))) :
    Encodes c (0x0F :: b :: m.addr.bytes r.code) (g w r m) := by
  obtain ⟨hw, hm⟩ := Bool.and_eq_true_iff.1 h
  obtain rfl := eq_of_beq hw
  exact .two (hd ▸ .regMem g hm)

/-- The descriptor table registers: memory operands of group 7. -/
theorem Encodes.tableReg {digit : BitVec 3} (g : Width → MemRef → Instr) (h : (okV c w && okMem c m) = true)
    (hd : ∀ m : MemRef, okMem c m = true → Reads (decodeGrp7 c) (Rm.bytes digit (.mem m)) (g c.osz m)) :
    Encodes c (0x0F :: 0x01 :: m.addr.bytes digit) (g w m) := by
  obtain ⟨hw, hm⟩ := Bool.and_eq_true_iff.1 h
  obtain rfl := eq_of_beq hw
  exact .two (hd m hm)

/-- MOVSX and MOVZX: the w bit says the source's width. -/
theorem Encodes.extend {src : Width} {op : Byte} (g : Width → Reg → Width → Rm → Instr)
    (h : (okV c w && src != .d32 && okRm c rm) = true)
    (h0 : decodeTwo c (op ||| 0) = (do let (x, rm) ← Dec.modrm c; pure (g c.osz (Reg.ofCode x.reg) .b8 rm)))
    (h1 : decodeTwo c (op ||| 1) = (do let (x, rm) ← Dec.modrm c; pure (g c.osz (Reg.ofCode x.reg) .w16 rm))) :
    Encodes c (0x0F :: (op ||| wbit src) :: rm.bytes r.code) (g w r src rm) := by
  obtain ⟨h, hrm⟩ := Bool.and_eq_true_iff.1 h
  obtain ⟨hw, hsrc⟩ := Bool.and_eq_true_iff.1 h
  obtain rfl := eq_of_beq hw
  cases src with
  | b8 => exact .two (h0 ▸ .regRm (fun r rm => g c.osz r .b8 rm) hrm)
  | w16 => exact .two (h1 ▸ .regRm (fun r rm => g c.osz r .w16 rm) hrm)
  | d32 => cases hsrc

theorem okStr_eq {a : StrAttr} (h : okStr c a = true) : a = strAttr c := by
  obtain ⟨h, hr⟩ := Bool.and_eq_true_iff.1 h
  obtain ⟨ha, hs⟩ := Bool.and_eq_true_iff.1 h
  obtain ⟨asz, seg, kind⟩ := a
  obtain rfl : asz = c.asz := eq_of_beq ha
  obtain rfl : seg = c.seg := eq_of_beq hs
  obtain rfl : kind = c.rep := eq_of_beq hr
  rfl

/-- A string instruction on bytes. -/
theorem Encodes.str {a : StrAttr} (g : StrAttr → Instr) (h : okStr c a = true) (hb : LeadByte.ofByte b = none)
    (hd : decodeOne c b = pure (g (strAttr c))) : Encodes c [b] (g a) := by
  obtain rfl := okStr_eq h
  exact .one hb (hd ▸ .pure _)

/-- A string instruction on words. -/
theorem Encodes.str16 {a : StrAttr} (g g' : StrAttr → Instr) (h : (okStr c a && c.osz == .w16) = true)
    (hb : LeadByte.ofByte b = none) (hd : decodeOne c b = pure (bySize c (g (strAttr c)) (g' (strAttr c)))) :
    Encodes c [b] (g a) := by
  obtain ⟨ha, hz⟩ := Bool.and_eq_true_iff.1 h
  obtain rfl := okStr_eq ha
  exact .size16 hz hb hd

/-- A string instruction on doublewords. -/
theorem Encodes.str32 {a : StrAttr} (g g' : StrAttr → Instr) (h : (okStr c a && c.osz == .d32) = true)
    (hb : LeadByte.ofByte b = none) (hd : decodeOne c b = pure (bySize c (g' (strAttr c)) (g (strAttr c)))) :
    Encodes c [b] (g a) := by
  obtain ⟨ha, hz⟩ := Bool.and_eq_true_iff.1 h
  obtain rfl := okStr_eq ha
  exact .size32 hz hb hd

/-- LOOP and JCXZ: both sizes in force and a byte. -/
theorem Encodes.loops {a : Width} {x : Byte} (g : Width → Width → Byte → Instr) (h : (okV c w && a == c.asz) = true)
    (hb : LeadByte.ofByte b = none) (hd : decodeOne c b = (do pure (g c.osz c.asz (← Dec.byte)))) :
    Encodes c [b, x] (g w a x) := by
  obtain ⟨hw, ha⟩ := Bool.and_eq_true_iff.1 h
  obtain rfl := eq_of_beq hw
  obtain rfl := eq_of_beq ha
  exact .one hb (hd ▸ (Reads.byte x).last (.pure _))

end

/-! ### Every instruction -/

theorem sizeOf_ne_b8 (d flip : Bool) : sizeOf d flip ≠ .b8 := by
  cases d <;> cases flip <;> decide

/-- An instruction without lead bytes. -/
theorem Instr.encodes {d : Bool} {l : Lead} {i : Instr} (h0 : Laws.leadBytes i = 0) (h : wfUnder d l i = true) :
    Encodes (l.ctx d) (encode i) i := by
  have hc : (l.ctx d).osz ≠ .b8 := sizeOf_ne_b8 d l.o66
  cases i with
  | add f | or f | adc f | sbb f | and f | sub f | xor f | cmp f => exact .alu hc h
  | inc f => exact .inc hc h
  | dec f => exact .dec hc h
  | not w rm | neg w rm | mul w rm | div w rm | idiv w rm =>
    exact .grp3Rm hc h fun hrm => .modrmLast hrm fun _ _ => .pure _
  | imul f => exact .imul hc h
  | daa | das | aaa | aas => exact .one rfl (.pure _)
  | aam x | aad x => exact .one rfl ((Reads.byte x).last (.pure _))
  | test f => exact .test hc h
  | rol f | ror f | rcl f | rcr f | shl f | shr f | sar f => exact .shift hc h rfl
  | shld f => exact .dshift .shld h rfl rfl
  | shrd f => exact .dshift .shrd h rfl rfl
  | bt f => exact .bt 0 h
  | bts f => exact .bt 1 h
  | btr f => exact .bt 2 h
  | btc f => exact .bt 3 h
  | bsf w r rm => exact .twoRegRm .bsf h rfl
  | bsr w r rm => exact .twoRegRm .bsr h rfl
  | seto rm => exact .setcc 0 h
  | setno rm => exact .setcc 1 h
  | setb rm => exact .setcc 2 h
  | setae rm => exact .setcc 3 h
  | sete rm => exact .setcc 4 h
  | setne rm => exact .setcc 5 h
  | setbe rm => exact .setcc 6 h
  | seta rm => exact .setcc 7 h
  | sets rm => exact .setcc 8 h
  | setns rm => exact .setcc 9 h
  | setp rm => exact .setcc 10 h
  | setnp rm => exact .setcc 11 h
  | setl rm => exact .setcc 12 h
  | setge rm => exact .setcc 13 h
  | setle rm => exact .setcc 14 h
  | setg rm => exact .setcc 15 h
  | mov f => exact .mov hc h
  | movFromSreg rm sr => exact .one rfl (.modrmLast h fun _ _ => (Reads.sreg sr).last (.pure _))
  | movToSreg sr rm =>
    obtain ⟨hsr, hrm⟩ := Bool.and_eq_true_iff.1 h
    refine .one rfl (.modrmLast hrm fun _ _ => (Reads.sreg sr).last ?_)
    rw [if_neg (bne_iff_ne.1 hsr)]
    exact .pure _
  | movFromCr n r => exact .movSpecial .movFromCr rfl
  | movToCr n r => exact .movSpecial .movToCr rfl
  | movFromDr n r => exact .movSpecial .movFromDr rfl
  | movToDr n r => exact .movSpecial .movToDr rfl
  | movFromTr n r => exact .movSpecial .movFromTr rfl
  | movToTr n r => exact .movSpecial .movToTr rfl
  | xchg f => exact .xchg hc h
  | push f => exact .push h
  | pop f => exact .pop h
  | pusha | popa | cbw | cwd | popf | pushf | iret => exact .size16 h rfl rfl
  | pushad | popad | cwde | cdq | popfd | pushfd | iretd => exact .size32 h rfl rfl
  | movsx w r src rm => exact .extend .movsx h rfl rfl
  | movzx w r src rm => exact .extend .movzx h rfl rfl
  | lea w r m => exact .oneRegMem .lea h rfl rfl
  | les w r m => exact .oneRegMem .les h rfl rfl
  | lds w r m => exact .oneRegMem .lds h rfl rfl
  | lss w r m => exact .twoRegMem .lss h rfl
  | lfs w r m => exact .twoRegMem .lfs h rfl
  | lgs w r m => exact .twoRegMem .lgs h rfl
  | bound w r m => exact .oneRegMem .bound h rfl rfl
  | xlat a => exact .str .xlat h rfl rfl
  | jo t => exact .jcc 0 h
  | jno t => exact .jcc 1 h
  | jb t => exact .jcc 2 h
  | jae t => exact .jcc 3 h
  | je t => exact .jcc 4 h
  | jne t => exact .jcc 5 h
  | jbe t => exact .jcc 6 h
  | ja t => exact .jcc 7 h
  | js t => exact .jcc 8 h
  | jns t => exact .jcc 9 h
  | jp t => exact .jcc 10 h
  | jnp t => exact .jcc 11 h
  | jl t => exact .jcc 12 h
  | jge t => exact .jcc 13 h
  | jle t => exact .jcc 14 h
  | jg t => exact .jcc 15 h
  | jcxz w a x => exact .loops .jcxz h rfl rfl
  | loop w a x => exact .loops .loop h rfl rfl
  | loope w a x => exact .loops .loope h rfl rfl
  | loopne w a x => exact .loops .loopne h rfl rfl
  | jmp t => exact .jmp h
  | call t => exact .call h
  | jmpFar t => exact .far .jmpFar h rfl rfl fun m hm => .modrmLast (rm := .mem m) hm fun _ _ => .pure _
  | callFar t => exact .far .callFar h rfl rfl fun m hm => .modrmLast (rm := .mem m) hm fun _ _ => .pure _
  | ret w n => exact .rets .ret n h ⟨rfl, rfl⟩ ⟨rfl, rfl⟩
  | retFar w n => exact .rets .retFar n h ⟨rfl, rfl⟩ ⟨rfl, rfl⟩
  | enter w n x =>
    obtain rfl := eq_of_beq h
    exact .one rfl ((Reads.word n).bind ((Reads.byte x).last (.pure _)))
  | leave w =>
    obtain rfl := eq_of_beq h
    exact .one rfl (.pure _)
  | intN n => exact .one rfl ((Reads.byte n).last (.pure _))
  | int3 | into => exact .one rfl (.pure _)
  | movsb a => exact .str .movsb h rfl rfl
  | movsw a => exact .str16 .movsw .movsd h rfl rfl
  | movsd a => exact .str32 .movsd .movsw h rfl rfl
  | cmpsb a => exact .str .cmpsb h rfl rfl
  | cmpsw a => exact .str16 .cmpsw .cmpsd h rfl rfl
  | cmpsd a => exact .str32 .cmpsd .cmpsw h rfl rfl
  | stosb a => exact .str .stosb h rfl rfl
  | stosw a => exact .str16 .stosw .stosd h rfl rfl
  | stosd a => exact .str32 .stosd .stosw h rfl rfl
  | lodsb a => exact .str .lodsb h rfl rfl
  | lodsw a => exact .str16 .lodsw .lodsd h rfl rfl
  | lodsd a => exact .str32 .lodsd .lodsw h rfl rfl
  | scasb a => exact .str .scasb h rfl rfl
  | scasw a => exact .str16 .scasw .scasd h rfl rfl
  | scasd a => exact .str32 .scasd .scasw h rfl rfl
  | insb a => exact .str .insb h rfl rfl
  | insw a => exact .str16 .insw .insd h rfl rfl
  | insd a => exact .str32 .insd .insw h rfl rfl
  | outsb a => exact .str .outsb h rfl rfl
  | outsw a => exact .str16 .outsw .outsd h rfl rfl
  | outsd a => exact .str32 .outsd .outsw h rfl rfl
  | inp f => exact .inp hc h
  | out f => exact .out hc h
  | stc | clc | cmc | std | cld | cli | sti | lahf | sahf | nop | hlt | wait => exact .one rfl (.pure _)
  | clts => exact .two (.pure _)
  | esc w a op reg rm => exact .esc op reg h
  | lgdt w m => exact .tableReg .lgdt h fun _ hm => .modrmLast hm fun _ _ => .pure _
  | lidt w m => exact .tableReg .lidt h fun _ hm => .modrmLast hm fun _ _ => .pure _
  | sgdt w m => exact .tableReg .sgdt h fun _ hm => .modrmLast hm fun _ _ => .pure _
  | sidt w m => exact .tableReg .sidt h fun _ hm => .modrmLast hm fun _ _ => .pure _
  | lldt rm | sldt rm | ltr rm | str rm | lmsw rm | smsw rm | verr rm | verw rm =>
    exact .two (.modrmLast h fun _ _ => .pure _)
  | lar w r rm => exact .twoRegRm .lar h rfl
  | lsl w r rm => exact .twoRegRm .lsl h rfl
  | arpl rm r => exact .one rfl (.regRm (fun r rm => .arpl rm r) h)
  | undef u => cases u <;> exact .one rfl (.pure _)
  | rep i | repne i | lock i | segES i | segCS i | segSS i | segDS i | segFS i | segGS i | opsize i | addrsize i => cases h0

/-! ### Lead bytes, and the whole -/

theorem decodeFrom_lead {d : Bool} {l : Lead} {b : Byte} {k : LeadByte} {bs rest : List Byte} {i : Instr}
    (hk : LeadByte.ofByte b = some k) (h : decodeFrom d (k.apply l) bs = .ok (i, rest)) :
    decodeFrom d l (b :: bs) = .ok (k.wrap i, rest) := by
  simp only [decodeFrom, hk, h]

theorem Encodes.decodeFrom {d : Bool} {l : Lead} {bs : List Byte} {i : Instr} (h : Encodes (l.ctx d) bs i)
    (rest : List Byte) : decodeFrom d l (bs ++ rest) = .ok (i, rest) := by
  obtain ⟨b, tl, rfl, hb, hr⟩ := h
  rw [List.cons_append, Sys2Proof.decodeFrom, hb]
  exact hr rest

/-- After any lead bytes, the bytes of an instruction that is well-formed after them give it back. -/
theorem decodeFrom_encode {d : Bool} {i : Instr} (rest : List Byte) : ∀ {l : Lead}, wfUnder d l i = true →
    decodeFrom d l (encode i ++ rest) = .ok (i, rest) := by
  induction i with
  | rep i ih => exact fun h => decodeFrom_lead (k := .rep) rfl (ih h)
  | repne i ih => exact fun h => decodeFrom_lead (k := .repne) rfl (ih h)
  | lock i ih => exact fun h => decodeFrom_lead (k := .lock) rfl (ih h)
  | segES i ih => exact fun h => decodeFrom_lead (k := .es) rfl (ih h)
  | segCS i ih => exact fun h => decodeFrom_lead (k := .cs) rfl (ih h)
  | segSS i ih => exact fun h => decodeFrom_lead (k := .ss) rfl (ih h)
  | segDS i ih => exact fun h => decodeFrom_lead (k := .ds) rfl (ih h)
  | segFS i ih => exact fun h => decodeFrom_lead (k := .fs) rfl (ih h)
  | segGS i ih => exact fun h => decodeFrom_lead (k := .gs) rfl (ih h)
  | opsize i ih => exact fun h => decodeFrom_lead (k := .opsize) rfl (ih h)
  | addrsize i ih => exact fun h => decodeFrom_lead (k := .addrsize) rfl (ih h)
  | _ => exact fun h => (Instr.encodes rfl h).decodeFrom rest

/-- Settles O59: the first 15 bytes hold the whole encoding, which is read back with what follows left over. -/
theorem decodeEncode : Obligations.DecodeEncode := by
  unfold Obligations.DecodeEncode
  intro d i rest hwf hlen
  have hwin : (encode i ++ rest).take maxInstrBytes = encode i ++ rest.take (maxInstrBytes - (encode i).length) := by
    rw [List.take_append, List.take_of_length_le hlen]
  have hdec : decodeFrom d Lead.start ((encode i ++ rest).take maxInstrBytes) =
      .ok (i, rest.take (maxInstrBytes - (encode i).length)) := by
    rw [hwin]
    exact decodeFrom_encode _ hwf
  rw [decode_ok hdec, hwin, List.length_append, Nat.add_sub_cancel_right]

end Sys2Proof
end
